-- ==== Sys2Proof/Word.lean ====
section
/-! DEFINITION. The word types of the cpuex2-sim CORE (00_scope.md R5, R7): 32-bit patterns, bytes, 5-bit register
indices, and the immediate fields in their native widths (30_encoding.md R139). -/

namespace Sys2Proof

/-- A 32-bit pattern: a register value, an address, an instruction word (00_scope.md R5, R7). -/
abbrev Word := BitVec 32

/-- One byte of memory (00_scope.md R5). -/
abbrev Byte := BitVec 8

/-- A register index, "addressed by 5-bit index" (10_state.md R20, R22). -/
abbrev RegIdx := BitVec 5

/-- A 12-bit immediate field as the decoder returns it, not extended (30_encoding.md R139). -/
abbrev Imm12 := BitVec 12

/-- A 20-bit immediate field as the decoder returns it, not extended (30_encoding.md R139). -/
abbrev Imm20 := BitVec 20

end Sys2Proof
end

