-- ==== Sys2Proof/Config.lean ====
section
/-! DEFINITION. What a construction of the hardware fixes (00_scope.md R6, 10_state.md R45): the seven size parameters,
which the model takes as an argument and carries in the state, and the fixed liveness threshold. -/

namespace Sys2Proof

/-- `LIVENESS_N`, fixed by 00_scope.md R6 ("five ticks running"). -/
def Config.livenessN : Nat := 5

/-- The three parameters of one cache, in bytes, ways and bytes (21_cache.md R90). -/
structure Geometry where
  capacity : Nat
  ways     : Nat
  line     : Nat
deriving DecidableEq, Repr

/-- `SETS = CAPACITY / (LINE x WAYS)` (21_cache.md R90). -/
def Geometry.sets (g : Geometry) : Nat := g.capacity / (g.line * g.ways)

/-- The seven named parameters of 00_scope.md R6. -/
structure Params where
  memSize : Nat
  dc      : Geometry
  ic      : Geometry
deriving DecidableEq, Repr

/-- The reference instance of 00_scope.md R6: MEM_SIZE = 65536, data cache 1024/4/16, instruction cache 512/2/16.
DESIGN CHOICE (log 2): the spec leaves the seven values open; only `State.reset` uses this instance. -/
def Params.reference : Params :=
  { memSize := 65536
    dc := { capacity := 1024, ways := 4, line := 16 }
    ic := { capacity := 512, ways := 2, line := 16 } }

end Sys2Proof
end

