-- ==== Sys2Proof/Syntax.lean ====
section
/-! DEFINITION. The 52 instructions (30_encoding.md R147), one constructor per row of opcode_table.json. A constructor
carries the decode-time fields of its kind (10_state.md R31): register indices and the immediate, not extended. -/

namespace Sys2Proof

/-- An instruction of the CORE. Sources and destination are in the integer bank unless the kind's rule names the float
bank (50_pipeline.md R339). A store or branch lists the base or left operand `rs1` before `rs2`. The shifts keep the
whole `imm12` the decoder returns; its bits 11:5 are fixed by the registry key (30_encoding.md R139, R140), which is
what `Instr.wellFormed` checks. The ignored rs2 field of FSQRT.S, FCVT.W.S and FCVT.S.W is no operand (R140). -/
inductive Instr where
  -- upper-immediate and jumps (R141, R142)
  | lui   (rd : RegIdx) (imm : Imm20)
  | auipc (rd : RegIdx) (imm : Imm20)
  | jal   (rd : RegIdx) (imm : Imm20)
  | jalr  (rd rs1 : RegIdx) (imm : Imm12)
  -- branches (R143)
  | beq   (rs1 rs2 : RegIdx) (imm : Imm12)
  | bne   (rs1 rs2 : RegIdx) (imm : Imm12)
  | blt   (rs1 rs2 : RegIdx) (imm : Imm12)
  | bge   (rs1 rs2 : RegIdx) (imm : Imm12)
  | bltu  (rs1 rs2 : RegIdx) (imm : Imm12)
  | bgeu  (rs1 rs2 : RegIdx) (imm : Imm12)
  -- loads and stores (R144)
  | lb    (rd rs1 : RegIdx) (imm : Imm12)
  | lh    (rd rs1 : RegIdx) (imm : Imm12)
  | lw    (rd rs1 : RegIdx) (imm : Imm12)
  | lbu   (rd rs1 : RegIdx) (imm : Imm12)
  | lhu   (rd rs1 : RegIdx) (imm : Imm12)
  | sb    (rs1 rs2 : RegIdx) (imm : Imm12)
  | sh    (rs1 rs2 : RegIdx) (imm : Imm12)
  | sw    (rs1 rs2 : RegIdx) (imm : Imm12)
  | flw   (rd rs1 : RegIdx) (imm : Imm12)
  | fsw   (rs1 rs2 : RegIdx) (imm : Imm12)
  -- register-immediate (R145)
  | addi  (rd rs1 : RegIdx) (imm : Imm12)
  | slti  (rd rs1 : RegIdx) (imm : Imm12)
  | sltiu (rd rs1 : RegIdx) (imm : Imm12)
  | xori  (rd rs1 : RegIdx) (imm : Imm12)
  | ori   (rd rs1 : RegIdx) (imm : Imm12)
  | andi  (rd rs1 : RegIdx) (imm : Imm12)
  | slli  (rd rs1 : RegIdx) (imm : Imm12)
  | srli  (rd rs1 : RegIdx) (imm : Imm12)
  | srai  (rd rs1 : RegIdx) (imm : Imm12)
  -- register-register (R146)
  | add   (rd rs1 rs2 : RegIdx)
  | sub   (rd rs1 rs2 : RegIdx)
  | sll   (rd rs1 rs2 : RegIdx)
  | slt   (rd rs1 rs2 : RegIdx)
  | sltu  (rd rs1 rs2 : RegIdx)
  | xor   (rd rs1 rs2 : RegIdx)
  | srl   (rd rs1 rs2 : RegIdx)
  | sra   (rd rs1 rs2 : RegIdx)
  | or    (rd rs1 rs2 : RegIdx)
  | and   (rd rs1 rs2 : RegIdx)
  -- floating point (R146)
  | faddS   (rd rs1 rs2 : RegIdx)
  | fsubS   (rd rs1 rs2 : RegIdx)
  | fmulS   (rd rs1 rs2 : RegIdx)
  | fdivS   (rd rs1 rs2 : RegIdx)
  | fsqrtS  (rd rs1 : RegIdx)
  | fsgnjS  (rd rs1 rs2 : RegIdx)
  | fsgnjnS (rd rs1 rs2 : RegIdx)
  | fsgnjxS (rd rs1 rs2 : RegIdx)
  | feqS    (rd rs1 rs2 : RegIdx)
  | fltS    (rd rs1 rs2 : RegIdx)
  | fleS    (rd rs1 rs2 : RegIdx)
  | fcvtWS  (rd rs1 : RegIdx)
  | fcvtSW  (rd rs1 : RegIdx)
deriving DecidableEq, Repr

end Sys2Proof
end

