-- ==== Sys2Proof/WellFormed.lean ====
section
/-! DEFINITION. What a construction and an instruction term must satisfy: the constraints on the parameters
(00_scope.md R6, 21_cache.md R91) and on the key bits of the shift immediates (30_encoding.md R140, R145). -/

namespace Sys2Proof

/-- `n` is a power of two. -/
abbrev isPowerOfTwo (n : Nat) : Prop := n = 2 ^ n.log2

/-- The constraints of 00_scope.md R6 and 21_cache.md R91 on one cache: the line size a power of two and at least 4, at
least one way, the capacity a whole number of `LINE x WAYS` (93_implementation_defined.md U1), the set count a power of
two and at least 1, and the capacity at most 2^32 (R91, so that TAG_BITS >= 0). -/
abbrev Geometry.WellFormed (g : Geometry) : Prop :=
  isPowerOfTwo g.line ∧ 4 ≤ g.line ∧ 1 ≤ g.ways ∧ g.capacity = g.line * g.ways * g.sets ∧
  isPowerOfTwo g.sets ∧ 1 ≤ g.sets ∧ g.capacity ≤ 2 ^ 32

/-- The constraints of 00_scope.md R6 on all seven parameters. -/
abbrev Params.WellFormed (p : Params) : Prop :=
  p.dc.WellFormed ∧ p.ic.WellFormed ∧ p.memSize % p.dc.line = 0 ∧ p.memSize % p.ic.line = 0 ∧
  4 ≤ p.memSize ∧ p.memSize ≤ 2 ^ 32

/-- The key bits `imm12[11:5]` that 30_encoding.md R145 demands of the three immediate shifts; every other instruction
term is well formed, because its fields have their encoded widths. -/
def Instr.wellFormed : Instr → Bool
  | .slli _ _ imm => imm.extractLsb' 5 7 == 0b0000000#7
  | .srli _ _ imm => imm.extractLsb' 5 7 == 0b0000000#7
  | .srai _ _ imm => imm.extractLsb' 5 7 == 0b0100000#7
  | .lui _ _ | .auipc _ _ | .jal _ _ | .jalr _ _ _ => true
  | .beq _ _ _ | .bne _ _ _ | .blt _ _ _ | .bge _ _ _ | .bltu _ _ _ | .bgeu _ _ _ => true
  | .lb _ _ _ | .lh _ _ _ | .lw _ _ _ | .lbu _ _ _ | .lhu _ _ _ | .flw _ _ _ => true
  | .sb _ _ _ | .sh _ _ _ | .sw _ _ _ | .fsw _ _ _ => true
  | .addi _ _ _ | .slti _ _ _ | .sltiu _ _ _ | .xori _ _ _ | .ori _ _ _ | .andi _ _ _ => true
  | .add _ _ _ | .sub _ _ _ | .sll _ _ _ | .slt _ _ _ | .sltu _ _ _ => true
  | .xor _ _ _ | .srl _ _ _ | .sra _ _ _ | .or _ _ _ | .and _ _ _ => true
  | .faddS _ _ _ | .fsubS _ _ _ | .fmulS _ _ _ | .fdivS _ _ _ | .fsqrtS _ _ => true
  | .fsgnjS _ _ _ | .fsgnjnS _ _ _ | .fsgnjxS _ _ _ => true
  | .feqS _ _ _ | .fltS _ _ _ | .fleS _ _ _ | .fcvtWS _ _ | .fcvtSW _ _ => true

end Sys2Proof
end

