-- ==== Sys2Proof/Decode.lean ====
section
/-! DEFINITION. The decoder and the registry (30_encoding.md R130 to R153), total on every word, rejecting by name; and
after them the encoder, from the same tables. Two stages as in the spec: `decodeShape` slices the fields of the shape
the opcode selects (R138); `registry` looks the key up (R140). -/

namespace Sys2Proof

/-! ### Fields (R131) -/

/-- `opcode = w[6:0]` (R131). -/
def fieldOpcode (w : Word) : BitVec 7 := w.extractLsb' 0 7
/-- `rd = w[11:7]` (R131). -/
def fieldRd (w : Word) : RegIdx := w.extractLsb' 7 5
/-- `funct3 = w[14:12]` (R131). -/
def fieldFunct3 (w : Word) : BitVec 3 := w.extractLsb' 12 3
/-- `rs1 = w[19:15]` (R131). -/
def fieldRs1 (w : Word) : RegIdx := w.extractLsb' 15 5
/-- `rs2 = w[24:20]` (R131). -/
def fieldRs2 (w : Word) : RegIdx := w.extractLsb' 20 5
/-- `funct7 = w[31:25]` (R131). -/
def fieldFunct7 (w : Word) : BitVec 7 := w.extractLsb' 25 7
/-- I shape: `imm12 = w[31:20]` (R133). -/
def fieldImmI (w : Word) : Imm12 := w.extractLsb' 20 12
/-- S shape: `imm12 = {w[31:25], w[11:7]}` (R134). -/
def fieldImmS (w : Word) : Imm12 := w.extractLsb' 25 7 ++ w.extractLsb' 7 5
/-- B shape: `imm12 = {w[31], w[7], w[30:25], w[11:8]}` (R135). -/
def fieldImmB (w : Word) : Imm12 :=
  w.extractLsb' 31 1 ++ w.extractLsb' 7 1 ++ w.extractLsb' 25 6 ++ w.extractLsb' 8 4
/-- J shape: `imm20 = {w[31], w[19:12], w[20], w[30:21]}` (R136). -/
def fieldImmJ (w : Word) : Imm20 :=
  w.extractLsb' 31 1 ++ w.extractLsb' 12 8 ++ w.extractLsb' 20 1 ++ w.extractLsb' 21 10
/-- U shape: `imm20 = w[31:12]` (R137). -/
def fieldImmU (w : Word) : Imm20 := w.extractLsb' 12 20

/-! ### The decoder (R138) -/

/-- A decoded instruction "tagged with its shape", immediates "NOT sign-extended" (R132 to R139). -/
inductive Decoded where
  | r (opcode : BitVec 7) (funct7 : BitVec 7) (rs2 rs1 : RegIdx) (funct3 : BitVec 3) (rd : RegIdx)
  | i (opcode : BitVec 7) (imm : Imm12) (rs1 : RegIdx) (funct3 : BitVec 3) (rd : RegIdx)
  | s (opcode : BitVec 7) (imm : Imm12) (rs2 rs1 : RegIdx) (funct3 : BitVec 3)
  | b (opcode : BitVec 7) (imm : Imm12) (rs2 rs1 : RegIdx) (funct3 : BitVec 3)
  | j (opcode : BitVec 7) (imm : Imm20) (rd : RegIdx)
  | u (opcode : BitVec 7) (imm : Imm20) (rd : RegIdx)
  | unrecognized
deriving DecidableEq, Repr

/-- The six syntactic shapes (30_encoding.md section 1). -/
inductive Shape where
  | r | i | s | b | j | u
deriving DecidableEq, Repr

/-- The opcode-to-shape map of R138. -/
def opcodeShapes : List (BitVec 7 × Shape) :=
  [ (0b0110011#7, .r), (0b1010011#7, .r),
    (0b0010011#7, .i), (0b0000011#7, .i), (0b0000111#7, .i), (0b1100111#7, .i),
    (0b0100011#7, .s), (0b0100111#7, .s),
    (0b1100011#7, .b),
    (0b1101111#7, .j),
    (0b0110111#7, .u), (0b0010111#7, .u) ]

/-- The decoder contract of R138: "the shape is determined solely by the 7-bit opcode field". -/
def decodeShape (w : Word) : Decoded :=
  match opcodeShapes.lookup (fieldOpcode w) with
  | some .r => .r (fieldOpcode w) (fieldFunct7 w) (fieldRs2 w) (fieldRs1 w) (fieldFunct3 w) (fieldRd w)
  | some .i => .i (fieldOpcode w) (fieldImmI w) (fieldRs1 w) (fieldFunct3 w) (fieldRd w)
  | some .s => .s (fieldOpcode w) (fieldImmS w) (fieldRs2 w) (fieldRs1 w) (fieldFunct3 w)
  | some .b => .b (fieldOpcode w) (fieldImmB w) (fieldRs2 w) (fieldRs1 w) (fieldFunct3 w)
  | some .j => .j (fieldOpcode w) (fieldImmJ w) (fieldRd w)
  | some .u => .u (fieldOpcode w) (fieldImmU w) (fieldRd w)
  | none    => .unrecognized

/-! ### The registry (R140 to R146) -/

/-- Keys (opcode, funct7, funct3) of the R shape (R146). -/
def registryR : List ((BitVec 7 × BitVec 7 × BitVec 3) × (RegIdx → RegIdx → RegIdx → Instr)) :=
  [ ((0b0110011#7, 0b0000000#7, 0b000#3), .add),
    ((0b0110011#7, 0b0100000#7, 0b000#3), .sub),
    ((0b0110011#7, 0b0000000#7, 0b001#3), .sll),
    ((0b0110011#7, 0b0000000#7, 0b010#3), .slt),
    ((0b0110011#7, 0b0000000#7, 0b011#3), .sltu),
    ((0b0110011#7, 0b0000000#7, 0b100#3), .xor),
    ((0b0110011#7, 0b0000000#7, 0b101#3), .srl),
    ((0b0110011#7, 0b0100000#7, 0b101#3), .sra),
    ((0b0110011#7, 0b0000000#7, 0b110#3), .or),
    ((0b0110011#7, 0b0000000#7, 0b111#3), .and),
    ((0b1010011#7, 0b0000000#7, 0b000#3), .faddS),
    ((0b1010011#7, 0b0000100#7, 0b000#3), .fsubS),
    ((0b1010011#7, 0b0001000#7, 0b000#3), .fmulS),
    ((0b1010011#7, 0b0001100#7, 0b000#3), .fdivS),
    ((0b1010011#7, 0b0101100#7, 0b000#3), fun rd rs1 _ => .fsqrtS rd rs1),
    ((0b1010011#7, 0b0010000#7, 0b000#3), .fsgnjS),
    ((0b1010011#7, 0b0010000#7, 0b001#3), .fsgnjnS),
    ((0b1010011#7, 0b0010000#7, 0b010#3), .fsgnjxS),
    ((0b1010011#7, 0b1010000#7, 0b010#3), .feqS),
    ((0b1010011#7, 0b1010000#7, 0b001#3), .fltS),
    ((0b1010011#7, 0b1010000#7, 0b000#3), .fleS),
    ((0b1010011#7, 0b1100000#7, 0b000#3), fun rd rs1 _ => .fcvtWS rd rs1),
    ((0b1010011#7, 0b1101000#7, 0b000#3), fun rd rs1 _ => .fcvtSW rd rs1) ]

/-- Keys (opcode, funct3) of the I shape (R142, R144, R145), all but the two keys that R140 extends with `imm12[11:5]`. -/
def registryI : List ((BitVec 7 × BitVec 3) × (RegIdx → RegIdx → Imm12 → Instr)) :=
  [ ((0b1100111#7, 0b000#3), .jalr),
    ((0b0000011#7, 0b000#3), .lb),
    ((0b0000011#7, 0b001#3), .lh),
    ((0b0000011#7, 0b010#3), .lw),
    ((0b0000011#7, 0b100#3), .lbu),
    ((0b0000011#7, 0b101#3), .lhu),
    ((0b0000111#7, 0b010#3), .flw),
    ((0b0010011#7, 0b000#3), .addi),
    ((0b0010011#7, 0b010#3), .slti),
    ((0b0010011#7, 0b011#3), .sltiu),
    ((0b0010011#7, 0b100#3), .xori),
    ((0b0010011#7, 0b110#3), .ori),
    ((0b0010011#7, 0b111#3), .andi) ]

/-- The keys (funct3, `imm12[11:5]`) of opcode 0010011 with funct3 001 or 101 (R140, R145). -/
def registryShift : List ((BitVec 3 × BitVec 7) × (RegIdx → RegIdx → Imm12 → Instr)) :=
  [ ((0b001#3, 0b0000000#7), .slli),
    ((0b101#3, 0b0000000#7), .srli),
    ((0b101#3, 0b0100000#7), .srai) ]

/-- Keys (opcode, funct3) of the S shape (R144); the arguments are `rs1`, `rs2`, `imm12`. -/
def registryS : List ((BitVec 7 × BitVec 3) × (RegIdx → RegIdx → Imm12 → Instr)) :=
  [ ((0b0100011#7, 0b000#3), .sb),
    ((0b0100011#7, 0b001#3), .sh),
    ((0b0100011#7, 0b010#3), .sw),
    ((0b0100111#7, 0b010#3), .fsw) ]

/-- Keys (opcode, funct3) of the B shape (R143); the arguments are `rs1`, `rs2`, `imm12`. -/
def registryB : List ((BitVec 7 × BitVec 3) × (RegIdx → RegIdx → Imm12 → Instr)) :=
  [ ((0b1100011#7, 0b000#3), .beq),
    ((0b1100011#7, 0b001#3), .bne),
    ((0b1100011#7, 0b100#3), .blt),
    ((0b1100011#7, 0b101#3), .bge),
    ((0b1100011#7, 0b110#3), .bltu),
    ((0b1100011#7, 0b111#3), .bgeu) ]

/-- Keys of the J and U shapes, the opcode alone (R141). -/
def registryJU : List (BitVec 7 × (RegIdx → Imm20 → Instr)) :=
  [ (0b0110111#7, .lui),
    (0b0010111#7, .auipc),
    (0b1101111#7, .jal) ]

/-- R140: the I-shape key is extended with `imm12[11:5]` exactly for opcode 0010011 with funct3 001 or 101. -/
def isShiftKey (opcode : BitVec 7) (funct3 : BitVec 3) : Bool :=
  opcode == 0b0010011#7 && (funct3 == 0b001#3 || funct3 == 0b101#3)

/-- The dispatch table (R140): `none` is an unmapped key (R151); `unrecognized` has no key. -/
def registry : Decoded → Option Instr
  | .r op f7 rs2 rs1 f3 rd => (registryR.lookup (op, f7, f3)).map fun k => k rd rs1 rs2
  | .i op imm rs1 f3 rd =>
    if isShiftKey op f3 then (registryShift.lookup (f3, imm.extractLsb' 5 7)).map fun k => k rd rs1 imm
    else (registryI.lookup (op, f3)).map fun k => k rd rs1 imm
  | .s op imm rs2 rs1 f3 => (registryS.lookup (op, f3)).map fun k => k rs1 rs2 imm
  | .b op imm rs2 rs1 f3 => (registryB.lookup (op, f3)).map fun k => k rs1 rs2 imm
  | .j op imm rd => (registryJU.lookup op).map fun k => k rd imm
  | .u op imm rd => (registryJU.lookup op).map fun k => k rd imm
  | .unrecognized => none

/-- Why a word, or a byte string, is no instruction. The first two are the fatal causes of 60_exceptions.md R378 and
R379; `truncated` is a byte string shorter than the one instruction length (30_encoding.md R130), which no fetch gives. -/
inductive DecodeError where
  | unrecognizedOpcode
  | unmappedInstruction
  | truncated
deriving DecidableEq, Repr

/-- What a word is: one of the 52 instructions, or rejected by name (30_encoding.md R152: "Every word is exactly one
of: one of the 52 instructions; `unrecognized`; unmapped"). -/
inductive Decoding where
  | instr (i : Instr)
  | rejected (e : DecodeError)
deriving DecidableEq, Repr

/-- Decode and dispatch of one word (50_pipeline.md R332), a pure function of the word. -/
def decodeWord (w : Word) : Decoding :=
  match decodeShape w with
  | .unrecognized => .rejected .unrecognizedOpcode
  | d =>
    match registry d with
    | some i => .instr i
    | none   => .rejected .unmappedInstruction

/-- Four bytes as a word, the first at the lowest address and least significant (20_memory.md R61). -/
def wordOfBytes (b0 b1 b2 b3 : Byte) : Word := b3 ++ b2 ++ b1 ++ b0

/-- The decoder on a byte string: the instruction and the bytes after it, or a rejection by name. -/
def decodeBytes : List Byte → Decoding × List Byte
  | b0 :: b1 :: b2 :: b3 :: rest => (decodeWord (wordOfBytes b0 b1 b2 b3), rest)
  | bs => (.rejected .truncated, bs)

/-- The four bytes of a word as memory holds them, lowest address first (20_memory.md R61). -/
def bytesOfWord (w : Word) : List Byte :=
  [w.extractLsb' 0 8, w.extractLsb' 8 8, w.extractLsb' 16 8, w.extractLsb' 24 8]

/-- The instruction the decoder reads from an instruction whose `nbits` bits are `w`, numbered as opcode_table.json
numbers them; the bits above `nbits` are 0. -/
def decodeTableWord (nbits w : Nat) : Option Instr :=
  match (decodeBytes (bytesOfWord (BitVec.ofNat 32 (w % 2 ^ nbits)))).1 with
  | .instr i => some i
  | .rejected _ => none

/-! ### The encoder -/

/-- The R shape's layout (R132). -/
def encodeR (funct7 : BitVec 7) (rs2 rs1 : RegIdx) (funct3 : BitVec 3) (rd : RegIdx) (opcode : BitVec 7) : Word :=
  funct7 ++ rs2 ++ rs1 ++ funct3 ++ rd ++ opcode

/-- The I shape's layout (R133). -/
def encodeI (imm : Imm12) (rs1 : RegIdx) (funct3 : BitVec 3) (rd : RegIdx) (opcode : BitVec 7) : Word :=
  imm ++ rs1 ++ funct3 ++ rd ++ opcode

/-- The S shape's layout (R134). -/
def encodeS (imm : Imm12) (rs2 rs1 : RegIdx) (funct3 : BitVec 3) (opcode : BitVec 7) : Word :=
  imm.extractLsb' 5 7 ++ rs2 ++ rs1 ++ funct3 ++ imm.extractLsb' 0 5 ++ opcode

/-- The B shape's layout (R135). -/
def encodeB (imm : Imm12) (rs2 rs1 : RegIdx) (funct3 : BitVec 3) (opcode : BitVec 7) : Word :=
  imm.extractLsb' 11 1 ++ imm.extractLsb' 4 6 ++ rs2 ++ rs1 ++ funct3 ++ imm.extractLsb' 0 4 ++
    imm.extractLsb' 10 1 ++ opcode

/-- The J shape's layout (R136). -/
def encodeJ (imm : Imm20) (rd : RegIdx) (opcode : BitVec 7) : Word :=
  imm.extractLsb' 19 1 ++ imm.extractLsb' 0 10 ++ imm.extractLsb' 10 1 ++ imm.extractLsb' 11 8 ++ rd ++ opcode

/-- The U shape's layout (R137). -/
def encodeU (imm : Imm20) (rd : RegIdx) (opcode : BitVec 7) : Word :=
  imm ++ rd ++ opcode

/-- The word of an instruction (R141 to R146). The ignored rs2 field of FSQRT.S, FCVT.W.S and FCVT.S.W is written
00000, as the assembler of R160 does. -/
def encode : Instr → Word
  | .lui rd imm         => encodeU imm rd 0b0110111#7
  | .auipc rd imm       => encodeU imm rd 0b0010111#7
  | .jal rd imm         => encodeJ imm rd 0b1101111#7
  | .jalr rd rs1 imm    => encodeI imm rs1 0b000#3 rd 0b1100111#7
  | .beq rs1 rs2 imm    => encodeB imm rs2 rs1 0b000#3 0b1100011#7
  | .bne rs1 rs2 imm    => encodeB imm rs2 rs1 0b001#3 0b1100011#7
  | .blt rs1 rs2 imm    => encodeB imm rs2 rs1 0b100#3 0b1100011#7
  | .bge rs1 rs2 imm    => encodeB imm rs2 rs1 0b101#3 0b1100011#7
  | .bltu rs1 rs2 imm   => encodeB imm rs2 rs1 0b110#3 0b1100011#7
  | .bgeu rs1 rs2 imm   => encodeB imm rs2 rs1 0b111#3 0b1100011#7
  | .lb rd rs1 imm      => encodeI imm rs1 0b000#3 rd 0b0000011#7
  | .lh rd rs1 imm      => encodeI imm rs1 0b001#3 rd 0b0000011#7
  | .lw rd rs1 imm      => encodeI imm rs1 0b010#3 rd 0b0000011#7
  | .lbu rd rs1 imm     => encodeI imm rs1 0b100#3 rd 0b0000011#7
  | .lhu rd rs1 imm     => encodeI imm rs1 0b101#3 rd 0b0000011#7
  | .sb rs1 rs2 imm     => encodeS imm rs2 rs1 0b000#3 0b0100011#7
  | .sh rs1 rs2 imm     => encodeS imm rs2 rs1 0b001#3 0b0100011#7
  | .sw rs1 rs2 imm     => encodeS imm rs2 rs1 0b010#3 0b0100011#7
  | .flw rd rs1 imm     => encodeI imm rs1 0b010#3 rd 0b0000111#7
  | .fsw rs1 rs2 imm    => encodeS imm rs2 rs1 0b010#3 0b0100111#7
  | .addi rd rs1 imm    => encodeI imm rs1 0b000#3 rd 0b0010011#7
  | .slti rd rs1 imm    => encodeI imm rs1 0b010#3 rd 0b0010011#7
  | .sltiu rd rs1 imm   => encodeI imm rs1 0b011#3 rd 0b0010011#7
  | .xori rd rs1 imm    => encodeI imm rs1 0b100#3 rd 0b0010011#7
  | .ori rd rs1 imm     => encodeI imm rs1 0b110#3 rd 0b0010011#7
  | .andi rd rs1 imm    => encodeI imm rs1 0b111#3 rd 0b0010011#7
  | .slli rd rs1 imm    => encodeI imm rs1 0b001#3 rd 0b0010011#7
  | .srli rd rs1 imm    => encodeI imm rs1 0b101#3 rd 0b0010011#7
  | .srai rd rs1 imm    => encodeI imm rs1 0b101#3 rd 0b0010011#7
  | .add rd rs1 rs2     => encodeR 0b0000000#7 rs2 rs1 0b000#3 rd 0b0110011#7
  | .sub rd rs1 rs2     => encodeR 0b0100000#7 rs2 rs1 0b000#3 rd 0b0110011#7
  | .sll rd rs1 rs2     => encodeR 0b0000000#7 rs2 rs1 0b001#3 rd 0b0110011#7
  | .slt rd rs1 rs2     => encodeR 0b0000000#7 rs2 rs1 0b010#3 rd 0b0110011#7
  | .sltu rd rs1 rs2    => encodeR 0b0000000#7 rs2 rs1 0b011#3 rd 0b0110011#7
  | .xor rd rs1 rs2     => encodeR 0b0000000#7 rs2 rs1 0b100#3 rd 0b0110011#7
  | .srl rd rs1 rs2     => encodeR 0b0000000#7 rs2 rs1 0b101#3 rd 0b0110011#7
  | .sra rd rs1 rs2     => encodeR 0b0100000#7 rs2 rs1 0b101#3 rd 0b0110011#7
  | .or rd rs1 rs2      => encodeR 0b0000000#7 rs2 rs1 0b110#3 rd 0b0110011#7
  | .and rd rs1 rs2     => encodeR 0b0000000#7 rs2 rs1 0b111#3 rd 0b0110011#7
  | .faddS rd rs1 rs2   => encodeR 0b0000000#7 rs2 rs1 0b000#3 rd 0b1010011#7
  | .fsubS rd rs1 rs2   => encodeR 0b0000100#7 rs2 rs1 0b000#3 rd 0b1010011#7
  | .fmulS rd rs1 rs2   => encodeR 0b0001000#7 rs2 rs1 0b000#3 rd 0b1010011#7
  | .fdivS rd rs1 rs2   => encodeR 0b0001100#7 rs2 rs1 0b000#3 rd 0b1010011#7
  | .fsqrtS rd rs1      => encodeR 0b0101100#7 0#5 rs1 0b000#3 rd 0b1010011#7
  | .fsgnjS rd rs1 rs2  => encodeR 0b0010000#7 rs2 rs1 0b000#3 rd 0b1010011#7
  | .fsgnjnS rd rs1 rs2 => encodeR 0b0010000#7 rs2 rs1 0b001#3 rd 0b1010011#7
  | .fsgnjxS rd rs1 rs2 => encodeR 0b0010000#7 rs2 rs1 0b010#3 rd 0b1010011#7
  | .feqS rd rs1 rs2    => encodeR 0b1010000#7 rs2 rs1 0b010#3 rd 0b1010011#7
  | .fltS rd rs1 rs2    => encodeR 0b1010000#7 rs2 rs1 0b001#3 rd 0b1010011#7
  | .fleS rd rs1 rs2    => encodeR 0b1010000#7 rs2 rs1 0b000#3 rd 0b1010011#7
  | .fcvtWS rd rs1      => encodeR 0b1100000#7 0#5 rs1 0b000#3 rd 0b1010011#7
  | .fcvtSW rd rs1      => encodeR 0b1101000#7 0#5 rs1 0b000#3 rd 0b1010011#7

/-- The bytes of an instruction, lowest address first. -/
def encodeBytes (i : Instr) : List Byte := bytesOfWord (encode i)

end Sys2Proof
end

