-- ==== Sys2Proof/Machine/State.lean ====
section
/-! DEFINITION. The state of the machine (10_state.md, 70_reset_and_hazards.md R400): plain data, everything the spec
gives it, and `State.reset`. -/

namespace Sys2Proof.Machine

/-- Backing memory `Mem` (10_state.md R27) as (address, byte) pairs in the canonical form `Memory.WF` of
Machine/Memory.lean: addresses strictly rising, no byte 0x00, which is what an unlisted address reads as (R400). -/
abbrev Memory := List Host.Cell

/-- The fatal causes with their `info` (60_exceptions.md R372). A fatal condition is a NEXT state whose `run` is
`fatal cause` (R373); `step` of such a machine answers the fault. Safe: the machine has stopped there (log 6). -/
inductive Fault where
  /-- Raised by a fetch whose address is no multiple of 4 (20_memory.md R68). Safe. -/
  | misalignedFetch (pc : Word)
  /-- Raised by an aligned fetch past the end of memory (20_memory.md R68). Safe. -/
  | fetchOutOfRange (pc : Word)
  /-- Raised by decode: the opcode is not one of the twelve (60_exceptions.md R378). Safe. -/
  | unrecognizedOpcode (word addr : Word)
  /-- Raised by dispatch: the opcode is known, the key unmapped (60_exceptions.md R379). Safe. -/
  | unmappedInstruction (word addr : Word)
  /-- Raised by a misaligned load or store of 2 or 4 bytes (20_memory.md R66, R67). Safe. -/
  | misalignedAccess (addr : Word)
  /-- Raised by an aligned load or store past the end of memory (20_memory.md R66, R67). Safe. -/
  | memOutOfRange (addr : Word)
  /-- Raised by nothing: every index is a 5-bit field (10_state.md R23). Safe. -/
  | regIndexOutOfRange
deriving DecidableEq, Repr

/-- Why an instruction has no meaning. -/
inductive Refusal where
  /-- An arm of `exec` not modelled yet; no arm is left. Safe. -/
  | notModelled (mnemonic : String)
deriving DecidableEq, Repr

/-- The run state (10_state.md R39). -/
inductive RunState where
  | running
  | halted
  | fatal (cause : Fault)
deriving DecidableEq, Repr

/-- A cache line (21_cache.md R93). The tag is a number below 2^TAG_BITS, a width that depends on the geometry. -/
structure Line where
  tag      : Nat
  valid    : Bool
  dirty    : Bool
  accessed : Bool
  bytes    : List Byte
deriving DecidableEq, Repr

/-- A cache set: its lines, least recently used first (21_cache.md R94). -/
abbrev CacheSet := List Line

/-- A cache: its sets in the order of their index (10_state.md R28). -/
abbrev Cache := List CacheSet

/-- An entry of a forwarding table: "(producing-instruction sequence number, produced value)" (10_state.md R29). -/
structure FwdEntry where
  seq   : Nat
  value : Word
deriving DecidableEq, Repr

/-- A forwarding table: a partial function from 0..31 (10_state.md R29). -/
abbrev FwdTable := Vector (Option FwdEntry) 32

/-- A behaviour record (10_state.md R31). `instr` is the kind with its decode-time fields; `seq` to `op2` are filled by
register-fetch, `result` to `target` by execute, `loaded` by the memory stage. -/
structure Behaviour where
  instr    : Instr
  seq      : Nat
  originPc : Option Word := none
  op1      : Option Word := none
  op2      : Option Word := none
  result   : Option Word := none
  addr     : Option Word := none
  taken    : Option Bool := none
  target   : Option Word := none
  loaded   : Option Word := none
deriving DecidableEq, Repr

/-- The state of 10_state.md. `params` is not state of the spec: it is the construction's argument, carried here so that
every statement is about every instance; nothing writes it (log 2). -/
structure State where
  /-- The construction's parameters (00_scope.md R6). -/
  params : Params
  /-- Integer bank (R20); entry 0 is hard-wired by `State.readX` and `State.writeX` (R21). -/
  x : Vector Word 32
  /-- Float bank (R22). -/
  f : Vector Word 32
  /-- Program counter (R24). -/
  pc : Word
  /-- Backing memory `Mem` (R27). -/
  mem : Memory
  /-- Data cache `DC` (R28). -/
  dc : Cache
  /-- Instruction cache `IC` (R28). -/
  ic : Cache
  /-- Forwarding table `fwd_x` (R29). -/
  fwdX : FwdTable
  /-- Forwarding table `fwd_f` (R29). -/
  fwdF : FwdTable
  /-- Stage slot `q_RF`: a fetched word (R30). -/
  qRF : Option Word
  /-- Stage slot `q_EX` (R30). -/
  qEX : Option Behaviour
  /-- Stage slot `q_MEM` (R30). -/
  qMEM : Option Behaviour
  /-- Stage slot `q_WB` (R30). -/
  qWB : Option Behaviour
  /-- Global instruction counter (R36). -/
  icount : Nat
  /-- Cache counters (R37). -/
  dcAccesses : Nat
  dcHits : Nat
  icAccesses : Nat
  icHits : Nat
  /-- Liveness guard (R38): address of the most recent fetch, and how many in a row were made there. -/
  lgAddr : Option Word
  lgCount : Nat
  /-- Run state (R39). -/
  run : RunState
deriving DecidableEq, Repr

/-- What a meaning answers. -/
abbrev Result := Host.Outcome State Fault Refusal

/-- The state after reset for given parameters and backing memory (70_reset_and_hazards.md R400). -/
def State.resetWith (p : Params) (mem : Memory) : State :=
  { params := p
    x := Vector.replicate 32 0
    f := Vector.replicate 32 0
    pc := 0
    mem := mem
    dc := List.replicate p.dc.sets []
    ic := List.replicate p.ic.sets []
    fwdX := Vector.replicate 32 none
    fwdF := Vector.replicate 32 none
    qRF := none
    qEX := none
    qMEM := none
    qWB := none
    icount := 0
    dcAccesses := 0
    dcHits := 0
    icAccesses := 0
    icHits := 0
    lgAddr := none
    lgCount := 0
    run := .running }

/-- The machine right after reset (70_reset_and_hazards.md R400) with the reference parameters (log 2) and the empty
image, which R402 allows: a program is loaded from outside (log 7). -/
def State.reset : State := State.resetWith Params.reference []

end Sys2Proof.Machine
end

