-- ==== Sys2Proof/Machine/Memory.lean ====
section
/-! DEFINITION. Backing memory `Mem` (10_state.md R27): one byte and one block of bytes read and written, in the canonical
form, and little-endian assembly (20_memory.md R61). -/

namespace Sys2Proof.Machine

/-- The byte at an address; an unlisted address reads as 0x00 (70_reset_and_hazards.md R400). -/
def Memory.read : Memory → Nat → Byte
  | [], _ => 0
  | (b, v) :: m, a => if a = b then v else Memory.read m a

/-- Writes one byte, keeping the canonical form: writing 0x00 removes the entry. -/
def Memory.write : Memory → Nat → Byte → Memory
  | [], a, v => if v = 0 then [] else [(a, v)]
  | (b, w) :: m, a, v =>
    if a < b then (if v = 0 then (b, w) :: m else (a, v) :: (b, w) :: m)
    else if a = b then (if v = 0 then m else (a, v) :: m)
    else (b, w) :: Memory.write m a v

/-- Addresses strictly rising from above `lo` (none: from 0), no byte equal to 0x00. -/
def Memory.sortedFrom : Option Nat → Memory → Bool
  | _, [] => true
  | lo, (a, v) :: m => (match lo with | none => true | some b => decide (b < a)) && v != 0 && Memory.sortedFrom (some a) m

/-- The canonical form: addresses strictly rising, no entry equal to what an unlisted address reads as. -/
def Memory.wf (m : Memory) : Bool := Memory.sortedFrom none m

/-- Every listed address is below `size`. -/
def Memory.within (size : Nat) (m : Memory) : Bool := m.all fun c => decide (c.1 < size)

/-- The block `Mem[a .. a+n-1]` (21_cache.md R110). -/
def Memory.readBlock (m : Memory) (a : Nat) : Nat → List Byte
  | 0 => []
  | n + 1 => m.read a :: Memory.readBlock m (a + 1) n

/-- `Mem[a ..] <- bytes` (21_cache.md R110). -/
def Memory.writeBlock (m : Memory) (a : Nat) : List Byte → Memory
  | [] => m
  | b :: bs => Memory.writeBlock (m.write a b) (a + 1) bs

/-- The value of bytes assembled little-endian, the first byte least significant (20_memory.md R61). -/
def leValue : List Byte → Nat
  | [] => 0
  | b :: bs => b.toNat + 256 * leValue bs

/-- The low `8n` bits of a word as `n` bytes, least significant first (20_memory.md R61, R67; 21_cache.md R101). -/
def leBytes (v : Word) : Nat → List Byte
  | 0 => []
  | n + 1 => v.setWidth 8 :: leBytes (v >>> 8) n

end Sys2Proof.Machine
end

