-- ==== Sys2Proof/Machine/Cache.lean ====
section
/-! DEFINITION. The cache of 21_cache.md: address decomposition, lookup, and its three operations read, write and
install, for either instance. Addresses are numbers here. -/

namespace Sys2Proof.Machine

/-- `offset(a)`, the low OFFSET_BITS of the address (21_cache.md R92): with LINE a power of two, `a mod LINE` (log 12). -/
def offsetOf (g : Geometry) (a : Nat) : Nat := a % g.line

/-- `index(a)`, the INDEX_BITS above the offset (21_cache.md R92). -/
def indexOf (g : Geometry) (a : Nat) : Nat := a / g.line % g.sets

/-- `tag(a)`, the bits above the index (21_cache.md R92). -/
def tagOf (g : Geometry) (a : Nat) : Nat := a / g.line / g.sets

/-- `base(a) = a - offset(a)` (21_cache.md R92). -/
def baseOf (g : Geometry) (a : Nat) : Nat := a - offsetOf g a

/-- `lineaddr(t, i) = {t, i, OFFSET_BITS'b0}` (21_cache.md R92). -/
def lineAddr (g : Geometry) (t i : Nat) : Nat := (t * g.sets + i) * g.line

/-- The set at an index; an index past the list, which no address gives in a cache of SETS sets, reads as empty. -/
def Cache.setAt (c : Cache) (i : Nat) : CacheSet := c.getD i []

/-- Replaces the set at an index. In a cache of SETS sets and an index below SETS this only replaces; past the list it
extends with empty sets, so that it always takes (log 11). -/
def Cache.putSet : Cache → Nat → CacheSet → Cache
  | [], 0, s => [s]
  | [], i + 1, s => [] :: Cache.putSet [] i s
  | _ :: c, 0, s => s :: c
  | t :: c, i + 1, s => t :: Cache.putSet c i s

/-- Lookup (21_cache.md R95): the line of the address's set with the address's tag, or none (MISS). -/
def Cache.lookup (g : Geometry) (c : Cache) (a : Nat) : Option Line :=
  (Cache.setAt c (indexOf g a)).find? fun l => l.tag == tagOf g a

/-- A line moved "to 'most-recently-used' position": taken from its place, appended at the end in its new form
(21_cache.md R100). -/
def CacheSet.touch (s : CacheSet) (l : Line) : CacheSet := (s.filter fun k => k.tag != l.tag) ++ [l]

/-- The `n` bytes of a line from an offset. -/
def Line.slice (l : Line) (off n : Nat) : List Byte := (l.bytes.drop off).take n

/-- The line with its bytes from an offset replaced by the given ones. -/
def Line.splice (l : Line) (off : Nat) (bs : List Byte) : List Byte :=
  l.bytes.take off ++ bs ++ l.bytes.drop (off + bs.length)

/-- `C.read(a, n)` (21_cache.md R100): on a hit the value and the cache with the line accessed and most recently used;
none on a miss. -/
def Cache.read (g : Geometry) (c : Cache) (a n : Nat) : Option (Word × Cache) :=
  (Cache.lookup g c a).map fun l =>
    (BitVec.ofNat 32 (leValue (l.slice (offsetOf g a) n)),
     Cache.putSet c (indexOf g a) (CacheSet.touch (Cache.setAt c (indexOf g a)) { l with accessed := true }))

/-- `C.write(a, n, v)` (21_cache.md R101): on a hit the cache with the line's bytes updated, dirty, accessed and most
recently used; none on a miss. -/
def Cache.write (g : Geometry) (c : Cache) (a n : Nat) (v : Word) : Option Cache :=
  (Cache.lookup g c a).map fun l =>
    Cache.putSet c (indexOf g a) (CacheSet.touch (Cache.setAt c (indexOf g a))
      { l with bytes := l.splice (offsetOf g a) (leBytes v n), dirty := true, accessed := true })

/-- The line an install appends: "valid, not dirty, and most-recently-used", not accessed (21_cache.md R102). -/
def newLine (g : Geometry) (a : Nat) (bytes : List Byte) : Line :=
  { tag := tagOf g a, valid := true, dirty := false, accessed := false, bytes := bytes }

/-- The victim returned to the caller: the evicted line's address and contents if it is dirty, else nothing
(21_cache.md R102, R104). -/
def victimOf (g : Geometry) (i : Nat) (l : Line) : Option (Nat × List Byte) :=
  if l.dirty then some (lineAddr g l.tag i, l.bytes) else none

/-- `C.install(a, linebytes)` (21_cache.md R102, R103): a full set loses its head, the least recently used line. -/
def Cache.install (g : Geometry) (c : Cache) (a : Nat) (bytes : List Byte) : Cache × Option (Nat × List Byte) :=
  let i := indexOf g a
  match Cache.setAt c i with
  | [] => (Cache.putSet c i [newLine g a bytes], none)
  | l :: s =>
    if (l :: s).length < g.ways then (Cache.putSet c i (l :: s ++ [newLine g a bytes]), none)
    else (Cache.putSet c i (s ++ [newLine g a bytes]), victimOf g i l)

end Sys2Proof.Machine
end

