-- ==== Sys2Proof/Machine/Flags.lean ====
section
/-! DEFINITION. The hardware has no flags, condition codes or predicate registers (10_state.md R25, 40_integer_computational.md
R191, 43_float.md R262): what a flag would carry is a comparison of two registers. This file holds those comparisons,
signed and unsigned. -/

namespace Sys2Proof.Machine

/-- `signed(a) < signed(b)` (00_scope.md R7). -/
def ltSigned (a b : Word) : Bool := decide (a.toInt < b.toInt)

/-- `unsigned(a) < unsigned(b)` (00_scope.md R7). -/
def ltUnsigned (a b : Word) : Bool := decide (a.toNat < b.toNat)

/-- A truth value as a register value, "result is exactly 0 or 1" (40_integer_computational.md R173). -/
def boolWord (b : Bool) : Word := if b then 1 else 0

/-- BEQ: `x[rs1] = x[rs2]` (41_control_transfer.md R222). -/
def takenBeq (a b : Word) : Bool := a == b
/-- BNE: `x[rs1] != x[rs2]` (R223). -/
def takenBne (a b : Word) : Bool := a != b
/-- BLT: `signed(x[rs1]) < signed(x[rs2])` (R224). -/
def takenBlt (a b : Word) : Bool := ltSigned a b
/-- BGE: `signed(x[rs1]) >= signed(x[rs2])` (R225; conflict C7). -/
def takenBge (a b : Word) : Bool := !ltSigned a b
/-- BLTU: `unsigned(x[rs1]) < unsigned(x[rs2])` (R226). -/
def takenBltu (a b : Word) : Bool := ltUnsigned a b
/-- BGEU: `unsigned(x[rs1]) >= unsigned(x[rs2])` (R227). -/
def takenBgeu (a b : Word) : Bool := !ltUnsigned a b

end Sys2Proof.Machine
end

