-- ==== Sys2Proof/Machine/Operands.lean ====
section
/-! DEFINITION. Operand forms: the one sign-extension utility (00_scope.md R7, R8), how each consumer turns its immediate
field into an operand (30_encoding.md R139), effective addresses (42_load_store.md R250) and targets
(41_control_transfer.md R228, R221). -/

namespace Sys2Proof.Machine

/-- `sext_N`: the low `n` bits of `v`, bit n-1 extended to 32 bits (00_scope.md R7, R8). -/
def sext (n : Nat) (v : Word) : Word := (v.setWidth n).signExtend 32

/-- `zext_N`: the low `n` bits of `v`, zeros above (00_scope.md R7). -/
def zext (n : Nat) (v : Word) : Word := (v.setWidth n).setWidth 32

/-- `sext_12` of an immediate field (30_encoding.md R139). -/
def immI (imm : Imm12) : Word := sext 12 (imm.setWidth 32)

/-- `sext_20` of an immediate field (30_encoding.md R139). -/
def immJ (imm : Imm20) : Word := sext 20 (imm.setWidth 32)

/-- `imm20 << 12`, the upper immediate (30_encoding.md R139). -/
def immU (imm : Imm20) : Word := imm ++ 0#12

/-- The shift amount of an immediate shift, `imm12[4:0]` (30_encoding.md R139). -/
def shamtImm (imm : Imm12) : Nat := (imm.extractLsb' 0 5).toNat

/-- The shift amount of a register shift, `x[rs2][4:0]` (40_integer_computational.md R183). -/
def shamtReg (v : Word) : Nat := (v.extractLsb' 0 5).toNat

/-- The effective address `x[rs1] + sext_12(imm12)` modulo 2^32 (42_load_store.md R250). -/
def effectiveAddress (base : Word) (imm : Imm12) : Word := base + immI imm

/-- A branch target, `origin_pc + (sext_12(imm12) << 1)` (41_control_transfer.md R228). -/
def branchTarget (originPc : Word) (imm : Imm12) : Word := originPc + immI imm <<< 1

/-- The JAL target, `origin_pc + (sext_20(imm20) << 1)` (41_control_transfer.md R228). -/
def jalTarget (originPc : Word) (imm : Imm20) : Word := originPc + immJ imm <<< 1

/-- The JALR target, `(x[rs1] + sext_12(imm12)) & 0xFFFFFFFE` (41_control_transfer.md R221). -/
def jalrTarget (base : Word) (imm : Imm12) : Word := (base + immI imm) &&& 0xFFFFFFFE#32

/-- The link value, `origin_pc + 4` (41_control_transfer.md R231). -/
def linkValue (originPc : Word) : Word := originPc + 4

end Sys2Proof.Machine
end

