-- ==== Sys2Proof/Machine/Ops.lean ====
section
/-! DEFINITION. The named operations over registers and memory (00_scope.md R9): register access, `ArchMem`, the two
caches' miss protocols, `MemRead`, `MemWrite`, `Fetch`, and taking a fatal condition. -/

namespace Sys2Proof.Machine

/-! ### Registers -/

/-- `x[i]`: 0 for i = 0 (10_state.md R21). -/
def State.readX (s : State) (i : RegIdx) : Word := if i = 0 then 0 else s.x[i.toNat]'i.isLt

/-- `x[i] <- v`: discarded for i = 0 (10_state.md R21). -/
def State.writeX (s : State) (i : RegIdx) (v : Word) : State :=
  if i = 0 then s else { s with x := s.x.set i.toNat v i.isLt }

/-- `f[i]`: all 32 are ordinary (10_state.md R22). -/
def State.readF (s : State) (i : RegIdx) : Word := s.f[i.toNat]'i.isLt

/-- `f[i] <- v` (10_state.md R22). -/
def State.writeF (s : State) (i : RegIdx) (v : Word) : State := { s with f := s.f.set i.toNat v i.isLt }

/-! ### Taking a fatal condition

The hardware has no trap: a fatal condition transfers control nowhere, saves nothing, and there is no return from it
(60_exceptions.md R370, R373, R381, R382). -/

/-- `raise Fatal(cause, info)`: `run <- FATAL(cause, info)`. "That is all" (60_exceptions.md R373). -/
def raiseFatal (c : Fault) (s : State) : State := { s with run := .fatal c }

/-! ### Architectural memory -/

/-- `ArchMem(a)` (20_memory.md R63): the byte of the resident data-cache line, otherwise of `Mem`. -/
def State.archMem (s : State) (a : Nat) : Byte :=
  match Cache.lookup s.params.dc s.dc a with
  | some l => l.bytes.getD (offsetOf s.params.dc a) 0
  | none => s.mem.read a

/-- The little-endian value of `n` bytes of `ArchMem` from `a` (20_memory.md R61, R63). -/
def State.archValue (s : State) (a : Nat) : Nat → Nat
  | 0 => 0
  | n + 1 => (s.archMem a).toNat + 256 * State.archValue s (a + 1) n

/-! ### The miss protocols (21_cache.md section 4) -/

/-- The miss part of R110: fetch the block from `Mem`, install it, write a dirty victim back. -/
def dcFill (a : Nat) (s : State) : State :=
  let g := s.params.dc
  let r := Cache.install g s.dc a (s.mem.readBlock (baseOf g a) g.line)
  { s with
    dc := r.1
    mem := match r.2 with
      | some v => s.mem.writeBlock v.1 v.2
      | none => s.mem }

/-- `DCacheAccess(read, a, n)` (R110). The retry always hits: `dcRead_retry_hits` of Laws/Cache.lean, so that the last
branch is never taken, from any state. -/
def dcRead (a n : Nat) (s : State) : Word × State :=
  let s := { s with dcAccesses := s.dcAccesses + 1 }
  match Cache.read s.params.dc s.dc a n with
  | some r => (r.1, { s with dc := r.2, dcHits := s.dcHits + 1 })
  | none =>
    let s := dcFill a s
    match Cache.read s.params.dc s.dc a n with
    | some r => (r.1, { s with dc := r.2 })
    | none => (0, s)

/-- `DCacheAccess(write, a, n, v)` (R110). -/
def dcWrite (a n : Nat) (v : Word) (s : State) : State :=
  let s := { s with dcAccesses := s.dcAccesses + 1 }
  match Cache.write s.params.dc s.dc a n v with
  | some c => { s with dc := c, dcHits := s.dcHits + 1 }
  | none =>
    let s := dcFill a s
    match Cache.write s.params.dc s.dc a n v with
    | some c => { s with dc := c }
    | none => s

/-- `ICacheAccess(a)` (R111): fills from `Mem`, never from the data cache; its victim is never dirty and is dropped. -/
def icRead (a : Nat) (s : State) : Word × State :=
  let s := { s with icAccesses := s.icAccesses + 1 }
  let g := s.params.ic
  match Cache.read g s.ic a 4 with
  | some r => (r.1, { s with ic := r.2, icHits := s.icHits + 1 })
  | none =>
    let s := { s with ic := (Cache.install g s.ic a (s.mem.readBlock (baseOf g a) g.line)).1 }
    match Cache.read g s.ic a 4 with
    | some r => (r.1, { s with ic := r.2 })
    | none => (0, s)

/-! ### Data access and fetch (20_memory.md section 2) -/

/-- The checks of `MemRead` and `MemWrite`, alignment first, then range with an unreduced sum (R64 to R67). -/
def accessCheck (p : Params) (addr : Word) (n : Nat) : Option Fault :=
  if addr.toNat % n ≠ 0 then some (.misalignedAccess addr)
  else if addr.toNat + n > p.memSize then some (.memOutOfRange addr)
  else none

/-- The checks of `Fetch` (R68). -/
def fetchCheck (p : Params) (addr : Word) : Option Fault :=
  if addr.toNat % 4 ≠ 0 then some (.misalignedFetch addr)
  else if addr.toNat + 4 > p.memSize then some (.fetchOutOfRange addr)
  else none

/-- `MemRead(addr, n)` (R66): the fatal cause, or the n-byte unsigned value and the state after the access. -/
def memRead (addr : Word) (n : Nat) (s : State) : Except Fault (Word × State) :=
  match accessCheck s.params addr n with
  | some c => .error c
  | none => .ok (dcRead addr.toNat n s)

/-- `MemWrite(addr, n, v)` (R67). -/
def memWrite (addr : Word) (n : Nat) (v : Word) (s : State) : Except Fault State :=
  match accessCheck s.params addr n with
  | some c => .error c
  | none => .ok (dcWrite addr.toNat n v s)

/-- The liveness guard's count for a fetch at `a` (50_pipeline.md R331, R345). -/
def guardCount (a : Word) (s : State) : Nat := if s.lgAddr = some a then s.lgCount + 1 else 1

/-- A fetch that passed its checks (50_pipeline.md R331): the guard registers, the word through the instruction cache,
`pc <- A + 4`. -/
def fetchWord (s : State) : Word × State :=
  let a := s.pc
  let r := icRead a.toNat { s with lgAddr := some a, lgCount := guardCount a s }
  (r.1, { r.2 with pc := a + 4 })

/-- The fatal cause of a rejected word at an address (60_exceptions.md R372, R378, R379). -/
def decodeFault (e : DecodeError) (w addr : Word) : Fault :=
  match e with
  | .unrecognizedOpcode => .unrecognizedOpcode w addr
  | .unmappedInstruction => .unmappedInstruction w addr
  | .truncated => .unrecognizedOpcode w addr

/-! ### What the meanings share -/

/-- `origin_pc`, "current pc - 4" (50_pipeline.md R337): a meaning runs on the state its fetch left (log 17). -/
def State.originPc (s : State) : Word := s.pc - 4

/-- A result for the integer bank, the pc as the fetch left it. -/
def commitX (rd : RegIdx) (v : Word) (s : State) : Result := .next (s.writeX rd v)

/-- A result for the float bank, the pc as the fetch left it. -/
def commitF (rd : RegIdx) (v : Word) (s : State) : Result := .next (s.writeF rd v)

/-- A branch: `if taken then pc <- target`, otherwise nothing (41_control_transfer.md R229). -/
def branchTo (taken : Bool) (target : Word) (s : State) : Result := .next (if taken then { s with pc := target } else s)

/-- A jump: the link register, then the redirect (41_control_transfer.md R220, R221; conflict C8). -/
def jumpTo (rd : RegIdx) (link target : Word) (s : State) : Result := .next { s.writeX rd link with pc := target }

/-- A load into the integer bank: `MemRead`, extension, commit, or the fatal condition (42_load_store.md R251, R252). -/
def loadX (rd : RegIdx) (addr : Word) (n : Nat) (ext : Word → Word) (s : State) : Result :=
  match memRead addr n s with
  | .error c => .next (raiseFatal c s)
  | .ok r => .next (r.2.writeX rd (ext r.1))

/-- A load into the float bank (42_load_store.md R248). -/
def loadF (rd : RegIdx) (addr : Word) (n : Nat) (ext : Word → Word) (s : State) : Result :=
  match memRead addr n s with
  | .error c => .next (raiseFatal c s)
  | .ok r => .next (r.2.writeF rd (ext r.1))

/-- A store: `MemWrite`, or the fatal condition (42_load_store.md R251, R252). -/
def storeTo (addr : Word) (n : Nat) (v : Word) (s : State) : Result :=
  match memWrite addr n v s with
  | .error c => .next (raiseFatal c s)
  | .ok s' => .next s'

end Sys2Proof.Machine
end

