-- ==== Sys2Proof/Machine/Control.lean ====
section
/-! DEFINITION. The control-transfer instructions (41_control_transfer.md): conditions in Flags.lean, targets in
Operands.lean. A target with bit 1 set, or past memory, is reached; the next fetch is then fatal (R230). -/

namespace Sys2Proof.Machine

/-- JAL (R220). -/
def execJal (rd : RegIdx) (imm : Imm20) (s : State) : Result :=
  jumpTo rd (linkValue s.originPc) (jalTarget s.originPc imm) s
/-- JALR (R221): `x[rs1]` is read before `rd` is written. -/
def execJalr (rd rs1 : RegIdx) (imm : Imm12) (s : State) : Result :=
  jumpTo rd (linkValue s.originPc) (jalrTarget (s.readX rs1) imm) s
/-- BEQ (R222). -/
def execBeq (rs1 rs2 : RegIdx) (imm : Imm12) (s : State) : Result :=
  branchTo (takenBeq (s.readX rs1) (s.readX rs2)) (branchTarget s.originPc imm) s
/-- BNE (R223). -/
def execBne (rs1 rs2 : RegIdx) (imm : Imm12) (s : State) : Result :=
  branchTo (takenBne (s.readX rs1) (s.readX rs2)) (branchTarget s.originPc imm) s
/-- BLT (R224). -/
def execBlt (rs1 rs2 : RegIdx) (imm : Imm12) (s : State) : Result :=
  branchTo (takenBlt (s.readX rs1) (s.readX rs2)) (branchTarget s.originPc imm) s
/-- BGE (R225). -/
def execBge (rs1 rs2 : RegIdx) (imm : Imm12) (s : State) : Result :=
  branchTo (takenBge (s.readX rs1) (s.readX rs2)) (branchTarget s.originPc imm) s
/-- BLTU (R226). -/
def execBltu (rs1 rs2 : RegIdx) (imm : Imm12) (s : State) : Result :=
  branchTo (takenBltu (s.readX rs1) (s.readX rs2)) (branchTarget s.originPc imm) s
/-- BGEU (R227). -/
def execBgeu (rs1 rs2 : RegIdx) (imm : Imm12) (s : State) : Result :=
  branchTo (takenBgeu (s.readX rs1) (s.readX rs2)) (branchTarget s.originPc imm) s

end Sys2Proof.Machine
end

