-- ==== Sys2Proof/Machine/Fpu.lean ====
section
/-! DEFINITION. The floating-point unit (43_float.md part 1): exact, total, stateless functions on 32-bit patterns (R262).
Exact reals are fractions of naturals scaled by a power of two; nothing is approximated before the one rounding of R263. -/

namespace Sys2Proof.Machine

/-! ### Format and classes (R260, R261) -/

/-- `S(p) = p[31]` (R260). -/
def signF (p : Word) : Bool := p.getLsbD 31
/-- `E(p) = p[30:23]` (R260). -/
def expF (p : Word) : Nat := (p.extractLsb' 23 8).toNat
/-- `M(p) = p[22:0]` (R260). -/
def manF (p : Word) : Nat := (p.extractLsb' 0 23).toNat

/-- `cNaN`, the canonical NaN (R260). -/
def cNaN : Word := 0x7FC00000#32

/-- The four classes (R261). -/
inductive FClass where
  | zero | inf | nan | normal
deriving DecidableEq, Repr

/-- `class(p)` (R261): a subnormal pattern is a zero of its sign. -/
def classF (p : Word) : FClass :=
  if expF p = 0 then .zero
  else if expF p = 255 then (if manF p = 0 then .inf else .nan)
  else .normal

/-- The pattern `{s, e, m}` (R263). -/
def packF (s : Bool) (e m : Nat) : Word := BitVec.ofBool s ++ BitVec.ofNat 8 e ++ BitVec.ofNat 23 m

/-- `{s, 8'd255, 23'd0}`. -/
def infF (s : Bool) : Word := packF s 255 0
/-- `{s, 8'd0, 23'd0}`. -/
def zeroF (s : Bool) : Word := packF s 0 0

/-- The significand `2^23 + M(p)` of a NORMAL pattern: `|val(p)| = sigF p x 2^(E(p) - 150)` (R261). -/
def sigF (p : Word) : Nat := 2 ^ 23 + manF p

/-! ### Rounding and packing (R263) -/

/-- `num / den` rounded to an integer, to nearest, ties to the even integer. -/
def roundEven (num den : Nat) : Nat :=
  let q := num / den
  let r := num % den
  if 2 * r < den then q else if den < 2 * r then q + 1 else if q % 2 = 0 then q else q + 1

/-- `num / den x 2^e` as a fraction. -/
def scaleFrac (num den : Nat) (e : Int) : Nat × Nat :=
  if 0 ≤ e then (num * 2 ^ e.toNat, den) else (num, den * 2 ^ (-e).toNat)

/-- The integer `E` with `2^E <= num/den < 2^(E+1)`, for a positive fraction. -/
def ilog2 (num den : Nat) : Int :=
  let e : Int := (num.log2 : Int) - (den.log2 : Int)
  let r := scaleFrac num den (-e)
  if r.2 ≤ r.1 then e else e - 1

/-- The last four lines of R263: the rounded 24-bit significand `n` with exponent `e`, carried, overflowed or flushed. -/
def packRounded (s : Bool) (n : Nat) (e : Int) : Word :=
  let n' := if n = 2 ^ 24 then 2 ^ 23 else n
  let e' := if n = 2 ^ 24 then e + 1 else e
  if e' > 127 then infF s
  else if e' < -126 then zeroF s
  else packF s (e' + 127).toNat (n' - 2 ^ 23)

/-- `round_pack(s, r)` for the exact positive `r = num / den x 2^ex` (R263). -/
def roundPack (s : Bool) (num den : Nat) (ex : Int) : Word :=
  let l := ilog2 num den
  let q := scaleFrac num den (23 - l)
  packRounded s (roundEven q.1 q.2) (l + ex)

/-! ### Arithmetic -/

/-- The signed significand of a NORMAL pattern. -/
def sigInt (p : Word) : Int := if signF p then -(sigF p : Int) else (sigF p : Int)

/-- `val(a) + val(b)` of NORMAL patterns, exactly, as an integer times `2^(min(E(a), E(b)) - 150)`. -/
def sumInt (a b : Word) : Int :=
  let e := min (expF a) (expF b)
  sigInt a * 2 ^ (expF a - e) + sigInt b * 2 ^ (expF b - e)

/-- `fadd(a, b)` (R264). -/
def fadd (a b : Word) : Word :=
  match classF a, classF b with
  | .nan, _ => cNaN
  | _, .nan => cNaN
  | .inf, .inf => if signF a = signF b then a else cNaN
  | .inf, _ => a
  | _, .inf => b
  | .zero, .zero => zeroF (signF a && signF b)
  | .zero, .normal => b
  | .normal, .zero => a
  | .normal, .normal =>
    let r := sumInt a b
    if r = 0 then 0x00000000#32
    else roundPack (decide (r < 0)) r.natAbs 1 ((min (expF a) (expF b) : Nat) - 150)

/-- `fneg(a)`: "flips the sign bit only; pure bit operation" (R270). -/
def fneg (a : Word) : Word := a ^^^ 0x80000000#32

/-- `fsub(a, b) = fadd(a, b ^ 0x80000000)` (R265). -/
def fsub (a b : Word) : Word := fadd a (fneg b)

/-- `fmul(a, b)` (R266). -/
def fmul (a b : Word) : Word :=
  let s := signF a ^^ signF b
  match classF a, classF b with
  | .nan, _ => cNaN
  | _, .nan => cNaN
  | .inf, .zero => cNaN
  | .zero, .inf => cNaN
  | .inf, _ => infF s
  | _, .inf => infF s
  | .zero, _ => zeroF s
  | _, .zero => zeroF s
  | .normal, .normal => roundPack s (sigF a * sigF b) 1 ((expF a : Int) + expF b - 300)

/-- `fdiv(a, b)` (R267). -/
def fdiv (a b : Word) : Word :=
  let s := signF a ^^ signF b
  match classF a, classF b with
  | .nan, _ => cNaN
  | _, .nan => cNaN
  | .inf, .inf => cNaN
  | .zero, .zero => cNaN
  | .inf, _ => infF s
  | _, .inf => zeroF s
  | _, .zero => infF s
  | .zero, _ => zeroF s
  | .normal, .normal => roundPack s (sigF a) (sigF b) ((expF a : Int) - expF b)

/-- The integer square root of `n` among the numbers below `lo + 2^k`, by its bits from bit `k - 1` down. -/
def isqrtFrom (n : Nat) (lo : Nat) : Nat → Nat
  | 0 => lo
  | k + 1 => isqrtFrom n (if (lo + 2 ^ k) * (lo + 2 ^ k) ≤ n then lo + 2 ^ k else lo) k

/-- The square root of `n < 2^48` rounded to the nearest integer: `sqrt(n) > q + 1/2` iff `n > q(q+1)`; a tie cannot
occur (R268). -/
def sqrtNearest (n : Nat) : Nat :=
  let q := isqrtFrom n 0 24
  if n > q * (q + 1) then q + 1 else q

/-- `fsqrt(a)` (R268). For a NORMAL `a` with `val(a) = m x 2^t`, t = E(a) - 150: the root is `sqrt(m x 2^24) x 2^(t/2 - 12)`
for even `t` and `sqrt(m x 2^23) x 2^((t+1)/2 - 12)` for odd `t`; the root of the scaled significand lies in
[2^23, 2^24), so it is the `q` of R263 with `E = 23` plus that exponent. -/
def fsqrt (a : Word) : Word :=
  match classF a with
  | .nan => cNaN
  | .zero => zeroF (signF a)
  | .inf => if signF a then cNaN else a
  | .normal =>
    if signF a then cNaN
    else if expF a % 2 = 0 then packRounded false (sqrtNearest (sigF a * 2 ^ 24)) (((expF a : Int) - 150) / 2 + 11)
    else packRounded false (sqrtNearest (sigF a * 2 ^ 23)) (((expF a : Int) - 149) / 2 + 11)

/-! ### Compare (R269) -/

/-- `fnorm(p)` (R269). -/
def fnorm (p : Word) : Word := if expF p = 0 then 0x00000000#32 else p

/-- `ford(q)` (R269): a sign-magnitude integer. -/
def ford (q : Word) : Int :=
  if signF q then -((q.extractLsb' 0 31).toNat : Int) else ((q.extractLsb' 0 31).toNat : Int)

/-- `feq(a, b)` (R269). -/
def feq (a b : Word) : Bool := fnorm a == fnorm b
/-- `flt(a, b)` (R269). -/
def flt (a b : Word) : Bool := decide (ford (fnorm a) < ford (fnorm b))
/-- `fle(a, b)` (R269). -/
def fle (a b : Word) : Bool := decide (ford (fnorm a) ≤ ford (fnorm b))

/-! ### Conversions -/

/-- `itof(x)` (R271). -/
def itof (x : Word) : Word :=
  if x.toInt = 0 then 0x00000000#32 else roundPack (decide (x.toInt < 0)) x.toInt.natAbs 1 0

/-- `|val(p)|` of a NORMAL pattern rounded to an integer, to nearest, ties to even (R272). -/
def roundedMagnitude (p : Word) : Nat :=
  let r := scaleFrac (sigF p) 1 ((expF p : Int) - 150)
  roundEven r.1 r.2

/-- `ftoi(p)` (R272). -/
def ftoi (p : Word) : Word :=
  match classF p with
  | .zero => 0x00000000#32
  | .nan => 0x7FFFFFFF#32
  | .inf => if signF p then 0x80000000#32 else 0x7FFFFFFF#32
  | .normal =>
    let r : Int := if signF p then -(roundedMagnitude p : Int) else (roundedMagnitude p : Int)
    if r > 2 ^ 31 - 1 then 0x7FFFFFFF#32
    else if r < -2 ^ 31 then 0x80000000#32
    else BitVec.ofInt 32 r

/-! ### Sign injection (R285 to R287) -/

/-- `{f[rs2][31], f[rs1][30:0]}` (R285). -/
def fsgnj (a b : Word) : Word := b.extractLsb' 31 1 ++ a.extractLsb' 0 31
/-- `{~f[rs2][31], f[rs1][30:0]}` (R286). -/
def fsgnjn (a b : Word) : Word := ~~~ (b.extractLsb' 31 1) ++ a.extractLsb' 0 31
/-- `{f[rs1][31] ^ f[rs2][31], f[rs1][30:0]}` (R287). -/
def fsgnjx (a b : Word) : Word := (a.extractLsb' 31 1 ^^^ b.extractLsb' 31 1) ++ a.extractLsb' 0 31

end Sys2Proof.Machine
end

