-- ==== Sys2Proof/Machine/Float.lean ====
section
/-! DEFINITION. The floating-point register instructions (43_float.md part 2) over the functions of Fpu.lean. -/

namespace Sys2Proof.Machine

/-- FADD.S (R280). -/
def execFaddS (rd rs1 rs2 : RegIdx) (s : State) : Result := commitF rd (fadd (s.readF rs1) (s.readF rs2)) s
/-- FSUB.S (R281). -/
def execFsubS (rd rs1 rs2 : RegIdx) (s : State) : Result := commitF rd (fsub (s.readF rs1) (s.readF rs2)) s
/-- FMUL.S (R282). -/
def execFmulS (rd rs1 rs2 : RegIdx) (s : State) : Result := commitF rd (fmul (s.readF rs1) (s.readF rs2)) s
/-- FDIV.S (R283): `f[rs1]` is the dividend. -/
def execFdivS (rd rs1 rs2 : RegIdx) (s : State) : Result := commitF rd (fdiv (s.readF rs1) (s.readF rs2)) s
/-- FSQRT.S (R284). -/
def execFsqrtS (rd rs1 : RegIdx) (s : State) : Result := commitF rd (fsqrt (s.readF rs1)) s
/-- FSGNJ.S (R285). -/
def execFsgnjS (rd rs1 rs2 : RegIdx) (s : State) : Result := commitF rd (fsgnj (s.readF rs1) (s.readF rs2)) s
/-- FSGNJN.S (R286). -/
def execFsgnjnS (rd rs1 rs2 : RegIdx) (s : State) : Result := commitF rd (fsgnjn (s.readF rs1) (s.readF rs2)) s
/-- FSGNJX.S (R287). -/
def execFsgnjxS (rd rs1 rs2 : RegIdx) (s : State) : Result := commitF rd (fsgnjx (s.readF rs1) (s.readF rs2)) s
/-- FEQ.S (R288): the destination is an integer register. -/
def execFeqS (rd rs1 rs2 : RegIdx) (s : State) : Result := commitX rd (boolWord (feq (s.readF rs1) (s.readF rs2))) s
/-- FLT.S (R289): the destination is an integer register. -/
def execFltS (rd rs1 rs2 : RegIdx) (s : State) : Result := commitX rd (boolWord (flt (s.readF rs1) (s.readF rs2))) s
/-- FLE.S (R290): the destination is an integer register. -/
def execFleS (rd rs1 rs2 : RegIdx) (s : State) : Result := commitX rd (boolWord (fle (s.readF rs1) (s.readF rs2))) s
/-- FCVT.W.S (R291): float source, integer destination. -/
def execFcvtWS (rd rs1 : RegIdx) (s : State) : Result := commitX rd (ftoi (s.readF rs1)) s
/-- FCVT.S.W (R292): integer source, float destination. -/
def execFcvtSW (rd rs1 : RegIdx) (s : State) : Result := commitF rd (itof (s.readX rs1)) s

end Sys2Proof.Machine
end

