-- ==== Sys2Proof/Machine/Integer.lean ====
section
/-! DEFINITION. The integer computational instructions (40_integer_computational.md). For each mnemonic, the pure result its
execute stage computes (50_pipeline.md R333, R339), used by the engine and by the meaning, and the meaning. -/

namespace Sys2Proof.Machine

/-! ### Results -/

/-- LUI (R170): `{imm20, 12'b0}`. -/
def resultLui (imm : Imm20) : Word := immU imm
/-- AUIPC (R171): `origin_pc + {imm20, 12'b0}`. -/
def resultAuipc (originPc : Word) (imm : Imm20) : Word := originPc + immU imm
/-- ADDI (R172). -/
def resultAddi (a : Word) (imm : Imm12) : Word := a + immI imm
/-- SLTI (R173). -/
def resultSlti (a : Word) (imm : Imm12) : Word := boolWord (ltSigned a (immI imm))
/-- SLTIU (R174): the immediate is sign-extended, then compared unsigned. -/
def resultSltiu (a : Word) (imm : Imm12) : Word := boolWord (ltUnsigned a (immI imm))
/-- XORI (R175). -/
def resultXori (a : Word) (imm : Imm12) : Word := a ^^^ immI imm
/-- ORI (R176). -/
def resultOri (a : Word) (imm : Imm12) : Word := a ||| immI imm
/-- ANDI (R177). -/
def resultAndi (a : Word) (imm : Imm12) : Word := a &&& immI imm
/-- SLLI (R178). -/
def resultSlli (a : Word) (imm : Imm12) : Word := a <<< shamtImm imm
/-- SRLI (R179). -/
def resultSrli (a : Word) (imm : Imm12) : Word := a >>> shamtImm imm
/-- SRAI (R180). -/
def resultSrai (a : Word) (imm : Imm12) : Word := a.sshiftRight (shamtImm imm)
/-- ADD (R181). -/
def resultAdd (a b : Word) : Word := a + b
/-- SUB (R182). -/
def resultSub (a b : Word) : Word := a - b
/-- SLL (R183). -/
def resultSll (a b : Word) : Word := a <<< shamtReg b
/-- SLT (R184). -/
def resultSlt (a b : Word) : Word := boolWord (ltSigned a b)
/-- SLTU (R185). -/
def resultSltu (a b : Word) : Word := boolWord (ltUnsigned a b)
/-- XOR (R186). -/
def resultXor (a b : Word) : Word := a ^^^ b
/-- SRL (R187). -/
def resultSrl (a b : Word) : Word := a >>> shamtReg b
/-- SRA (R188). -/
def resultSra (a b : Word) : Word := a.sshiftRight (shamtReg b)
/-- OR (R189). -/
def resultOr (a b : Word) : Word := a ||| b
/-- AND (R190). -/
def resultAnd (a b : Word) : Word := a &&& b

/-! ### Meanings -/

/-- LUI (R170). -/
def execLui (rd : RegIdx) (imm : Imm20) (s : State) : Result := commitX rd (resultLui imm) s
/-- AUIPC (R171). -/
def execAuipc (rd : RegIdx) (imm : Imm20) (s : State) : Result := commitX rd (resultAuipc s.originPc imm) s
/-- ADDI (R172). -/
def execAddi (rd rs1 : RegIdx) (imm : Imm12) (s : State) : Result := commitX rd (resultAddi (s.readX rs1) imm) s
/-- SLTI (R173). -/
def execSlti (rd rs1 : RegIdx) (imm : Imm12) (s : State) : Result := commitX rd (resultSlti (s.readX rs1) imm) s
/-- SLTIU (R174). -/
def execSltiu (rd rs1 : RegIdx) (imm : Imm12) (s : State) : Result := commitX rd (resultSltiu (s.readX rs1) imm) s
/-- XORI (R175). -/
def execXori (rd rs1 : RegIdx) (imm : Imm12) (s : State) : Result := commitX rd (resultXori (s.readX rs1) imm) s
/-- ORI (R176). -/
def execOri (rd rs1 : RegIdx) (imm : Imm12) (s : State) : Result := commitX rd (resultOri (s.readX rs1) imm) s
/-- ANDI (R177). -/
def execAndi (rd rs1 : RegIdx) (imm : Imm12) (s : State) : Result := commitX rd (resultAndi (s.readX rs1) imm) s
/-- SLLI (R178). -/
def execSlli (rd rs1 : RegIdx) (imm : Imm12) (s : State) : Result := commitX rd (resultSlli (s.readX rs1) imm) s
/-- SRLI (R179). -/
def execSrli (rd rs1 : RegIdx) (imm : Imm12) (s : State) : Result := commitX rd (resultSrli (s.readX rs1) imm) s
/-- SRAI (R180). -/
def execSrai (rd rs1 : RegIdx) (imm : Imm12) (s : State) : Result := commitX rd (resultSrai (s.readX rs1) imm) s
/-- ADD (R181). -/
def execAdd (rd rs1 rs2 : RegIdx) (s : State) : Result := commitX rd (resultAdd (s.readX rs1) (s.readX rs2)) s
/-- SUB (R182). -/
def execSub (rd rs1 rs2 : RegIdx) (s : State) : Result := commitX rd (resultSub (s.readX rs1) (s.readX rs2)) s
/-- SLL (R183). -/
def execSll (rd rs1 rs2 : RegIdx) (s : State) : Result := commitX rd (resultSll (s.readX rs1) (s.readX rs2)) s
/-- SLT (R184). -/
def execSlt (rd rs1 rs2 : RegIdx) (s : State) : Result := commitX rd (resultSlt (s.readX rs1) (s.readX rs2)) s
/-- SLTU (R185). -/
def execSltu (rd rs1 rs2 : RegIdx) (s : State) : Result := commitX rd (resultSltu (s.readX rs1) (s.readX rs2)) s
/-- XOR (R186). -/
def execXor (rd rs1 rs2 : RegIdx) (s : State) : Result := commitX rd (resultXor (s.readX rs1) (s.readX rs2)) s
/-- SRL (R187). -/
def execSrl (rd rs1 rs2 : RegIdx) (s : State) : Result := commitX rd (resultSrl (s.readX rs1) (s.readX rs2)) s
/-- SRA (R188). -/
def execSra (rd rs1 rs2 : RegIdx) (s : State) : Result := commitX rd (resultSra (s.readX rs1) (s.readX rs2)) s
/-- OR (R189). -/
def execOr (rd rs1 rs2 : RegIdx) (s : State) : Result := commitX rd (resultOr (s.readX rs1) (s.readX rs2)) s
/-- AND (R190). -/
def execAnd (rd rs1 rs2 : RegIdx) (s : State) : Result := commitX rd (resultAnd (s.readX rs1) (s.readX rs2)) s

end Sys2Proof.Machine
end

