-- ==== Sys2Proof/Machine/LoadStore.lean ====
section
/-! DEFINITION. The load and store instructions (42_load_store.md): width and extension of each kind, used by the engine's
memory stage and by the meaning, and the meanings. -/

namespace Sys2Proof.Machine

/-- LB extends the sign of a byte (R240). -/
def extendLb (v : Word) : Word := sext 8 v
/-- LH extends the sign of a halfword (R241). -/
def extendLh (v : Word) : Word := sext 16 v
/-- LW needs no extension (R242). -/
def extendLw (v : Word) : Word := v
/-- LBU fills with zeros (R243). -/
def extendLbu (v : Word) : Word := zext 8 v
/-- LHU fills with zeros (R244). -/
def extendLhu (v : Word) : Word := zext 16 v
/-- FLW copies the 32 bits unchanged (R248). -/
def extendFlw (v : Word) : Word := v

/-- LB (R240). -/
def execLb (rd rs1 : RegIdx) (imm : Imm12) (s : State) : Result :=
  loadX rd (effectiveAddress (s.readX rs1) imm) 1 extendLb s
/-- LH (R241). -/
def execLh (rd rs1 : RegIdx) (imm : Imm12) (s : State) : Result :=
  loadX rd (effectiveAddress (s.readX rs1) imm) 2 extendLh s
/-- LW (R242). -/
def execLw (rd rs1 : RegIdx) (imm : Imm12) (s : State) : Result :=
  loadX rd (effectiveAddress (s.readX rs1) imm) 4 extendLw s
/-- LBU (R243). -/
def execLbu (rd rs1 : RegIdx) (imm : Imm12) (s : State) : Result :=
  loadX rd (effectiveAddress (s.readX rs1) imm) 1 extendLbu s
/-- LHU (R244). -/
def execLhu (rd rs1 : RegIdx) (imm : Imm12) (s : State) : Result :=
  loadX rd (effectiveAddress (s.readX rs1) imm) 2 extendLhu s
/-- SB (R245). -/
def execSb (rs1 rs2 : RegIdx) (imm : Imm12) (s : State) : Result :=
  storeTo (effectiveAddress (s.readX rs1) imm) 1 (s.readX rs2) s
/-- SH (R246). -/
def execSh (rs1 rs2 : RegIdx) (imm : Imm12) (s : State) : Result :=
  storeTo (effectiveAddress (s.readX rs1) imm) 2 (s.readX rs2) s
/-- SW (R247). -/
def execSw (rs1 rs2 : RegIdx) (imm : Imm12) (s : State) : Result :=
  storeTo (effectiveAddress (s.readX rs1) imm) 4 (s.readX rs2) s
/-- FLW (R248): the base is an integer register, the destination a float register. -/
def execFlw (rd rs1 : RegIdx) (imm : Imm12) (s : State) : Result :=
  loadF rd (effectiveAddress (s.readX rs1) imm) 4 extendFlw s
/-- FSW (R249): the base is an integer register, the data a float register. -/
def execFsw (rs1 rs2 : RegIdx) (imm : Imm12) (s : State) : Result :=
  storeTo (effectiveAddress (s.readX rs1) imm) 4 (s.readF rs2) s

end Sys2Proof.Machine
end

