-- ==== Sys2Proof/Machine/Loader.lean ====
section
/-! DEFINITION. The program side of the host interface (80_host_interface.md R430, R431; 70_reset_and_hazards.md R400 to R402;
30_encoding.md R162): the text line, the image in memory, construction, and placing one word where the next fetch reads. -/

namespace Sys2Proof.Machine

/-- One character of a text image line. -/
def bitOfChar (c : Char) : Option Bool := if c = '0' then some false else if c = '1' then some true else none

/-- The value of a text of bits, "the leftmost being bit 31" (30_encoding.md R162); none if a character is no bit. -/
def bitsValue : List Char → Nat → Option Nat
  | [], acc => some acc
  | c :: cs, acc => (bitOfChar c).bind fun b => bitsValue cs (2 * acc + b.toNat)

/-- A text image line: 32 characters `0` or `1`; any other line is malformed and rejected (80_host_interface.md R430). -/
def parseImageLine (cs : List Char) : Option Word :=
  if cs.length = 32 then (bitsValue cs 0).map (BitVec.ofNat 32) else none

/-- Word k of the image at address 4k, little-endian (80_host_interface.md R431), from address `a` on. -/
def loadImage (m : Memory) (a : Nat) : List Word → Memory
  | [] => m
  | w :: ws => loadImage (m.writeBlock a (bytesOfWord w)) (a + 4) ws

/-- `init(params, image)` (80_host_interface.md R431): refused when the parameters break 00_scope.md R6 or the image does
not fit (70_reset_and_hazards.md R402); otherwise the reset state of R400 with the image in memory. -/
def State.construct (p : Params) (image : List Word) : Option State :=
  if p.WellFormed ∧ 4 * image.length ≤ p.memSize then some (State.resetWith p (loadImage [] 0 image)) else none

/-- The word's bytes put over the bytes of a resident line that holds address `a`, nothing else of the cache changed. -/
def patchCache (g : Geometry) (c : Cache) (a : Nat) (bs : List Byte) : Cache :=
  let i := indexOf g a
  match Cache.lookup g c a with
  | none => c
  | some _ =>
    Cache.putSet c i ((Cache.setAt c i).map fun l =>
      if l.tag == tagOf g a then { l with bytes := l.splice (offsetOf g a) bs } else l)

/-- A word stored where the next fetch reads (log 8): in `Mem` at pc, and over the line of either cache that holds that
address, so that the caches stay copies of `Mem`. A fetch also needs `run = RUNNING` and a guard that does not fire, so
the run is set running and a guard about to fire is cleared. -/
def placeFetchWord (w : Word) (s : State) : State :=
  let bs := bytesOfWord w
  { s with
    mem := s.mem.writeBlock s.pc.toNat bs
    ic := patchCache s.params.ic s.ic s.pc.toNat bs
    dc := patchCache s.params.dc s.dc s.pc.toNat bs
    lgAddr := if guardCount s.pc s ≥ Config.livenessN then none else s.lgAddr
    lgCount := if guardCount s.pc s ≥ Config.livenessN then 0 else s.lgCount
    run := .running }

end Sys2Proof.Machine
end

