-- ==== Sys2Proof/Machine/Step.lean ====
section
/-! DEFINITION. One step of the machine the host runs: `seqstep`, the sequential reference (50_pipeline.md R360), which
executes one instruction completely (log 1). -/

namespace Sys2Proof.Machine

/-- `seqstep` (R360). `run = HALTED`: nothing changes; `run = FATAL(cause, info)`: the machine has stopped and the step
answers the cause (log 6). A fatal condition met in the step is a next state with `run = FATAL` (60_exceptions.md R373). -/
def step (s : State) : Host.Outcome State Fault Refusal :=
  match s.run with
  | .halted => .next s
  | .fatal c => .fault c
  | .running =>
    if guardCount s.pc s ≥ Config.livenessN then .next { s with run := .halted }
    else
      match fetchCheck s.params s.pc with
      | some c => .next (raiseFatal c s)
      | none =>
        let r := fetchWord s
        match decodeWord r.1 with
        | .rejected e => .next (raiseFatal (decodeFault e r.1 s.pc) r.2)
        | .instr i => exec i { r.2 with icount := r.2.icount + 1 }

/-- The state with an instruction's bits stored where `step` fetches next (log 8): the bits above `nbits` are 0. -/
def State.withFetchWord (s : State) (nbits w : Nat) : State :=
  placeFetchWord (BitVec.ofNat 32 (w % 2 ^ nbits)) s

end Sys2Proof.Machine
end

