-- ==== Sys2Proof/Machine/Engine.lean ====
section
/-! DEFINITION. The pipeline engine (50_pipeline.md): `tick` and its five steps, register-fetch with forwarding, the
load-use interlock, the fetch hold, fatal words and the liveness guard. "The engine level is the hardware" (00_scope.md
R12). The results, targets, extensions and checks are those the meanings of the sequential reference use. -/

namespace Sys2Proof.Machine

/-! ### Introspection (R339) -/

/-- The two register banks (10_state.md R22). -/
inductive Bank where
  | x | f
deriving DecidableEq, Repr

/-- A register: a bank and an index. -/
structure RegRef where
  bank : Bank
  idx  : RegIdx
deriving DecidableEq, Repr

/-- The integer register of an index. -/
def xr (i : RegIdx) : RegRef := { bank := .x, idx := i }
/-- The float register of an index. -/
def fr (i : RegIdx) : RegRef := { bank := .f, idx := i }

/-- The sources of a kind, (for op1, for op2) (R339). -/
def sourcesOf : Instr → Option RegRef × Option RegRef
  | .lui _ _ | .auipc _ _ | .jal _ _ => (none, none)
  | .jalr _ rs1 _ => (some (xr rs1), none)
  | .beq rs1 rs2 _ | .bne rs1 rs2 _ | .blt rs1 rs2 _ | .bge rs1 rs2 _ | .bltu rs1 rs2 _ | .bgeu rs1 rs2 _ =>
    (some (xr rs1), some (xr rs2))
  | .lb _ rs1 _ | .lh _ rs1 _ | .lw _ rs1 _ | .lbu _ rs1 _ | .lhu _ rs1 _ | .flw _ rs1 _ => (some (xr rs1), none)
  | .sb rs1 rs2 _ | .sh rs1 rs2 _ | .sw rs1 rs2 _ => (some (xr rs1), some (xr rs2))
  | .fsw rs1 rs2 _ => (some (xr rs1), some (fr rs2))
  | .addi _ rs1 _ | .slti _ rs1 _ | .sltiu _ rs1 _ | .xori _ rs1 _ | .ori _ rs1 _ | .andi _ rs1 _
  | .slli _ rs1 _ | .srli _ rs1 _ | .srai _ rs1 _ => (some (xr rs1), none)
  | .add _ rs1 rs2 | .sub _ rs1 rs2 | .sll _ rs1 rs2 | .slt _ rs1 rs2 | .sltu _ rs1 rs2
  | .xor _ rs1 rs2 | .srl _ rs1 rs2 | .sra _ rs1 rs2 | .or _ rs1 rs2 | .and _ rs1 rs2 =>
    (some (xr rs1), some (xr rs2))
  | .faddS _ rs1 rs2 | .fsubS _ rs1 rs2 | .fmulS _ rs1 rs2 | .fdivS _ rs1 rs2
  | .fsgnjS _ rs1 rs2 | .fsgnjnS _ rs1 rs2 | .fsgnjxS _ rs1 rs2
  | .feqS _ rs1 rs2 | .fltS _ rs1 rs2 | .fleS _ rs1 rs2 => (some (fr rs1), some (fr rs2))
  | .fsqrtS _ rs1 | .fcvtWS _ rs1 => (some (fr rs1), none)
  | .fcvtSW _ rs1 => (some (xr rs1), none)

/-- The destination of a kind, if it has one (R339). -/
def destOf : Instr → Option RegRef
  | .lui rd _ | .auipc rd _ | .jal rd _ | .jalr rd _ _ => some (xr rd)
  | .beq _ _ _ | .bne _ _ _ | .blt _ _ _ | .bge _ _ _ | .bltu _ _ _ | .bgeu _ _ _ => none
  | .lb rd _ _ | .lh rd _ _ | .lw rd _ _ | .lbu rd _ _ | .lhu rd _ _ => some (xr rd)
  | .flw rd _ _ => some (fr rd)
  | .sb _ _ _ | .sh _ _ _ | .sw _ _ _ | .fsw _ _ _ => none
  | .addi rd _ _ | .slti rd _ _ | .sltiu rd _ _ | .xori rd _ _ | .ori rd _ _ | .andi rd _ _
  | .slli rd _ _ | .srli rd _ _ | .srai rd _ _ => some (xr rd)
  | .add rd _ _ | .sub rd _ _ | .sll rd _ _ | .slt rd _ _ | .sltu rd _ _
  | .xor rd _ _ | .srl rd _ _ | .sra rd _ _ | .or rd _ _ | .and rd _ _ => some (xr rd)
  | .faddS rd _ _ | .fsubS rd _ _ | .fmulS rd _ _ | .fdivS rd _ _ | .fsqrtS rd _
  | .fsgnjS rd _ _ | .fsgnjnS rd _ _ | .fsgnjxS rd _ _ | .fcvtSW rd _ => some (fr rd)
  | .feqS rd _ _ | .fltS rd _ _ | .fleS rd _ _ | .fcvtWS rd _ => some (xr rd)

/-- The width and extension of a load; none for any other kind, so `is_load` is `(loadOf i).isSome` (R334, R339). -/
def loadOf : Instr → Option (Nat × (Word → Word))
  | .lb _ _ _ => some (1, extendLb)
  | .lh _ _ _ => some (2, extendLh)
  | .lw _ _ _ => some (4, extendLw)
  | .lbu _ _ _ => some (1, extendLbu)
  | .lhu _ _ _ => some (2, extendLhu)
  | .flw _ _ _ => some (4, extendFlw)
  | .lui _ _ | .auipc _ _ | .jal _ _ | .jalr _ _ _
  | .beq _ _ _ | .bne _ _ _ | .blt _ _ _ | .bge _ _ _ | .bltu _ _ _ | .bgeu _ _ _
  | .sb _ _ _ | .sh _ _ _ | .sw _ _ _ | .fsw _ _ _
  | .addi _ _ _ | .slti _ _ _ | .sltiu _ _ _ | .xori _ _ _ | .ori _ _ _ | .andi _ _ _
  | .slli _ _ _ | .srli _ _ _ | .srai _ _ _
  | .add _ _ _ | .sub _ _ _ | .sll _ _ _ | .slt _ _ _ | .sltu _ _ _
  | .xor _ _ _ | .srl _ _ _ | .sra _ _ _ | .or _ _ _ | .and _ _ _
  | .faddS _ _ _ | .fsubS _ _ _ | .fmulS _ _ _ | .fdivS _ _ _ | .fsqrtS _ _
  | .fsgnjS _ _ _ | .fsgnjnS _ _ _ | .fsgnjxS _ _ _
  | .feqS _ _ _ | .fltS _ _ _ | .fleS _ _ _ | .fcvtWS _ _ | .fcvtSW _ _ => none

/-- The width of a store; none for any other kind (R334). -/
def storeOf : Instr → Option Nat
  | .sb _ _ _ => some 1
  | .sh _ _ _ => some 2
  | .sw _ _ _ => some 4
  | .fsw _ _ _ => some 4
  | .lui _ _ | .auipc _ _ | .jal _ _ | .jalr _ _ _
  | .beq _ _ _ | .bne _ _ _ | .blt _ _ _ | .bge _ _ _ | .bltu _ _ _ | .bgeu _ _ _
  | .lb _ _ _ | .lh _ _ _ | .lw _ _ _ | .lbu _ _ _ | .lhu _ _ _ | .flw _ _ _
  | .addi _ _ _ | .slti _ _ _ | .sltiu _ _ _ | .xori _ _ _ | .ori _ _ _ | .andi _ _ _
  | .slli _ _ _ | .srli _ _ _ | .srai _ _ _
  | .add _ _ _ | .sub _ _ _ | .sll _ _ _ | .slt _ _ _ | .sltu _ _ _
  | .xor _ _ _ | .srl _ _ _ | .sra _ _ _ | .or _ _ _ | .and _ _ _
  | .faddS _ _ _ | .fsubS _ _ _ | .fmulS _ _ _ | .fdivS _ _ _ | .fsqrtS _ _
  | .fsgnjS _ _ _ | .fsgnjnS _ _ _ | .fsgnjxS _ _ _
  | .feqS _ _ _ | .fltS _ _ _ | .fleS _ _ _ | .fcvtWS _ _ | .fcvtSW _ _ => none

/-- `is_load`, "true exactly for the six loads" (R339). -/
def isLoad (i : Instr) : Bool := (loadOf i).isSome

/-- A store, the kinds that "skip write-back" (R334). -/
def isStore (i : Instr) : Bool := (storeOf i).isSome

/-- `is_branch_or_jump`, "true exactly for the eight kinds" (R339). -/
def isBranchOrJump : Instr → Bool
  | .jal _ _ | .jalr _ _ _ => true
  | .beq _ _ _ | .bne _ _ _ | .blt _ _ _ | .bge _ _ _ | .bltu _ _ _ | .bgeu _ _ _ => true
  | .lui _ _ | .auipc _ _
  | .lb _ _ _ | .lh _ _ _ | .lw _ _ _ | .lbu _ _ _ | .lhu _ _ _ | .flw _ _ _
  | .sb _ _ _ | .sh _ _ _ | .sw _ _ _ | .fsw _ _ _
  | .addi _ _ _ | .slti _ _ _ | .sltiu _ _ _ | .xori _ _ _ | .ori _ _ _ | .andi _ _ _
  | .slli _ _ _ | .srli _ _ _ | .srai _ _ _
  | .add _ _ _ | .sub _ _ _ | .sll _ _ _ | .slt _ _ _ | .sltu _ _ _
  | .xor _ _ _ | .srl _ _ _ | .sra _ _ _ | .or _ _ _ | .and _ _ _
  | .faddS _ _ _ | .fsubS _ _ _ | .fmulS _ _ _ | .fdivS _ _ _ | .fsqrtS _ _
  | .fsgnjS _ _ _ | .fsgnjnS _ _ _ | .fsgnjxS _ _ _
  | .feqS _ _ _ | .fltS _ _ _ | .fleS _ _ _ | .fcvtWS _ _ | .fcvtSW _ _ => false

/-- The kinds for which register-fetch records `origin_pc`: "branches, jumps and AUIPC" (10_state.md R31). -/
def recordsOriginPc (i : Instr) : Bool :=
  match i with
  | .auipc _ _ => true
  | i => isBranchOrJump i

/-! ### Execute (R333, R339) -/

/-- What execute fills, by kind (R339). -/
inductive ExecuteOut where
  | result (v : Word)
  | addr (a : Word)
  | branch (taken : Bool) (target : Word)
  | jump (link target : Word)
deriving DecidableEq, Repr

/-- "pure computation over fetched operand values and any immediate" (R333): `a`, `b`, `pc` are op1, op2, origin_pc. -/
def executeOut (i : Instr) (a b pc : Word) : ExecuteOut :=
  match i with
  | .lui _ imm => .result (resultLui imm)
  | .auipc _ imm => .result (resultAuipc pc imm)
  | .jal _ imm => .jump (linkValue pc) (jalTarget pc imm)
  | .jalr _ _ imm => .jump (linkValue pc) (jalrTarget a imm)
  | .beq _ _ imm => .branch (takenBeq a b) (branchTarget pc imm)
  | .bne _ _ imm => .branch (takenBne a b) (branchTarget pc imm)
  | .blt _ _ imm => .branch (takenBlt a b) (branchTarget pc imm)
  | .bge _ _ imm => .branch (takenBge a b) (branchTarget pc imm)
  | .bltu _ _ imm => .branch (takenBltu a b) (branchTarget pc imm)
  | .bgeu _ _ imm => .branch (takenBgeu a b) (branchTarget pc imm)
  | .lb _ _ imm => .addr (effectiveAddress a imm)
  | .lh _ _ imm => .addr (effectiveAddress a imm)
  | .lw _ _ imm => .addr (effectiveAddress a imm)
  | .lbu _ _ imm => .addr (effectiveAddress a imm)
  | .lhu _ _ imm => .addr (effectiveAddress a imm)
  | .flw _ _ imm => .addr (effectiveAddress a imm)
  | .sb _ _ imm => .addr (effectiveAddress a imm)
  | .sh _ _ imm => .addr (effectiveAddress a imm)
  | .sw _ _ imm => .addr (effectiveAddress a imm)
  | .fsw _ _ imm => .addr (effectiveAddress a imm)
  | .addi _ _ imm => .result (resultAddi a imm)
  | .slti _ _ imm => .result (resultSlti a imm)
  | .sltiu _ _ imm => .result (resultSltiu a imm)
  | .xori _ _ imm => .result (resultXori a imm)
  | .ori _ _ imm => .result (resultOri a imm)
  | .andi _ _ imm => .result (resultAndi a imm)
  | .slli _ _ imm => .result (resultSlli a imm)
  | .srli _ _ imm => .result (resultSrli a imm)
  | .srai _ _ imm => .result (resultSrai a imm)
  | .add _ _ _ => .result (resultAdd a b)
  | .sub _ _ _ => .result (resultSub a b)
  | .sll _ _ _ => .result (resultSll a b)
  | .slt _ _ _ => .result (resultSlt a b)
  | .sltu _ _ _ => .result (resultSltu a b)
  | .xor _ _ _ => .result (resultXor a b)
  | .srl _ _ _ => .result (resultSrl a b)
  | .sra _ _ _ => .result (resultSra a b)
  | .or _ _ _ => .result (resultOr a b)
  | .and _ _ _ => .result (resultAnd a b)
  | .faddS _ _ _ => .result (fadd a b)
  | .fsubS _ _ _ => .result (fsub a b)
  | .fmulS _ _ _ => .result (fmul a b)
  | .fdivS _ _ _ => .result (fdiv a b)
  | .fsqrtS _ _ => .result (fsqrt a)
  | .fsgnjS _ _ _ => .result (fsgnj a b)
  | .fsgnjnS _ _ _ => .result (fsgnjn a b)
  | .fsgnjxS _ _ _ => .result (fsgnjx a b)
  | .feqS _ _ _ => .result (boolWord (feq a b))
  | .fltS _ _ _ => .result (boolWord (flt a b))
  | .fleS _ _ _ => .result (boolWord (fle a b))
  | .fcvtWS _ _ => .result (ftoi a)
  | .fcvtSW _ _ => .result (itof a)

/-- Fills the execute fields of a record (10_state.md R31). A field the kind has not is not looked at by `executeOut`, so
the 0 that stands for an empty one is never used (log 18). -/
def executeFill (b : Behaviour) : Behaviour :=
  match executeOut b.instr (b.op1.getD 0) (b.op2.getD 0) (b.originPc.getD 0) with
  | .result v => { b with result := some v }
  | .addr a => { b with addr := some a }
  | .branch t target => { b with taken := some t, target := some target }
  | .jump link target => { b with result := some link, taken := some true, target := some target }

/-! ### Forwarding (R337, R338) -/

/-- Register-fetch of one source (R337): 0 for integer index 0, else the forwarded value if the table has an entry, else
the committed register. -/
def fetchSource (s : State) (r : RegRef) : Word :=
  match r.bank with
  | .x => if r.idx = 0 then 0 else
      match s.fwdX[r.idx.toNat]'r.idx.isLt with
      | some e => e.value
      | none => s.readX r.idx
  | .f =>
      match s.fwdF[r.idx.toNat]'r.idx.isLt with
      | some e => e.value
      | none => s.readF r.idx

/-- `publish(b, v)` for a destination and a sequence number (R338); nothing for (integer, 0). -/
def publish (r : RegRef) (seq : Nat) (v : Word) (s : State) : State :=
  match r.bank with
  | .x => if r.idx = 0 then s else { s with fwdX := s.fwdX.set r.idx.toNat (some { seq := seq, value := v }) r.idx.isLt }
  | .f => { s with fwdF := s.fwdF.set r.idx.toNat (some { seq := seq, value := v }) r.idx.isLt }

/-- Commit into the architectural register file (R335). -/
def commit (r : RegRef) (v : Word) (s : State) : State :=
  match r.bank with
  | .x => s.writeX r.idx v
  | .f => s.writeF r.idx v

/-- `publish` of a record's destination, if it has one. -/
def publishDest (b : Behaviour) (v : Word) (s : State) : State :=
  match destOf b.instr with
  | some r => publish r b.seq v s
  | none => s

/-! ### The five steps (R330) -/

/-- The value a record commits: "`b.loaded` for a load, `b.result` otherwise" (R335). -/
def commitValue (b : Behaviour) : Option Word := if isLoad b.instr then b.loaded else b.result

/-- The commit of a record's destination (R335). -/
def commitDest (b : Behaviour) (s : State) : State :=
  match destOf b.instr, commitValue b with
  | some r, some v => commit r v s
  | _, _ => s

/-- The redirect of a taken branch or a jump (R335). -/
def redirect (b : Behaviour) (s : State) : State :=
  match b.taken, b.target with
  | some true, some t => if isBranchOrJump b.instr then { s with pc := t } else s
  | _, _ => s

/-- Step 1, write-back (R335). -/
def writeBackStep (s : State) : State :=
  match s.qWB with
  | none => s
  | some b => { redirect b (commitDest b s) with qWB := none }

/-- Step 2, memory (R334); a fatal access takes effect at once and moves nothing (R343 c, log 10). -/
def memoryStep (s : State) : State :=
  match s.qMEM with
  | none => s
  | some b =>
    match loadOf b.instr, storeOf b.instr with
    | some (n, ext), _ =>
      match memRead (b.addr.getD 0) n s with
      | .error c => raiseFatal c s
      | .ok (v, s') =>
        { publishDest b (ext v) s' with qMEM := none, qWB := some { b with loaded := some (ext v) } }
    | none, some n =>
      match memWrite (b.addr.getD 0) n (b.op2.getD 0) s with
      | .error c => raiseFatal c s
      | .ok s' => { s' with qMEM := none }
    | none, none => { s with qMEM := none, qWB := some b }

/-- Step 3, execute (R333): a non-load with a destination publishes its result. -/
def executeStep (s : State) : State :=
  match s.qEX with
  | none => s
  | some b =>
    let b' := executeFill b
    let s' := match b'.result with
      | some v => if isLoad b.instr then s else publishDest b' v s
      | none => s
    { s' with qEX := none, qMEM := some b' }

/-- The load-use interlock (R341): `q_MEM` holds a load whose destination, not (integer, 0), is a source of `i`. -/
def interlocked (i : Instr) (s : State) : Bool :=
  match s.qMEM with
  | none => false
  | some l =>
    isLoad l.instr &&
    match destOf l.instr with
    | none => false
    | some r => r != xr 0 && ((sourcesOf i).1 == some r || (sourcesOf i).2 == some r)

/-- Register-fetch (R337): the new record, and `icount` advanced. -/
def registerFetch (i : Instr) (s : State) : State :=
  { s with
    qRF := none
    qEX := some
      { instr := i
        seq := s.icount
        originPc := if recordsOriginPc i then some (s.pc - 4) else none
        op1 := (sourcesOf i).1.map (fetchSource s)
        op2 := (sourcesOf i).2.map (fetchSource s) }
    icount := s.icount + 1 }

/-- Step 4, decode, dispatch and register-fetch (R332). A fatal word takes effect when `q_MEM` and `q_WB` are empty, and
leaves every slot empty (R343 a, R344; log 9). -/
def decodeStep (s : State) : State :=
  match s.qRF with
  | none => s
  | some w =>
    match decodeWord w with
    | .rejected e =>
      if s.qMEM.isNone && s.qWB.isNone then raiseFatal (decodeFault e w (s.pc - 4)) { s with qRF := none } else s
    | .instr i => if interlocked i s then s else registerFetch i s

/-- The slot holds a branch or jump. -/
def holdsTransfer (q : Option Behaviour) : Bool :=
  match q with
  | none => false
  | some b => isBranchOrJump b.instr

/-- A fetch is due (R331): `q_RF` empty, and no branch or jump in flight (R342). -/
def fetchDue (s : State) : Bool :=
  s.qRF.isNone && !holdsTransfer s.qEX && !holdsTransfer s.qMEM && !holdsTransfer s.qWB

/-- Step 5, fetch (R331). -/
def fetchStep (s : State) : State :=
  if fetchDue s then
    if guardCount s.pc s ≥ Config.livenessN then { s with run := .halted }
    else
      match fetchCheck s.params s.pc with
      | some c => if s.qEX.isNone && s.qMEM.isNone && s.qWB.isNone then raiseFatal c s else s
      | none =>
        let r := fetchWord s
        { r.2 with qRF := some r.1 }
  else s

/-- A step of the tick, not performed once the run has ended (R330). -/
def whileRunning (f : State → State) (s : State) : State := if s.run = .running then f s else s

/-- `tick` (R320, R330): the five steps oldest first; nothing if `run` is HALTED or FATAL. -/
def tick (s : State) : State :=
  whileRunning fetchStep (whileRunning decodeStep (whileRunning executeStep
    (whileRunning memoryStep (whileRunning writeBackStep s))))

/-- `n` ticks. -/
def ticks : Nat → State → State
  | 0, s => s
  | n + 1, s => ticks n (tick s)

/-- `fatal_pending` (10_state.md R39): "a predicate on the other state": a fatal word in `q_RF`, or a bad fetch address,
is waiting for older instructions to retire (50_pipeline.md R343). -/
def fatalPending (s : State) : Bool :=
  s.run = .running &&
  match s.qRF with
  | some w => match decodeWord w with
    | .rejected _ => true
    | .instr _ => false
  | none => fetchDue s && (fetchCheck s.params s.pc).isSome

end Sys2Proof.Machine
end

