-- ==== Sys2Proof/Machine/Driver.lean ====
section
/-! DEFINITION. The run-loop and reading side of the host interface (80_host_interface.md R432 to R435). -/

namespace Sys2Proof.Machine

/-- One turn of the run loop (R433): `stop` is sampled before the tick; while it is asserted nothing happens. -/
def driverTick (stop : Bool) (s : State) : State := if s.run = .running && !stop then tick s else s

/-- The run loop under a sequence of samples of `stop` (R433). -/
def driverRun : List Bool → State → State
  | [], s => s
  | b :: bs, s => driverRun bs (driverTick b s)

/-- The register part of the dump (R432): the committed registers, `x[0]` = 0, `pc` and `run`. -/
structure Dump where
  x   : Vector Word 32
  f   : Vector Word 32
  pc  : Word
  run : RunState
deriving DecidableEq, Repr

/-- "read-only access to the register files" (R432). -/
def State.dump (s : State) : Dump :=
  { x := Vector.ofFn fun i => s.readX (BitVec.ofFin i)
    f := Vector.ofFn fun i => s.readF (BitVec.ofFin i)
    pc := s.pc
    run := s.run }

/-- The `n` bytes of `ArchMem` from `a` (R432, 20_memory.md R63). -/
def State.dumpMem (s : State) (a : Nat) : Nat → List Byte
  | 0 => []
  | n + 1 => s.archMem a :: State.dumpMem s (a + 1) n

/-- The exposed counters (R434). The hit rate and its printing are the host's. -/
structure Statistics where
  dcAccesses : Nat
  dcHits     : Nat
  icAccesses : Nat
  icHits     : Nat
  icount     : Nat
deriving DecidableEq, Repr

/-- "given cache hit/access counters exposed by the Cache Model and Core" (R434). -/
def State.statistics (s : State) : Statistics :=
  { dcAccesses := s.dcAccesses, dcHits := s.dcHits, icAccesses := s.icAccesses, icHits := s.icHits, icount := s.icount }

/-- The result of a run (R435): run state and registers, `ArchMem` of all of memory, counters. -/
structure RunResult where
  regs    : Dump
  archMem : List Byte
  stats   : Statistics
deriving DecidableEq, Repr

/-- The tuple of R435 at the moment the loop ends. -/
def State.result (s : State) : RunResult :=
  { regs := s.dump, archMem := s.dumpMem 0 s.params.memSize, stats := s.statistics }

end Sys2Proof.Machine
end

