-- ==== Sys2Proof/Machine/Trace.lean ====
section
/-! DEFINITION. What a transition of either level does, as the sequences 50_pipeline.md R361 compares: words fetched,
`DCacheAccess` calls, committed register writes and instructions retired. Nothing here is state; each sequence is read off
the states of a run. -/

namespace Sys2Proof.Machine

/-! ### Events -/

/-- A data access: a load of `n` bytes, or a store of `n` bytes of a value. -/
inductive Access where
  | load (addr : Word) (n : Nat)
  | store (addr : Word) (n : Nat) (v : Word)
deriving DecidableEq, Repr

/-- The address of an access. -/
def Access.addr : Access → Word
  | .load a _ => a
  | .store a _ _ => a

/-- The width of an access. -/
def Access.width : Access → Nat
  | .load _ n => n
  | .store _ n _ => n

/-- The address and width of the data access an instruction makes on a state; none for the kinds that make none
(42_load_store.md R250; 20_memory.md R69). -/
def dataAccess (i : Instr) (s : State) : Option (Word × Nat) :=
  match i with
  | .lb _ rs1 imm | .lbu _ rs1 imm | .sb rs1 _ imm => some (effectiveAddress (s.readX rs1) imm, 1)
  | .lh _ rs1 imm | .lhu _ rs1 imm | .sh rs1 _ imm => some (effectiveAddress (s.readX rs1) imm, 2)
  | .lw _ rs1 imm | .sw rs1 _ imm | .flw _ rs1 imm | .fsw rs1 _ imm =>
    some (effectiveAddress (s.readX rs1) imm, 4)
  | .lui _ _ | .auipc _ _ | .jal _ _ | .jalr _ _ _
  | .beq _ _ _ | .bne _ _ _ | .blt _ _ _ | .bge _ _ _ | .bltu _ _ _ | .bgeu _ _ _
  | .addi _ _ _ | .slti _ _ _ | .sltiu _ _ _ | .xori _ _ _ | .ori _ _ _ | .andi _ _ _
  | .slli _ _ _ | .srli _ _ _ | .srai _ _ _
  | .add _ _ _ | .sub _ _ _ | .sll _ _ _ | .slt _ _ _ | .sltu _ _ _
  | .xor _ _ _ | .srl _ _ _ | .sra _ _ _ | .or _ _ _ | .and _ _ _
  | .faddS _ _ _ | .fsubS _ _ _ | .fmulS _ _ _ | .fdivS _ _ _ | .fsqrtS _ _
  | .fsgnjS _ _ _ | .fsgnjnS _ _ _ | .fsgnjxS _ _ _
  | .feqS _ _ _ | .fltS _ _ _ | .fleS _ _ _ | .fcvtWS _ _ | .fcvtSW _ _ => none

/-- The low `8n` bits of a stored word (20_memory.md R67). -/
def storedBits (n : Nat) (v : Word) : Word := BitVec.ofNat 32 (v.toNat % 256 ^ n)

/-- A retired instruction: its number in program order and what it is (10_state.md R36). -/
structure Retired where
  seq   : Nat
  instr : Instr
deriving DecidableEq, Repr

/-- A committed register write: "nothing for integer index 0" (50_pipeline.md R335). -/
def commitEvent (r : RegRef) (v : Word) : List (RegRef × Word) := if r = xr 0 then [] else [(r, v)]

/-- The committed value of a register (50_pipeline.md R337). -/
def State.committed (s : State) (r : RegRef) : Word :=
  match r.bank with
  | .x => s.readX r.idx
  | .f => s.readF r.idx

/-! ### One step of the reference (R360) -/

/-- The word a step of the reference fetches, and the state after the fetch; none where it makes no fetch. -/
def seqFetched (s : State) : Option (Word × State) :=
  if s.run = .running ∧ guardCount s.pc s < Config.livenessN ∧ fetchCheck s.params s.pc = none then some (fetchWord s)
  else none

/-- The instruction a step of the reference executes, and the state it executes on. -/
def seqIssued (s : State) : Option (Instr × State) :=
  (seqFetched s).bind fun r =>
    match decodeWord r.1 with
    | .instr i => some (i, r.2)
    | .rejected _ => none

/-- The address and word fetched. -/
def seqFetches (s : State) : List (Word × Word) := (seqFetched s).toList.map fun r => (s.pc, r.1)

/-- The `DCacheAccess` call, for an access that passes its checks. -/
def seqAccesses (s : State) : List Access :=
  match seqIssued s with
  | none => []
  | some (i, u) =>
    match dataAccess i u, (sourcesOf i).2 with
    | none, _ => []
    | some (a, n), none => if accessCheck u.params a n = none then [.load a n] else []
    | some (a, n), some r =>
      if accessCheck u.params a n = none then [.store a n (storedBits n (u.committed r))] else []

/-- The register write, unless the instruction is fatal. -/
def seqCommits (s : State) : List (RegRef × Word) :=
  match seqIssued s, step s with
  | some (i, _), .next t =>
    match t.run, destOf i with
    | .running, some r => commitEvent r (t.committed r)
    | _, _ => []
  | _, _ => []

/-- The instruction executed, unless it is fatal. -/
def seqRetired (s : State) : List Retired :=
  match seqIssued s, step s with
  | some (i, _), .next t => if t.run = .running then [{ seq := s.icount, instr := i }] else []
  | _, _ => []

/-! ### One tick of the engine (R330) -/

/-- The state step 5 of the tick acts on. -/
def beforeFetch (s : State) : State :=
  whileRunning decodeStep (whileRunning executeStep (whileRunning memoryStep (whileRunning writeBackStep s)))

/-- The state step 2 of the tick acts on. -/
def beforeMemory (s : State) : State := whileRunning writeBackStep s

/-- The address and word fetched in step 5 (R331). -/
def tickFetches (s : State) : List (Word × Word) :=
  let u := beforeFetch s
  if u.run = .running ∧ fetchDue u = true ∧ guardCount u.pc u < Config.livenessN ∧ fetchCheck u.params u.pc = none then
    [(u.pc, (fetchWord u).1)]
  else []

/-- The `DCacheAccess` call of step 2 (R334). -/
def tickAccesses (s : State) : List Access :=
  let u := beforeMemory s
  match u.run, u.qMEM with
  | .running, some b =>
    let a := b.addr.getD 0
    match loadOf b.instr, storeOf b.instr with
    | some (n, _), _ => if accessCheck u.params a n = none then [.load a n] else []
    | none, some n =>
      if accessCheck u.params a n = none then [.store a n (storedBits n (b.op2.getD 0))] else []
    | none, none => []
  | _, _ => []

/-- The register write of step 1 (R335). -/
def tickCommits (s : State) : List (RegRef × Word) :=
  match s.run, s.qWB with
  | .running, some b =>
    match destOf b.instr, commitValue b with
    | some r, some v => commitEvent r v
    | _, _ => []
  | _, _ => []

/-- The instructions that leave the pipeline: step 1's, and step 2's store (R334, R335). -/
def tickRetired (s : State) : List Retired :=
  let u := beforeMemory s
  (match s.run, s.qWB with
   | .running, some b => [{ seq := b.seq, instr := b.instr }]
   | _, _ => []) ++
  match u.run, u.qMEM with
  | .running, some b =>
    match storeOf b.instr with
    | some n =>
      if accessCheck u.params (b.addr.getD 0) n = none then [{ seq := b.seq, instr := b.instr }] else []
    | none => []
  | _, _ => []

/-! ### Runs -/

/-- `n` steps of the sequential reference; a state that no longer steps stays (50_pipeline.md R360). -/
def seqRun : Nat → State → State
  | 0, s => s
  | n + 1, s =>
    match step s with
    | .next t => seqRun n t
    | .fault _ => s
    | .refused _ => s

/-- The events of `n` steps of the reference; a state that no longer steps gives none. -/
def seqTrace {α : Type} (f : State → List α) : Nat → State → List α
  | 0, _ => []
  | n + 1, s =>
    match step s with
    | .next t => f s ++ seqTrace f n t
    | .fault _ => []
    | .refused _ => []

/-- The events of `n` ticks of the engine. -/
def tickTrace {α : Type} (f : State → List α) : Nat → State → List α
  | 0, _ => []
  | n + 1, s => f s ++ tickTrace f n (tick s)

end Sys2Proof.Machine
end

