-- ==== Sys2Proof/Safety.lean ====
section
/-! DEFINITION. What counts as a safe run, the invariants of the machine, and the words in which claims are stated: frames,
the bytes a fetch sees, runs of the reference, and the exact rationals the floating-point unit rounds. -/

namespace Sys2Proof.Machine

/-! ### Safe states and runs -/

/-- A state no fatal condition has ended (60_exceptions.md R370). -/
def State.Safe (s : State) : Prop := ∀ c, s.run ≠ .fatal c

/-! ### The invariant of the sequential state -/

/-- A line of set `i`: valid, LINE bytes, and its block inside memory (21_cache.md R93; 20_memory.md R65). -/
abbrev Line.Shaped (g : Geometry) (size i : Nat) (l : Line) : Prop :=
  l.valid = true ∧ l.bytes.length = g.line ∧ lineAddr g l.tag i + g.line ≤ size

/-- At most WAYS lines, tags pairwise different (21_cache.md R94, R120 a, b). -/
abbrev CacheSet.Shaped (g : Geometry) (size i : Nat) (s : CacheSet) : Prop :=
  s.length ≤ g.ways ∧ (s.map Line.tag).Nodup ∧ ∀ l ∈ s, Line.Shaped g size i l

/-- SETS sets, each shaped (21_cache.md R90, R120 a, b). -/
abbrev Cache.Shaped (g : Geometry) (size : Nat) (c : Cache) : Prop :=
  c.length = g.sets ∧ ∀ i < g.sets, CacheSet.Shaped g size i (Cache.setAt c i)

/-- No line is dirty (21_cache.md R120 c). -/
abbrev Cache.AllClean (g : Geometry) (c : Cache) : Prop :=
  ∀ i < g.sets, ∀ l ∈ Cache.setAt c i, l.dirty = false

/-- A line that is not dirty holds the bytes of memory (21_cache.md R120 d). -/
abbrev Cache.CleanCopies (g : Geometry) (m : Memory) (c : Cache) : Prop :=
  ∀ i < g.sets, ∀ l ∈ Cache.setAt c i, l.dirty = false → l.bytes = m.readBlock (lineAddr g l.tag i) g.line

/-- The invariant of the state outside the slots and forwarding tables: the parameters are legal (00_scope.md R6), `x[0]`
holds 0 (10_state.md R21), the pc is even (41_control_transfer.md R230), memory is canonical and inside MEM_SIZE, the
caches are as 21_cache.md R120 says, hits never exceed accesses (R115), the guard is below its threshold (50_pipeline.md
R346 f). -/
structure State.Inv (s : State) : Prop where
  params    : s.params.WellFormed
  x0        : s.x[0] = 0
  pcEven    : s.pc.toNat % 2 = 0
  memWf     : s.mem.wf = true
  memWithin : s.mem.within s.params.memSize = true
  dcShaped  : Cache.Shaped s.params.dc s.params.memSize s.dc
  dcClean   : Cache.CleanCopies s.params.dc s.mem s.dc
  icShaped  : Cache.Shaped s.params.ic s.params.memSize s.ic
  icClean   : Cache.AllClean s.params.ic s.ic
  dcCounts  : s.dcHits ≤ s.dcAccesses
  icCounts  : s.icHits ≤ s.icAccesses
  guard     : s.lgCount < Config.livenessN

/-! ### The invariant of the engine (50_pipeline.md R346) -/

/-- A record as register-fetch leaves it (50_pipeline.md R337): operands for its sources, an origin pc where one is
recorded, nothing later filled. -/
structure Behaviour.Fetched (b : Behaviour) : Prop where
  op1    : b.op1.isSome = (sourcesOf b.instr).1.isSome
  op2    : b.op2.isSome = (sourcesOf b.instr).2.isSome
  origin : b.originPc.isSome = recordsOriginPc b.instr
  even   : ∀ a ∈ b.originPc, a.toNat % 2 = 0
  unfilled : b.result = none ∧ b.addr = none ∧ b.taken = none ∧ b.target = none ∧ b.loaded = none

/-- The record without what execute and memory filled. -/
def Behaviour.unfill (b : Behaviour) : Behaviour :=
  { b with result := none, addr := none, taken := none, target := none, loaded := none }

/-- A record as execute leaves it (50_pipeline.md R333). -/
def Behaviour.Executed (b : Behaviour) : Prop := b.unfill.Fetched ∧ b = executeFill b.unfill

/-- A record as the memory stage leaves it (50_pipeline.md R334): no store, and a load has its loaded value. -/
def Behaviour.Accessed (b : Behaviour) : Prop :=
  isStore b.instr = false ∧ b.loaded.isSome = isLoad b.instr ∧ ({ b with loaded := none } : Behaviour).Executed

/-- The forwarding entry of a register (10_state.md R29). -/
def State.forwarded (s : State) (r : RegRef) : Option FwdEntry :=
  match r.bank with
  | .x => s.fwdX[r.idx.toNat]'r.idx.isLt
  | .f => s.fwdF[r.idx.toNat]'r.idx.isLt

/-- The value of a slot's occupant that is published and not yet committed to a register: a result or a loaded value. -/
def uncommitted (q : Option Behaviour) (r : RegRef) : Option FwdEntry :=
  match q with
  | none => none
  | some b =>
    if destOf b.instr = some r then (commitValue b).map fun v => { seq := b.seq, value := v } else none

/-- The youngest value in flight that is published and not yet committed to a register (50_pipeline.md R346 e). -/
def State.inFlight (s : State) (r : RegRef) : Option FwdEntry :=
  (uncommitted s.qMEM r).orElse fun _ => uncommitted s.qWB r

/-- The sequence numbers of the slots, oldest first. -/
def State.seqs (s : State) : List Nat := [s.qWB, s.qMEM, s.qEX].filterMap fun q => q.map Behaviour.seq

/-- The invariant of the engine: `Inv`, the points of 50_pipeline.md R346, and the shape of the records in the slots. -/
structure State.EngineInv (s : State) : Prop where
  base      : s.Inv
  /-- R346 a: the word in `q_RF` is the most recent fetch, and pc is 4 past its address. -/
  fetched   : s.qRF.isSome = true → s.lgAddr = some (s.pc - 4)
  /-- R346 b. -/
  aloneEX   : holdsTransfer s.qEX = true → s.qRF = none
  aloneMEM  : holdsTransfer s.qMEM = true → s.qRF = none ∧ s.qEX = none
  aloneWB   : holdsTransfer s.qWB = true → s.qRF = none ∧ s.qEX = none ∧ s.qMEM = none
  /-- R346 c. -/
  seqs      : s.seqs.Pairwise (· < ·) ∧ ∀ n ∈ s.seqs, n < s.icount
  /-- R346 d. -/
  fwdX0     : s.forwarded (xr 0) = none
  /-- R346 e. -/
  coherent  : ∀ r : RegRef, r ≠ xr 0 →
    (∀ e ∈ s.inFlight r, s.forwarded r = some e) ∧
    (s.inFlight r = none → ∀ e ∈ s.forwarded r, e.value = s.committed r)
  recordEX  : ∀ b ∈ s.qEX, b.Fetched
  recordMEM : ∀ b ∈ s.qMEM, b.Executed
  recordWB  : ∀ b ∈ s.qWB, b.Accessed

/-! ### Frames -/

/-- Everything outside the register banks, the pc, the data cache, memory and the data-cache counters is as before. -/
structure SameOutsideData (s t : State) : Prop where
  params     : t.params = s.params
  ic         : t.ic = s.ic
  fwdX       : t.fwdX = s.fwdX
  fwdF       : t.fwdF = s.fwdF
  slots      : t.qRF = s.qRF ∧ t.qEX = s.qEX ∧ t.qMEM = s.qMEM ∧ t.qWB = s.qWB
  icount     : t.icount = s.icount
  icCounters : t.icAccesses = s.icAccesses ∧ t.icHits = s.icHits
  guard      : t.lgAddr = s.lgAddr ∧ t.lgCount = s.lgCount
  run        : t.run = s.run

/-- Everything outside the register banks and the pc is as before; `bytes` is what an instruction can see of memory. -/
structure SameOutsideRegs (s t : State) : Prop where
  outside    : SameOutsideData s t
  bytes      : ∀ a, t.archMem a = s.archMem a
  mem        : t.mem = s.mem
  dc         : t.dc = s.dc
  dcCounters : t.dcAccesses = s.dcAccesses ∧ t.dcHits = s.dcHits

/-- `x[rd] <- v` and nothing else in the banks: for `rd` = 0 the write is discarded (10_state.md R21). -/
structure OnlyX (rd : RegIdx) (v : Word) (s t : State) : Prop where
  value  : rd ≠ 0 → t.readX rd = v
  zero   : t.readX 0 = 0
  others : ∀ r, r ≠ rd → t.readX r = s.readX r
  floats : ∀ r, t.readF r = s.readF r

/-- `f[rd] <- v` and nothing else in the banks. -/
structure OnlyF (rd : RegIdx) (v : Word) (s t : State) : Prop where
  value  : t.readF rd = v
  others : ∀ r, r ≠ rd → t.readF r = s.readF r
  ints   : ∀ r, t.readX r = s.readX r

/-- No register changed. -/
structure NoReg (s t : State) : Prop where
  ints   : ∀ r, t.readX r = s.readX r
  floats : ∀ r, t.readF r = s.readF r

/-- One `DCacheAccess` at `a` in the counters (21_cache.md R115). -/
def CountedAccess (a : Nat) (s t : State) : Prop :=
  t.dcAccesses = s.dcAccesses + 1 ∧
  t.dcHits = s.dcHits + (if (Cache.lookup s.params.dc s.dc a).isSome then 1 else 0)

/-- `exec i s` completes with `x[rd] <- v`, the pc as the fetch left it and nothing else changed. -/
def CompletesX (i : Instr) (rd : RegIdx) (v : Word) (s : State) : Prop :=
  ∃ t, exec i s = .next t ∧ OnlyX rd v s t ∧ t.pc = s.pc ∧ SameOutsideRegs s t

/-- `exec i s` completes with `f[rd] <- v`, the pc as the fetch left it and nothing else changed. -/
def CompletesF (i : Instr) (rd : RegIdx) (v : Word) (s : State) : Prop :=
  ∃ t, exec i s = .next t ∧ OnlyF rd v s t ∧ t.pc = s.pc ∧ SameOutsideRegs s t

/-- `exec i s` completes a load at `a` with `x[rd] <- v`: one counted access, no byte of `ArchMem` changed. -/
def CompletesLoadX (i : Instr) (rd : RegIdx) (a : Word) (v : Word) (s : State) : Prop :=
  ∃ t, exec i s = .next t ∧ OnlyX rd v s t ∧ t.pc = s.pc ∧ SameOutsideData s t ∧ CountedAccess a.toNat s t ∧
    ∀ b, t.archMem b = s.archMem b

/-- `exec i s` completes a load at `a` with `f[rd] <- v`: one counted access, no byte of `ArchMem` changed. -/
def CompletesLoadF (i : Instr) (rd : RegIdx) (a : Word) (v : Word) (s : State) : Prop :=
  ∃ t, exec i s = .next t ∧ OnlyF rd v s t ∧ t.pc = s.pc ∧ SameOutsideData s t ∧ CountedAccess a.toNat s t ∧
    ∀ b, t.archMem b = s.archMem b

/-- `exec i s` completes a store of the low `n` bytes of `v` at `a`, least significant first: one counted access, every
other byte of `ArchMem` and every register as before. -/
def CompletesStore (i : Instr) (a : Word) (n : Nat) (v : Word) (s : State) : Prop :=
  ∃ t, exec i s = .next t ∧ NoReg s t ∧ t.pc = s.pc ∧ SameOutsideData s t ∧ CountedAccess a.toNat s t ∧
    (∀ k < n, t.archMem (a.toNat + k) = BitVec.ofNat 8 (v.toNat / 256 ^ k)) ∧
    ∀ b, b < a.toNat ∨ a.toNat + n ≤ b → t.archMem b = s.archMem b

/-- `exec i s` completes as a branch: the pc at `origin_pc` plus twice the immediate if taken, else as the fetch left it
(`origin_pc + 4`), and nothing else changed. -/
def CompletesBranch (i : Instr) (taken : Prop) (imm : Imm12) (s : State) : Prop :=
  ∃ t, exec i s = .next t ∧
    (taken → t.pc = BitVec.ofInt 32 (s.originPc.toInt + 2 * imm.toInt)) ∧
    (¬ taken → t.pc = s.originPc + 4) ∧
    NoReg s t ∧ SameOutsideRegs s t

/-! ### Fetch -/

/-- The byte an instruction fetch sees at `a` (20_memory.md R75): of the resident instruction-cache line, else of `Mem`. -/
def State.fetchByte (s : State) (a : Nat) : Byte :=
  match Cache.lookup s.params.ic s.ic a with
  | some l => l.bytes.getD (offsetOf s.params.ic a) 0
  | none => s.mem.read a

/-- The four bytes of the word at `a` as a fetch sees them, lowest address first (20_memory.md R61). -/
def State.fetchBytes (s : State) (a : Nat) : List Byte :=
  [s.fetchByte a, s.fetchByte (a + 1), s.fetchByte (a + 2), s.fetchByte (a + 3)]

/-- The next step makes a fetch: the run goes on, the guard does not fire, the address passes the checks (50_pipeline.md
R360). -/
def State.Fetches (s : State) : Prop :=
  s.run = .running ∧ guardCount s.pc s < Config.livenessN ∧ s.pc.toNat % 4 = 0 ∧ s.pc.toNat + 4 ≤ s.params.memSize

/-- The instruction a fetch at the pc sees decodes to `i`. -/
def State.FetchesInstr (s : State) (i : Instr) : Prop :=
  s.Fetches ∧ decodeBytes (s.fetchBytes s.pc.toNat) = (.instr i, [])

/-- The instruction is a control transfer to itself on a state whose pc is its address: a taken branch or a JAL with offset
0, or a JALR to its own address from its base and, where it overwrites its base, from the link value too. -/
def JumpsToItself (i : Instr) (s : State) : Prop :=
  match i with
  | .beq rs1 rs2 imm => imm = 0 ∧ takenBeq (s.readX rs1) (s.readX rs2) = true
  | .bne rs1 rs2 imm => imm = 0 ∧ takenBne (s.readX rs1) (s.readX rs2) = true
  | .blt rs1 rs2 imm => imm = 0 ∧ takenBlt (s.readX rs1) (s.readX rs2) = true
  | .bge rs1 rs2 imm => imm = 0 ∧ takenBge (s.readX rs1) (s.readX rs2) = true
  | .bltu rs1 rs2 imm => imm = 0 ∧ takenBltu (s.readX rs1) (s.readX rs2) = true
  | .bgeu rs1 rs2 imm => imm = 0 ∧ takenBgeu (s.readX rs1) (s.readX rs2) = true
  | .jal _ imm => imm = 0
  | .jalr rd rs1 imm =>
    jalrTarget (s.readX rs1) imm = s.pc ∧ (rd = 0 ∨ rd ≠ rs1 ∨ jalrTarget (s.pc + 4) imm = s.pc)
  | _ => False

/-! ### Runs of the reference that do not store into code (50_pipeline.md R361) -/

/-- The next step of the reference executes a store of `n` bytes at `a`. -/
def State.StoresAt (s : State) (a : Word) (n : Nat) : Prop :=
  ∃ i, s.FetchesInstr i ∧ isStore i = true ∧ dataAccess i s = some (a, n)

/-- The premise of 50_pipeline.md R361: no store of the run from `s` writes a byte of a word fetched as an instruction
after it. -/
def State.NoStoreIntoCode (s : State) : Prop :=
  ∀ j k a n, j < k → (seqRun j s).StoresAt a n → (seqRun k s).Fetches →
    a.toNat + n ≤ (seqRun k s).pc.toNat ∨ (seqRun k s).pc.toNat + 4 ≤ a.toNat

/-- A fetched word is the word of the image at its address, and its bytes in `Mem` are still those: "the reset content of its
word" (50_pipeline.md R361; 70_reset_and_hazards.md R400). -/
def FetchedAtReset (image : List Word) (m : Memory) (f : Word × Word) : Prop :=
  f.2 = image.getD (f.1.toNat / 4) 0 ∧
    ∀ k < 4, m.read (f.1.toNat + k) = BitVec.ofNat 8 ((image.getD (f.1.toNat / 4) 0).toNat / 256 ^ k)

/-- The same for whole lines: no store of the run from `s` writes a byte of a block the instruction cache fills after it
(log 20). -/
def State.NoStoreIntoFilledLines (s : State) : Prop :=
  ∀ j k a n, j < k → (seqRun j s).StoresAt a n → (seqRun k s).Fetches →
    Cache.lookup s.params.ic (seqRun k s).ic (seqRun k s).pc.toNat = none →
    a.toNat + n ≤ baseOf s.params.ic (seqRun k s).pc.toNat ∨
      baseOf s.params.ic (seqRun k s).pc.toNat + s.params.ic.line ≤ a.toNat

/-- Two ways of running give the same sequence, finite or not: whatever one has given after `n` of its own transitions is
the beginning of what the other has given after enough of its. -/
def SameSequence {α : Type} (f g : Nat → List α) : Prop :=
  (∀ n, ∃ m, f n <+: g m) ∧ ∀ m, ∃ n, g m <+: f n

/-- The run was ended by a data access (60_exceptions.md R372). -/
def RunState.IsDataFault (r : RunState) : Prop :=
  ∃ a, r = .fatal (.misalignedAccess a) ∨ r = .fatal (.memOutOfRange a)

/-- `k` further fetches, as the engine makes ahead of a fatal data access (50_pipeline.md R344). -/
def fetchAhead : Nat → State → State
  | 0, s => s
  | k + 1, s => fetchAhead k (fetchWord s).2

/-- The lines of a set without their bytes, in recency order. -/
def tagsOf (s : CacheSet) : List (Nat × Bool × Bool × Bool) := s.map fun l => (l.tag, l.valid, l.dirty, l.accessed)

/-- 50_pipeline.md R361, its words on the instruction cache: "If the run ends `HALTED`, or `FATAL` by a fatal word or a bad
fetch address, also ... `IC` ... are the same", line bytes included, under R361's premise. Of the machine of R330 to R335
and R360 this is false (log 20). -/
def InstructionCachesEndEqual : Prop :=
  ∀ (p : Params) (image : List Word) (s : State) (m n : Nat), State.construct p image = some s → s.NoStoreIntoCode →
    (ticks m s).run ≠ .running → (seqRun n s).run ≠ .running → ¬ (seqRun n s).run.IsDataFault →
    (ticks m s).ic = (seqRun n s).ic

/-- Read hits at a list of addresses, in order. -/
def readHits (g : Geometry) (c : Cache) (as : List Nat) : Cache :=
  as.foldl (fun c a => ((Cache.read g c a 1).map Prod.snd).getD c) c

/-! ### Data accesses in program order -/

/-- An access of a legal width that passes the checks of 20_memory.md R66 and R67. -/
def Access.Legal (p : Params) (c : Access) : Prop :=
  (c.width = 1 ∨ c.width = 2 ∨ c.width = 4) ∧ accessCheck p c.addr c.width = none

/-- The access stores to none of the `n` bytes from `a`. -/
def Access.Avoids (a n : Nat) : Access → Prop
  | .load _ _ => True
  | .store b k _ => b.toNat + k ≤ a ∨ a + n ≤ b.toNat

/-- One access through the data cache: the loaded values so far, youngest first, and the state. -/
def accessStep (r : List Word × State) : Access → List Word × State
  | .load a n =>
    match memRead a n r.2 with
    | .ok (v, s) => (v :: r.1, s)
    | .error c => (r.1, raiseFatal c r.2)
  | .store a n v =>
    match memWrite a n v r.2 with
    | .ok s => (r.1, s)
    | .error c => (r.1, raiseFatal c r.2)

/-- Accesses in order, from a state. -/
def accessRun (s : State) (cs : List Access) : List Word × State := cs.foldl accessStep ([], s)

/-! ### The registry's keys -/

/-- The keys of 30_encoding.md R141 to R146, read from the number of the word. -/
def KeyMapped (w : Word) : Prop :=
  let op := w.toNat % 2 ^ 7
  let f3 := w.toNat / 2 ^ 12 % 2 ^ 3
  let f7 := w.toNat / 2 ^ 25
  op = 0x37 ∨ op = 0x17 ∨ op = 0x6F ∨
  (op = 0x67 ∧ f3 = 0) ∨
  (op = 0x63 ∧ f3 ∈ [0, 1, 4, 5, 6, 7]) ∨
  (op = 0x03 ∧ f3 ∈ [0, 1, 2, 4, 5]) ∨
  (op = 0x23 ∧ f3 ∈ [0, 1, 2]) ∨
  ((op = 0x07 ∨ op = 0x27) ∧ f3 = 2) ∨
  (op = 0x13 ∧ (f3 ∈ [0, 2, 3, 4, 6, 7] ∨ (f3 = 1 ∧ f7 = 0) ∨ (f3 = 5 ∧ f7 ∈ [0, 0x20]))) ∨
  (op = 0x33 ∧ (f7 = 0 ∨ (f7 = 0x20 ∧ f3 ∈ [0, 5]))) ∨
  (op = 0x53 ∧ ((f7 ∈ [0x00, 0x04, 0x08, 0x0C, 0x2C, 0x60, 0x68] ∧ f3 = 0) ∨ (f7 ∈ [0x10, 0x50] ∧ f3 ∈ [0, 1, 2])))

/-! ### The encodings of the instructions, read from the number of the word (30_encoding.md R131 to R146) -/

/-- R shape: every word with this opcode, funct3 and funct7 is the instruction of its rd, rs1 and rs2 fields. -/
def SelectsR (i : RegIdx → RegIdx → RegIdx → Instr) (op f3 f7 : Nat) : Prop :=
  ∀ w : Word, w.toNat % 2 ^ 7 = op → w.toNat / 2 ^ 12 % 2 ^ 3 = f3 → w.toNat / 2 ^ 25 = f7 →
    decodeWord w =
      .instr (i (BitVec.ofNat 5 (w.toNat / 2 ^ 7)) (BitVec.ofNat 5 (w.toNat / 2 ^ 15)) (BitVec.ofNat 5 (w.toNat / 2 ^ 20)))

/-- I shape: rd, rs1 and `imm12 = w[31:20]`. -/
def SelectsI (i : RegIdx → RegIdx → Imm12 → Instr) (op f3 : Nat) : Prop :=
  ∀ w : Word, w.toNat % 2 ^ 7 = op → w.toNat / 2 ^ 12 % 2 ^ 3 = f3 →
    decodeWord w =
      .instr (i (BitVec.ofNat 5 (w.toNat / 2 ^ 7)) (BitVec.ofNat 5 (w.toNat / 2 ^ 15)) (BitVec.ofNat 12 (w.toNat / 2 ^ 20)))

/-- An immediate shift: opcode 0010011, funct3 and `imm12[11:5]`; a word of that opcode and funct3 whose `imm12[11:5]` is
not among `f7s`, the values in use with that funct3, is unmapped. -/
def SelectsShift (i : RegIdx → RegIdx → Imm12 → Instr) (f3 f7 : Nat) (f7s : List Nat) : Prop :=
  ∀ w : Word, w.toNat % 2 ^ 7 = 0x13 → w.toNat / 2 ^ 12 % 2 ^ 3 = f3 →
    (w.toNat / 2 ^ 25 = f7 → decodeWord w =
      .instr (i (BitVec.ofNat 5 (w.toNat / 2 ^ 7)) (BitVec.ofNat 5 (w.toNat / 2 ^ 15)) (BitVec.ofNat 12 (w.toNat / 2 ^ 20)))) ∧
    (w.toNat / 2 ^ 25 ∉ f7s → decodeWord w = .rejected .unmappedInstruction)

/-- S shape: rs1, rs2 and `imm12 = (w[31:25], w[11:7])`. -/
def SelectsS (i : RegIdx → RegIdx → Imm12 → Instr) (op f3 : Nat) : Prop :=
  ∀ w : Word, w.toNat % 2 ^ 7 = op → w.toNat / 2 ^ 12 % 2 ^ 3 = f3 →
    decodeWord w =
      .instr (i (BitVec.ofNat 5 (w.toNat / 2 ^ 15)) (BitVec.ofNat 5 (w.toNat / 2 ^ 20))
        (BitVec.ofNat 12 (w.toNat / 2 ^ 25 * 32 + w.toNat / 2 ^ 7 % 32)))

/-- B shape, opcode 1100011: rs1, rs2 and `imm12 = (w[31], w[7], w[30:25], w[11:8])`. -/
def SelectsB (i : RegIdx → RegIdx → Imm12 → Instr) (f3 : Nat) : Prop :=
  ∀ w : Word, w.toNat % 2 ^ 7 = 0x63 → w.toNat / 2 ^ 12 % 2 ^ 3 = f3 →
    decodeWord w =
      .instr (i (BitVec.ofNat 5 (w.toNat / 2 ^ 15)) (BitVec.ofNat 5 (w.toNat / 2 ^ 20))
        (BitVec.ofNat 12 (w.toNat / 2 ^ 31 * 2048 + w.toNat / 2 ^ 7 % 2 * 1024 + w.toNat / 2 ^ 25 % 64 * 16 +
          w.toNat / 2 ^ 8 % 16)))

/-- J shape, opcode 1101111: rd and `imm20 = (w[31], w[19:12], w[20], w[30:21])`. -/
def SelectsJ (i : RegIdx → Imm20 → Instr) : Prop :=
  ∀ w : Word, w.toNat % 2 ^ 7 = 0x6F →
    decodeWord w =
      .instr (i (BitVec.ofNat 5 (w.toNat / 2 ^ 7))
        (BitVec.ofNat 20 (w.toNat / 2 ^ 31 * 2 ^ 19 + w.toNat / 2 ^ 12 % 256 * 2048 + w.toNat / 2 ^ 20 % 2 * 1024 +
          w.toNat / 2 ^ 21 % 1024)))

/-- U shape: rd and `imm20 = w[31:12]`. -/
def SelectsU (i : RegIdx → Imm20 → Instr) (op : Nat) : Prop :=
  ∀ w : Word, w.toNat % 2 ^ 7 = op →
    decodeWord w = .instr (i (BitVec.ofNat 5 (w.toNat / 2 ^ 7)) (BitVec.ofNat 20 (w.toNat / 2 ^ 12)))

/-! ### Exact values of the floating-point unit -/

/-- `ford(fnorm(p))`: the signed magnitude by which patterns compare, 0 for every pattern with exponent 0 (43_float.md
R269). -/
def orderF (p : Word) : ℤ :=
  if expF p = 0 then 0 else if signF p = true then -((p.toNat % 2 ^ 31 : ℕ) : ℤ) else ((p.toNat % 2 ^ 31 : ℕ) : ℤ)

/-- `val(p)` of a NORMAL pattern (43_float.md R261). -/
def valF (p : Word) : ℚ :=
  (if signF p then -1 else 1) * (2 : ℚ) ^ ((expF p : ℤ) - 127) * (1 + (manF p : ℚ) / 2 ^ 23)

/-- `n` is `q` rounded to an integer, to nearest, ties to the even integer (43_float.md R263). -/
def NearestEven (q : ℚ) (n : ℤ) : Prop := |q - n| ≤ 1 / 2 ∧ (|q - n| = 1 / 2 → n % 2 = 0)

/-- The last four lines of 43_float.md R263, read on the fields of the result: the significand `n` in [2^23, 2^24] and the
exponent `e` before the carry. -/
def Packed (s : Bool) (n e : ℤ) (p : Word) : Prop :=
  signF p = s ∧
  (((if n = 2 ^ 24 then e + 1 else e) > 127 ∧ expF p = 255 ∧ manF p = 0) ∨
   ((if n = 2 ^ 24 then e + 1 else e) < -126 ∧ expF p = 0 ∧ manF p = 0) ∨
   (-126 ≤ (if n = 2 ^ 24 then e + 1 else e) ∧ (if n = 2 ^ 24 then e + 1 else e) ≤ 127 ∧
    (expF p : ℤ) = (if n = 2 ^ 24 then e + 1 else e) + 127 ∧
    (manF p : ℤ) = (if n = 2 ^ 24 then 2 ^ 23 else n) - 2 ^ 23))

/-- `p = round_pack(s, r)` for an exact positive rational (43_float.md R263). -/
def RoundsTo (s : Bool) (r : ℚ) (p : Word) : Prop :=
  ∃ e n : ℤ, (2 : ℚ) ^ e ≤ r ∧ r < (2 : ℚ) ^ (e + 1) ∧ NearestEven (r / (2 : ℚ) ^ (e - 23)) n ∧ Packed s n e p

/-- `p = round_pack(0, sqrt(r))`, the exact real root compared by squares; a tie cannot occur (43_float.md R268). -/
def RootRoundsTo (r : ℚ) (p : Word) : Prop :=
  ∃ e n : ℤ, 0 < n ∧ ((2 : ℚ) ^ e) ^ 2 ≤ r ∧ r < ((2 : ℚ) ^ (e + 1)) ^ 2 ∧
    ((n - 1 / 2 : ℚ) * (2 : ℚ) ^ (e - 23)) ^ 2 < r ∧ r < ((n + 1 / 2 : ℚ) * (2 : ℚ) ^ (e - 23)) ^ 2 ∧
    Packed false n e p

end Sys2Proof.Machine
end

