-- ==== Sys2Proof/Certificates/Slice0/Obligations.lean ====
section
/-! DEFINITION. The statements for the provers. `exec` runs on the state the fetch left: the pc is the instruction's address
plus 4, so that `s.originPc` is the instruction's own address (log 17). A statement of results opens with the encodings of
its instructions, and a clause about `x0` or a coincidence of registers is inside the quantifiers. -/

open Sys2Proof Sys2Proof.Machine

/-! ### Encoding (30_encoding.md) -/

/-- R132 to R146: decoding the encoding of a well-formed instruction gives it back, as a word and as four bytes in memory
order followed by anything. -/
def Obligations.DecodeOfEncode : Prop :=
  ∀ i : Instr, i.wellFormed = true →
    decodeWord (encode i) = .instr i ∧ ∀ rest, decodeBytes (encodeBytes i ++ rest) = (.instr i, rest)

/-- R131 to R140: a word that decodes is the encoding of what it decodes to, but for the ignored rs2 field of FSQRT.S,
FCVT.W.S and FCVT.S.W; and what it decodes to is well formed. -/
def Obligations.EncodeOfDecode : Prop :=
  ∀ (w : Word) (i : Instr), decodeWord w = .instr i →
    i.wellFormed = true ∧
    (encode i = w ∨
      ((∃ rd rs1, i = .fsqrtS rd rs1 ∨ i = .fcvtWS rd rs1 ∨ i = .fcvtSW rd rs1) ∧ encode i = w &&& 0xFE0FFFFF#32))

/-- R150, R151, R152: every word is an instruction, unrecognized or unmapped, and the opcode and key decide which. -/
def Obligations.EveryWordIsOneOfThree : Prop :=
  ∀ w : Word,
    ((∃ i, decodeWord w = .instr i) ↔ KeyMapped w) ∧
    (decodeWord w = .rejected .unrecognizedOpcode ↔
      w.toNat % 2 ^ 7 ∉ [0x33, 0x53, 0x13, 0x03, 0x07, 0x67, 0x23, 0x27, 0x63, 0x6F, 0x37, 0x17]) ∧
    (decodeWord w = .rejected .unmappedInstruction ↔
      w.toNat % 2 ^ 7 ∈ [0x33, 0x53, 0x13, 0x03, 0x07, 0x67, 0x23, 0x27, 0x63, 0x6F, 0x37, 0x17] ∧ ¬ KeyMapped w)

/-- The words of the rules' own examples, one for each family and shape, and the two rejections. -/
def Obligations.ExampleWordsDecode : Prop :=
  decodeWord 0x123452B7#32 = .instr (.lui 5 0x12345) ∧
  decodeWord 0xFF9FF06F#32 = .instr (.jal 0 0xFFFFC) ∧
  decodeWord 0x004280E7#32 = .instr (.jalr 1 5 4) ∧
  decodeWord 0xFE209EE3#32 = .instr (.bne 1 2 0xFFE) ∧
  decodeWord 0xFFC12203#32 = .instr (.lw 4 2 0xFFC) ∧
  decodeWord 0x003100A3#32 = .instr (.sb 2 3 1) ∧
  decodeWord 0x00112427#32 = .instr (.fsw 2 1 8) ∧
  decodeWord 0x40435393#32 = .instr (.srai 7 6 0x404) ∧
  decodeWord 0x402081B3#32 = .instr (.sub 3 1 2) ∧
  decodeWord 0xD00081D3#32 = .instr (.fcvtSW 3 1) ∧
  decodeWord 0x00000000#32 = .rejected .unrecognizedOpcode ∧
  decodeWord 0x02208033#32 = .rejected .unmappedInstruction

/-- R133 to R137 and R139: what each immediate field of a word is worth as an operand. -/
def Obligations.ImmediateOperands : Prop :=
  ∀ w : Word,
    (immI (fieldImmI w)).toInt = w.toInt / 2 ^ 20 ∧
    shamtImm (fieldImmI w) = w.toNat / 2 ^ 20 % 32 ∧
    (immI (fieldImmS w)).toInt = w.toInt / 2 ^ 25 * 32 + (w.toNat / 2 ^ 7 % 32 : Nat) ∧
    (immI (fieldImmB w) <<< 1).toInt =
      w.toInt / 2 ^ 31 * 4096 + (w.toNat / 2 ^ 7 % 2 : Nat) * 2048 + (w.toNat / 2 ^ 25 % 64 : Nat) * 32 +
        (w.toNat / 2 ^ 8 % 16 : Nat) * 2 ∧
    (immJ (fieldImmJ w) <<< 1).toInt =
      w.toInt / 2 ^ 31 * 2 ^ 20 + (w.toNat / 2 ^ 12 % 256 : Nat) * 4096 + (w.toNat / 2 ^ 20 % 2 : Nat) * 2048 +
        (w.toNat / 2 ^ 21 % 1024 : Nat) * 2 ∧
    (immU (fieldImmU w)).toNat = w.toNat / 2 ^ 12 * 2 ^ 12

/-! ### A step of the reference (50_pipeline.md R360) -/

/-- A step whose fetch sees the bytes of instruction `i` is `exec i` on the state the fetch left: pc and `icount` advanced,
guard and instruction-cache counters moved, everything else but the instruction cache as before. -/
def Obligations.StepRunsDecodedInstruction : Prop :=
  ∀ (s : State) (i : Instr), s.params.WellFormed → s.FetchesInstr i →
    ∃ u, step s = exec i u ∧
      u.originPc = s.pc ∧ u.pc = s.pc + 4 ∧ u.icount = s.icount + 1 ∧
      u.lgAddr = some s.pc ∧ u.lgCount = guardCount s.pc s ∧
      u.icAccesses = s.icAccesses + 1 ∧
      u.icHits = s.icHits + (if (Cache.lookup s.params.ic s.ic s.pc.toNat).isSome then 1 else 0) ∧
      u.params = s.params ∧ u.x = s.x ∧ u.f = s.f ∧ u.mem = s.mem ∧ u.dc = s.dc ∧
      u.fwdX = s.fwdX ∧ u.fwdF = s.fwdF ∧ u.qRF = s.qRF ∧ u.qEX = s.qEX ∧ u.qMEM = s.qMEM ∧ u.qWB = s.qWB ∧
      u.dcAccesses = s.dcAccesses ∧ u.dcHits = s.dcHits ∧ u.run = .running

/-- 20_memory.md R61, R68, R75; 21_cache.md R111: a fetch returns the little-endian word of the bytes of the resident
instruction-cache line, or else of `Mem`, whatever the data cache holds; afterwards the line is resident, accessed and most
recently used, its bytes as before, and no other set has changed. -/
def Obligations.FetchThroughInstructionCache : Prop :=
  ∀ (s : State), s.params.WellFormed → s.pc.toNat % 4 = 0 →
    let a := s.pc.toNat
    let g := s.params.ic
    let t := (fetchWord s).2
    (fetchWord s).1.toNat = leValue (s.fetchBytes a) ∧
    (Cache.lookup g s.ic a = none → s.fetchBytes a = s.mem.readBlock a 4) ∧
    (∃ l, (Cache.setAt t.ic (indexOf g a)).getLast? = some l ∧ l.tag = tagOf g a ∧ l.accessed = true) ∧
    (∀ b, baseOf g b = baseOf g a → t.fetchByte b = s.fetchByte b) ∧
    (∀ j, j ≠ indexOf g a → Cache.setAt t.ic j = Cache.setAt s.ic j) ∧
    t.mem = s.mem ∧ t.dc = s.dc

/-- R360, 20_memory.md R68, 60_exceptions.md R372 to R374: a misaligned fetch address is fatal, alignment before range; the
fatal condition sets the run state and changes nothing else. -/
def Obligations.BadFetchAddressIsFatal : Prop :=
  ∀ s : State, s.run = .running → guardCount s.pc s < Config.livenessN →
    (s.pc.toNat % 4 ≠ 0 → step s = .next { s with run := .fatal (.misalignedFetch s.pc) }) ∧
    (s.pc.toNat % 4 = 0 → s.params.memSize < s.pc.toNat + 4 →
      step s = .next { s with run := .fatal (.fetchOutOfRange s.pc) })

/-- 60_exceptions.md R378, R379: a word that selects no instruction ends the run with the word and its address; it has been
fetched (pc advanced, one instruction-cache access), it has not been issued. -/
def Obligations.RejectedWordIsFatal : Prop :=
  ∀ (s : State) (e : DecodeError), s.params.WellFormed → s.Fetches →
    decodeBytes (s.fetchBytes s.pc.toNat) = (.rejected e, []) →
    ∃ t w, step s = .next t ∧ w.toNat = leValue (s.fetchBytes s.pc.toNat) ∧
      (e = .unrecognizedOpcode → t.run = .fatal (.unrecognizedOpcode w s.pc)) ∧
      (e = .unmappedInstruction → t.run = .fatal (.unmappedInstruction w s.pc)) ∧
      (e = .unrecognizedOpcode ∨ e = .unmappedInstruction) ∧
      t.pc = s.pc + 4 ∧ t.icount = s.icount ∧ t.icAccesses = s.icAccesses + 1 ∧
      t.x = s.x ∧ t.f = s.f ∧ t.mem = s.mem ∧ t.dc = s.dc ∧ t.dcAccesses = s.dcAccesses ∧ t.dcHits = s.dcHits

/-- R345: a step of a running machine halts it exactly when its fetch would be the fifth in a row at one address; then
nothing but the run state changes. -/
def Obligations.GuardHaltsExactlyAtTheFifthFetch : Prop :=
  ∀ s : State, s.run = .running →
    ((s.lgAddr = some s.pc ∧ 4 ≤ s.lgCount) → step s = .next { s with run := .halted }) ∧
    ∀ t, step s = .next t → t.run = .halted → s.lgAddr = some s.pc ∧ 4 ≤ s.lgCount

/-- 41_control_transfer.md R232, 50_pipeline.md R345: a control transfer to itself executes four times; the fifth step
halts, with the pc on the instruction; the link register, if it has one other than `x0`, holds its address plus 4, and no
other register has changed. -/
def Obligations.SelfLoopHaltsAfterFourExecutions : Prop :=
  ∀ (s : State) (i : Instr), s.params.WellFormed → s.FetchesInstr i → s.lgAddr ≠ some s.pc → JumpsToItself i s →
    ∃ t, Host.Core.run core 5 s = .next t ∧ t.run = .halted ∧ t.pc = s.pc ∧ t.icount = s.icount + 4 ∧
      (∀ r, t.readX r = if r ≠ 0 ∧ destOf i = some (xr r) then s.pc + 4 else s.readX r) ∧
      (∀ r, t.readF r = s.readF r) ∧ t.mem = s.mem ∧ t.dc = s.dc

/-- 10_state.md R39, 50_pipeline.md R320, 80_host_interface.md R433: after HALTED and after FATAL nothing changes, in the
engine, in the run loop and in the reference, whose step answers the fatal cause (log 6); and while `stop` is asserted the
loop changes nothing. -/
def Obligations.EndedRunsStay : Prop :=
  (∀ s, s.run ≠ .running → ∀ n stops, ticks n s = s ∧ driverRun stops s = s) ∧
  (∀ s, s.run = .halted → step s = .next s) ∧
  (∀ s c, s.run = .fatal c → step s = .fault c) ∧
  ∀ s n, driverRun (List.replicate n true) s = s

/-- 60_exceptions.md R370, R372; 43_float.md R262: every instruction answers a next state on every state, and a step
answers a next state unless a fatal condition has ended the run; nothing is refused. -/
def Obligations.NothingIsRefused : Prop :=
  (∀ i s, ∃ t, exec i s = .next t) ∧ ∀ s, (∃ t, step s = .next t) ∨ ∃ c, s.run = .fatal c ∧ step s = .fault c

/-! ### Reset (70_reset_and_hazards.md R400, 80_host_interface.md R431) -/

/-- R400, R431, R402: `init` is defined exactly for legal parameters and an image that fits, and gives the reset state. -/
def Obligations.ConstructionGivesTheResetState : Prop :=
  ∀ (p : Params) (image : List Word),
    ((State.construct p image).isSome = true ↔ p.WellFormed ∧ 4 * image.length ≤ p.memSize) ∧
    ∀ s, State.construct p image = some s →
      s.params = p ∧
      (∀ r, s.readX r = 0) ∧ (∀ r, s.readF r = 0) ∧ s.pc = 0 ∧
      (∀ k j (h : k < image.length), j < 4 → s.mem.read (4 * k + j) = image[k].extractLsb' (8 * j) 8) ∧
      (∀ a, 4 * image.length ≤ a → s.mem.read a = 0) ∧
      (∀ a, s.archMem a = s.mem.read a) ∧ (∀ a, Cache.lookup p.ic s.ic a = none) ∧
      (∀ i, Cache.setAt s.dc i = []) ∧ (∀ i, Cache.setAt s.ic i = []) ∧
      (∀ r, s.forwarded r = none) ∧
      s.qRF = none ∧ s.qEX = none ∧ s.qMEM = none ∧ s.qWB = none ∧
      s.icount = 0 ∧ s.dcAccesses = 0 ∧ s.dcHits = 0 ∧ s.icAccesses = 0 ∧ s.icHits = 0 ∧
      s.lgAddr = none ∧ s.lgCount = 0 ∧ s.run = .running

/-- The reset state meets the invariants of the reference and of the engine. -/
def Obligations.ResetMeetsTheInvariants : Prop := State.reset.Inv ∧ State.reset.EngineInv

/-- Every constructed machine meets them. -/
def Obligations.ConstructionMeetsTheInvariants : Prop :=
  ∀ p image s, State.construct p image = some s → s.EngineInv

/-! ### Invariants -/

/-- 21_cache.md R120, R115; 10_state.md R21; 50_pipeline.md R346 f: a step of the reference keeps `Inv`. -/
def Obligations.StepKeepsInv : Prop := ∀ s t : State, s.Inv → step s = .next t → t.Inv

/-- 50_pipeline.md R346: a tick keeps the invariant of the engine. -/
def Obligations.TickKeepsEngineInv : Prop := ∀ s : State, s.EngineInv → (tick s).EngineInv

/-! ### Whole-machine frames -/

/-- 50_pipeline.md R339, 10_state.md R22: an instruction changes no register but the destination its row names; a kind
without destination changes none, and index 0 of the integer bank always reads 0. -/
def Obligations.OnlyTheDestinationChanges : Prop :=
  ∀ (i : Instr) (s t : State), exec i s = .next t →
    (∀ r, destOf i ≠ some (xr r) → t.readX r = s.readX r) ∧
    (∀ r, destOf i ≠ some (fr r) → t.readF r = s.readF r) ∧
    t.readX 0 = 0

/-- 50_pipeline.md R339: an instruction reads no register but the sources its row names: on two running states that differ
in other registers only, it leaves the same pc, run state, memory, caches and counters and the same destination value. -/
def Obligations.OnlyTheSourcesAreRead : Prop :=
  ∀ (i : Instr) (s : State) (x' f' : Vector Word 32), s.run = .running →
    let s' : State := { s with x := x', f := f' }
    (∀ r, (sourcesOf i).1 = some r ∨ (sourcesOf i).2 = some r → s'.committed r = s.committed r) →
    ∀ t t', exec i s = .next t → exec i s' = .next t' →
      { t' with x := t.x, f := t.f } = t ∧
      (t.run = .running → ∀ r, destOf i = some r → t'.committed r = t.committed r)

/-- 40_integer_computational.md and 43_float.md (common paragraphs), 41_control_transfer.md R229, 42_load_store.md R253:
only loads and stores touch memory, the data cache and its counters, only control transfers the pc; nothing touches the
instruction cache, the guard, `icount`, the slots or the tables; and only a data access can end the run. -/
def Obligations.NothingElseChanges : Prop :=
  ∀ (i : Instr) (s t : State), exec i s = .next t →
    SameOutsideData { s with run := t.run } t ∧
    (isBranchOrJump i = false → t.pc = s.pc) ∧
    (isLoad i = false → isStore i = false → SameOutsideRegs s t) ∧
    (t.run ≠ s.run → ∃ a n, dataAccess i s = some (a, n) ∧
      (t.run = .fatal (.misalignedAccess a) ∨ t.run = .fatal (.memOutOfRange a)))

/-! ### Integer computational instructions (40_integer_computational.md) -/

/-- R170, R171: LUI and AUIPC complete with their results, for every destination. -/
def Obligations.UpperImmediateResults : Prop :=
  (SelectsU .lui 0x37 ∧ SelectsU .auipc 0x17) ∧
  ∀ (rd : RegIdx) (imm : Imm20) (s : State),
    CompletesX (.lui rd imm) rd (BitVec.ofNat 32 (imm.toNat * 2 ^ 12)) s ∧
    CompletesX (.auipc rd imm) rd (BitVec.ofNat 32 (s.originPc.toNat + imm.toNat * 2 ^ 12)) s

/-- R172, R181, R182: sums and differences of the two's complement values, modulo 2^32. -/
def Obligations.AddSubResults : Prop :=
  (SelectsI .addi 0x13 0 ∧ SelectsR .add 0x33 0 0 ∧ SelectsR .sub 0x33 0 0x20) ∧
  ∀ (rd rs1 rs2 : RegIdx) (imm : Imm12) (s : State),
    CompletesX (.addi rd rs1 imm) rd (BitVec.ofInt 32 ((s.readX rs1).toInt + imm.toInt)) s ∧
    CompletesX (.add rd rs1 rs2) rd (BitVec.ofInt 32 ((s.readX rs1).toInt + (s.readX rs2).toInt)) s ∧
    CompletesX (.sub rd rs1 rs2) rd (BitVec.ofInt 32 ((s.readX rs1).toInt - (s.readX rs2).toInt)) s

/-- R173, R174, R184, R185: signed and unsigned comparisons; the immediate of SLTIU is sign-extended and then read as
unsigned, that is modulo 2^32. -/
def Obligations.CompareResults : Prop :=
  (SelectsI .slti 0x13 2 ∧ SelectsI .sltiu 0x13 3 ∧ SelectsR .slt 0x33 2 0 ∧ SelectsR .sltu 0x33 3 0) ∧
  ∀ (rd rs1 rs2 : RegIdx) (imm : Imm12) (s : State),
    CompletesX (.slti rd rs1 imm) rd (if (s.readX rs1).toInt < imm.toInt then 1 else 0) s ∧
    CompletesX (.sltiu rd rs1 imm) rd (if ((s.readX rs1).toNat : Int) < imm.toInt % 2 ^ 32 then 1 else 0) s ∧
    CompletesX (.slt rd rs1 rs2) rd (if (s.readX rs1).toInt < (s.readX rs2).toInt then 1 else 0) s ∧
    CompletesX (.sltu rd rs1 rs2) rd (if (s.readX rs1).toNat < (s.readX rs2).toNat then 1 else 0) s

/-- R175, R176, R177, R186, R189, R190: the bitwise instructions; an immediate is sign-extended to 32 bits. -/
def Obligations.BitwiseResults : Prop :=
  (SelectsI .xori 0x13 4 ∧ SelectsI .ori 0x13 6 ∧ SelectsI .andi 0x13 7 ∧
    SelectsR .xor 0x33 4 0 ∧ SelectsR .or 0x33 6 0 ∧ SelectsR .and 0x33 7 0) ∧
  ∀ (rd rs1 rs2 : RegIdx) (imm : Imm12) (s : State),
    CompletesX (.xori rd rs1 imm) rd (s.readX rs1 ^^^ BitVec.ofInt 32 imm.toInt) s ∧
    CompletesX (.ori rd rs1 imm) rd (s.readX rs1 ||| BitVec.ofInt 32 imm.toInt) s ∧
    CompletesX (.andi rd rs1 imm) rd (s.readX rs1 &&& BitVec.ofInt 32 imm.toInt) s ∧
    CompletesX (.xor rd rs1 rs2) rd (s.readX rs1 ^^^ s.readX rs2) s ∧
    CompletesX (.or rd rs1 rs2) rd (s.readX rs1 ||| s.readX rs2) s ∧
    CompletesX (.and rd rs1 rs2) rd (s.readX rs1 &&& s.readX rs2) s

/-- R178, R179, R180, R183, R187, R188: shifts as products and quotients by 2^k, k the low five bits of the amount. -/
def Obligations.ShiftResults : Prop :=
  (SelectsShift .slli 1 0 [0] ∧ SelectsShift .srli 5 0 [0, 0x20] ∧ SelectsShift .srai 5 0x20 [0, 0x20] ∧
    SelectsR .sll 0x33 1 0 ∧ SelectsR .srl 0x33 5 0 ∧ SelectsR .sra 0x33 5 0x20) ∧
  ∀ (rd rs1 rs2 : RegIdx) (imm : Imm12) (s : State),
    let a := s.readX rs1
    let k := imm.toNat % 32
    let m := (s.readX rs2).toNat % 32
    CompletesX (.slli rd rs1 imm) rd (BitVec.ofNat 32 (a.toNat * 2 ^ k)) s ∧
    CompletesX (.srli rd rs1 imm) rd (BitVec.ofNat 32 (a.toNat / 2 ^ k)) s ∧
    CompletesX (.srai rd rs1 imm) rd (BitVec.ofInt 32 (a.toInt / 2 ^ k)) s ∧
    CompletesX (.sll rd rs1 rs2) rd (BitVec.ofNat 32 (a.toNat * 2 ^ m)) s ∧
    CompletesX (.srl rd rs1 rs2) rd (BitVec.ofNat 32 (a.toNat / 2 ^ m)) s ∧
    CompletesX (.sra rd rs1 rs2) rd (BitVec.ofInt 32 (a.toInt / 2 ^ m)) s

/-! ### Control transfer (41_control_transfer.md) -/

/-- R220, R221, R231: JAL and JALR complete with the link value `origin_pc + 4` in `rd` (discarded for `rd` = 0) and the
pc at the target; JALR reads its base before it writes `rd` and clears bit 0. -/
def Obligations.JumpResults : Prop :=
  (SelectsJ .jal ∧ SelectsI .jalr 0x67 0) ∧
  ∀ (rd rs1 : RegIdx) (imm : Imm12) (imm20 : Imm20) (s : State),
    (∃ t, exec (.jal rd imm20) s = .next t ∧
      t.pc = BitVec.ofInt 32 (s.originPc.toInt + 2 * imm20.toInt) ∧
      OnlyX rd (s.originPc + 4) s t ∧ SameOutsideRegs s t) ∧
    (∃ t, exec (.jalr rd rs1 imm) s = .next t ∧
      t.pc = BitVec.ofNat 32 ((BitVec.ofInt 32 ((s.readX rs1).toInt + imm.toInt)).toNat / 2 * 2) ∧
      OnlyX rd (s.originPc + 4) s t ∧ SameOutsideRegs s t)

/-- R222 to R229: the six branches, their conditions and their two outcomes. -/
def Obligations.BranchResults : Prop :=
  (SelectsB .beq 0 ∧ SelectsB .bne 1 ∧ SelectsB .blt 4 ∧ SelectsB .bge 5 ∧ SelectsB .bltu 6 ∧ SelectsB .bgeu 7) ∧
  ∀ (rs1 rs2 : RegIdx) (imm : Imm12) (s : State),
    let a := s.readX rs1
    let b := s.readX rs2
    CompletesBranch (.beq rs1 rs2 imm) (a.toNat = b.toNat) imm s ∧
    CompletesBranch (.bne rs1 rs2 imm) (a.toNat ≠ b.toNat) imm s ∧
    CompletesBranch (.blt rs1 rs2 imm) (a.toInt < b.toInt) imm s ∧
    CompletesBranch (.bge rs1 rs2 imm) (b.toInt ≤ a.toInt) imm s ∧
    CompletesBranch (.bltu rs1 rs2 imm) (a.toNat < b.toNat) imm s ∧
    CompletesBranch (.bgeu rs1 rs2 imm) (b.toNat ≤ a.toNat) imm s

/-- R230: after a transfer the pc is even and the run goes on; a target that is no multiple of 4, or is past memory, makes
the following step fatal, with the address. -/
def Obligations.BadTargetsFaultAtTheNextFetch : Prop :=
  ∀ (i : Instr) (s t : State), isBranchOrJump i = true → s.run = .running → s.lgAddr = some s.originPc →
    s.originPc.toNat % 4 = 0 → s.originPc.toNat + 4 ≤ s.params.memSize → exec i s = .next t →
    t.pc.toNat % 2 = 0 ∧ t.run = .running ∧
    (t.pc.toNat % 4 = 2 → step t = .next { t with run := .fatal (.misalignedFetch t.pc) }) ∧
    (t.pc.toNat % 4 = 0 → t.params.memSize < t.pc.toNat + 4 →
      step t = .next { t with run := .fatal (.fetchOutOfRange t.pc) })

/-! ### Load and store (42_load_store.md) -/

/-- R250: the effective address is the base plus the sign-extended displacement, modulo 2^32. -/
def Obligations.EffectiveAddressValue : Prop :=
  ∀ (base : Word) (imm : Imm12), effectiveAddress base imm = BitVec.ofInt 32 (base.toInt + imm.toInt)

/-- R240 to R244, R248: the six loads complete on an aligned in-range address with the little-endian value of `ArchMem`,
extended; FLW copies the 32 bits into the float bank, where `f[0]` is an ordinary register. A load to `x0` counts its access
and discards the value (R253). On any other address the load is fatal with its cause. -/
def Obligations.LoadResults : Prop :=
  (SelectsI .lb 0x03 0 ∧ SelectsI .lh 0x03 1 ∧ SelectsI .lw 0x03 2 ∧ SelectsI .lbu 0x03 4 ∧ SelectsI .lhu 0x03 5 ∧
    SelectsI .flw 0x07 2) ∧
  ∀ (rd rs1 : RegIdx) (imm : Imm12) (s : State), s.Inv →
    let a := effectiveAddress (s.readX rs1) imm
    (a.toNat + 1 ≤ s.params.memSize →
      CompletesLoadX (.lb rd rs1 imm) rd a (BitVec.ofInt 32 (s.archMem a.toNat).toInt) s ∧
      CompletesLoadX (.lbu rd rs1 imm) rd a (BitVec.ofNat 32 (s.archMem a.toNat).toNat) s) ∧
    (a.toNat % 2 = 0 → a.toNat + 2 ≤ s.params.memSize →
      CompletesLoadX (.lh rd rs1 imm) rd a (BitVec.ofInt 32 (BitVec.ofNat 16 (s.archValue a.toNat 2)).toInt) s ∧
      CompletesLoadX (.lhu rd rs1 imm) rd a (BitVec.ofNat 32 (s.archValue a.toNat 2)) s) ∧
    (a.toNat % 4 = 0 → a.toNat + 4 ≤ s.params.memSize →
      CompletesLoadX (.lw rd rs1 imm) rd a (BitVec.ofNat 32 (s.archValue a.toNat 4)) s ∧
      CompletesLoadF (.flw rd rs1 imm) rd a (BitVec.ofNat 32 (s.archValue a.toNat 4)) s) ∧
    (s.params.memSize < a.toNat + 1 → ∀ i ∈ [Instr.lb rd rs1 imm, .lbu rd rs1 imm],
      exec i s = .next { s with run := .fatal (.memOutOfRange a) }) ∧
    (∀ i ∈ [Instr.lh rd rs1 imm, .lhu rd rs1 imm],
      (a.toNat % 2 ≠ 0 → exec i s = .next { s with run := .fatal (.misalignedAccess a) }) ∧
      (a.toNat % 2 = 0 → s.params.memSize < a.toNat + 2 → exec i s = .next { s with run := .fatal (.memOutOfRange a) })) ∧
    (∀ i ∈ [Instr.lw rd rs1 imm, .flw rd rs1 imm],
      (a.toNat % 4 ≠ 0 → exec i s = .next { s with run := .fatal (.misalignedAccess a) }) ∧
      (a.toNat % 4 = 0 → s.params.memSize < a.toNat + 4 → exec i s = .next { s with run := .fatal (.memOutOfRange a) }))

/-- R245, R246, R247, R249: the four stores complete on an aligned in-range address: the low bytes of the data register,
least significant first, at the effective address, and no other byte of `ArchMem`; on any other address they are fatal. -/
def Obligations.StoreResults : Prop :=
  (SelectsS .sb 0x23 0 ∧ SelectsS .sh 0x23 1 ∧ SelectsS .sw 0x23 2 ∧ SelectsS .fsw 0x27 2) ∧
  ∀ (rs1 rs2 : RegIdx) (imm : Imm12) (s : State), s.Inv →
    let a := effectiveAddress (s.readX rs1) imm
    (a.toNat + 1 ≤ s.params.memSize → CompletesStore (.sb rs1 rs2 imm) a 1 (s.readX rs2) s) ∧
    (a.toNat % 2 = 0 → a.toNat + 2 ≤ s.params.memSize → CompletesStore (.sh rs1 rs2 imm) a 2 (s.readX rs2) s) ∧
    (a.toNat % 4 = 0 → a.toNat + 4 ≤ s.params.memSize →
      CompletesStore (.sw rs1 rs2 imm) a 4 (s.readX rs2) s ∧
      CompletesStore (.fsw rs1 rs2 imm) a 4 (s.readF rs2) s) ∧
    (s.params.memSize < a.toNat + 1 → exec (.sb rs1 rs2 imm) s = .next { s with run := .fatal (.memOutOfRange a) }) ∧
    (a.toNat % 2 ≠ 0 → exec (.sh rs1 rs2 imm) s = .next { s with run := .fatal (.misalignedAccess a) }) ∧
    (a.toNat % 2 = 0 → s.params.memSize < a.toNat + 2 →
      exec (.sh rs1 rs2 imm) s = .next { s with run := .fatal (.memOutOfRange a) }) ∧
    (∀ i ∈ [Instr.sw rs1 rs2 imm, .fsw rs1 rs2 imm],
      (a.toNat % 4 ≠ 0 → exec i s = .next { s with run := .fatal (.misalignedAccess a) }) ∧
      (a.toNat % 4 = 0 → s.params.memSize < a.toNat + 4 → exec i s = .next { s with run := .fatal (.memOutOfRange a) }))

/-- R252: a misaligned address is fatal `MisalignedAccess`, an aligned one past memory fatal `MemOutOfRange`, for all ten;
a fatal access changes nothing but the run state. -/
def Obligations.FatalDataAccess : Prop :=
  ∀ (i : Instr) (s : State) (a : Word) (n : Nat), dataAccess i s = some (a, n) →
    (a.toNat % n ≠ 0 → exec i s = .next { s with run := .fatal (.misalignedAccess a) }) ∧
    (a.toNat % n = 0 → s.params.memSize < a.toNat + n →
      exec i s = .next { s with run := .fatal (.memOutOfRange a) })

/-- R253: a load or store that passes its checks performs exactly one `DCacheAccess`: one access counted, a hit counted if
the line was resident, and the line left most recently used, accessed, and dirty after a store. -/
def Obligations.OneDataCacheAccess : Prop :=
  ∀ (i : Instr) (s t : State) (a : Word) (n : Nat), s.params.WellFormed → dataAccess i s = some (a, n) →
    accessCheck s.params a n = none → exec i s = .next t →
    CountedAccess a.toNat s t ∧
    ∃ l, (Cache.setAt t.dc (indexOf s.params.dc a.toNat)).getLast? = some l ∧
      l.tag = tagOf s.params.dc a.toNat ∧ l.accessed = true ∧ (isStore i = true → l.dirty = true)

/-! ### The caches (21_cache.md) -/

/-- R100, R101: a hit of a read or a write moves the line to the end of its set, accessed (and dirty, with its bytes
replaced, for a write), keeps the other lines in their order, and changes no other set; on a miss neither answers. -/
def Obligations.HitsRefreshRecency : Prop :=
  ∀ (g : Geometry) (c : Cache) (a n : Nat) (v : Word), n = 1 ∨ n = 2 ∨ n = 4 →
    ((Cache.setAt c (indexOf g a)).map Line.tag).Nodup →
    ((∀ l ∈ Cache.setAt c (indexOf g a), l.tag ≠ tagOf g a) → Cache.read g c a n = none ∧ Cache.write g c a n v = none) ∧
    ∀ older l younger, Cache.setAt c (indexOf g a) = older ++ l :: younger → l.tag = tagOf g a →
      offsetOf g a + n ≤ l.bytes.length →
      (∃ w c', Cache.read g c a n = some (w, c') ∧
        (∀ k < n, w.toNat / 256 ^ k % 256 = (l.bytes.getD (offsetOf g a + k) 0).toNat) ∧ w.toNat < 256 ^ n ∧
        Cache.setAt c' (indexOf g a) = older ++ younger ++ [{ l with accessed := true }] ∧
        ∀ j, j ≠ indexOf g a → Cache.setAt c' j = Cache.setAt c j) ∧
      (∃ c' l', Cache.write g c a n v = some c' ∧
        Cache.setAt c' (indexOf g a) = older ++ younger ++ [l'] ∧
        l'.tag = l.tag ∧ l'.valid = l.valid ∧ l'.dirty = true ∧ l'.accessed = true ∧
        l'.bytes.length = l.bytes.length ∧
        (∀ k < l.bytes.length, l'.bytes.getD k 0 =
          if offsetOf g a ≤ k ∧ k < offsetOf g a + n then BitVec.ofNat 8 (v.toNat / 256 ^ (k - offsetOf g a))
          else l.bytes.getD k 0) ∧
        ∀ j, j ≠ indexOf g a → Cache.setAt c' j = Cache.setAt c j)

/-- R102, R103: installing into a set below capacity evicts nothing; into a full set it evicts the head, surfaced with its
address and bytes exactly if it is dirty; the new line is valid, clean, not accessed and most recently used. -/
def Obligations.InstallEvictsTheLeastRecentlyUsed : Prop :=
  ∀ (g : Geometry) (c : Cache) (a : Nat) (bytes : List Byte), 1 ≤ g.ways →
    let i := indexOf g a
    let c' := (Cache.install g c a bytes).1
    let new : Line := { tag := tagOf g a, valid := true, dirty := false, accessed := false, bytes := bytes }
    ((Cache.setAt c i).length < g.ways →
      Cache.setAt c' i = Cache.setAt c i ++ [new] ∧ (Cache.install g c a bytes).2 = none) ∧
    (∀ v rest, Cache.setAt c i = v :: rest → g.ways ≤ (v :: rest).length →
      Cache.setAt c' i = rest ++ [new] ∧
      (v.dirty = true → (Cache.install g c a bytes).2 = some ((v.tag * g.sets + i) * g.line, v.bytes)) ∧
      (v.dirty = false → (Cache.install g c a bytes).2 = none)) ∧
    ∀ j, j ≠ i → Cache.setAt c' j = Cache.setAt c j

/-- R103's testable property: after hits that touch every line of a full set but one, the next install into that set evicts
that one line and keeps every other. -/
def Obligations.LeastRecentlyTouchedIsTheVictim : Prop :=
  ∀ (g : Geometry) (c : Cache) (as : List Nat) (a : Nat) (bytes : List Byte) (u : Line),
    let i := indexOf g a
    1 ≤ g.ways → (Cache.setAt c i).length = g.ways → ((Cache.setAt c i).map Line.tag).Nodup →
    u ∈ Cache.setAt c i → tagOf g a ∉ (Cache.setAt c i).map Line.tag →
    (∀ b ∈ as, indexOf g b = i ∧ tagOf g b ≠ u.tag) →
    (∀ l ∈ Cache.setAt c i, l.tag ≠ u.tag → ∃ b ∈ as, tagOf g b = l.tag) →
    let c' := (Cache.install g (readHits g c as) a bytes).1
    (∀ l ∈ Cache.setAt c' i, l.tag ≠ u.tag) ∧
    (∀ l ∈ Cache.setAt c i, l.tag ≠ u.tag → { l with accessed := true } ∈ Cache.setAt c' i) ∧
    (u.dirty = true → (Cache.install g (readHits g c as) a bytes).2 = some (lineAddr g u.tag i, u.bytes))

/-- R121: the miss part of the protocol (install, eviction, write-back) leaves the line resident, changes no byte of
`ArchMem` and keeps the invariant; nor does a read hit change one; a write hit changes exactly the bytes written. -/
def Obligations.OnlyWriteHitsChangeArchMem : Prop :=
  ∀ (s : State) (a n : Nat) (v : Word), s.Inv → n = 1 ∨ n = 2 ∨ n = 4 → a % n = 0 → a + n ≤ s.params.memSize →
    (Cache.lookup s.params.dc s.dc a = none →
      (Cache.lookup s.params.dc (dcFill a s).dc a).isSome = true ∧
      (∀ b, (dcFill a s).archMem b = s.archMem b) ∧
      (dcFill a s).Inv) ∧
    (∀ w c, Cache.read s.params.dc s.dc a n = some (w, c) →
      ∀ b, ({ s with dc := c } : State).archMem b = s.archMem b) ∧
    (∀ c, Cache.write s.params.dc s.dc a n v = some c →
      ∀ b, ({ s with dc := c } : State).archMem b =
        if a ≤ b ∧ b < a + n then BitVec.ofNat 8 (v.toNat / 256 ^ (b - a)) else s.archMem b)

/-- 20_memory.md R62: after a word store, narrower loads see its bytes and halves, least significant lowest; after a
narrower store, a word load sees its bytes and the old ones. -/
def Obligations.MixedWidthAccess : Prop :=
  ∀ (s : State) (a v : Word), s.Inv → a.toNat % 4 = 0 → a.toNat + 4 ≤ s.params.memSize →
    (∃ s0, memWrite a 4 v s = .ok s0 ∧
      (∀ k < 4, ∃ s1, memRead (a + BitVec.ofNat 32 k) 1 s0 = .ok (BitVec.ofNat 32 (v.toNat / 256 ^ k % 256), s1)) ∧
      (∀ k < 2, ∃ s1,
        memRead (a + BitVec.ofNat 32 (2 * k)) 2 s0 = .ok (BitVec.ofNat 32 (v.toNat / 65536 ^ k % 65536), s1)) ∧
      ∃ s1, memRead a 4 s0 = .ok (v, s1)) ∧
    ∀ n k, (n = 1 ∧ k < 4) ∨ (n = 2 ∧ (k = 0 ∨ k = 2)) →
      ∃ s0 w s1, memWrite (a + BitVec.ofNat 32 k) n v s = .ok s0 ∧ memRead a 4 s0 = .ok (w, s1) ∧
        ∀ j < 4, w.extractLsb' (8 * j) 8 =
          if k ≤ j ∧ j < k + n then BitVec.ofNat 8 (v.toNat / 256 ^ (j - k)) else s.archMem (a.toNat + j)

/-- 20_memory.md R63, R72: a store, then any legal accesses that store to none of its bytes, however many lines they install
and evict, then a load of the same bytes: the load returns the stored value. -/
def Obligations.WriteEvictReadRoundTrip : Prop :=
  ∀ (s : State) (a v : Word) (n : Nat) (cs : List Access), s.Inv →
    (Access.store a n v).Legal s.params → (∀ c ∈ cs, c.Legal s.params ∧ c.Avoids a.toNat n) →
    ∃ s0 s1, memWrite a n v s = .ok s0 ∧
      memRead a n (accessRun s0 cs).2 = .ok (BitVec.ofNat 32 (v.toNat % 256 ^ n), s1)

/-- 21_cache.md R122, first sentence: two machines with the same memory size and the same `ArchMem`, whatever their data
caches' geometries and contents, return the same values for any legal accesses and end with the same `ArchMem`. -/
def Obligations.LoadsDoNotDependOnTheGeometry : Prop :=
  ∀ (s s' : State) (cs : List Access), s.Inv → s'.Inv → s.params.memSize = s'.params.memSize →
    (∀ a, s.archMem a = s'.archMem a) → (∀ c ∈ cs, c.Legal s.params) →
    (accessRun s cs).1 = (accessRun s' cs).1 ∧
    ∀ a, (accessRun s cs).2.archMem a = (accessRun s' cs).2.archMem a

/-! ### Floating point (43_float.md) -/

/-- R280 to R287: the eight instructions with a float destination and float sources complete with the function of part 1,
or with the sign bit and the low 31 bits the sign injections name. -/
def Obligations.FloatResults : Prop :=
  (SelectsR .faddS 0x53 0 0x00 ∧ SelectsR .fsubS 0x53 0 0x04 ∧ SelectsR .fmulS 0x53 0 0x08 ∧
    SelectsR .fdivS 0x53 0 0x0C ∧ SelectsR (fun rd rs1 _ => .fsqrtS rd rs1) 0x53 0 0x2C ∧
    SelectsR .fsgnjS 0x53 0 0x10 ∧ SelectsR .fsgnjnS 0x53 1 0x10 ∧ SelectsR .fsgnjxS 0x53 2 0x10) ∧
  ∀ (rd rs1 rs2 : RegIdx) (s : State),
    let a := s.readF rs1
    let b := s.readF rs2
    CompletesF (.faddS rd rs1 rs2) rd (fadd a b) s ∧
    CompletesF (.fsubS rd rs1 rs2) rd (fadd a (BitVec.ofNat 32 ((b.toNat + 2 ^ 31) % 2 ^ 32))) s ∧
    CompletesF (.fmulS rd rs1 rs2) rd (fmul a b) s ∧
    CompletesF (.fdivS rd rs1 rs2) rd (fdiv a b) s ∧
    CompletesF (.fsqrtS rd rs1) rd (fsqrt a) s ∧
    CompletesF (.fsgnjS rd rs1 rs2) rd (BitVec.ofNat 32 (b.toNat / 2 ^ 31 * 2 ^ 31 + a.toNat % 2 ^ 31)) s ∧
    CompletesF (.fsgnjnS rd rs1 rs2) rd (BitVec.ofNat 32 ((1 - b.toNat / 2 ^ 31) * 2 ^ 31 + a.toNat % 2 ^ 31)) s ∧
    CompletesF (.fsgnjxS rd rs1 rs2) rd
      (BitVec.ofNat 32 ((a.toNat / 2 ^ 31 + b.toNat / 2 ^ 31) % 2 * 2 ^ 31 + a.toNat % 2 ^ 31)) s

/-- R288 to R292: the comparisons and conversions complete, each in the bank its rule names, with the functions of R269,
R271 and R272. -/
def Obligations.CompareConvertResults : Prop :=
  (SelectsR .feqS 0x53 2 0x50 ∧ SelectsR .fltS 0x53 1 0x50 ∧ SelectsR .fleS 0x53 0 0x50 ∧
    SelectsR (fun rd rs1 _ => .fcvtWS rd rs1) 0x53 0 0x60 ∧ SelectsR (fun rd rs1 _ => .fcvtSW rd rs1) 0x53 0 0x68) ∧
  ∀ (rd rs1 rs2 : RegIdx) (s : State),
    let a := s.readF rs1
    let b := s.readF rs2
    CompletesX (.feqS rd rs1 rs2) rd (if feq a b = true then 1 else 0) s ∧
    CompletesX (.fltS rd rs1 rs2) rd (if flt a b = true then 1 else 0) s ∧
    CompletesX (.fleS rd rs1 rs2) rd (if fle a b = true then 1 else 0) s ∧
    CompletesX (.fcvtWS rd rs1) rd (ftoi a) s ∧
    CompletesF (.fcvtSW rd rs1) rd (itof (s.readX rs1)) s

/-- R261, R263, R264: addition, case by case; the sum of two NORMAL patterns is the exact rational sum, rounded once. -/
def Obligations.AdditionIsRoundedExactly : Prop :=
  ∀ a b : Word,
    (classF a = .nan ∨ classF b = .nan → fadd a b = 0x7FC00000#32) ∧
    (classF a = .inf → classF b = .inf → fadd a b = if signF a = signF b then a else 0x7FC00000#32) ∧
    (classF a = .inf → (classF b = .zero ∨ classF b = .normal) → fadd a b = a) ∧
    (classF b = .inf → (classF a = .zero ∨ classF a = .normal) → fadd a b = b) ∧
    (classF a = .zero → classF b = .zero →
      fadd a b = if signF a = true ∧ signF b = true then 0x80000000#32 else 0x00000000#32) ∧
    (classF a = .zero → classF b = .normal → fadd a b = b) ∧
    (classF a = .normal → classF b = .zero → fadd a b = a) ∧
    (classF a = .normal → classF b = .normal →
      (valF a + valF b = 0 → fadd a b = 0x00000000#32) ∧
      (0 < valF a + valF b → RoundsTo false (valF a + valF b) (fadd a b)) ∧
      (valF a + valF b < 0 → RoundsTo true (-(valF a + valF b)) (fadd a b)))

/-- R266: multiplication, case by case. -/
def Obligations.MultiplicationIsRoundedExactly : Prop :=
  ∀ a b : Word,
    let s := signF a ^^ signF b
    let inf := if s = true then 0xFF800000#32 else 0x7F800000#32
    let zero := if s = true then 0x80000000#32 else 0x00000000#32
    (classF a = .nan ∨ classF b = .nan → fmul a b = 0x7FC00000#32) ∧
    ((classF a = .inf ∧ classF b = .zero) ∨ (classF a = .zero ∧ classF b = .inf) → fmul a b = 0x7FC00000#32) ∧
    ((classF a = .inf ∧ (classF b = .inf ∨ classF b = .normal)) ∨ (classF a = .normal ∧ classF b = .inf) →
      fmul a b = inf) ∧
    ((classF a = .zero ∧ (classF b = .zero ∨ classF b = .normal)) ∨ (classF a = .normal ∧ classF b = .zero) →
      fmul a b = zero) ∧
    (classF a = .normal → classF b = .normal → RoundsTo s (|valF a| * |valF b|) (fmul a b))

/-- R267: division, case by case; a zero divisor (a subnormal one too) gives an infinity and no error. -/
def Obligations.DivisionIsRoundedExactly : Prop :=
  ∀ a b : Word,
    let s := signF a ^^ signF b
    let inf := if s = true then 0xFF800000#32 else 0x7F800000#32
    let zero := if s = true then 0x80000000#32 else 0x00000000#32
    (classF a = .nan ∨ classF b = .nan → fdiv a b = 0x7FC00000#32) ∧
    ((classF a = .inf ∧ classF b = .inf) ∨ (classF a = .zero ∧ classF b = .zero) → fdiv a b = 0x7FC00000#32) ∧
    (classF a = .inf → (classF b = .zero ∨ classF b = .normal) → fdiv a b = inf) ∧
    ((classF a = .zero ∨ classF a = .normal) → classF b = .inf → fdiv a b = zero) ∧
    (classF a = .normal → classF b = .zero → fdiv a b = inf) ∧
    (classF a = .zero → classF b = .normal → fdiv a b = zero) ∧
    (classF a = .normal → classF b = .normal → RoundsTo s (|valF a| / |valF b|) (fdiv a b))

/-- R268: square root, case by case; the root is compared with the exact real root by squares. -/
def Obligations.SquareRootIsRoundedExactly : Prop :=
  ∀ a : Word,
    (classF a = .nan → fsqrt a = 0x7FC00000#32) ∧
    (classF a = .zero → fsqrt a = if signF a = true then 0x80000000#32 else 0x00000000#32) ∧
    ((classF a = .inf ∨ classF a = .normal) → signF a = true → fsqrt a = 0x7FC00000#32) ∧
    (classF a = .inf → signF a = false → fsqrt a = a) ∧
    (classF a = .normal → signF a = false → RootRoundsTo (valF a) (fsqrt a) ∧ 64 ≤ expF (fsqrt a) ∧ expF (fsqrt a) ≤ 190)

/-- R263, R273 (1), (4): the five arithmetic functions and the conversion never give a subnormal pattern, and every NaN they
give is the canonical one. -/
def Obligations.ArithmeticResultsAreCanonical : Prop :=
  ∀ a b p : Word, p ∈ [fadd a b, fsub a b, fmul a b, fdiv a b, fsqrt a, itof a] →
    (expF p = 0 → manF p = 0) ∧ (classF p = .nan → p = 0x7FC00000#32)

/-- R269: the comparisons are those of the signed magnitudes `orderF`. Patterns with exponent 0 are equal to each other; NORMAL patterns compare by value, infinities
above and below them; a positive NaN is above everything that is none, a negative one below; `fle` is `flt` or `feq`, and
exactly one of less, equal, greater holds. -/
def Obligations.ComparisonOrder : Prop :=
  ∀ a b : Word,
    ((feq a b = true ↔ orderF a = orderF b) ∧ (flt a b = true ↔ orderF a < orderF b) ∧
      (fle a b = true ↔ orderF a ≤ orderF b)) ∧
    (classF a = .zero → classF b = .zero → feq a b = true) ∧
    (classF a = .normal → classF b = .normal → (feq a b = true ↔ valF a = valF b) ∧ (flt a b = true ↔ valF a < valF b)) ∧
    (classF a = .normal → classF b = .zero → (feq a b = false) ∧ (flt a b = signF a)) ∧
    (classF a = .zero → classF b = .normal → (feq a b = false) ∧ (flt a b = !signF b)) ∧
    (classF a = .inf → (classF b = .zero ∨ classF b = .normal) → flt a b = signF a ∧ feq a b = false) ∧
    (classF a = .nan → classF b ≠ .nan → flt a b = signF a ∧ feq a b = false) ∧
    (classF a = .nan → feq a b = true → a = b) ∧
    fle a b = (flt a b || feq a b) ∧
    (flt a b = true ↔ fle b a = false) ∧
    (feq a b = true ↔ flt a b = false ∧ flt b a = false)

/-- R271, R272: integer to float is the exact integer rounded once; up to 2^24 it is exact, and converting back gives the
integer. -/
def Obligations.IntegerToFloatIsRoundedExactly : Prop :=
  ∀ x : Word,
    (x.toInt = 0 → itof x = 0x00000000#32) ∧
    (0 < x.toInt → RoundsTo false (x.toInt : ℚ) (itof x)) ∧
    (x.toInt < 0 → RoundsTo true (-(x.toInt : ℚ)) (itof x)) ∧
    (x.toInt.natAbs ≤ 2 ^ 24 → ftoi (itof x) = x ∧ (x.toInt ≠ 0 → valF (itof x) = (x.toInt : ℚ))) ∧
    (x.toInt ≠ 0 → 127 ≤ expF (itof x) ∧ expF (itof x) ≤ 158) ∧
    itof 0x80000000#32 = 0xCF000000#32 ∧ itof 0x7FFFFFFF#32 = 0x4F000000#32

/-- R272: float to integer is the exact value rounded to the nearest integer, ties to even, then saturated. -/
def Obligations.FloatToIntegerRoundsAndSaturates : Prop :=
  ∀ p : Word,
    (classF p = .zero → ftoi p = 0x00000000#32) ∧
    (classF p = .nan → ftoi p = 0x7FFFFFFF#32) ∧
    (classF p = .inf → ftoi p = if signF p = true then 0x80000000#32 else 0x7FFFFFFF#32) ∧
    (classF p = .normal → ∃ r : ℤ, NearestEven (valF p) r ∧
      (ftoi p).toInt = max (-2 ^ 31) (min r (2 ^ 31 - 1)))

/-! ### The engine (50_pipeline.md) -/

/-- R330 to R335, R342, R229: from an empty pipeline, a branch or jump takes four ticks to its write-back, in which nothing
younger is fetched; the write-back then leaves what the reference's step leaves. -/
def Obligations.ControlTransferMatchesTheReference : Prop :=
  ∀ (s t : State) (i : Instr), s.EngineInv → s.qRF = none → s.qEX = none → s.qMEM = none → s.qWB = none →
    s.FetchesInstr i → isBranchOrJump i = true → step s = .next t →
    (∀ k, 1 ≤ k → k ≤ 4 → (ticks k s).icAccesses = s.icAccesses + 1 ∧ (ticks k s).pc = s.pc + 4) ∧
    { writeBackStep (ticks 4 s) with fwdX := s.fwdX, fwdF := s.fwdF } = t

/-- R341: an instruction that uses the result of the load just ahead of it waits one tick: the load moves on, the word stays
in `q_RF`, nothing is issued or fetched; in the next tick, unless the load is fatal, it is issued with the loaded value. -/
def Obligations.LoadUseInterlockHoldsOneTick : Prop :=
  ∀ (s : State) (l : Behaviour) (w : Word) (i : Instr) (r : RegRef), s.EngineInv →
    (memoryStep (writeBackStep s)).run = .running →
    s.qEX = some l → isLoad l.instr = true → destOf l.instr = some r → r ≠ xr 0 →
    s.qRF = some w → decodeWord w = .instr i → (sourcesOf i).1 = some r ∨ (sourcesOf i).2 = some r →
    let t := tick s
    t.qRF = some w ∧ t.qEX = none ∧ t.qMEM = some (executeFill l) ∧
    t.icount = s.icount ∧ t.pc = s.pc ∧ t.ic = s.ic ∧ t.icAccesses = s.icAccesses ∧
    ((memoryStep (writeBackStep t)).run = .running →
      ∃ b e, (tick t).qEX = some b ∧ b.instr = i ∧ b.seq = s.icount ∧ (tick t).icount = s.icount + 1 ∧
        (tick t).forwarded r = some e ∧ e.seq = l.seq ∧
        ((sourcesOf i).1 = some r → b.op1 = some e.value) ∧ ((sourcesOf i).2 = some r → b.op2 = some e.value))

/-- R337, R338, R340: the instruction just behind a producer that is no load is issued in the same tick in which the
producer executes, with the producer's result, which no register holds yet; no other source of it sees that value. -/
def Obligations.ForwardedResultReachesTheNextInstruction : Prop :=
  ∀ (s : State) (b : Behaviour) (w : Word) (i : Instr) (r : RegRef), s.EngineInv →
    (memoryStep (writeBackStep s)).run = .running →
    s.qEX = some b → isLoad b.instr = false → destOf b.instr = some r → r ≠ xr 0 →
    s.qRF = some w → decodeWord w = .instr i →
    ∃ b', (tick s).qEX = some b' ∧ b'.instr = i ∧ b'.seq = s.icount ∧
      ((sourcesOf i).1 = some r → b'.op1 = (executeFill b).result) ∧
      ((sourcesOf i).2 = some r → b'.op2 = (executeFill b).result) ∧
      (tick s).committed r = (writeBackStep s).committed r

/-- R343 c, R344, 60_exceptions.md R376: a fatal data access takes effect in its memory step: the instruction ahead of it
has retired, and nothing else has changed. -/
def Obligations.FatalDataAccessIsPrecise : Prop :=
  ∀ (s : State) (b : Behaviour) (a : Word) (n : Nat) (c : Fault), s.EngineInv → s.run = .running →
    s.qMEM = some b → b.addr = some a → ((loadOf b.instr).map Prod.fst = some n ∨ storeOf b.instr = some n) →
    accessCheck s.params a n = some c →
    tick s = { writeBackStep s with run := .fatal c } ∧
    (tick s).pc = s.pc ∧ (tick s).qWB = none ∧ (tick s).mem = s.mem ∧ (tick s).dc = s.dc ∧
    (tick s).dcAccesses = s.dcAccesses ∧ (tick s).fwdX = s.fwdX ∧ (tick s).fwdF = s.fwdF ∧
    (c = .misalignedAccess a ∨ c = .memOutOfRange a)

/-- R343 a: a word that selects no instruction waits in `q_RF` until every older instruction has retired; at most two ticks
pass before it, or an older instruction's own fatal access, ends the run, and nothing is fetched meanwhile. -/
def Obligations.FatalWordWaitsForOlderInstructions : Prop :=
  ∀ (s : State) (w : Word) (e : DecodeError), s.EngineInv → s.run = .running → s.qRF = some w →
    decodeWord w = .rejected e →
    (∀ k, (ticks k s).icAccesses = s.icAccesses ∧ (ticks k s).pc = s.pc ∧ (ticks k s).icount = s.icount) ∧
    ∃ c, (ticks 3 s).run = .fatal c ∧
      (c = decodeFault e w (s.pc - 4) → (ticks 3 s).qRF = none ∧ (ticks 3 s).qEX = none ∧
        (ticks 3 s).qMEM = none ∧ (ticks 3 s).qWB = none) ∧
      (c = decodeFault e w (s.pc - 4) ∨ (∃ a, c = .misalignedAccess a) ∨ ∃ a, c = .memOutOfRange a)

/-- R361, R344: from any constructed machine whose reference run does not store into code, ended or not, every fetch returns
the reset content of its word, no write-back has changed it in `Mem`, and no access of a younger instruction has reached the
data cache before it. The engine and the reference fetch the same words at the same addresses, make the same `DCacheAccess`
calls, commit the same register writes and retire the same instructions, each in the same order; only before a fatal data
access has the engine fetched up to two words more. One run ends if and only if the other does, and then both end alike:
run state, registers, memory, data cache and its counters, and every byte a fetch would see that no store of the run has
written. Unless a data access was fatal also pc, `icount`, the instruction cache's tags, flags and order, its counters and
the guard, and the whole instruction cache if no store writes into a line filled after it; after a fatal data access the
engine is ahead by at most one instruction and two fetches, and pc, instruction cache (tags, flags, order), its counters
and the guard reflect those fetches. The last clause is the model's (log 20): R361 says the whole instruction cache is equal
under its premise alone, and R330 to R335 and R360 make that false of some program. -/
def Obligations.EngineMatchesTheReference : Prop :=
  (∀ (p : Params) (image : List Word) (s : State), State.construct p image = some s → s.NoStoreIntoCode →
    (∀ n, ∀ f ∈ seqFetches (seqRun n s), FetchedAtReset image (seqRun n s).mem f) ∧
    (∀ m, ∀ f ∈ tickFetches (ticks m s), FetchedAtReset image (beforeFetch (ticks m s)).mem f ∨
      ((∃ n, (seqRun n s).run.IsDataFault) ∧
        ∃ c ∈ tickTrace tickAccesses (m + 1) s, ¬ c.Avoids f.1.toNat 4)) ∧
    (∀ m, tickTrace tickAccesses (m + 1) s <+: seqTrace seqAccesses (tickTrace tickFetches m s).length s) ∧
    SameSequence (fun n => seqTrace seqAccesses n s) (fun m => tickTrace tickAccesses m s) ∧
    SameSequence (fun n => seqTrace seqCommits n s) (fun m => tickTrace tickCommits m s) ∧
    SameSequence (fun n => seqTrace seqRetired n s) (fun m => tickTrace tickRetired m s) ∧
    (∀ n, ∃ m, seqTrace seqFetches n s <+: tickTrace tickFetches m s) ∧
    (∀ m, ∃ n ahead, tickTrace tickFetches m s <+: seqTrace seqFetches n s ++ ahead ∧ ahead.length ≤ 2 ∧
      (ahead ≠ [] → (seqRun n s).run.IsDataFault)) ∧
    ((∃ m, (ticks m s).run ≠ .running) ↔ ∃ n, (seqRun n s).run ≠ .running) ∧
    ∀ m n, (ticks m s).run ≠ .running → (seqRun n s).run ≠ .running →
      let e := ticks m s
      let r := seqRun n s
      e.run = r.run ∧ (∀ i, e.readX i = r.readX i) ∧ (∀ i, e.readF i = r.readF i) ∧
      (∀ a, e.archMem a = r.archMem a) ∧ e.mem = r.mem ∧ e.dc = r.dc ∧
      e.dcAccesses = r.dcAccesses ∧ e.dcHits = r.dcHits ∧
      (∀ a, (∀ c ∈ seqTrace seqAccesses n s, c.Avoids a 1) → e.fetchByte a = r.fetchByte a) ∧
      (¬ r.run.IsDataFault →
        e.pc = r.pc ∧ e.icount = r.icount ∧ e.ic.map tagsOf = r.ic.map tagsOf ∧ e.icAccesses = r.icAccesses ∧
        e.icHits = r.icHits ∧ e.lgAddr = r.lgAddr ∧ e.lgCount = r.lgCount ∧
        (s.NoStoreIntoFilledLines → e.ic = r.ic)) ∧
      (r.run.IsDataFault →
        (r.icount ≤ e.icount ∧ e.icount ≤ r.icount + 1) ∧
        ∃ k ≤ 2, e.icAccesses = r.icAccesses + k ∧ e.pc = r.pc + BitVec.ofNat 32 (4 * k) ∧
          e.ic.map tagsOf = (fetchAhead k r).ic.map tagsOf ∧ e.icHits = (fetchAhead k r).icHits ∧
          e.lgAddr = (fetchAhead k r).lgAddr ∧ e.lgCount = (fetchAhead k r).lgCount)) ∧
  ¬ InstructionCachesEndEqual

/-! ### The host interface (80_host_interface.md) -/

/-- R433: the run loop makes one tick for each sample of `stop` that is not asserted, and no other; while it is asserted the
state, instructions in flight included, is frozen; after HALTED and FATAL nothing changes. -/
def Obligations.RunLoopTicksWhileNotStopped : Prop :=
  ∀ (stops : List Bool) (s : State), driverRun stops s = ticks (stops.count false) s ∧
    (s.run ≠ .running → driverRun stops s = s)

/-- R430, 30_encoding.md R162: a text line is accepted exactly if it is 32 characters `0` or `1`, and the leftmost is bit
31. -/
def Obligations.ImageLineIsAWord : Prop :=
  ∀ (cs : List Char) (w : Word),
    parseImageLine cs = some w ↔
      cs.length = 32 ∧ ∀ k < 32, cs[k]? = some (if w.getLsbD (31 - k) = true then '1' else '0')

/-- R432: the dump shows the committed registers, `x[0]` = 0, and `ArchMem` byte for byte. -/
def Obligations.DumpShowsTheArchitecturalState : Prop :=
  ∀ (s : State) (a n : Nat),
    (∀ r : RegIdx, (s.dump.x[r.toNat]'r.isLt) = s.readX r ∧ (s.dump.f[r.toNat]'r.isLt) = s.readF r) ∧
    s.dump.x[0] = 0 ∧ s.dump.pc = s.pc ∧ s.dump.run = s.run ∧
    (s.dumpMem a n).length = n ∧ ∀ k < n, (s.dumpMem a n)[k]? = some (s.archMem (a + k))
end

