-- ==== Sys2Proof/Laws/State.lean ====
section
/-! SUPPORT. The fields of State under each named update, and reading a register after a write. -/

namespace Sys2Proof.Machine

/-! ### `writeX` -/

@[simp] theorem State.writeX_params (s : State) (i : RegIdx) (v : Word) : (s.writeX i v).params = s.params := by unfold State.writeX; split <;> rfl
@[simp] theorem State.writeX_f (s : State) (i : RegIdx) (v : Word) : (s.writeX i v).f = s.f := by unfold State.writeX; split <;> rfl
@[simp] theorem State.writeX_pc (s : State) (i : RegIdx) (v : Word) : (s.writeX i v).pc = s.pc := by unfold State.writeX; split <;> rfl
@[simp] theorem State.writeX_mem (s : State) (i : RegIdx) (v : Word) : (s.writeX i v).mem = s.mem := by unfold State.writeX; split <;> rfl
@[simp] theorem State.writeX_dc (s : State) (i : RegIdx) (v : Word) : (s.writeX i v).dc = s.dc := by unfold State.writeX; split <;> rfl
@[simp] theorem State.writeX_ic (s : State) (i : RegIdx) (v : Word) : (s.writeX i v).ic = s.ic := by unfold State.writeX; split <;> rfl
@[simp] theorem State.writeX_fwdX (s : State) (i : RegIdx) (v : Word) : (s.writeX i v).fwdX = s.fwdX := by unfold State.writeX; split <;> rfl
@[simp] theorem State.writeX_fwdF (s : State) (i : RegIdx) (v : Word) : (s.writeX i v).fwdF = s.fwdF := by unfold State.writeX; split <;> rfl
@[simp] theorem State.writeX_qRF (s : State) (i : RegIdx) (v : Word) : (s.writeX i v).qRF = s.qRF := by unfold State.writeX; split <;> rfl
@[simp] theorem State.writeX_qEX (s : State) (i : RegIdx) (v : Word) : (s.writeX i v).qEX = s.qEX := by unfold State.writeX; split <;> rfl
@[simp] theorem State.writeX_qMEM (s : State) (i : RegIdx) (v : Word) : (s.writeX i v).qMEM = s.qMEM := by unfold State.writeX; split <;> rfl
@[simp] theorem State.writeX_qWB (s : State) (i : RegIdx) (v : Word) : (s.writeX i v).qWB = s.qWB := by unfold State.writeX; split <;> rfl
@[simp] theorem State.writeX_icount (s : State) (i : RegIdx) (v : Word) : (s.writeX i v).icount = s.icount := by unfold State.writeX; split <;> rfl
@[simp] theorem State.writeX_dcAccesses (s : State) (i : RegIdx) (v : Word) : (s.writeX i v).dcAccesses = s.dcAccesses := by unfold State.writeX; split <;> rfl
@[simp] theorem State.writeX_dcHits (s : State) (i : RegIdx) (v : Word) : (s.writeX i v).dcHits = s.dcHits := by unfold State.writeX; split <;> rfl
@[simp] theorem State.writeX_icAccesses (s : State) (i : RegIdx) (v : Word) : (s.writeX i v).icAccesses = s.icAccesses := by unfold State.writeX; split <;> rfl
@[simp] theorem State.writeX_icHits (s : State) (i : RegIdx) (v : Word) : (s.writeX i v).icHits = s.icHits := by unfold State.writeX; split <;> rfl
@[simp] theorem State.writeX_lgAddr (s : State) (i : RegIdx) (v : Word) : (s.writeX i v).lgAddr = s.lgAddr := by unfold State.writeX; split <;> rfl
@[simp] theorem State.writeX_lgCount (s : State) (i : RegIdx) (v : Word) : (s.writeX i v).lgCount = s.lgCount := by unfold State.writeX; split <;> rfl
@[simp] theorem State.writeX_run (s : State) (i : RegIdx) (v : Word) : (s.writeX i v).run = s.run := by unfold State.writeX; split <;> rfl

/-! ### `writeF` -/

@[simp] theorem State.writeF_params (s : State) (i : RegIdx) (v : Word) : (s.writeF i v).params = s.params := rfl
@[simp] theorem State.writeF_x (s : State) (i : RegIdx) (v : Word) : (s.writeF i v).x = s.x := rfl
@[simp] theorem State.writeF_pc (s : State) (i : RegIdx) (v : Word) : (s.writeF i v).pc = s.pc := rfl
@[simp] theorem State.writeF_mem (s : State) (i : RegIdx) (v : Word) : (s.writeF i v).mem = s.mem := rfl
@[simp] theorem State.writeF_dc (s : State) (i : RegIdx) (v : Word) : (s.writeF i v).dc = s.dc := rfl
@[simp] theorem State.writeF_ic (s : State) (i : RegIdx) (v : Word) : (s.writeF i v).ic = s.ic := rfl
@[simp] theorem State.writeF_fwdX (s : State) (i : RegIdx) (v : Word) : (s.writeF i v).fwdX = s.fwdX := rfl
@[simp] theorem State.writeF_fwdF (s : State) (i : RegIdx) (v : Word) : (s.writeF i v).fwdF = s.fwdF := rfl
@[simp] theorem State.writeF_qRF (s : State) (i : RegIdx) (v : Word) : (s.writeF i v).qRF = s.qRF := rfl
@[simp] theorem State.writeF_qEX (s : State) (i : RegIdx) (v : Word) : (s.writeF i v).qEX = s.qEX := rfl
@[simp] theorem State.writeF_qMEM (s : State) (i : RegIdx) (v : Word) : (s.writeF i v).qMEM = s.qMEM := rfl
@[simp] theorem State.writeF_qWB (s : State) (i : RegIdx) (v : Word) : (s.writeF i v).qWB = s.qWB := rfl
@[simp] theorem State.writeF_icount (s : State) (i : RegIdx) (v : Word) : (s.writeF i v).icount = s.icount := rfl
@[simp] theorem State.writeF_dcAccesses (s : State) (i : RegIdx) (v : Word) : (s.writeF i v).dcAccesses = s.dcAccesses := rfl
@[simp] theorem State.writeF_dcHits (s : State) (i : RegIdx) (v : Word) : (s.writeF i v).dcHits = s.dcHits := rfl
@[simp] theorem State.writeF_icAccesses (s : State) (i : RegIdx) (v : Word) : (s.writeF i v).icAccesses = s.icAccesses := rfl
@[simp] theorem State.writeF_icHits (s : State) (i : RegIdx) (v : Word) : (s.writeF i v).icHits = s.icHits := rfl
@[simp] theorem State.writeF_lgAddr (s : State) (i : RegIdx) (v : Word) : (s.writeF i v).lgAddr = s.lgAddr := rfl
@[simp] theorem State.writeF_lgCount (s : State) (i : RegIdx) (v : Word) : (s.writeF i v).lgCount = s.lgCount := rfl
@[simp] theorem State.writeF_run (s : State) (i : RegIdx) (v : Word) : (s.writeF i v).run = s.run := rfl

/-! ### `raiseFatal` -/

@[simp] theorem raiseFatal_params (c : Fault) (s : State) : (raiseFatal c s).params = s.params := rfl
@[simp] theorem raiseFatal_x (c : Fault) (s : State) : (raiseFatal c s).x = s.x := rfl
@[simp] theorem raiseFatal_f (c : Fault) (s : State) : (raiseFatal c s).f = s.f := rfl
@[simp] theorem raiseFatal_pc (c : Fault) (s : State) : (raiseFatal c s).pc = s.pc := rfl
@[simp] theorem raiseFatal_mem (c : Fault) (s : State) : (raiseFatal c s).mem = s.mem := rfl
@[simp] theorem raiseFatal_dc (c : Fault) (s : State) : (raiseFatal c s).dc = s.dc := rfl
@[simp] theorem raiseFatal_ic (c : Fault) (s : State) : (raiseFatal c s).ic = s.ic := rfl
@[simp] theorem raiseFatal_fwdX (c : Fault) (s : State) : (raiseFatal c s).fwdX = s.fwdX := rfl
@[simp] theorem raiseFatal_fwdF (c : Fault) (s : State) : (raiseFatal c s).fwdF = s.fwdF := rfl
@[simp] theorem raiseFatal_qRF (c : Fault) (s : State) : (raiseFatal c s).qRF = s.qRF := rfl
@[simp] theorem raiseFatal_qEX (c : Fault) (s : State) : (raiseFatal c s).qEX = s.qEX := rfl
@[simp] theorem raiseFatal_qMEM (c : Fault) (s : State) : (raiseFatal c s).qMEM = s.qMEM := rfl
@[simp] theorem raiseFatal_qWB (c : Fault) (s : State) : (raiseFatal c s).qWB = s.qWB := rfl
@[simp] theorem raiseFatal_icount (c : Fault) (s : State) : (raiseFatal c s).icount = s.icount := rfl
@[simp] theorem raiseFatal_dcAccesses (c : Fault) (s : State) : (raiseFatal c s).dcAccesses = s.dcAccesses := rfl
@[simp] theorem raiseFatal_dcHits (c : Fault) (s : State) : (raiseFatal c s).dcHits = s.dcHits := rfl
@[simp] theorem raiseFatal_icAccesses (c : Fault) (s : State) : (raiseFatal c s).icAccesses = s.icAccesses := rfl
@[simp] theorem raiseFatal_icHits (c : Fault) (s : State) : (raiseFatal c s).icHits = s.icHits := rfl
@[simp] theorem raiseFatal_lgAddr (c : Fault) (s : State) : (raiseFatal c s).lgAddr = s.lgAddr := rfl
@[simp] theorem raiseFatal_lgCount (c : Fault) (s : State) : (raiseFatal c s).lgCount = s.lgCount := rfl
@[simp] theorem raiseFatal_run (c : Fault) (s : State) : (raiseFatal c s).run = .fatal c := rfl

/-! ### The register banks -/

@[simp] theorem State.readX_zero (s : State) : s.readX 0 = 0 := rfl

theorem State.readX_of_ne (s : State) {i : RegIdx} (h : i ≠ 0) : s.readX i = s.x[i.toNat]'i.isLt := if_neg h

/-- A register index is its number. -/
theorem regIdx_toNat_ne {i j : RegIdx} (h : i ≠ j) : i.toNat ≠ j.toNat := fun e => h (BitVec.eq_of_toNat_eq e)

@[simp] theorem State.writeX_zero (s : State) (v : Word) : s.writeX 0 v = s := rfl

theorem State.readX_writeX_self (s : State) {i : RegIdx} (h : i ≠ 0) (v : Word) : (s.writeX i v).readX i = v := by
  rw [State.readX_of_ne _ h]
  unfold State.writeX
  simp only [if_neg h, Vector.getElem_set_self]

theorem State.readX_writeX_ne (s : State) {i j : RegIdx} (h : j ≠ i) (v : Word) :
    (s.writeX i v).readX j = s.readX j := by
  by_cases hi : i = 0
  · rw [hi, State.writeX_zero]
  · unfold State.readX State.writeX
    simp only [if_neg hi, Vector.getElem_set_ne _ _ (regIdx_toNat_ne h).symm]

@[simp] theorem State.readF_writeX (s : State) (i j : RegIdx) (v : Word) : (s.writeX i v).readF j = s.readF j := by
  simp [State.readF]

@[simp] theorem State.readF_writeF_self (s : State) (i : RegIdx) (v : Word) : (s.writeF i v).readF i = v := by
  simp [State.readF, State.writeF]

theorem State.readF_writeF_ne (s : State) {i j : RegIdx} (h : j ≠ i) (v : Word) :
    (s.writeF i v).readF j = s.readF j := by
  unfold State.readF State.writeF
  simp only [Vector.getElem_set_ne _ _ (regIdx_toNat_ne h).symm]

@[simp] theorem State.readX_writeF (s : State) (i j : RegIdx) (v : Word) : (s.writeF i v).readX j = s.readX j := by
  simp [State.readX]

@[simp] theorem State.readX_raiseFatal (c : Fault) (s : State) (j : RegIdx) : (raiseFatal c s).readX j = s.readX j := rfl
@[simp] theorem State.readF_raiseFatal (c : Fault) (s : State) (j : RegIdx) : (raiseFatal c s).readF j = s.readF j := rfl

/-! ### Architectural memory is a function of the parameters, the data cache and memory -/

theorem State.archMem_congr {s t : State} (hp : t.params = s.params) (hd : t.dc = s.dc) (hm : t.mem = s.mem) (a : Nat) :
    t.archMem a = s.archMem a := by
  simp [State.archMem, hp, hd, hm]

@[simp] theorem State.archMem_writeX (s : State) (i : RegIdx) (v : Word) (a : Nat) :
    (s.writeX i v).archMem a = s.archMem a := State.archMem_congr (by simp) (by simp) (by simp) a

@[simp] theorem State.archMem_writeF (s : State) (i : RegIdx) (v : Word) (a : Nat) :
    (s.writeF i v).archMem a = s.archMem a := rfl

@[simp] theorem State.archMem_raiseFatal (c : Fault) (s : State) (a : Nat) :
    (raiseFatal c s).archMem a = s.archMem a := rfl

end Sys2Proof.Machine
end

