-- ==== Sys2Proof/Laws/Memory.lean ====
section
/-! SUPPORT. Backing memory: a read after a write, and that every memory operation keeps the canonical form and the bound. -/

namespace Sys2Proof.Machine

/-! ### Read after write -/

/-- An address below every listed one reads as 0x00. -/
theorem Memory.read_of_lt {m : Memory} {lo a : Nat} (h : Memory.sortedFrom (some lo) m = true) (ha : a ≤ lo) :
    m.read a = 0 := by
  induction m generalizing lo with
  | nil => rfl
  | cons c m ih =>
    obtain ⟨b, v⟩ := c
    simp only [Memory.sortedFrom, Bool.and_eq_true, decide_eq_true_eq] at h
    rw [Memory.read, if_neg (by omega)]
    exact ih h.2 (by omega)

theorem Memory.read_write_self (m : Memory) (a : Nat) (v : Byte) (lo : Option Nat)
    (h : Memory.sortedFrom lo m = true) : (m.write a v).read a = v := by
  induction m generalizing lo with
  | nil =>
    unfold Memory.write
    split
    · rename_i hv; exact hv.symm
    · simp [Memory.read]
  | cons c m ih =>
    obtain ⟨b, w⟩ := c
    simp only [Memory.sortedFrom, Bool.and_eq_true] at h
    simp only [Memory.write]
    split
    · rename_i hab
      split
      · rename_i hv
        rw [Memory.read, if_neg (by omega), hv]
        exact Memory.read_of_lt h.2 (by omega)
      · simp [Memory.read]
    · split
      · rename_i hab
        split
        · rename_i hv
          rw [hv]
          exact Memory.read_of_lt h.2 (by omega)
        · simp [Memory.read]
      · rename_i h1 h2
        rw [Memory.read, if_neg h2]
        exact ih _ h.2

theorem Memory.read_write_ne (m : Memory) {a b : Nat} (v : Byte) (hab : b ≠ a) : (m.write a v).read b = m.read b := by
  induction m with
  | nil => unfold Memory.write; split <;> simp [Memory.read, hab]
  | cons c m ih =>
    obtain ⟨k, w⟩ := c
    simp only [Memory.write]
    split
    · split <;> simp [Memory.read, hab]
    · split
      · rename_i hk
        split <;> simp [Memory.read, hab, ← hk]
      · simp [Memory.read, ih]

/-! ### The canonical form -/

theorem Memory.sortedFrom_weaken {m : Memory} {lo : Nat} (o : Option Nat) (ho : ∀ b ∈ o, b ≤ lo)
    (h : Memory.sortedFrom (some lo) m = true) : Memory.sortedFrom o m = true := by
  cases m with
  | nil => rfl
  | cons c m =>
    obtain ⟨b, v⟩ := c
    cases o with
    | none => simp_all [Memory.sortedFrom]
    | some k =>
      have := ho k rfl
      simp only [Memory.sortedFrom, Bool.and_eq_true, decide_eq_true_eq] at h ⊢
      exact ⟨⟨by omega, h.1.2⟩, h.2⟩

theorem Memory.sortedFrom_write (m : Memory) (a : Nat) (v : Byte) (lo : Option Nat) (hlo : ∀ b ∈ lo, b < a)
    (h : Memory.sortedFrom lo m = true) : Memory.sortedFrom lo (m.write a v) = true := by
  induction m generalizing lo with
  | nil =>
    by_cases hv : v = 0
    · simp [Memory.write, hv, Memory.sortedFrom]
    · cases lo <;> simp_all [Memory.write, Memory.sortedFrom]
  | cons c m ih =>
    obtain ⟨b, w⟩ := c
    simp only [Memory.sortedFrom, Bool.and_eq_true] at h
    obtain ⟨⟨h1, h2⟩, h3⟩ := h
    simp only [Memory.write]
    split
    · rename_i hab
      split
      · simp only [Memory.sortedFrom, Bool.and_eq_true]
        exact ⟨⟨h1, h2⟩, h3⟩
      · rename_i hv
        simp only [Memory.sortedFrom, Bool.and_eq_true, bne_iff_ne, ne_eq, hv, not_false_iff, and_true, decide_eq_true_eq]
        refine ⟨?_, ⟨hab, by simpa using h2⟩, h3⟩
        cases lo with
        | none => rfl
        | some k => simpa using hlo k rfl
    · split
      · rename_i _ hab
        subst hab
        split
        · refine Memory.sortedFrom_weaken lo (fun k hk => ?_) h3
          exact Nat.le_of_lt (hlo k hk)
        · rename_i hv
          simp only [Memory.sortedFrom, Bool.and_eq_true, bne_iff_ne, ne_eq, hv, not_false_iff, and_true]
          exact ⟨h1, h3⟩
      · rename_i hn hne
        simp only [Memory.sortedFrom, Bool.and_eq_true]
        refine ⟨⟨h1, h2⟩, ih (some b) (fun k hk => ?_) h3⟩
        have : b = k := by simpa using hk
        omega

/-- A byte write keeps the canonical form. -/
theorem Memory.wf_write {m : Memory} (a : Nat) (v : Byte) (h : m.wf = true) : (m.write a v).wf = true :=
  Memory.sortedFrom_write m a v none (by simp) h

theorem Memory.mem_write {m : Memory} {a : Nat} {v : Byte} {c : Host.Cell} (h : c ∈ m.write a v) :
    c ∈ m ∨ c.1 = a := by
  induction m with
  | nil =>
    unfold Memory.write at h
    split at h
    · exact .inl h
    · exact .inr (by rw [List.mem_singleton.1 h])
  | cons d m ih =>
    obtain ⟨b, w⟩ := d
    unfold Memory.write at h
    split at h
    · split at h
      · exact .inl h
      · rcases List.mem_cons.1 h with h | h
        · exact .inr (by rw [h])
        · exact .inl h
    · split at h
      · split at h
        · exact .inl (List.mem_cons_of_mem _ h)
        · rcases List.mem_cons.1 h with h | h
          · exact .inr (by rw [h])
          · exact .inl (List.mem_cons_of_mem _ h)
      · rcases List.mem_cons.1 h with h | h
        · exact .inl (h ▸ List.mem_cons_self)
        · rcases ih h with h | h
          · exact .inl (List.mem_cons_of_mem _ h)
          · exact .inr h

theorem Memory.within_write {m : Memory} {size a : Nat} (v : Byte) (ha : a < size) (h : m.within size = true) :
    (m.write a v).within size = true := by
  simp only [Memory.within, List.all_eq_true, decide_eq_true_eq] at h ⊢
  intro c hc
  rcases Memory.mem_write hc with hc | hc
  · exact h c hc
  · omega

/-- An address at or past the bound reads as 0x00. -/
theorem Memory.read_of_within {m : Memory} {size a : Nat} (h : m.within size = true) (ha : size ≤ a) : m.read a = 0 := by
  induction m with
  | nil => rfl
  | cons c m ih =>
    obtain ⟨b, w⟩ := c
    simp only [Memory.within, List.all_cons, Bool.and_eq_true, decide_eq_true_eq] at h ih
    rw [Memory.read, if_neg (by omega)]
    exact ih h.2

/-! ### Blocks -/

@[simp] theorem Memory.length_readBlock (m : Memory) (a n : Nat) : (m.readBlock a n).length = n := by
  induction n generalizing a with
  | zero => rfl
  | succ n ih => simp [Memory.readBlock, ih]

theorem Memory.getD_readBlock (m : Memory) (a n k : Nat) (h : k < n) :
    (m.readBlock a n).getD k 0 = m.read (a + k) := by
  induction n generalizing a k with
  | zero => omega
  | succ n ih =>
    cases k with
    | zero => simp [Memory.readBlock]
    | succ k =>
      have := ih (a + 1) k (by omega)
      simp only [Memory.readBlock, List.getD_cons_succ, this]
      congr 1
      omega

theorem Memory.wf_writeBlock {m : Memory} (a : Nat) (bs : List Byte) (h : m.wf = true) :
    (m.writeBlock a bs).wf = true := by
  induction bs generalizing m a with
  | nil => exact h
  | cons b bs ih => exact ih _ (Memory.wf_write a b h)

theorem Memory.within_writeBlock {m : Memory} {size : Nat} (a : Nat) (bs : List Byte) (hs : a + bs.length ≤ size)
    (h : m.within size = true) : (m.writeBlock a bs).within size = true := by
  induction bs generalizing m a with
  | nil => exact h
  | cons b bs ih =>
    simp only [List.length_cons] at hs
    exact ih _ (by omega) (Memory.within_write b (by omega) h)

theorem Memory.read_writeBlock_of_not_mem (m : Memory) (a b : Nat) (bs : List Byte)
    (h : b < a ∨ a + bs.length ≤ b) : (m.writeBlock a bs).read b = m.read b := by
  induction bs generalizing m a with
  | nil => rfl
  | cons c bs ih =>
    simp only [List.length_cons] at h
    rw [Memory.writeBlock, ih _ _ (by omega), Memory.read_write_ne _ _ (by omega)]

theorem Memory.read_writeBlock_of_mem {m : Memory} (hm : m.wf = true) (a k : Nat) (bs : List Byte)
    (h : k < bs.length) : (m.writeBlock a bs).read (a + k) = bs.getD k 0 := by
  induction bs generalizing m a k with
  | nil => simp at h
  | cons c bs ih =>
    rw [Memory.writeBlock]
    cases k with
    | zero =>
      rw [Memory.read_writeBlock_of_not_mem _ _ _ _ (by omega)]
      simpa using Memory.read_write_self m a c none hm
    | succ k =>
      have := ih (Memory.wf_write a c hm) (a + 1) k (by simpa using h)
      rw [show a + (k + 1) = a + 1 + k by omega, this]
      simp

/-- A block is its bytes. -/
theorem Memory.readBlock_congr {m m' : Memory} (a n : Nat) (h : ∀ k < n, m.read (a + k) = m'.read (a + k)) :
    m.readBlock a n = m'.readBlock a n := by
  induction n generalizing a with
  | zero => rfl
  | succ n ih =>
    simp only [Memory.readBlock]
    have h0 := h 0 (by omega)
    simp only [Nat.add_zero] at h0
    rw [h0, ih (a + 1) fun k hk => by have := h (k + 1) (by omega); rwa [show a + (k + 1) = a + 1 + k by omega] at this]

/-- Loading an image keeps the canonical form. -/
theorem wf_loadImage {m : Memory} (a : Nat) (ws : List Word) (h : m.wf = true) : (loadImage m a ws).wf = true := by
  induction ws generalizing m a with
  | nil => exact h
  | cons w ws ih => exact ih _ (Memory.wf_writeBlock a _ h)

/-- Placing a fetch word keeps the canonical form. -/
theorem wf_placeFetchWord (w : Word) {s : State} (h : s.mem.wf = true) : (placeFetchWord w s).mem.wf = true :=
  Memory.wf_writeBlock _ _ h

/-- The memory of the reset state is canonical. -/
theorem wf_reset : State.reset.mem.wf = true := rfl

/-! ### Little-endian values -/

@[simp] theorem length_leBytes (v : Word) (n : Nat) : (leBytes v n).length = n := by
  induction n generalizing v with
  | zero => rfl
  | succ n ih => simp [leBytes, ih]

theorem getD_leBytes (v : Word) (n k : Nat) (h : k < n) : (leBytes v n).getD k 0 = BitVec.ofNat 8 (v.toNat / 256 ^ k) := by
  induction n generalizing v k with
  | zero => omega
  | succ n ih =>
    cases k with
    | zero =>
      apply BitVec.eq_of_toNat_eq
      simp [leBytes]
    | succ k =>
      have := ih (v >>> 8) k (by omega)
      simp only [leBytes, List.getD_cons_succ, this]
      rw [BitVec.toNat_ushiftRight, Nat.shiftRight_eq_div_pow, Nat.div_div_eq_div_mul, show 256 ^ (k + 1) = 2 ^ 8 * 256 ^ k from Nat.pow_succ']

theorem leValue_lt (bs : List Byte) : leValue bs < 256 ^ bs.length := by
  induction bs with
  | nil => simp [leValue]
  | cons b bs ih =>
    have := b.isLt
    simp only [leValue, List.length_cons, Nat.pow_succ]
    omega

theorem leValue_leBytes (v : Word) (n : Nat) : leValue (leBytes v n) = v.toNat % 256 ^ n := by
  induction n generalizing v with
  | zero => simp [leValue, leBytes, Nat.mod_one]
  | succ n ih =>
    rw [leBytes, leValue, ih, BitVec.toNat_setWidth, BitVec.toNat_ushiftRight, Nat.shiftRight_eq_div_pow,
      show 256 ^ (n + 1) = 2 ^ 8 * 256 ^ n from Nat.pow_succ', Nat.mod_mul]
    rfl

end Sys2Proof.Machine
end

