-- ==== Sys2Proof/Laws/Cache.lean ====
section
/-! SUPPORT. The caches: address decomposition, the sets after an update, what a lookup finds after each operation, and
that the retry of a miss always hits. -/

namespace Sys2Proof.Machine

/-! ### Geometry and addresses -/

theorem Geometry.WellFormed.line_pos {g : Geometry} (h : g.WellFormed) : 0 < g.line := by
  have := h.2.1
  omega

theorem Geometry.WellFormed.four_dvd {g : Geometry} (h : g.WellFormed) : 4 ∣ g.line := by
  have h1 : g.line = 2 ^ g.line.log2 := h.1
  have h2 : 4 ≤ g.line := h.2.1
  have h3 : 2 ≤ g.line.log2 := (Nat.le_log2 (by omega)).2 (by omega)
  rw [h1]
  exact Nat.pow_dvd_pow 2 h3

theorem Geometry.WellFormed.sets_pos {g : Geometry} (h : g.WellFormed) : 0 < g.sets := h.2.2.2.2.2.1

theorem indexOf_lt {g : Geometry} (h : 0 < g.sets) (a : Nat) : indexOf g a < g.sets := Nat.mod_lt _ h

/-- An address is its tag, index and offset (21_cache.md R92). -/
theorem lineAddr_tagOf_indexOf (g : Geometry) (a : Nat) :
    lineAddr g (tagOf g a) (indexOf g a) + offsetOf g a = a := by
  unfold lineAddr tagOf indexOf offsetOf
  rw [Nat.div_add_mod', Nat.div_add_mod']

/-- The base of an address is the address of its line. -/
theorem baseOf_eq_lineAddr (g : Geometry) (a : Nat) : baseOf g a = lineAddr g (tagOf g a) (indexOf g a) := by
  have := lineAddr_tagOf_indexOf g a
  unfold baseOf
  omega

theorem baseOf_add_offsetOf (g : Geometry) (a : Nat) : baseOf g a + offsetOf g a = a := by
  rw [baseOf_eq_lineAddr, lineAddr_tagOf_indexOf]

theorem offsetOf_lt {g : Geometry} (h : 0 < g.line) (a : Nat) : offsetOf g a < g.line := Nat.mod_lt _ h

theorem div_line_lineAddr_add {g : Geometry} (t i o : Nat) (ho : o < g.line) :
    (lineAddr g t i + o) / g.line = t * g.sets + i := by
  unfold lineAddr
  rw [Nat.mul_comm, Nat.mul_add_div (by omega), Nat.div_eq_of_lt ho, Nat.add_zero]

/-- The decomposition of a byte of a line. -/
theorem tagOf_lineAddr_add {g : Geometry} (t i o : Nat) (hi : i < g.sets) (ho : o < g.line) :
    tagOf g (lineAddr g t i + o) = t := by
  unfold tagOf
  rw [div_line_lineAddr_add t i o ho, Nat.mul_comm, Nat.mul_add_div (by omega), Nat.div_eq_of_lt hi, Nat.add_zero]

theorem indexOf_lineAddr_add {g : Geometry} (t i o : Nat) (hi : i < g.sets) (ho : o < g.line) :
    indexOf g (lineAddr g t i + o) = i := by
  unfold indexOf
  rw [div_line_lineAddr_add t i o ho, Nat.mul_comm, Nat.mul_add_mod, Nat.mod_eq_of_lt hi]

theorem offsetOf_lineAddr_add {g : Geometry} (t i o : Nat) (ho : o < g.line) :
    offsetOf g (lineAddr g t i + o) = o := by
  unfold offsetOf lineAddr
  rw [Nat.mul_comm, Nat.mul_add_mod, Nat.mod_eq_of_lt ho]

/-- An aligned access stays in its line (20_memory.md R64). -/
theorem offsetOf_add {g : Geometry} {a n k : Nat} (hn : n ∣ g.line) (hl : 0 < g.line) (ha : a % n = 0) (hk : k < n) :
    offsetOf g (a + k) = offsetOf g a + k ∧ offsetOf g a + k < g.line := by
  unfold offsetOf
  obtain ⟨m, hm⟩ := hn
  have h1 : a % g.line % n = 0 := by rw [hm, Nat.mod_mul_right_mod]; exact ha
  have h2 : a % g.line < g.line := Nat.mod_lt _ hl
  have h3 : a % g.line + k < g.line := by
    obtain ⟨q, hq⟩ := Nat.dvd_of_mod_eq_zero h1
    rw [hq, hm] at h2 ⊢
    have h4 : q < m := Nat.lt_of_mul_lt_mul_left h2
    calc n * q + k < n * q + n := by omega
      _ = n * (q + 1) := by ring
      _ ≤ n * m := Nat.mul_le_mul_left n h4
  refine ⟨?_, h3⟩
  rw [Nat.add_mod, Nat.mod_eq_of_lt (show k < g.line by omega), Nat.mod_eq_of_lt h3]

/-- Addresses in one line have the same tag and index. -/
theorem same_line {g : Geometry} {a b : Nat} (h : a / g.line = b / g.line) :
    tagOf g a = tagOf g b ∧ indexOf g a = indexOf g b := by
  simp [tagOf, indexOf, h]

/-! ### Sets of a cache after an update -/

@[simp] theorem Cache.setAt_putSet_self (c : Cache) (i : Nat) (s : CacheSet) : Cache.setAt (Cache.putSet c i s) i = s := by
  induction i generalizing c with
  | zero => cases c <;> simp [Cache.putSet, Cache.setAt]
  | succ i ih =>
    cases c with
    | nil => have := ih []; simp_all [Cache.putSet, Cache.setAt]
    | cons t c => have := ih c; simp_all [Cache.putSet, Cache.setAt]

theorem Cache.setAt_putSet_ne (c : Cache) {i j : Nat} (s : CacheSet) (h : j ≠ i) :
    Cache.setAt (Cache.putSet c i s) j = Cache.setAt c j := by
  induction i generalizing c j with
  | zero =>
    cases j with
    | zero => exact absurd rfl h
    | succ j => cases c <;> simp [Cache.putSet, Cache.setAt]
  | succ i ih =>
    cases j with
    | zero => cases c <;> simp [Cache.putSet, Cache.setAt]
    | succ j =>
      cases c with
      | nil => have := ih [] (j := j) (by omega); simp_all [Cache.putSet, Cache.setAt]
      | cons t c => have := ih c (j := j) (by omega); simp_all [Cache.putSet, Cache.setAt]

theorem Cache.length_putSet {c : Cache} {i : Nat} (s : CacheSet) (h : i < c.length) :
    (Cache.putSet c i s).length = c.length := by
  induction i generalizing c with
  | zero => cases c <;> simp_all [Cache.putSet]
  | succ i ih =>
    cases c with
    | nil => simp at h
    | cons t c => simpa [Cache.putSet] using ih (by simpa using h)

/-! ### Lookups -/

/-- A found line has the address's tag and is in the address's set. -/
theorem Cache.lookup_some {g : Geometry} {c : Cache} {a : Nat} {l : Line} (h : Cache.lookup g c a = some l) :
    l.tag = tagOf g a ∧ l ∈ Cache.setAt c (indexOf g a) :=
  ⟨by simpa using List.find?_some h, List.mem_of_find?_eq_some h⟩

theorem Cache.lookup_none {g : Geometry} {c : Cache} {a : Nat} :
    Cache.lookup g c a = none ↔ ∀ l ∈ Cache.setAt c (indexOf g a), l.tag ≠ tagOf g a := by
  simp [Cache.lookup]

/-- A lookup depends on the address's set only. -/
theorem Cache.lookup_congr {g : Geometry} {c c' : Cache} {a : Nat}
    (h : Cache.setAt c (indexOf g a) = Cache.setAt c' (indexOf g a)) : Cache.lookup g c a = Cache.lookup g c' a := by
  simp [Cache.lookup, h]

/-- After a touch the touched line is the one found. -/
theorem CacheSet.find_touch_self (s : CacheSet) (l : Line) (t : Nat) (h : l.tag = t) :
    (CacheSet.touch s l).find? (fun k => k.tag == t) = some l := by
  subst h
  have hn : (s.filter fun k => k.tag != l.tag).find? (fun k => k.tag == l.tag) = none := by
    rw [List.find?_eq_none]
    intro k hk
    simpa using (List.mem_filter.1 hk).2
  rw [CacheSet.touch, List.find?_append, hn]
  simp

/-- After a touch every other tag is found as before. -/
theorem CacheSet.find_touch_ne (s : CacheSet) (l : Line) (t : Nat) (h : l.tag ≠ t) :
    (CacheSet.touch s l).find? (fun k => k.tag == t) = s.find? (fun k => k.tag == t) := by
  have h1 : (s.filter fun k => k.tag != l.tag).find? (fun k => k.tag == t) = s.find? (fun k => k.tag == t) := by
    rw [List.find?_filter]
    congr 1
    funext k
    by_cases hk : k.tag = t
    · simp [hk, Ne.symm h]
    · simp [hk]
  rw [CacheSet.touch, List.find?_append, h1]
  simp [h]

/-- What a lookup finds after a line was touched in the set of `a`. -/
theorem Cache.lookup_touch {g : Geometry} (c : Cache) (a b : Nat) (l : Line) (hl : l.tag = tagOf g a) :
    Cache.lookup g (Cache.putSet c (indexOf g a) (CacheSet.touch (Cache.setAt c (indexOf g a)) l)) b =
      if indexOf g b = indexOf g a ∧ tagOf g b = tagOf g a then some l else Cache.lookup g c b := by
  unfold Cache.lookup
  by_cases hi : indexOf g b = indexOf g a
  · rw [hi, Cache.setAt_putSet_self]
    by_cases ht : tagOf g b = tagOf g a
    · rw [if_pos ⟨rfl, ht⟩]
      exact CacheSet.find_touch_self _ _ _ (by rw [hl, ht])
    · rw [if_neg (fun h => ht h.2)]
      exact CacheSet.find_touch_ne _ _ _ (by rw [hl]; exact fun h => ht h.symm)
  · rw [Cache.setAt_putSet_ne _ _ hi, if_neg (fun h => hi h.1)]

/-- A read answers exactly on a hit. -/
theorem Cache.read_isSome (g : Geometry) (c : Cache) (a n : Nat) :
    (Cache.read g c a n).isSome = (Cache.lookup g c a).isSome := by
  simp [Cache.read]

theorem Cache.write_isSome (g : Geometry) (c : Cache) (a n : Nat) (v : Word) :
    (Cache.write g c a n v).isSome = (Cache.lookup g c a).isSome := by
  simp [Cache.write]

/-! ### Install -/

/-- The set of the installed address: the old set, without its head if it was full, and the new line at the end. -/
theorem Cache.setAt_install_self (g : Geometry) (c : Cache) (a : Nat) (bs : List Byte) (hw : 1 ≤ g.ways) :
    Cache.setAt (Cache.install g c a bs).1 (indexOf g a) =
      (if (Cache.setAt c (indexOf g a)).length < g.ways then Cache.setAt c (indexOf g a)
        else (Cache.setAt c (indexOf g a)).tail) ++ [newLine g a bs] := by
  unfold Cache.install
  cases h : Cache.setAt c (indexOf g a) with
  | nil => simp [h, show 0 < g.ways by omega]
  | cons l s =>
    simp only [h]
    split <;> simp

theorem Cache.setAt_install_ne (g : Geometry) (c : Cache) (a : Nat) (bs : List Byte) {j : Nat} (h : j ≠ indexOf g a) :
    Cache.setAt (Cache.install g c a bs).1 j = Cache.setAt c j := by
  unfold Cache.install
  cases hs : Cache.setAt c (indexOf g a) with
  | nil => simp only [hs, Cache.setAt_putSet_ne _ _ h]
  | cons l s =>
    simp only [hs]
    split <;> simp only [Cache.setAt_putSet_ne _ _ h]

/-- On a miss the installed line is the one found. -/
theorem Cache.lookup_install_self {g : Geometry} {c : Cache} {a : Nat} (bs : List Byte)
    (hm : Cache.lookup g c a = none) : Cache.lookup g (Cache.install g c a bs).1 a = some (newLine g a bs) := by
  rw [Cache.lookup_none] at hm
  unfold Cache.lookup Cache.install
  cases h : Cache.setAt c (indexOf g a) with
  | nil => simp [h, newLine]
  | cons l s =>
    rw [h] at hm
    have hs : s.find? (fun k => k.tag == tagOf g a) = none := by
      simpa using fun k hk => hm k (List.mem_cons_of_mem _ hk)
    have hl := hm l List.mem_cons_self
    simp only [h]
    split <;> simp [hs, hl, newLine]

/-! ### The retry of a miss always hits (21_cache.md R110, R111) -/

/-- After a fill the line is resident. -/
theorem lookup_dcFill {s : State} {a : Nat} (hm : Cache.lookup s.params.dc s.dc a = none) :
    Cache.lookup s.params.dc (dcFill a s).dc a =
      some (newLine s.params.dc a (s.mem.readBlock (baseOf s.params.dc a) s.params.dc.line)) :=
  Cache.lookup_install_self _ hm

@[simp] theorem dcFill_params (a : Nat) (s : State) : (dcFill a s).params = s.params := rfl

/-- The last branch of `dcRead` is never taken, from any state. -/
theorem dcRead_retry_hits {s : State} {a n : Nat} (hm : Cache.read s.params.dc s.dc a n = none) :
    (Cache.read (dcFill a s).params.dc (dcFill a s).dc a n).isSome = true := by
  have h : Cache.lookup s.params.dc s.dc a = none := by simpa [Cache.read] using hm
  rw [Cache.read_isSome, dcFill_params, lookup_dcFill h]
  rfl

/-- The last branch of `dcWrite` is never taken, from any state. -/
theorem dcWrite_retry_hits {s : State} {a n : Nat} {v : Word} (hm : Cache.write s.params.dc s.dc a n v = none) :
    (Cache.write (dcFill a s).params.dc (dcFill a s).dc a n v).isSome = true := by
  have h : Cache.lookup s.params.dc s.dc a = none := by simpa [Cache.write] using hm
  rw [Cache.write_isSome, dcFill_params, lookup_dcFill h]
  rfl

/-- The last branch of `icRead` is never taken, from any state. -/
theorem icRead_retry_hits {g : Geometry} {c : Cache} {a : Nat} (bs : List Byte) (hm : Cache.read g c a 4 = none) :
    (Cache.read g (Cache.install g c a bs).1 a 4).isSome = true := by
  have h : Cache.lookup g c a = none := by simpa [Cache.read] using hm
  rw [Cache.read_isSome, Cache.lookup_install_self bs h]
  rfl

end Sys2Proof.Machine
end

