-- ==== Sys2Proof/Laws/Ops.lean ====
section
/-! SUPPORT. What each shared operation can do, said once: the checks, the cache accesses by hit and miss, their frames,
the fetch, and what `loadX`, `loadF`, `storeTo`, `commitX`, `commitF`, `branchTo` and `jumpTo` answer. -/

namespace Sys2Proof.Machine

/-! ### The checks (20_memory.md R66 to R68) -/

theorem accessCheck_eq_none {p : Params} {a : Word} {n : Nat} :
    accessCheck p a n = none ↔ a.toNat % n = 0 ∧ a.toNat + n ≤ p.memSize := by
  unfold accessCheck
  split
  · simp_all
  · split
    · simp; omega
    · simp; omega

/-- A failed check names one of two causes. -/
theorem accessCheck_eq_some {p : Params} {a : Word} {n : Nat} {c : Fault} (h : accessCheck p a n = some c) :
    (a.toNat % n ≠ 0 ∧ c = .misalignedAccess a) ∨
      (a.toNat % n = 0 ∧ p.memSize < a.toNat + n ∧ c = .memOutOfRange a) := by
  unfold accessCheck at h
  split at h
  · rename_i hn
    exact .inl ⟨hn, (Option.some.inj h).symm⟩
  · rename_i hn
    split at h
    · rename_i hr
      exact .inr ⟨by omega, by omega, (Option.some.inj h).symm⟩
    · exact absurd h (by simp)

theorem fetchCheck_eq_none {p : Params} {a : Word} :
    fetchCheck p a = none ↔ a.toNat % 4 = 0 ∧ a.toNat + 4 ≤ p.memSize := by
  unfold fetchCheck
  split
  · simp_all
  · split
    · simp; omega
    · simp; omega

/-! ### The value of bytes of a line -/

/-- Bytes taken from a list are worth the list's bytes, 0 past its end. -/
theorem leValue_take (bs : List Byte) (n : Nat) :
    leValue (bs.take n) = leValue ((List.range n).map fun k => bs.getD k 0) := by
  induction n generalizing bs with
  | zero => rfl
  | succ n ih =>
    rw [List.range_succ_eq_map, List.map_cons, List.map_map]
    cases bs with
    | nil =>
      have h0 : leValue ((List.range n).map fun k => ([] : List Byte).getD k 0) = 0 := by
        rw [← ih [], List.take_nil]
        rfl
      have h1 : ((fun k => ([] : List Byte).getD k 0) ∘ Nat.succ) = fun k => ([] : List Byte).getD k 0 := rfl
      rw [h1, leValue, h0]
      rfl
    | cons b bs =>
      rw [List.take_succ_cons, leValue, ih bs]
      simp [leValue, Function.comp_def]

theorem leValue_slice (l : Line) (off n : Nat) :
    leValue (l.slice off n) = leValue ((List.range n).map fun k => l.bytes.getD (off + k) 0) := by
  rw [Line.slice, leValue_take]
  congr 2
  funext k
  simp [List.getD_eq_getElem?_getD]

/-! ### One data-cache access (21_cache.md R110) -/

/-- The line of `a` as a read leaves it. -/
def readLine (l : Line) : Line := { l with accessed := true }

/-- The line of `a` as a write leaves it. -/
def writtenLine (g : Geometry) (a n : Nat) (v : Word) (l : Line) : Line :=
  { l with bytes := l.splice (offsetOf g a) (leBytes v n), dirty := true, accessed := true }

/-- A cache with a line of the set of `a` touched. -/
def touched (g : Geometry) (c : Cache) (a : Nat) (l : Line) : Cache :=
  Cache.putSet c (indexOf g a) (CacheSet.touch (Cache.setAt c (indexOf g a)) l)

/-- The line a miss installs. -/
def filledLine (g : Geometry) (m : Memory) (a : Nat) : Line := newLine g a (m.readBlock (baseOf g a) g.line)

theorem Cache.read_hit {g : Geometry} {c : Cache} {a : Nat} {l : Line} (h : Cache.lookup g c a = some l) (n : Nat) :
    Cache.read g c a n = some (BitVec.ofNat 32 (leValue (l.slice (offsetOf g a) n)), touched g c a (readLine l)) := by
  simp [Cache.read, h, touched, readLine]

theorem Cache.write_hit {g : Geometry} {c : Cache} {a : Nat} {l : Line} (h : Cache.lookup g c a = some l) (n : Nat)
    (v : Word) : Cache.write g c a n v = some (touched g c a (writtenLine g a n v l)) := by
  simp [Cache.write, h, touched, writtenLine]

theorem Cache.read_miss {g : Geometry} {c : Cache} {a : Nat} (h : Cache.lookup g c a = none) (n : Nat) :
    Cache.read g c a n = none := by
  simp [Cache.read, h]

theorem Cache.write_miss {g : Geometry} {c : Cache} {a : Nat} (h : Cache.lookup g c a = none) (n : Nat) (v : Word) :
    Cache.write g c a n v = none := by
  simp [Cache.write, h]

theorem dcRead_hit {s : State} {a : Nat} {l : Line} (h : Cache.lookup s.params.dc s.dc a = some l) (n : Nat) :
    dcRead a n s =
      (BitVec.ofNat 32 (leValue (l.slice (offsetOf s.params.dc a) n)),
       { s with dcAccesses := s.dcAccesses + 1, dcHits := s.dcHits + 1,
                dc := touched s.params.dc s.dc a (readLine l) }) := by
  simp [dcRead, Cache.read_hit h]

/-- The fill does not look at the counters. -/
theorem dcFill_dcAccesses (a : Nat) (s : State) (k : Nat) :
    dcFill a { s with dcAccesses := k } = { dcFill a s with dcAccesses := k } := rfl

theorem dcRead_miss {s : State} {a : Nat} (h : Cache.lookup s.params.dc s.dc a = none) (n : Nat) :
    dcRead a n s =
      (BitVec.ofNat 32 (leValue ((filledLine s.params.dc s.mem a).slice (offsetOf s.params.dc a) n)),
       { dcFill a s with
           dcAccesses := s.dcAccesses + 1
           dc := touched s.params.dc (dcFill a s).dc a (readLine (filledLine s.params.dc s.mem a)) }) := by
  have h2 : Cache.lookup s.params.dc (dcFill a s).dc a = some (filledLine s.params.dc s.mem a) := lookup_dcFill h
  simp only [dcRead, Cache.read_miss h, dcFill_dcAccesses, dcFill_params, Cache.read_hit h2]

theorem dcWrite_hit {s : State} {a : Nat} {l : Line} (h : Cache.lookup s.params.dc s.dc a = some l) (n : Nat)
    (v : Word) :
    dcWrite a n v s =
      { s with dcAccesses := s.dcAccesses + 1, dcHits := s.dcHits + 1,
               dc := touched s.params.dc s.dc a (writtenLine s.params.dc a n v l) } := by
  simp [dcWrite, Cache.write_hit h]

theorem dcWrite_miss {s : State} {a : Nat} (h : Cache.lookup s.params.dc s.dc a = none) (n : Nat) (v : Word) :
    dcWrite a n v s =
      { dcFill a s with
          dcAccesses := s.dcAccesses + 1
          dc := touched s.params.dc (dcFill a s).dc a (writtenLine s.params.dc a n v (filledLine s.params.dc s.mem a)) } := by
  have h2 : Cache.lookup s.params.dc (dcFill a s).dc a = some (filledLine s.params.dc s.mem a) := lookup_dcFill h
  simp only [dcWrite, Cache.write_miss h, dcFill_dcAccesses, dcFill_params, Cache.write_hit h2]

/-- What a fill leaves alone: everything but the data cache and memory. -/
theorem dcFill_frame (a : Nat) (s : State) :
    SameOutsideData s (dcFill a s) ∧ NoReg s (dcFill a s) ∧ (dcFill a s).x = s.x ∧ (dcFill a s).f = s.f ∧
      (dcFill a s).pc = s.pc ∧ (dcFill a s).dcAccesses = s.dcAccesses ∧ (dcFill a s).dcHits = s.dcHits :=
  ⟨⟨rfl, rfl, rfl, rfl, ⟨rfl, rfl, rfl, rfl⟩, rfl, ⟨rfl, rfl⟩, ⟨rfl, rfl⟩, rfl⟩, ⟨fun _ => rfl, fun _ => rfl⟩,
    rfl, rfl, rfl, rfl, rfl⟩

/-- The frame and the counters of a data-cache read. -/
theorem dcRead_frame (a n : Nat) (s : State) :
    SameOutsideData s (dcRead a n s).2 ∧ NoReg s (dcRead a n s).2 ∧ (dcRead a n s).2.x = s.x ∧
      (dcRead a n s).2.f = s.f ∧ (dcRead a n s).2.pc = s.pc ∧ CountedAccess a s (dcRead a n s).2 := by
  cases h : Cache.lookup s.params.dc s.dc a with
  | some l =>
    rw [dcRead_hit h]
    exact ⟨⟨rfl, rfl, rfl, rfl, ⟨rfl, rfl, rfl, rfl⟩, rfl, ⟨rfl, rfl⟩, ⟨rfl, rfl⟩, rfl⟩, ⟨fun _ => rfl, fun _ => rfl⟩,
      rfl, rfl, rfl, rfl, by simp [h]⟩
  | none =>
    rw [dcRead_miss h]
    exact ⟨⟨rfl, rfl, rfl, rfl, ⟨rfl, rfl, rfl, rfl⟩, rfl, ⟨rfl, rfl⟩, ⟨rfl, rfl⟩, rfl⟩, ⟨fun _ => rfl, fun _ => rfl⟩,
      rfl, rfl, rfl, rfl, by simp [h, dcFill]⟩

/-- The frame and the counters of a data-cache write. -/
theorem dcWrite_frame (a n : Nat) (v : Word) (s : State) :
    SameOutsideData s (dcWrite a n v s) ∧ NoReg s (dcWrite a n v s) ∧ (dcWrite a n v s).x = s.x ∧
      (dcWrite a n v s).f = s.f ∧ (dcWrite a n v s).pc = s.pc ∧ CountedAccess a s (dcWrite a n v s) := by
  cases h : Cache.lookup s.params.dc s.dc a with
  | some l =>
    rw [dcWrite_hit h]
    exact ⟨⟨rfl, rfl, rfl, rfl, ⟨rfl, rfl, rfl, rfl⟩, rfl, ⟨rfl, rfl⟩, ⟨rfl, rfl⟩, rfl⟩, ⟨fun _ => rfl, fun _ => rfl⟩,
      rfl, rfl, rfl, rfl, by simp [h]⟩
  | none =>
    rw [dcWrite_miss h]
    exact ⟨⟨rfl, rfl, rfl, rfl, ⟨rfl, rfl, rfl, rfl⟩, rfl, ⟨rfl, rfl⟩, ⟨rfl, rfl⟩, rfl⟩, ⟨fun _ => rfl, fun _ => rfl⟩,
      rfl, rfl, rfl, rfl, by simp [h, dcFill]⟩

/-- The canonical form and the bound of memory through a fill: the victim's block must be inside memory. -/
theorem wf_dcFill {s : State} (a : Nat) (h : s.mem.wf = true) : (dcFill a s).mem.wf = true := by
  unfold dcFill
  simp only
  split
  · exact Memory.wf_writeBlock _ _ h
  · exact h

theorem wf_dcRead {s : State} (a n : Nat) (h : s.mem.wf = true) : (dcRead a n s).2.mem.wf = true := by
  cases hl : Cache.lookup s.params.dc s.dc a with
  | some l => rw [dcRead_hit hl]; exact h
  | none => rw [dcRead_miss hl]; exact wf_dcFill a h

theorem wf_dcWrite {s : State} (a n : Nat) (v : Word) (h : s.mem.wf = true) : (dcWrite a n v s).mem.wf = true := by
  cases hl : Cache.lookup s.params.dc s.dc a with
  | some l => rw [dcWrite_hit hl]; exact h
  | none => rw [dcWrite_miss hl]; exact wf_dcFill a h

/-! ### One fetch (21_cache.md R111) -/

theorem icRead_hit {s : State} {a : Nat} {l : Line} (h : Cache.lookup s.params.ic s.ic a = some l) :
    icRead a s =
      (BitVec.ofNat 32 (leValue (l.slice (offsetOf s.params.ic a) 4)),
       { s with icAccesses := s.icAccesses + 1, icHits := s.icHits + 1,
                ic := touched s.params.ic s.ic a (readLine l) }) := by
  simp [icRead, Cache.read_hit h]

theorem icRead_miss {s : State} {a : Nat} (h : Cache.lookup s.params.ic s.ic a = none) :
    icRead a s =
      (BitVec.ofNat 32 (leValue ((filledLine s.params.ic s.mem a).slice (offsetOf s.params.ic a) 4)),
       { s with icAccesses := s.icAccesses + 1,
                ic := touched s.params.ic
                  (Cache.install s.params.ic s.ic a (s.mem.readBlock (baseOf s.params.ic a) s.params.ic.line)).1 a
                  (readLine (filledLine s.params.ic s.mem a)) }) := by
  have h2 := Cache.lookup_install_self (s.mem.readBlock (baseOf s.params.ic a) s.params.ic.line) h
  simp only [icRead, Cache.read_miss h, Cache.read_hit h2]
  rfl

/-- What a fetch leaves alone, and its pc, guard and counters. -/
theorem fetchWord_frame (s : State) :
    (fetchWord s).2 =
      { s with pc := s.pc + 4, lgAddr := some s.pc, lgCount := guardCount s.pc s,
               icAccesses := s.icAccesses + 1,
               icHits := s.icHits + (if (Cache.lookup s.params.ic s.ic s.pc.toNat).isSome then 1 else 0),
               ic := (fetchWord s).2.ic } := by
  unfold fetchWord
  cases h : Cache.lookup s.params.ic s.ic s.pc.toNat with
  | some l =>
    have := icRead_hit (s := { s with lgAddr := some s.pc, lgCount := guardCount s.pc s }) h
    simp [this]
  | none =>
    have := icRead_miss (s := { s with lgAddr := some s.pc, lgCount := guardCount s.pc s }) h
    simp [this]

/-! ### What the shared meanings answer -/

theorem memRead_ok {s : State} {a : Word} {n : Nat} (h : accessCheck s.params a n = none) :
    memRead a n s = .ok (dcRead a.toNat n s) := by
  simp [memRead, h]

theorem memRead_error {s : State} {a : Word} {n : Nat} {c : Fault} (h : accessCheck s.params a n = some c) :
    memRead a n s = .error c := by
  simp [memRead, h]

theorem memWrite_ok {s : State} {a v : Word} {n : Nat} (h : accessCheck s.params a n = none) :
    memWrite a n v s = .ok (dcWrite a.toNat n v s) := by
  simp [memWrite, h]

theorem memWrite_error {s : State} {a v : Word} {n : Nat} {c : Fault} (h : accessCheck s.params a n = some c) :
    memWrite a n v s = .error c := by
  simp [memWrite, h]

/-- `commitX` answers one next state. -/
theorem commitX_next {rd : RegIdx} {v : Word} {s t : State} (h : commitX rd v s = .next t) : t = s.writeX rd v := by
  cases h
  rfl

/-- `commitF` answers one next state. -/
theorem commitF_next {rd : RegIdx} {v : Word} {s t : State} (h : commitF rd v s = .next t) : t = s.writeF rd v := by
  cases h
  rfl

/-- `branchTo` moves the pc or does nothing. -/
theorem branchTo_next {b : Bool} {target : Word} {s t : State} (h : branchTo b target s = .next t) :
    (b = true ∧ t = { s with pc := target }) ∨ (b = false ∧ t = s) := by
  cases b <;> cases h
  · exact .inr ⟨rfl, rfl⟩
  · exact .inl ⟨rfl, rfl⟩

/-- `jumpTo` writes the link register and the pc. -/
theorem jumpTo_next {rd : RegIdx} {link target : Word} {s t : State} (h : jumpTo rd link target s = .next t) :
    t = { s.writeX rd link with pc := target } := by
  cases h
  rfl

/-- `loadX` is a fatal condition, or one access and a register write. -/
theorem loadX_next {rd : RegIdx} {a : Word} {n : Nat} {ext : Word → Word} {s t : State}
    (h : loadX rd a n ext s = .next t) :
    (∃ c, accessCheck s.params a n = some c ∧ t = raiseFatal c s) ∨
      (accessCheck s.params a n = none ∧ t = (dcRead a.toNat n s).2.writeX rd (ext (dcRead a.toNat n s).1)) := by
  unfold loadX at h
  cases hc : accessCheck s.params a n with
  | some c =>
    rw [memRead_error hc] at h
    cases h
    exact .inl ⟨c, rfl, rfl⟩
  | none =>
    rw [memRead_ok hc] at h
    cases h
    exact .inr ⟨rfl, rfl⟩

/-- `loadF` is a fatal condition, or one access and a register write. -/
theorem loadF_next {rd : RegIdx} {a : Word} {n : Nat} {ext : Word → Word} {s t : State}
    (h : loadF rd a n ext s = .next t) :
    (∃ c, accessCheck s.params a n = some c ∧ t = raiseFatal c s) ∨
      (accessCheck s.params a n = none ∧ t = (dcRead a.toNat n s).2.writeF rd (ext (dcRead a.toNat n s).1)) := by
  unfold loadF at h
  cases hc : accessCheck s.params a n with
  | some c =>
    rw [memRead_error hc] at h
    cases h
    exact .inl ⟨c, rfl, rfl⟩
  | none =>
    rw [memRead_ok hc] at h
    cases h
    exact .inr ⟨rfl, rfl⟩

/-- `storeTo` is a fatal condition, or one access. -/
theorem storeTo_next {a v : Word} {n : Nat} {s t : State} (h : storeTo a n v s = .next t) :
    (∃ c, accessCheck s.params a n = some c ∧ t = raiseFatal c s) ∨
      (accessCheck s.params a n = none ∧ t = dcWrite a.toNat n v s) := by
  unfold storeTo at h
  cases hc : accessCheck s.params a n with
  | some c =>
    rw [memWrite_error hc] at h
    cases h
    exact .inl ⟨c, rfl, rfl⟩
  | none =>
    rw [memWrite_ok hc] at h
    cases h
    exact .inr ⟨rfl, rfl⟩

/-- A register write alone is `OnlyX`. -/
theorem onlyX_writeX (rd : RegIdx) (v : Word) (s : State) : OnlyX rd v s (s.writeX rd v) :=
  ⟨fun h => State.readX_writeX_self s h v, rfl, fun _ h => State.readX_writeX_ne s h v, fun _ => by simp⟩

/-- A register write alone is `OnlyF`. -/
theorem onlyF_writeF (rd : RegIdx) (v : Word) (s : State) : OnlyF rd v s (s.writeF rd v) :=
  ⟨by simp, fun _ h => State.readF_writeF_ne s h v, fun _ => by simp⟩

/-! ### A step of the reference -/

/-- What a step of a running machine can do (50_pipeline.md R360). -/
theorem step_cases {s : State} (hr : s.run = .running) :
    (Config.livenessN ≤ guardCount s.pc s ∧ step s = .next { s with run := .halted }) ∨
    (guardCount s.pc s < Config.livenessN ∧
      ((∃ c, fetchCheck s.params s.pc = some c ∧ step s = .next (raiseFatal c s)) ∨
       (fetchCheck s.params s.pc = none ∧
        ((∃ e, decodeWord (fetchWord s).1 = .rejected e ∧
            step s = .next (raiseFatal (decodeFault e (fetchWord s).1 s.pc) (fetchWord s).2)) ∨
         ∃ i, decodeWord (fetchWord s).1 = .instr i ∧
            step s = exec i { (fetchWord s).2 with icount := (fetchWord s).2.icount + 1 })))) := by
  by_cases hg : guardCount s.pc s ≥ Config.livenessN
  · exact .inl ⟨hg, by simp [step, hr, hg]⟩
  · refine .inr ⟨by omega, ?_⟩
    cases hc : fetchCheck s.params s.pc with
    | some c => exact .inl ⟨c, rfl, by simp [step, hr, hg, hc]⟩
    | none =>
      refine .inr ⟨rfl, ?_⟩
      cases hd : decodeWord (fetchWord s).1 with
      | rejected e => exact .inl ⟨e, rfl, by simp [step, hr, hg, hc, hd]⟩
      | instr i => exact .inr ⟨i, rfl, by simp [step, hr, hg, hc, hd]⟩

end Sys2Proof.Machine
end

