-- ==== Sys2Proof/Laws/Exec.lean ====
section
/-! SUPPORT. Said once for all 52 instructions: a meaning is its row of 50_pipeline.md R339 applied to the committed
registers. Every statement over all instructions follows from this shape without opening the meanings. -/

namespace Sys2Proof.Machine

/-- The value of a source on the committed registers. -/
def State.source (s : State) (r : Option RegRef) : Word := (r.map s.committed).getD 0

/-- What an instruction does, read off its row: what execute computes, then the commit, the redirect or the access. -/
def rowMeaning (i : Instr) (s : State) : Result :=
  match executeOut i (s.source (sourcesOf i).1) (s.source (sourcesOf i).2) s.originPc with
  | .result v =>
    match destOf i with
    | some r => .next (commit r v s)
    | none => .next s
  | .branch taken target => branchTo taken target s
  | .jump link target =>
    match destOf i with
    | some r => .next { commit r link s with pc := target }
    | none => .next { s with pc := target }
  | .addr a =>
    match loadOf i, storeOf i with
    | some (n, ext), _ =>
      match destOf i with
      | some { bank := .x, idx := rd } => loadX rd a n ext s
      | some { bank := .f, idx := rd } => loadF rd a n ext s
      | none => .next s
    | none, some n => storeTo a n (s.source (sourcesOf i).2) s
    | none, none => .next s

/-- The meanings of the reference and the rows of the engine agree. -/
theorem exec_eq_rowMeaning (i : Instr) (s : State) : exec i s = rowMeaning i s := by
  cases i <;> rfl

/-- The address and width of an access are those of the row. -/
theorem dataAccess_eq (i : Instr) (s : State) :
    dataAccess i s =
      match executeOut i (s.source (sourcesOf i).1) (s.source (sourcesOf i).2) s.originPc with
      | .addr a => ((loadOf i).map Prod.fst).orElse (fun _ => storeOf i) |>.map fun n => (a, n)
      | _ => none := by
  cases i <;> rfl

/-- What a commit of one register changes. -/
theorem commit_frame (r : RegRef) (v : Word) (s : State) :
    SameOutsideRegs s (commit r v s) ∧ (commit r v s).pc = s.pc := by
  obtain ⟨b, i⟩ := r
  cases b
  · exact ⟨⟨⟨by simp [commit], by simp [commit], by simp [commit], by simp [commit],
      ⟨by simp [commit], by simp [commit], by simp [commit], by simp [commit]⟩, by simp [commit],
      ⟨by simp [commit], by simp [commit]⟩, ⟨by simp [commit], by simp [commit]⟩, by simp [commit]⟩,
      fun a => by simp [commit], by simp [commit], by simp [commit], ⟨by simp [commit], by simp [commit]⟩⟩,
      by simp [commit]⟩
  · exact ⟨⟨⟨rfl, rfl, rfl, rfl, ⟨rfl, rfl, rfl, rfl⟩, rfl, ⟨rfl, rfl⟩, ⟨rfl, rfl⟩, rfl⟩,
      fun _ => rfl, rfl, rfl, ⟨rfl, rfl⟩⟩, rfl⟩

theorem committed_commit_self {r : RegRef} (h : r ≠ xr 0) (v : Word) (s : State) : (commit r v s).committed r = v := by
  obtain ⟨b, i⟩ := r
  cases b
  · exact State.readX_writeX_self s (fun e => h (congrArg (RegRef.mk .x) e)) v
  · exact State.readF_writeF_self s i v

theorem committed_commit_ne {r q : RegRef} (h : q ≠ r) (v : Word) (s : State) :
    (commit r v s).committed q = s.committed q := by
  obtain ⟨b, i⟩ := r
  obtain ⟨c, j⟩ := q
  cases b <;> cases c
  · exact State.readX_writeX_ne s (fun e => h (congrArg (RegRef.mk .x) e)) v
  · exact State.readF_writeX s i j v
  · exact State.readX_writeF s i j v
  · exact State.readF_writeF_ne s (fun e => h (congrArg (RegRef.mk .f) e)) v

end Sys2Proof.Machine
end

