-- ==== Sys2Proof/Laws/Engine.lean ====
section
/-! SUPPORT. The five steps of a tick: what each can do, and what each leaves alone. -/

namespace Sys2Proof.Machine

/-! ### Introspection -/

/-- A load has a destination and stores nothing; a store has none (50_pipeline.md R339). -/
theorem loadOf_dest {i : Instr} (h : isLoad i = true) : (destOf i).isSome = true ∧ storeOf i = none := by
  cases i <;> first | exact ⟨rfl, rfl⟩ | exact Bool.noConfusion h

theorem storeOf_dest {i : Instr} (h : isStore i = true) : destOf i = none ∧ loadOf i = none := by
  cases i <;> first | exact ⟨rfl, rfl⟩ | exact Bool.noConfusion h

/-- A control transfer makes no data access. -/
theorem transfer_no_access {i : Instr} (h : isBranchOrJump i = true) : isLoad i = false ∧ isStore i = false := by
  cases i <;> first | exact ⟨rfl, rfl⟩ | exact Bool.noConfusion h

/-! ### Publish -/

theorem forwarded_publish_self {r : RegRef} (h : r ≠ xr 0) (seq : Nat) (v : Word) (s : State) :
    (publish r seq v s).forwarded r = some { seq := seq, value := v } := by
  obtain ⟨b, i⟩ := r
  cases b
  · have hi : i ≠ 0 := fun e => h (congrArg (RegRef.mk .x) e)
    simp only [publish, State.forwarded, if_neg hi, Vector.getElem_set_self]
  · simp only [publish, State.forwarded, Vector.getElem_set_self]

theorem forwarded_publish_ne {r q : RegRef} (h : q ≠ r) (seq : Nat) (v : Word) (s : State) :
    (publish r seq v s).forwarded q = s.forwarded q := by
  obtain ⟨b, i⟩ := r
  obtain ⟨c, j⟩ := q
  cases b <;> cases c
  · have hj : j ≠ i := fun e => h (congrArg (RegRef.mk .x) e)
    by_cases hi : i = 0
    · simp only [publish, if_pos hi]
    · simp only [publish, State.forwarded, if_neg hi, Vector.getElem_set_ne _ _ (regIdx_toNat_ne hj).symm]
  · by_cases hi : i = 0
    · simp only [publish, if_pos hi]
    · simp only [publish, State.forwarded, if_neg hi]
  · simp only [publish, State.forwarded]
  · have hj : j ≠ i := fun e => h (congrArg (RegRef.mk .f) e)
    simp only [publish, State.forwarded, Vector.getElem_set_ne _ _ (regIdx_toNat_ne hj).symm]

/-- A publication changes the forwarding tables only. -/
theorem publish_frame (r : RegRef) (seq : Nat) (v : Word) (s : State) :
    publish r seq v s = { s with fwdX := (publish r seq v s).fwdX, fwdF := (publish r seq v s).fwdF } := by
  obtain ⟨b, i⟩ := r
  cases b
  · by_cases hi : i = 0
    · simp only [publish, if_pos hi]
    · simp only [publish, if_neg hi]
  · rfl

/-! ### The steps -/

/-- A write-back changes the register banks, the pc and `q_WB` only. -/
theorem writeBackStep_frame (s : State) :
    writeBackStep s =
      { s with x := (writeBackStep s).x, f := (writeBackStep s).f, pc := (writeBackStep s).pc, qWB := none } := by
  unfold writeBackStep
  cases h : s.qWB with
  | none => simp [← h]
  | some b =>
    have hc : commitDest b s = { s with x := (commitDest b s).x, f := (commitDest b s).f } := by
      unfold commitDest
      split
      · rename_i r v _ _
        obtain ⟨c, i⟩ := r
        cases c
        · simp only [commit, State.writeX]
          split <;> rfl
        · rfl
      · rfl
    have hr : redirect b (commitDest b s) = { commitDest b s with pc := (redirect b (commitDest b s)).pc } := by
      unfold redirect
      split
      · split <;> rfl
      · rfl
    simp only
    rw [hr, hc]

/-- What the memory step of an occupied slot can do. -/
theorem memoryStep_cases {s : State} {b : Behaviour} (h : s.qMEM = some b) :
    (∃ n ext, loadOf b.instr = some (n, ext) ∧
      ((∃ c, accessCheck s.params (b.addr.getD 0) n = some c ∧ memoryStep s = raiseFatal c s) ∨
       (accessCheck s.params (b.addr.getD 0) n = none ∧
        memoryStep s =
          { publishDest b (ext (dcRead (b.addr.getD 0).toNat n s).1) (dcRead (b.addr.getD 0).toNat n s).2 with
              qMEM := none
              qWB := some { b with loaded := some (ext (dcRead (b.addr.getD 0).toNat n s).1) } }))) ∨
    (∃ n, loadOf b.instr = none ∧ storeOf b.instr = some n ∧
      ((∃ c, accessCheck s.params (b.addr.getD 0) n = some c ∧ memoryStep s = raiseFatal c s) ∨
       (accessCheck s.params (b.addr.getD 0) n = none ∧
        memoryStep s = { dcWrite (b.addr.getD 0).toNat n (b.op2.getD 0) s with qMEM := none }))) ∨
    (loadOf b.instr = none ∧ storeOf b.instr = none ∧ memoryStep s = { s with qMEM := none, qWB := some b }) := by
  cases hl : loadOf b.instr with
  | some p =>
    obtain ⟨n, ext⟩ := p
    refine .inl ⟨n, ext, rfl, ?_⟩
    cases hc : accessCheck s.params (b.addr.getD 0) n with
    | some c => exact .inl ⟨c, rfl, by simp only [memoryStep, h, hl, memRead_error hc]⟩
    | none => exact .inr ⟨rfl, by simp only [memoryStep, h, hl, memRead_ok hc]⟩
  | none =>
    cases hs : storeOf b.instr with
    | some n =>
      refine .inr (.inl ⟨n, rfl, rfl, ?_⟩)
      cases hc : accessCheck s.params (b.addr.getD 0) n with
      | some c => exact .inl ⟨c, rfl, by simp only [memoryStep, h, hl, hs, memWrite_error hc]⟩
      | none => exact .inr ⟨rfl, by simp only [memoryStep, h, hl, hs, memWrite_ok hc]⟩
    | none => exact .inr (.inr ⟨rfl, rfl, by simp only [memoryStep, h, hl, hs]⟩)

theorem memoryStep_empty {s : State} (h : s.qMEM = none) : memoryStep s = s := by
  simp [memoryStep, h]

/-- An execute step changes the forwarding tables and moves the record. -/
theorem executeStep_some {s : State} {b : Behaviour} (h : s.qEX = some b) :
    executeStep s =
      { s with fwdX := (executeStep s).fwdX, fwdF := (executeStep s).fwdF, qEX := none, qMEM := some (executeFill b) } := by
  unfold executeStep
  rw [h]
  simp only
  split
  · split
    · rfl
    · unfold publishDest
      split
      · rename_i r _
        rw [publish_frame r _ _ s]
      · rfl
  · rfl

theorem executeStep_empty {s : State} (h : s.qEX = none) : executeStep s = s := by
  simp [executeStep, h]

/-- What decode does with an occupied slot. -/
theorem decodeStep_cases {s : State} {w : Word} (h : s.qRF = some w) :
    (∃ e, decodeWord w = .rejected e ∧ s.qMEM = none ∧ s.qWB = none ∧
      decodeStep s = raiseFatal (decodeFault e w (s.pc - 4)) { s with qRF := none }) ∨
    (∃ e, decodeWord w = .rejected e ∧ (s.qMEM ≠ none ∨ s.qWB ≠ none) ∧ decodeStep s = s) ∨
    (∃ i, decodeWord w = .instr i ∧ interlocked i s = true ∧ decodeStep s = s) ∨
    (∃ i, decodeWord w = .instr i ∧ interlocked i s = false ∧ decodeStep s = registerFetch i s) := by
  cases hd : decodeWord w with
  | rejected e =>
    have hs : decodeStep s =
        if s.qMEM.isNone && s.qWB.isNone then raiseFatal (decodeFault e w (s.pc - 4)) { s with qRF := none } else s := by
      simp only [decodeStep, h, hd]
    cases h1 : s.qMEM with
    | some b => exact .inr (.inl ⟨e, rfl, .inl (by simp), by rw [hs, h1]; rfl⟩)
    | none =>
      cases h2 : s.qWB with
      | some b => exact .inr (.inl ⟨e, rfl, .inr (by simp), by rw [hs, h2, Bool.and_comm]; rfl⟩)
      | none => exact .inl ⟨e, rfl, rfl, rfl, by rw [hs, h1, h2]; rfl⟩
  | instr i =>
    have hs : decodeStep s = if interlocked i s then s else registerFetch i s := by
      simp only [decodeStep, h, hd]
    cases hi : interlocked i s with
    | true => exact .inr (.inr (.inl ⟨i, rfl, hi, by rw [hs, hi]; rfl⟩))
    | false => exact .inr (.inr (.inr ⟨i, rfl, hi, by rw [hs, hi]; rfl⟩))

theorem decodeStep_empty {s : State} (h : s.qRF = none) : decodeStep s = s := by
  simp [decodeStep, h]

/-- What a due fetch can do. -/
theorem fetchStep_cases {s : State} (h : fetchDue s = true) :
    (Config.livenessN ≤ guardCount s.pc s ∧ fetchStep s = { s with run := .halted }) ∨
    (guardCount s.pc s < Config.livenessN ∧
      ((∃ c, fetchCheck s.params s.pc = some c ∧ s.qEX = none ∧ s.qMEM = none ∧ s.qWB = none ∧
          fetchStep s = raiseFatal c s) ∨
       (∃ c, fetchCheck s.params s.pc = some c ∧ (s.qEX ≠ none ∨ s.qMEM ≠ none ∨ s.qWB ≠ none) ∧ fetchStep s = s) ∨
       (fetchCheck s.params s.pc = none ∧ fetchStep s = { (fetchWord s).2 with qRF := some (fetchWord s).1 }))) := by
  unfold fetchStep
  rw [if_pos h]
  by_cases hg : guardCount s.pc s ≥ Config.livenessN
  · exact .inl ⟨hg, by rw [if_pos hg]⟩
  · refine .inr ⟨by omega, ?_⟩
    rw [if_neg hg]
    cases hc : fetchCheck s.params s.pc with
    | some c =>
      cases h1 : s.qEX with
      | some b => exact .inr (.inl ⟨c, rfl, .inl (by simp), by simp⟩)
      | none =>
        cases h2 : s.qMEM with
        | some b => exact .inr (.inl ⟨c, rfl, .inr (.inl (by simp)), by simp⟩)
        | none =>
          cases h3 : s.qWB with
          | some b => exact .inr (.inl ⟨c, rfl, .inr (.inr (by simp)), by simp⟩)
          | none => exact .inl ⟨c, rfl, rfl, rfl, rfl, by simp⟩
    | none => exact .inr (.inr ⟨rfl, rfl⟩)

theorem fetchStep_not_due {s : State} (h : fetchDue s = false) : fetchStep s = s := by
  simp [fetchStep, h]

/-! ### The tick -/

@[simp] theorem whileRunning_of_ne {f : State → State} {s : State} (h : s.run ≠ .running) : whileRunning f s = s :=
  if_neg h

theorem whileRunning_of_eq {f : State → State} {s : State} (h : s.run = .running) : whileRunning f s = f s :=
  if_pos h

@[simp] theorem ticks_zero (s : State) : ticks 0 s = s := rfl
theorem ticks_succ (n : Nat) (s : State) : ticks (n + 1) s = ticks n (tick s) := rfl

/-- Ticks add up. -/
theorem ticks_add (m n : Nat) (s : State) : ticks (m + n) s = ticks n (ticks m s) := by
  induction m generalizing s with
  | zero => rw [Nat.zero_add, ticks_zero]
  | succ m ih => rw [Nat.succ_add, ticks_succ, ih, ← ticks_succ]

end Sys2Proof.Machine
end

