-- ==== Sys2Proof/Laws/Operands.lean ====
section
/-! SUPPORT. The operand forms as numbers: an immediate is worth its signed field, and shift amounts are below 32. -/

namespace Sys2Proof.Machine

theorem immI_eq_signExtend (imm : Imm12) : immI imm = imm.signExtend 32 := by
  unfold immI sext
  rw [BitVec.setWidth_setWidth_of_le _ (by omega), BitVec.setWidth_eq]

theorem immJ_eq_signExtend (imm : Imm20) : immJ imm = imm.signExtend 32 := by
  unfold immJ sext
  rw [BitVec.setWidth_setWidth_of_le _ (by omega), BitVec.setWidth_eq]

@[simp] theorem toInt_immI (imm : Imm12) : (immI imm).toInt = imm.toInt := by
  rw [immI_eq_signExtend, BitVec.toInt_signExtend_of_le (by omega)]

@[simp] theorem toInt_immJ (imm : Imm20) : (immJ imm).toInt = imm.toInt := by
  rw [immJ_eq_signExtend, BitVec.toInt_signExtend_of_le (by omega)]

theorem shamtImm_eq (imm : Imm12) : shamtImm imm = imm.toNat % 32 := by
  simp [shamtImm, BitVec.extractLsb'_toNat]

theorem shamtReg_eq (v : Word) : shamtReg v = v.toNat % 32 := by
  simp [shamtReg, BitVec.extractLsb'_toNat]

theorem shamtImm_lt (imm : Imm12) : shamtImm imm < 32 := by
  rw [shamtImm_eq]
  omega

theorem shamtReg_lt (v : Word) : shamtReg v < 32 := by
  rw [shamtReg_eq]
  omega

@[simp] theorem boolWord_true : boolWord true = 1 := rfl
@[simp] theorem boolWord_false : boolWord false = 0 := rfl

end Sys2Proof.Machine
end

