-- ==== Sys2Proof/Laws/PerInstr.lean ====
section
/-! SUPPORT. Statements for all instructions, made per instruction. `OpcodeKnown`: the encoding of the instruction has one
of the twelve opcodes of 30_encoding.md R138, with the shape the encoder lays it out in. -/

namespace Sys2Proof.Laws.OpcodeKnown

/-- The shape in which R141 to R146 give an instruction. -/
def shapeOf : Instr → Shape
  | .lui _ _ => .u
  | .auipc _ _ => .u
  | .jal _ _ => .j
  | .jalr _ _ _ => .i
  | .beq _ _ _ => .b
  | .bne _ _ _ => .b
  | .blt _ _ _ => .b
  | .bge _ _ _ => .b
  | .bltu _ _ _ => .b
  | .bgeu _ _ _ => .b
  | .lb _ _ _ => .i
  | .lh _ _ _ => .i
  | .lw _ _ _ => .i
  | .lbu _ _ _ => .i
  | .lhu _ _ _ => .i
  | .sb _ _ _ => .s
  | .sh _ _ _ => .s
  | .sw _ _ _ => .s
  | .flw _ _ _ => .i
  | .fsw _ _ _ => .s
  | .addi _ _ _ => .i
  | .slti _ _ _ => .i
  | .sltiu _ _ _ => .i
  | .xori _ _ _ => .i
  | .ori _ _ _ => .i
  | .andi _ _ _ => .i
  | .slli _ _ _ => .i
  | .srli _ _ _ => .i
  | .srai _ _ _ => .i
  | .add _ _ _ => .r
  | .sub _ _ _ => .r
  | .sll _ _ _ => .r
  | .slt _ _ _ => .r
  | .sltu _ _ _ => .r
  | .xor _ _ _ => .r
  | .srl _ _ _ => .r
  | .sra _ _ _ => .r
  | .or _ _ _ => .r
  | .and _ _ _ => .r
  | .faddS _ _ _ => .r
  | .fsubS _ _ _ => .r
  | .fmulS _ _ _ => .r
  | .fdivS _ _ _ => .r
  | .fsqrtS _ _ => .r
  | .fsgnjS _ _ _ => .r
  | .fsgnjnS _ _ _ => .r
  | .fsgnjxS _ _ _ => .r
  | .feqS _ _ _ => .r
  | .fltS _ _ _ => .r
  | .fleS _ _ _ => .r
  | .fcvtWS _ _ => .r
  | .fcvtSW _ _ => .r

/-- The opcode of the instruction's encoding selects the instruction's shape. -/
def Statement (i : Instr) : Prop := opcodeShapes.lookup (fieldOpcode (encode i)) = some (shapeOf i)

/-! ### One lemma per shape -/

theorem lookup_encodeR {f7 : BitVec 7} {rs2 rs1 : RegIdx} {f3 : BitVec 3} {rd : RegIdx} {op : BitVec 7} {sh : Option Shape}
    (h : opcodeShapes.lookup op = sh) : opcodeShapes.lookup (fieldOpcode (encodeR f7 rs2 rs1 f3 rd op)) = sh := by
  rwa [fieldOpcode_encodeR]

theorem lookup_encodeI {imm : Imm12} {rs1 : RegIdx} {f3 : BitVec 3} {rd : RegIdx} {op : BitVec 7} {sh : Option Shape}
    (h : opcodeShapes.lookup op = sh) : opcodeShapes.lookup (fieldOpcode (encodeI imm rs1 f3 rd op)) = sh := by
  rwa [fieldOpcode_encodeI]

theorem lookup_encodeS {imm : Imm12} {rs2 rs1 : RegIdx} {f3 : BitVec 3} {op : BitVec 7} {sh : Option Shape}
    (h : opcodeShapes.lookup op = sh) : opcodeShapes.lookup (fieldOpcode (encodeS imm rs2 rs1 f3 op)) = sh := by
  rwa [fieldOpcode_encodeS]

theorem lookup_encodeB {imm : Imm12} {rs2 rs1 : RegIdx} {f3 : BitVec 3} {op : BitVec 7} {sh : Option Shape}
    (h : opcodeShapes.lookup op = sh) : opcodeShapes.lookup (fieldOpcode (encodeB imm rs2 rs1 f3 op)) = sh := by
  rwa [fieldOpcode_encodeB]

theorem lookup_encodeJ {imm : Imm20} {rd : RegIdx} {op : BitVec 7} {sh : Option Shape}
    (h : opcodeShapes.lookup op = sh) : opcodeShapes.lookup (fieldOpcode (encodeJ imm rd op)) = sh := by
  rwa [fieldOpcode_encodeJ]

theorem lookup_encodeU {imm : Imm20} {rd : RegIdx} {op : BitVec 7} {sh : Option Shape}
    (h : opcodeShapes.lookup op = sh) : opcodeShapes.lookup (fieldOpcode (encodeU imm rd op)) = sh := by
  rwa [fieldOpcode_encodeU]

/-! ### One lemma per instruction -/

theorem lui (rd : RegIdx) (imm : Imm20) : Statement (.lui rd imm) := lookup_encodeU rfl

theorem auipc (rd : RegIdx) (imm : Imm20) : Statement (.auipc rd imm) := lookup_encodeU rfl

theorem jal (rd : RegIdx) (imm : Imm20) : Statement (.jal rd imm) := lookup_encodeJ rfl

theorem jalr (rd rs1 : RegIdx) (imm : Imm12) : Statement (.jalr rd rs1 imm) := lookup_encodeI rfl

theorem beq (rs1 rs2 : RegIdx) (imm : Imm12) : Statement (.beq rs1 rs2 imm) := lookup_encodeB rfl

theorem bne (rs1 rs2 : RegIdx) (imm : Imm12) : Statement (.bne rs1 rs2 imm) := lookup_encodeB rfl

theorem blt (rs1 rs2 : RegIdx) (imm : Imm12) : Statement (.blt rs1 rs2 imm) := lookup_encodeB rfl

theorem bge (rs1 rs2 : RegIdx) (imm : Imm12) : Statement (.bge rs1 rs2 imm) := lookup_encodeB rfl

theorem bltu (rs1 rs2 : RegIdx) (imm : Imm12) : Statement (.bltu rs1 rs2 imm) := lookup_encodeB rfl

theorem bgeu (rs1 rs2 : RegIdx) (imm : Imm12) : Statement (.bgeu rs1 rs2 imm) := lookup_encodeB rfl

theorem lb (rd rs1 : RegIdx) (imm : Imm12) : Statement (.lb rd rs1 imm) := lookup_encodeI rfl

theorem lh (rd rs1 : RegIdx) (imm : Imm12) : Statement (.lh rd rs1 imm) := lookup_encodeI rfl

theorem lw (rd rs1 : RegIdx) (imm : Imm12) : Statement (.lw rd rs1 imm) := lookup_encodeI rfl

theorem lbu (rd rs1 : RegIdx) (imm : Imm12) : Statement (.lbu rd rs1 imm) := lookup_encodeI rfl

theorem lhu (rd rs1 : RegIdx) (imm : Imm12) : Statement (.lhu rd rs1 imm) := lookup_encodeI rfl

theorem sb (rs1 rs2 : RegIdx) (imm : Imm12) : Statement (.sb rs1 rs2 imm) := lookup_encodeS rfl

theorem sh (rs1 rs2 : RegIdx) (imm : Imm12) : Statement (.sh rs1 rs2 imm) := lookup_encodeS rfl

theorem sw (rs1 rs2 : RegIdx) (imm : Imm12) : Statement (.sw rs1 rs2 imm) := lookup_encodeS rfl

theorem flw (rd rs1 : RegIdx) (imm : Imm12) : Statement (.flw rd rs1 imm) := lookup_encodeI rfl

theorem fsw (rs1 rs2 : RegIdx) (imm : Imm12) : Statement (.fsw rs1 rs2 imm) := lookup_encodeS rfl

theorem addi (rd rs1 : RegIdx) (imm : Imm12) : Statement (.addi rd rs1 imm) := lookup_encodeI rfl

theorem slti (rd rs1 : RegIdx) (imm : Imm12) : Statement (.slti rd rs1 imm) := lookup_encodeI rfl

theorem sltiu (rd rs1 : RegIdx) (imm : Imm12) : Statement (.sltiu rd rs1 imm) := lookup_encodeI rfl

theorem xori (rd rs1 : RegIdx) (imm : Imm12) : Statement (.xori rd rs1 imm) := lookup_encodeI rfl

theorem ori (rd rs1 : RegIdx) (imm : Imm12) : Statement (.ori rd rs1 imm) := lookup_encodeI rfl

theorem andi (rd rs1 : RegIdx) (imm : Imm12) : Statement (.andi rd rs1 imm) := lookup_encodeI rfl

theorem slli (rd rs1 : RegIdx) (imm : Imm12) : Statement (.slli rd rs1 imm) := lookup_encodeI rfl

theorem srli (rd rs1 : RegIdx) (imm : Imm12) : Statement (.srli rd rs1 imm) := lookup_encodeI rfl

theorem srai (rd rs1 : RegIdx) (imm : Imm12) : Statement (.srai rd rs1 imm) := lookup_encodeI rfl

theorem add (rd rs1 rs2 : RegIdx) : Statement (.add rd rs1 rs2) := lookup_encodeR rfl

theorem sub (rd rs1 rs2 : RegIdx) : Statement (.sub rd rs1 rs2) := lookup_encodeR rfl

theorem sll (rd rs1 rs2 : RegIdx) : Statement (.sll rd rs1 rs2) := lookup_encodeR rfl

theorem slt (rd rs1 rs2 : RegIdx) : Statement (.slt rd rs1 rs2) := lookup_encodeR rfl

theorem sltu (rd rs1 rs2 : RegIdx) : Statement (.sltu rd rs1 rs2) := lookup_encodeR rfl

theorem xor (rd rs1 rs2 : RegIdx) : Statement (.xor rd rs1 rs2) := lookup_encodeR rfl

theorem srl (rd rs1 rs2 : RegIdx) : Statement (.srl rd rs1 rs2) := lookup_encodeR rfl

theorem sra (rd rs1 rs2 : RegIdx) : Statement (.sra rd rs1 rs2) := lookup_encodeR rfl

theorem or (rd rs1 rs2 : RegIdx) : Statement (.or rd rs1 rs2) := lookup_encodeR rfl

theorem and (rd rs1 rs2 : RegIdx) : Statement (.and rd rs1 rs2) := lookup_encodeR rfl

theorem faddS (rd rs1 rs2 : RegIdx) : Statement (.faddS rd rs1 rs2) := lookup_encodeR rfl

theorem fsubS (rd rs1 rs2 : RegIdx) : Statement (.fsubS rd rs1 rs2) := lookup_encodeR rfl

theorem fmulS (rd rs1 rs2 : RegIdx) : Statement (.fmulS rd rs1 rs2) := lookup_encodeR rfl

theorem fdivS (rd rs1 rs2 : RegIdx) : Statement (.fdivS rd rs1 rs2) := lookup_encodeR rfl

theorem fsqrtS (rd rs1 : RegIdx) : Statement (.fsqrtS rd rs1) := lookup_encodeR rfl

theorem fsgnjS (rd rs1 rs2 : RegIdx) : Statement (.fsgnjS rd rs1 rs2) := lookup_encodeR rfl

theorem fsgnjnS (rd rs1 rs2 : RegIdx) : Statement (.fsgnjnS rd rs1 rs2) := lookup_encodeR rfl

theorem fsgnjxS (rd rs1 rs2 : RegIdx) : Statement (.fsgnjxS rd rs1 rs2) := lookup_encodeR rfl

theorem feqS (rd rs1 rs2 : RegIdx) : Statement (.feqS rd rs1 rs2) := lookup_encodeR rfl

theorem fltS (rd rs1 rs2 : RegIdx) : Statement (.fltS rd rs1 rs2) := lookup_encodeR rfl

theorem fleS (rd rs1 rs2 : RegIdx) : Statement (.fleS rd rs1 rs2) := lookup_encodeR rfl

theorem fcvtWS (rd rs1 : RegIdx) : Statement (.fcvtWS rd rs1) := lookup_encodeR rfl

theorem fcvtSW (rd rs1 : RegIdx) : Statement (.fcvtSW rd rs1) := lookup_encodeR rfl

end Sys2Proof.Laws.OpcodeKnown
end

