-- ==== Sys2Proof/Laws/Trace.lean ====
section
/-! SUPPORT. Traces of runs: they grow by appending, ended runs give no events, and the events of a tick are those its
counters count (21_cache.md R115). -/

namespace Sys2Proof.Machine

/-! ### Runs -/

@[simp] theorem seqRun_zero (s : State) : seqRun 0 s = s := rfl

theorem seqRun_succ_next {n : Nat} {s t : State} (h : step s = .next t) : seqRun (n + 1) s = seqRun n t := by
  simp only [seqRun, h]

theorem seqTrace_succ_next {α : Type} (f : State → List α) {n : Nat} {s t : State} (h : step s = .next t) :
    seqTrace f (n + 1) s = f s ++ seqTrace f n t := by
  simp only [seqTrace, h]

theorem seqTrace_stopped {α : Type} (f : State → List α) (n : Nat) {s : State} (h : ∀ t, step s ≠ .next t) :
    seqTrace f n s = [] := by
  cases n with
  | zero => rfl
  | succ n =>
    unfold seqTrace
    split
    · exact absurd ‹_› (h _)
    · rfl
    · rfl

theorem seqRun_stopped (n : Nat) {s : State} (h : ∀ t, step s ≠ .next t) : seqRun n s = s := by
  cases n with
  | zero => rfl
  | succ n =>
    unfold seqRun
    split
    · exact absurd ‹_› (h _)
    · rfl
    · rfl

/-- Steps add up. -/
theorem seqRun_add (m n : Nat) (s : State) : seqRun (m + n) s = seqRun n (seqRun m s) := by
  induction m generalizing s with
  | zero => rw [Nat.zero_add, seqRun_zero]
  | succ m ih =>
    by_cases h : ∃ t, step s = .next t
    · obtain ⟨t, h⟩ := h
      rw [Nat.succ_add, seqRun_succ_next h, seqRun_succ_next h, ih]
    · have h' : ∀ t, step s ≠ .next t := fun t ht => h ⟨t, ht⟩
      rw [seqRun_stopped _ h', seqRun_stopped _ h', seqRun_stopped _ h']

/-- The trace of a longer run is the trace of its beginning and then of its rest. -/
theorem seqTrace_add {α : Type} (f : State → List α) (m n : Nat) (s : State) :
    seqTrace f (m + n) s = seqTrace f m s ++ seqTrace f n (seqRun m s) := by
  induction m generalizing s with
  | zero => rw [Nat.zero_add]; rfl
  | succ m ih =>
    by_cases h : ∃ t, step s = .next t
    · obtain ⟨t, h⟩ := h
      rw [Nat.succ_add, seqTrace_succ_next f h, seqTrace_succ_next f h, seqRun_succ_next h, ih, List.append_assoc]
    · have h' : ∀ t, step s ≠ .next t := fun t ht => h ⟨t, ht⟩
      rw [seqRun_stopped _ h', seqTrace_stopped f _ h', seqTrace_stopped f _ h', seqTrace_stopped f _ h', List.append_nil]

theorem tickTrace_succ {α : Type} (f : State → List α) (n : Nat) (s : State) :
    tickTrace f (n + 1) s = f s ++ tickTrace f n (tick s) := rfl

/-- The trace of more ticks is the trace of the first and then of the rest. -/
theorem tickTrace_add {α : Type} (f : State → List α) (m n : Nat) (s : State) :
    tickTrace f (m + n) s = tickTrace f m s ++ tickTrace f n (ticks m s) := by
  induction m generalizing s with
  | zero => rw [Nat.zero_add]; rfl
  | succ m ih => rw [Nat.succ_add, tickTrace_succ, tickTrace_succ, ih, List.append_assoc]; rfl

/-- A shorter run's trace begins a longer one's. -/
theorem seqTrace_prefix {α : Type} (f : State → List α) {m n : Nat} (h : m ≤ n) (s : State) :
    seqTrace f m s <+: seqTrace f n s := by
  obtain ⟨k, rfl⟩ := Nat.exists_eq_add_of_le h
  rw [seqTrace_add]
  exact List.prefix_append _ _

theorem tickTrace_prefix {α : Type} (f : State → List α) {m n : Nat} (h : m ≤ n) (s : State) :
    tickTrace f m s <+: tickTrace f n s := by
  obtain ⟨k, rfl⟩ := Nat.exists_eq_add_of_le h
  rw [tickTrace_add]
  exact List.prefix_append _ _

/-! ### No events after the end -/

theorem seqFetched_ended {s : State} (h : s.run ≠ .running) : seqFetched s = none := if_neg fun g => h g.1

theorem seqIssued_ended {s : State} (h : s.run ≠ .running) : seqIssued s = none := by
  simp [seqIssued, seqFetched_ended h]

/-- An ended run of the reference gives no events. -/
theorem seqEvents_ended {s : State} (h : s.run ≠ .running) :
    seqFetches s = [] ∧ seqAccesses s = [] ∧ seqCommits s = [] ∧ seqRetired s = [] := by
  simp [seqFetches, seqAccesses, seqCommits, seqRetired, seqFetched_ended h, seqIssued_ended h]

theorem beforeMemory_ended {s : State} (h : s.run ≠ .running) : beforeMemory s = s := if_neg h

theorem beforeFetch_ended {s : State} (h : s.run ≠ .running) : beforeFetch s = s := by
  simp [beforeFetch, h]

/-- An ended run of the engine gives no events. -/
theorem tickEvents_ended {s : State} (h : s.run ≠ .running) :
    tickFetches s = [] ∧ tickAccesses s = [] ∧ tickCommits s = [] ∧ tickRetired s = [] := by
  simp [tickFetches, tickAccesses, tickCommits, tickRetired, beforeFetch_ended h, beforeMemory_ended h, h]

/-! ### The counters count the events of a tick -/

theorem tick_eq_fetchStep (s : State) : tick s = whileRunning fetchStep (beforeFetch s) := rfl

/-- A step performed while the run goes on keeps what the step keeps. -/
theorem whileRunning_keeps {α : Type} (f : State → State) (p : State → α) (h : ∀ s, p (f s) = p s) (s : State) :
    p (whileRunning f s) = p s := by
  unfold whileRunning
  split
  · exact h s
  · rfl

theorem writeBackStep_counters (s : State) :
    (writeBackStep s).icAccesses = s.icAccesses ∧ (writeBackStep s).dcAccesses = s.dcAccesses := by
  rw [writeBackStep_frame]
  exact ⟨rfl, rfl⟩

theorem executeStep_counters (s : State) :
    (executeStep s).icAccesses = s.icAccesses ∧ (executeStep s).dcAccesses = s.dcAccesses := by
  cases h : s.qEX with
  | none => rw [executeStep_empty h]; exact ⟨rfl, rfl⟩
  | some b => rw [executeStep_some h]; exact ⟨rfl, rfl⟩

theorem decodeStep_counters (s : State) :
    (decodeStep s).icAccesses = s.icAccesses ∧ (decodeStep s).dcAccesses = s.dcAccesses := by
  cases h : s.qRF with
  | none => rw [decodeStep_empty h]; exact ⟨rfl, rfl⟩
  | some w =>
    obtain ⟨e, -, -, -, h⟩ | ⟨e, -, -, h⟩ | ⟨i, -, -, h⟩ | ⟨i, -, -, h⟩ := decodeStep_cases h <;> rw [h] <;>
      exact ⟨rfl, rfl⟩

theorem publishDest_counters (b : Behaviour) (v : Word) (s : State) :
    (publishDest b v s).icAccesses = s.icAccesses ∧ (publishDest b v s).dcAccesses = s.dcAccesses := by
  unfold publishDest
  split
  · rw [publish_frame]; exact ⟨rfl, rfl⟩
  · exact ⟨rfl, rfl⟩

theorem memoryStep_icAccesses (s : State) : (memoryStep s).icAccesses = s.icAccesses := by
  cases h : s.qMEM with
  | none => rw [memoryStep_empty h]
  | some b =>
    obtain ⟨n, ext, -, ⟨c, -, h⟩ | ⟨-, h⟩⟩ | ⟨n, -, -, ⟨c, -, h⟩ | ⟨-, h⟩⟩ | ⟨-, -, h⟩ := memoryStep_cases h <;> rw [h]
    · rfl
    · exact (publishDest_counters _ _ _).1.trans (dcRead_frame _ _ _).1.icCounters.1
    · rfl
    · exact (dcWrite_frame _ _ _ _).1.icCounters.1

theorem fetchStep_dcAccesses (s : State) : (fetchStep s).dcAccesses = s.dcAccesses := by
  cases h : fetchDue s with
  | false => rw [fetchStep_not_due h]
  | true =>
    obtain ⟨-, h⟩ | ⟨-, ⟨c, -, -, -, -, h⟩ | ⟨c, -, -, h⟩ | ⟨-, h⟩⟩ := fetchStep_cases h <;> rw [h]
    · rfl
    · rw [fetchWord_frame]

theorem beforeFetch_icAccesses (s : State) : (beforeFetch s).icAccesses = s.icAccesses := by
  unfold beforeFetch
  rw [whileRunning_keeps decodeStep State.icAccesses fun s => (decodeStep_counters s).1,
    whileRunning_keeps executeStep State.icAccesses fun s => (executeStep_counters s).1,
    whileRunning_keeps memoryStep State.icAccesses memoryStep_icAccesses,
    whileRunning_keeps writeBackStep State.icAccesses fun s => (writeBackStep_counters s).1]

/-- A tick counts the fetch it makes. -/
theorem tick_icAccesses (s : State) : (tick s).icAccesses = s.icAccesses + (tickFetches s).length := by
  rw [tick_eq_fetchStep, ← beforeFetch_icAccesses s, tickFetches]
  generalize beforeFetch s = u
  by_cases hr : u.run = .running
  · rw [whileRunning_of_eq hr]
    cases h : fetchDue u with
    | false => simp [fetchStep_not_due h]
    | true =>
      obtain ⟨hg, h⟩ | ⟨hg, ⟨c, hc, -, -, -, h⟩ | ⟨c, hc, -, h⟩ | ⟨hc, h⟩⟩ := fetchStep_cases h <;> rw [h]
      · simp; omega
      · simp [hc, raiseFatal]
      · simp [hc]
      · rw [fetchWord_frame]
        simp [hr, hg, hc]
  · simp [hr]

/-- A tick counts the data access it makes. -/
theorem tick_dcAccesses (s : State) : (tick s).dcAccesses = s.dcAccesses + (tickAccesses s).length := by
  have hb : (beforeMemory s).dcAccesses = s.dcAccesses :=
    whileRunning_keeps writeBackStep State.dcAccesses (fun s => (writeBackStep_counters s).2) s
  have ht : (tick s).dcAccesses = (whileRunning memoryStep (beforeMemory s)).dcAccesses := by
    unfold tick
    rw [whileRunning_keeps fetchStep State.dcAccesses fetchStep_dcAccesses,
      whileRunning_keeps decodeStep State.dcAccesses fun s => (decodeStep_counters s).2,
      whileRunning_keeps executeStep State.dcAccesses fun s => (executeStep_counters s).2]
    rfl
  rw [ht, ← hb, tickAccesses]
  generalize beforeMemory s = u
  by_cases hr : u.run = .running
  · rw [whileRunning_of_eq hr, hr]
    cases h : u.qMEM with
    | none => simp [memoryStep_empty h]
    | some b =>
      obtain ⟨n, ext, hl, ⟨c, hc, h⟩ | ⟨hc, h⟩⟩ | ⟨n, hl, hs, ⟨c, hc, h⟩ | ⟨hc, h⟩⟩ | ⟨hl, hs, h⟩ :=
        memoryStep_cases h <;> rw [h]
      · simp only [hl, hc, raiseFatal, reduceCtorEq, if_false, List.length_nil, Nat.add_zero]
      · simp only [hl, hc, if_pos]
        exact (publishDest_counters _ _ _).2.trans (dcRead_frame _ _ _).2.2.2.2.2.1
      · simp only [hl, hs, hc, raiseFatal, reduceCtorEq, if_false, List.length_nil, Nat.add_zero]
      · simp only [hl, hs, hc, if_pos]
        exact (dcWrite_frame _ _ _ _).2.2.2.2.2.1
      · simp [hl, hs]
  · rw [whileRunning_of_ne hr]
    cases hq : u.run <;> simp_all

/-- The counters of a run of the engine count its events. -/
theorem ticks_counters (n : Nat) (s : State) :
    (ticks n s).icAccesses = s.icAccesses + (tickTrace tickFetches n s).length ∧
    (ticks n s).dcAccesses = s.dcAccesses + (tickTrace tickAccesses n s).length := by
  induction n generalizing s with
  | zero => exact ⟨rfl, rfl⟩
  | succ n ih =>
    obtain ⟨h1, h2⟩ := ih (tick s)
    rw [ticks_succ, tickTrace_succ, tickTrace_succ, List.length_append, List.length_append, h1, h2, tick_icAccesses,
      tick_dcAccesses]
    omega

/-! ### Fetches ahead -/

/-- What fetches ahead change: pc, instruction cache, its counters and the guard. -/
theorem fetchAhead_frame (k : Nat) (s : State) :
    fetchAhead k s =
      { s with pc := s.pc + BitVec.ofNat 32 (4 * k), icAccesses := s.icAccesses + k, ic := (fetchAhead k s).ic,
               icHits := (fetchAhead k s).icHits, lgAddr := (fetchAhead k s).lgAddr,
               lgCount := (fetchAhead k s).lgCount } := by
  induction k generalizing s with
  | zero => simp [fetchAhead]
  | succ k ih =>
    have h : fetchAhead (k + 1) s = fetchAhead k (fetchWord s).2 := rfl
    have hp : s.pc + 4 + BitVec.ofNat 32 (4 * k) = s.pc + BitVec.ofNat 32 (4 * (k + 1)) := by
      apply BitVec.eq_of_toNat_eq
      have h4 : (4 : Word).toNat = 4 := rfl
      simp only [BitVec.toNat_add, BitVec.toNat_ofNat, h4]
      omega
    rw [h, ih, fetchWord_frame]
    simp only [hp, State.mk.injEq, true_and, and_true]
    omega

end Sys2Proof.Machine
end

