-- ==== Sys2Proof/Tests/Slice0.lean ====
section
/-! SUPPORT. Tests of the model, and for each statement of Obligations.lean that has hypotheses a concrete witness of
them. Expected values come from the examples of the rules and from the tables of 95_test_vectors.md. -/

set_option Elab.async false
set_option maxRecDepth 20000

namespace Sys2Proof.Tests

open Sys2Proof Sys2Proof.Machine

/-! ### WellFormed: one ill-formed term for each check, and the reference passes -/

theorem test_reference_params_well_formed : Params.reference.WellFormed := by decide +kernel
theorem test_line_not_a_power_of_two : ¬ Geometry.WellFormed ⟨48, 2, 12⟩ := by decide +kernel
theorem test_line_below_four : ¬ Geometry.WellFormed ⟨8, 2, 2⟩ := by decide +kernel
theorem test_no_way : ¬ Geometry.WellFormed ⟨0, 0, 8⟩ := by decide +kernel
theorem test_capacity_not_whole_sets : ¬ Geometry.WellFormed ⟨40, 2, 8⟩ := by decide +kernel
theorem test_sets_not_a_power_of_two : ¬ Geometry.WellFormed ⟨48, 2, 8⟩ := by decide +kernel
theorem test_no_set : ¬ Geometry.WellFormed ⟨0, 2, 8⟩ := by decide +kernel
theorem test_capacity_past_address_space : ¬ Geometry.WellFormed ⟨2 ^ 33, 2, 8⟩ := by decide +kernel
theorem test_ways_need_no_power_of_two : Geometry.WellFormed ⟨24, 3, 8⟩ := by decide +kernel
theorem test_memory_not_whole_data_lines :
    ¬ Params.WellFormed { Params.reference with memSize := 65544, ic := ⟨64, 2, 8⟩ } := by decide +kernel
theorem test_memory_not_whole_instruction_lines :
    ¬ Params.WellFormed { Params.reference with memSize := 65544, dc := ⟨64, 2, 8⟩ } := by decide +kernel
theorem test_memory_too_small : ¬ Params.WellFormed { Params.reference with memSize := 0 } := by decide +kernel
theorem test_memory_past_address_space :
    ¬ Params.WellFormed { Params.reference with memSize := 2 ^ 32 + 16 } := by decide +kernel
theorem test_bad_data_cache : ¬ Params.WellFormed { Params.reference with dc := ⟨48, 2, 8⟩ } := by decide +kernel
theorem test_bad_instruction_cache : ¬ Params.WellFormed { Params.reference with ic := ⟨48, 2, 8⟩ } := by decide +kernel
theorem test_slli_key : Instr.wellFormed (.slli 1 2 0x020) = false ∧ Instr.wellFormed (.slli 1 2 0x01F) = true := by decide
theorem test_srli_key : Instr.wellFormed (.srli 1 2 0x400) = false ∧ Instr.wellFormed (.srli 1 2 0x01F) = true := by decide
theorem test_srai_key : Instr.wellFormed (.srai 1 2 0x01F) = false ∧ Instr.wellFormed (.srai 1 2 0x41F) = true := by decide

/-! ### Decoding: words of the rules' examples and of 95_test_vectors.md section 2, both directions -/

/-- The word decodes to the instruction and is its encoding. -/
abbrev wordIs (w : Word) (i : Instr) : Prop := decodeWord w = .instr i ∧ encode i = w

/-- 30_encoding.md R141, R142. -/
theorem test_words_upper_and_jumps :
    wordIs 0x123452B7#32 (.lui 5 0x12345) ∧
    wordIs 0x00001317#32 (.auipc 6 1) ∧
    wordIs 0xFFFFF317#32 (.auipc 6 0xFFFFF) ∧
    wordIs 0x010000EF#32 (.jal 1 0x00008) ∧
    wordIs 0xFF9FF06F#32 (.jal 0 0xFFFFC) ∧
    wordIs 0x7FFFFFEF#32 (.jal 31 0x7FFFF) ∧
    wordIs 0x800000EF#32 (.jal 1 0x80000) ∧
    wordIs 0x004280E7#32 (.jalr 1 5 4) := by decide +kernel

/-- 30_encoding.md R143. -/
theorem test_words_branches :
    wordIs 0x00418463#32 (.beq 3 4 4) ∧
    wordIs 0x7E000FE3#32 (.beq 0 0 0x7FF) ∧
    wordIs 0x80000063#32 (.beq 0 0 0x800) ∧
    wordIs 0xFE209EE3#32 (.bne 1 2 0xFFE) ∧
    wordIs 0x0020C463#32 (.blt 1 2 4) ∧
    wordIs 0x0020D463#32 (.bge 1 2 4) ∧
    wordIs 0x0020E463#32 (.bltu 1 2 4) ∧
    wordIs 0x0020F463#32 (.bgeu 1 2 4) := by decide +kernel

/-- 30_encoding.md R144. -/
theorem test_words_loads :
    wordIs 0x00110203#32 (.lb 4 2 1) ∧
    wordIs 0x00211203#32 (.lh 4 2 2) ∧
    wordIs 0xFFC12203#32 (.lw 4 2 0xFFC) ∧
    wordIs 0x00114203#32 (.lbu 4 2 1) ∧
    wordIs 0x00215203#32 (.lhu 4 2 2) ∧
    wordIs 0x00812087#32 (.flw 1 2 8) := by decide +kernel

/-- 30_encoding.md R144. -/
theorem test_words_stores :
    wordIs 0x003100A3#32 (.sb 2 3 1) ∧
    wordIs 0x7FFF0FA3#32 (.sb 30 31 0x7FF) ∧
    wordIs 0x00311123#32 (.sh 2 3 2) ∧
    wordIs 0xFE312E23#32 (.sw 2 3 0xFFC) ∧
    wordIs 0x00112427#32 (.fsw 2 1 8) := by decide +kernel

/-- 30_encoding.md R145. -/
theorem test_words_register_immediate :
    wordIs 0x00500093#32 (.addi 1 0 5) ∧
    wordIs 0xFFB12193#32 (.slti 3 2 0xFFB) ∧
    wordIs 0xFFF13193#32 (.sltiu 3 2 0xFFF) ∧
    wordIs 0xFFF0C213#32 (.xori 4 1 0xFFF) ∧
    wordIs 0x0F00E213#32 (.ori 4 1 0x0F0) ∧
    wordIs 0x7FF0F213#32 (.andi 4 1 0x7FF) ∧
    wordIs 0x01F31393#32 (.slli 7 6 31) ∧
    wordIs 0x00435393#32 (.srli 7 6 4) ∧
    wordIs 0x40435393#32 (.srai 7 6 0x404) := by decide +kernel

/-- 30_encoding.md R146. -/
theorem test_words_register_register :
    wordIs 0x00108133#32 (.add 2 1 1) ∧
    wordIs 0x402081B3#32 (.sub 3 1 2) ∧
    wordIs 0x002091B3#32 (.sll 3 1 2) ∧
    wordIs 0x0020A1B3#32 (.slt 3 1 2) ∧
    wordIs 0x0020B1B3#32 (.sltu 3 1 2) ∧
    wordIs 0x0020C1B3#32 (.xor 3 1 2) ∧
    wordIs 0x0020D1B3#32 (.srl 3 1 2) ∧
    wordIs 0x41DF5FB3#32 (.sra 31 30 29) ∧
    wordIs 0x0020E1B3#32 (.or 3 1 2) ∧
    wordIs 0x0020F1B3#32 (.and 3 1 2) := by decide +kernel

/-- 30_encoding.md R146. -/
theorem test_words_float :
    wordIs 0x002081D3#32 (.faddS 3 1 2) ∧
    wordIs 0x082081D3#32 (.fsubS 3 1 2) ∧
    wordIs 0x102081D3#32 (.fmulS 3 1 2) ∧
    wordIs 0x182081D3#32 (.fdivS 3 1 2) ∧
    wordIs 0x580081D3#32 (.fsqrtS 3 1) ∧
    wordIs 0x202081D3#32 (.fsgnjS 3 1 2) ∧
    wordIs 0x201091D3#32 (.fsgnjnS 3 1 1) ∧
    wordIs 0x2010A1D3#32 (.fsgnjxS 3 1 1) ∧
    wordIs 0xA020A1D3#32 (.feqS 3 1 2) ∧
    wordIs 0xA02091D3#32 (.fltS 3 1 2) ∧
    wordIs 0xA02081D3#32 (.fleS 3 1 2) ∧
    wordIs 0xC00081D3#32 (.fcvtWS 3 1) ∧
    wordIs 0xD00081D3#32 (.fcvtSW 3 1) := by decide +kernel

/-- Bit by bit, from the layouts of 30_encoding.md R132 to R137. -/
theorem test_bits_of_each_shape :
    decodeWord (0b0100000#7 ++ 0b00010#5 ++ 0b00001#5 ++ 0b000#3 ++ 0b00011#5 ++ 0b0110011#7) = .instr (.sub 3 1 2) ∧
    decodeWord (0b111111111100#12 ++ 0b00010#5 ++ 0b010#3 ++ 0b00100#5 ++ 0b0000011#7) = .instr (.lw 4 2 0xFFC) ∧
    decodeWord (0b000000000000#12 ++ 0b00001#5 ++ 0b000#3 ++ 0b00101#5 ++ 0b1100111#7) = .instr (.jalr 5 1 0) ∧
    decodeWord (0b010000000100#12 ++ 0b00110#5 ++ 0b101#3 ++ 0b00111#5 ++ 0b0010011#7) = .instr (.srai 7 6 0x404) ∧
    decodeWord (0b0000000#7 ++ 0b00011#5 ++ 0b00010#5 ++ 0b000#3 ++ 0b00001#5 ++ 0b0100011#7) = .instr (.sb 2 3 1) ∧
    decodeWord (0b1#1 ++ 0b111111#6 ++ 0b00010#5 ++ 0b00001#5 ++ 0b001#3 ++ 0b1110#4 ++ 0b1#1 ++ 0b1100011#7) =
      .instr (.bne 1 2 0xFFE) ∧
    decodeWord (0b0#1 ++ 0b0000001000#10 ++ 0b0#1 ++ 0b00000000#8 ++ 0b00001#5 ++ 0b1101111#7) =
      .instr (.jal 1 0x00008) ∧
    decodeWord (0b00010010001101000101#20 ++ 0b00101#5 ++ 0b0110111#7) = .instr (.lui 5 0x12345) ∧
    decodeWord (0b1101000#7 ++ 0b00000#5 ++ 0b00001#5 ++ 0b000#3 ++ 0b00011#5 ++ 0b1010011#7) =
      .instr (.fcvtSW 3 1) := by decide +kernel

/-- One bit of each immediate alone (R133 to R137). -/
theorem test_immediate_bits :
    fieldImmB 0x80000000#32 = 0x800 ∧ fieldImmB 0x00000080#32 = 0x400 ∧ fieldImmB 0x40000000#32 = 0x200 ∧
    fieldImmB 0x00000800#32 = 0x008 ∧ fieldImmJ 0x80000000#32 = 0x80000 ∧ fieldImmJ 0x00080000#32 = 0x40000 ∧
    fieldImmJ 0x00001000#32 = 0x00800 ∧ fieldImmJ 0x00100000#32 = 0x00400 ∧ fieldImmJ 0x00200000#32 = 0x00001 ∧
    fieldImmS 0x80000000#32 = 0x800 ∧ fieldImmS 0x00000080#32 = 0x001 := by decide

/-- The rs2 field of FSQRT.S, FCVT.W.S and FCVT.S.W is ignored (R140). -/
theorem test_ignored_rs2 :
    decodeWord 0x58F081D3#32 = .instr (.fsqrtS 3 1) ∧ decodeWord 0xC1F081D3#32 = .instr (.fcvtWS 3 1) ∧
    decodeWord 0xD1F081D3#32 = .instr (.fcvtSW 3 1) := by decide +kernel

/-- 95_test_vectors.md section 2: opcodes that are none of the twelve. -/
theorem test_unrecognized_words :
    [0x00000000#32, 0xFFFFFFFF#32, 0x00008082#32, 0x00000073#32, 0x30200073#32, 0x0000100F#32, 0x0000302F#32,
      0x0000003B#32, 0x0000001B#32].all (fun w => decodeWord w = .rejected .unrecognizedOpcode) = true := by decide +kernel

/-- 95_test_vectors.md section 2: keys the registry does not have. -/
theorem test_unmapped_words :
    [0x02208033#32, 0x0020F1D3#32, 0x20003053#32, 0xE0000053#32, 0xF0000053#32, 0x00003003#32, 0x00003023#32,
      0x00000007#32, 0x00001027#32, 0x00001067#32, 0x00002063#32, 0x40001013#32, 0x02001013#32].all
      (fun w => decodeWord w = .rejected .unmappedInstruction) = true := by decide +kernel

theorem test_short_bytes : decodeBytes [0x93, 0x00, 0x50] = (.rejected .truncated, [0x93, 0x00, 0x50]) := by decide

theorem test_decode_table_word :
    decodeTableWord 32 0x00500093 = some (.addi 1 0 5) ∧ decodeTableWord 32 0 = none := by decide +kernel

/-! ### One step (the tables of 95_test_vectors.md, sections 3 to 6) -/

/-- The reset machine with a pc, some registers and some words of memory. -/
def start (pc : Word) (xs fs : List (RegIdx × Word)) (ms : List (Nat × Word)) : State :=
  { xs.foldl (fun s r => s.writeX r.1 r.2) (fs.foldl (fun s r => s.writeF r.1 r.2) State.reset) with
    pc := pc
    mem := ms.foldl (fun m r => m.writeBlock r.1 (bytesOfWord r.2)) [] }

/-- The state after one step that runs the word at the pc. -/
def ran (w : Word) (s : State) : Option State :=
  match step (placeFetchWord w s) with
  | .next t => some t
  | .fault _ => none
  | .refused _ => none

/-- An integer register and the pc after one step. -/
def ranX (w pc : Word) (xs fs : List (RegIdx × Word)) (ms : List (Nat × Word)) (r : RegIdx) : Option (Word × Word) :=
  (ran w (start pc xs fs ms)).map fun t => (t.readX r, t.pc)

/-- A float register and the pc after one step. -/
def ranF (w pc : Word) (xs fs : List (RegIdx × Word)) (ms : List (Nat × Word)) (r : RegIdx) : Option (Word × Word) :=
  (ran w (start pc xs fs ms)).map fun t => (t.readF r, t.pc)

/-- A word of `ArchMem` and the pc after one step. -/
def ranM (w pc : Word) (xs fs : List (RegIdx × Word)) (ms : List (Nat × Word)) (a : Nat) : Option (Nat × Word) :=
  (ran w (start pc xs fs ms)).map fun t => (t.archValue a 4, t.pc)

/-- The run state after one step. -/
def ranRun (w pc : Word) (xs fs : List (RegIdx × Word)) (ms : List (Nat × Word)) : Option RunState :=
  (ran w (start pc xs fs ms)).map fun t => t.run

/-- R170. -/
theorem test_lui :
    ranX 0x123452B7 0 [] [] [] 5 = some (0x12345000, 4) ∧
    ranX 0x12345037 0 [] [] [] 0 = some (0, 4) := by decide +kernel

/-- R171. -/
theorem test_auipc :
    ranX 0x00001317 8 [] [] [] 6 = some (0x1008, 0xC) ∧
    ranX 0xFFFFF317 0x1000 [] [] [] 6 = some (0, 0x1004) := by decide +kernel

/-- R172. -/
theorem test_addi :
    ranX 0x00110093 0 [(2, 0x7FFFFFFF)] [] [] 1 = some (0x80000000, 4) ∧
    ranX 0xFFF00093 0 [] [] [] 1 = some (0xFFFFFFFF, 4) := by decide +kernel

/-- R173. -/
theorem test_slti :
    ranX 0xFFB12193 0 [(2, 0xFFFFFFF0)] [] [] 3 = some (1, 4) ∧
    ranX 0xFFF12193 0 [(2, 0)] [] [] 3 = some (0, 4) := by decide +kernel

/-- R174. -/
theorem test_sltiu :
    ranX 0xFFF13193 0 [(2, 5)] [] [] 3 = some (1, 4) ∧
    ranX 0x7FF13193 0 [(2, 0x80000000)] [] [] 3 = some (0, 4) := by decide +kernel

/-- R175. -/
theorem test_xori :
    ranX 0xFFF0C213 0 [(1, 0xFFFF)] [] [] 4 = some (0xFFFF0000, 4) := by decide +kernel

/-- R176. -/
theorem test_ori :
    ranX 0x0F00E213 0 [(1, 0xF0F)] [] [] 4 = some (0xFFF, 4) ∧
    ranX 0x8000E213 0 [(1, 1)] [] [] 4 = some (0xFFFFF801, 4) := by decide +kernel

/-- R177. -/
theorem test_andi :
    ranX 0xFF00F213 0 [(1, 0x12345678)] [] [] 4 = some (0x12345670, 4) := by decide +kernel

/-- R178. -/
theorem test_slli :
    ranX 0x01F31393 0 [(6, 3)] [] [] 7 = some (0x80000000, 4) ∧
    ranX 0x00431393 0 [(6, 0xF000000F)] [] [] 7 = some (0xF0, 4) := by decide +kernel

/-- R179. -/
theorem test_srli :
    ranX 0x00435393 0 [(6, 0x80000010)] [] [] 7 = some (0x08000001, 4) := by decide +kernel

/-- R180. -/
theorem test_srai :
    ranX 0x40435393 0 [(6, 0x80000010)] [] [] 7 = some (0xF8000001, 4) ∧
    ranX 0x41F35393 0 [(6, 0x7FFFFFFF)] [] [] 7 = some (0, 4) := by decide +kernel

/-- R181. -/
theorem test_add :
    ranX 0x002081B3 0 [(1, 0xFFFFFFFF), (2, 1)] [] [] 3 = some (0, 4) ∧
    ranX 0x001080B3 0 [(1, 0x80000000)] [] [] 1 = some (0, 4) := by decide +kernel

/-- R182. -/
theorem test_sub :
    ranX 0x402081B3 0 [(1, 3), (2, 5)] [] [] 3 = some (0xFFFFFFFE, 4) := by decide +kernel

/-- R183. -/
theorem test_sll :
    ranX 0x002091B3 0 [(1, 1), (2, 0x21)] [] [] 3 = some (2, 4) ∧
    ranX 0x002091B3 0 [(1, 0xFFFFFFFF), (2, 0x20)] [] [] 3 = some (0xFFFFFFFF, 4) := by decide +kernel

/-- R184. -/
theorem test_slt :
    ranX 0x0020A1B3 0 [(1, 0x80000000), (2, 0x7FFFFFFF)] [] [] 3 = some (1, 4) := by decide +kernel

/-- R185. -/
theorem test_sltu :
    ranX 0x0020B1B3 0 [(1, 0xFFFFFFFF), (2, 1)] [] [] 3 = some (0, 4) ∧
    ranX 0x002031B3 0 [(2, 9)] [] [] 3 = some (1, 4) := by decide +kernel

/-- R186. -/
theorem test_xor :
    ranX 0x0020C1B3 0 [(1, 0xFF00FF00), (2, 0x0FF00FF0)] [] [] 3 = some (0xF0F0F0F0, 4) := by decide +kernel

/-- R187. -/
theorem test_srl :
    ranX 0x0020D1B3 0 [(1, 0x80000000), (2, 0x1F)] [] [] 3 = some (1, 4) ∧
    ranX 0x0020D1B3 0 [(1, 0x80000000), (2, 0x20)] [] [] 3 = some (0x80000000, 4) := by decide +kernel

/-- R188. -/
theorem test_sra :
    ranX 0x4020D1B3 0 [(1, 0x80000000), (2, 0x24)] [] [] 3 = some (0xF8000000, 4) := by decide +kernel

/-- R189. -/
theorem test_or :
    ranX 0x0020E1B3 0 [(1, 0xF0F00000), (2, 0x0F0F0000)] [] [] 3 = some (0xFFFF0000, 4) := by decide +kernel

/-- R190. -/
theorem test_and :
    ranX 0x0020F1B3 0 [(1, 0xFF00FF00), (2, 0x0FF00FF0)] [] [] 3 = some (0x0F000F00, 4) := by decide +kernel

/-- R220. -/
theorem test_jal :
    ranX 0x010000EF 0x20 [] [] [] 1 = some (0x24, 0x30) ∧
    ranX 0xFF9FF06F 0x20 [] [] [] 0 = some (0, 0x18) := by decide +kernel

/-- R221. -/
theorem test_jalr :
    ranX 0x004280E7 0x40 [(5, 0x101)] [] [] 1 = some (0x44, 0x104) ∧
    ranX 0x000080E7 0x40 [(1, 0x80)] [] [] 1 = some (0x44, 0x80) := by decide +kernel

/-- R222. -/
theorem test_beq :
    ranX 0x00418463 0x14 [(3, 30), (4, 30)] [] [] 0 = some (0, 0x1C) ∧
    ranX 0x00418463 0x14 [(3, 30), (4, 31)] [] [] 0 = some (0, 0x18) := by decide +kernel

/-- R223. -/
theorem test_bne :
    ranX 0xFE209EE3 0x10 [(1, 1), (2, 0)] [] [] 0 = some (0, 0xC) ∧
    ranX 0xFE109EE3 0x10 [(1, 1)] [] [] 0 = some (0, 0x14) := by decide +kernel

/-- R224. -/
theorem test_blt :
    ranX 0x0020C463 0x10 [(1, 0xFFFFFFFF), (2, 0)] [] [] 0 = some (0, 0x18) ∧
    ranX 0x0020C463 0x10 [(1, 0x7FFFFFFF), (2, 0x80000000)] [] [] 0 = some (0, 0x14) := by decide +kernel

/-- R225. -/
theorem test_bge :
    ranX 0x0020D463 0x10 [(1, 5), (2, 3)] [] [] 0 = some (0, 0x18) ∧
    ranX 0x0020D463 0x10 [(1, 0xFFFFFFFF), (2, 0)] [] [] 0 = some (0, 0x14) := by decide +kernel

/-- R226. -/
theorem test_bltu :
    ranX 0x0020E463 0x10 [(1, 0xFFFFFFFF), (2, 0)] [] [] 0 = some (0, 0x14) ∧
    ranX 0x0020E463 0x10 [(1, 0), (2, 0xFFFFFFFF)] [] [] 0 = some (0, 0x18) := by decide +kernel

/-- R227. -/
theorem test_bgeu :
    ranX 0x0020F463 0x10 [(1, 0xFFFFFFFF), (2, 0)] [] [] 0 = some (0, 0x18) ∧
    ranX 0x0020F463 0x10 [(1, 0), (2, 1)] [] [] 0 = some (0, 0x14) := by decide +kernel

/-- R240. -/
theorem test_lb :
    ranX 0x00110203 0 [(2, 0x100)] [] [(0x100, 0x1122F344)] 4 = some (0xFFFFFFF3, 4) ∧
    ranRun 0xFFF00203 0 [] [] [] = some (.fatal (.memOutOfRange 0xFFFFFFFF)) := by decide +kernel

/-- R241. -/
theorem test_lh :
    ranX 0x00211203 0 [(2, 0x100)] [] [(0x100, 0x9122F344)] 4 = some (0xFFFF9122, 4) ∧
    ranRun 0x00111203 0 [(2, 0x100)] [] [] = some (.fatal (.misalignedAccess 0x101)) := by decide +kernel

/-- R242. -/
theorem test_lw :
    ranX 0xFFC12203 0 [(2, 0x104)] [] [(0x100, 0x9122F344)] 4 = some (0x9122F344, 4) ∧
    ranRun 0xFFF02203 0 [] [] [] = some (.fatal (.misalignedAccess 0xFFFFFFFF)) := by decide +kernel

/-- R243. -/
theorem test_lbu :
    ranX 0x00114203 0 [(2, 0x100)] [] [(0x100, 0x1122F344)] 4 = some (0xF3, 4) := by decide +kernel

/-- R244. -/
theorem test_lhu :
    ranX 0x00215203 0 [(2, 0x100)] [] [(0x100, 0x9122F344)] 4 = some (0x9122, 4) := by decide +kernel

/-- R245. -/
theorem test_sb :
    ranM 0x003100A3 0 [(2, 0x100), (3, 0xAABBCCDD)] [] [(0x100, 0x11223344)] 0x100 = some (0x1122DD44, 4) ∧
    ranM 0x00310023 0 [(2, 0xFFFF), (3, 0x1FF)] [] [(0xFFFC, 0)] 0xFFFC = some (0xFF000000, 4) := by decide +kernel

/-- R246. -/
theorem test_sh :
    ranM 0x00311123 0 [(2, 0x100), (3, 0xAABBCCDD)] [] [(0x100, 0x11223344)] 0x100 = some (0xCCDD3344, 4) ∧
    ranRun 0x003110A3 0 [(2, 0x100)] [] [] = some (.fatal (.misalignedAccess 0x101)) := by decide +kernel

/-- R247. -/
theorem test_sw :
    ranM 0xFE312E23 0 [(2, 0x104), (3, 0xAABBCCDD)] [] [(0x100, 0x11223344)] 0x100 = some (0xAABBCCDD, 4) ∧
    ranRun 0x00312023 0 [(2, 0x10000)] [] [] = some (.fatal (.memOutOfRange 0x10000)) := by decide +kernel

/-- R248. -/
theorem test_flw :
    ranF 0x00012007 0 [(2, 0x100)] [] [(0x100, 1)] 0 = some (1, 0+4) ∧
    ranRun 0x00212087 0 [(2, 0x100)] [] [] = some (.fatal (.misalignedAccess 0x102)) := by decide +kernel

/-- R249. -/
theorem test_fsw :
    ranM 0x00112427 0 [(2, 0x100)] [(1, 0xBF800000)] [(0x108, 0)] 0x108 = some (0xBF800000, 4) ∧
    ranRun 0x00112027 0 [(2, 0xFFFFFFFC)] [] [] = some (.fatal (.memOutOfRange 0xFFFFFFFC)) := by decide +kernel

/-- R280. -/
theorem test_fadd_s :
    ranF 0x002081D3 0 [] [(1, 0x3FC00000), (2, 0x40100000)] [] 3 = some (0x40700000, 0+4) ∧
    fadd 0x3F800001 0x33800000 = 0x3F800002 := by decide +kernel

/-- R281. -/
theorem test_fsub_s :
    ranF 0x082081D3 0 [] [(1, 0x40B00000), (2, 0x40000000)] [] 3 = some (0x40600000, 0+4) ∧
    fsub 0x00C00000 0x00800000 = 0 := by decide +kernel

/-- R282. -/
theorem test_fmul_s :
    ranF 0x102081D3 0 [] [(1, 0x3FC00000), (2, 0xC0000000)] [] 3 = some (0xC0400000, 0+4) ∧
    fmul 0x3F7FFFFE 0x00800001 = 0x00800000 := by decide +kernel

/-- R283. -/
theorem test_fdiv_s :
    ranF 0x182081D3 0 [] [(1, 0x3F800000), (2, 0x40400000)] [] 3 = some (0x3EAAAAAB, 0+4) ∧
    fdiv 0xBF800000 0 = 0xFF800000 := by decide +kernel

/-- R284. -/
theorem test_fsqrt_s :
    ranF 0x580081D3 0 [] [(1, 0x40000000)] [] 3 = some (0x3FB504F3, 0+4) ∧
    fsqrt 0x7F7FFFFF = 0x5F7FFFFF := by decide +kernel

/-- R285. -/
theorem test_fsgnj_s :
    ranF 0x202081D3 0 [] [(1, 1), (2, 0x80000000)] [] 3 = some (0x80000001, 0+4) := by decide +kernel

/-- R286. -/
theorem test_fsgnjn_s :
    ranF 0x201091D3 0 [] [(1, 0x7FC00000)] [] 3 = some (0xFFC00000, 0+4) := by decide +kernel

/-- R287. -/
theorem test_fsgnjx_s :
    ranF 0x2020A1D3 0 [] [(1, 0xBFC00000), (2, 0x3F800000)] [] 3 = some (0xBFC00000, 0+4) := by decide +kernel

/-- R288. -/
theorem test_feq_s :
    ranX 0xA020A1D3 0 [] [(1, 0x80000000), (2, 0)] [] 3 = some (1, 4) ∧
    feq 0x7FC00000 0xFFC00000 = false := by decide +kernel

/-- R289. -/
theorem test_flt_s :
    ranX 0xA02091D3 0 [] [(1, 0x3F800000), (2, 0x40000000)] [] 3 = some (1, 4) ∧
    flt 0x80000000 0 = false := by decide +kernel

/-- R290. -/
theorem test_fle_s :
    ranX 0xA02081D3 0 [] [(1, 0x40000000), (2, 0x3F800000)] [] 3 = some (0, 4) ∧
    fle 0x3F800000 0x7FC00000 = true := by decide +kernel

/-- R291. -/
theorem test_fcvt_w_s :
    ranX 0xC00081D3 0 [] [(1, 0x40200000)] [] 3 = some (2, 4) ∧
    ftoi 0x4EFFFFFF = 0x7FFFFF80 := by decide +kernel

/-- R292. -/
theorem test_fcvt_s_w :
    ranF 0xD00081D3 0 [(1, 30)] [] [] 3 = some (0x41F00000, 0+4) ∧
    itof 16777219 = 0x4B800002 := by decide +kernel

/-! ### Runs (95_test_vectors.md sections 8 to 10; 50_pipeline.md R347, R348) -/

/-- The machine of the given parameters with an image. -/
def machine (p : Params) (ws : List Word) : State := (State.construct p ws).getD State.reset

/-- A machine small enough for evictions: memory 256 bytes, data cache 2 sets of 2 lines of 8 bytes, instruction cache 2
sets of 1 line of 16 bytes. -/
def small : Params := { memSize := 256, dc := ⟨32, 2, 8⟩, ic := ⟨32, 1, 16⟩ }

/-- A small machine with a program. -/
def prog (is : List Instr) : State := machine small (is.map encode)

/-- R347: tick 3 issues the ADD with 5, before `x1` holds it. -/
theorem test_forwarding_timeline :
    let s := ticks 3 (machine Params.reference [0x00500093, 0x00108133, 0x00000063])
    s.qEX.map (fun b => (b.op1, b.op2, b.seq)) = some (some 5, some 5, 1) ∧ s.readX 1 = 0 := by decide +kernel

/-- R348: the BEQ waits in `q_RF` for the LW's value in tick 7 and takes it in tick 8. -/
theorem test_interlock_timeline :
    let s := machine Params.reference [0x00A00093, 0x01400113, 0x002081B3, 0x00302023, 0x00002203, 0x00418463]
    (ticks 7 s).qRF = some 0x00418463 ∧ (ticks 7 s).qEX = none ∧
    (ticks 8 s).qEX.map (fun b => (b.op1, b.op2, b.seq, b.originPc)) = some (some 30, some 30, 5, some 0x14) := by
  decide +kernel

/-- R229, E6 without its last step: the reference takes the BEQ and skips 0x18. -/
theorem test_taken_branch_skips :
    let s := seqRun 6 (machine Params.reference [0x00A00093, 0x01400113, 0x002081B3, 0x00302023, 0x00002203, 0x00418463])
    s.pc = 0x1C ∧ s.readX 3 = 30 ∧ s.readX 4 = 30 := by decide +kernel

/-- 80_host_interface.md R430: the text line of 95_test_vectors.md section 2. -/
theorem test_image_line :
    parseImageLine "00000000010100000000000010010011".toList = some 0x00500093 ∧
    parseImageLine "0000000001010000000000001001001".toList = none ∧
    parseImageLine "0000000001010000000000001001001x".toList = none := by decide +kernel

/-- 80_host_interface.md R433: the stop input freezes the machine. -/
theorem test_stop_input :
    driverRun [true, false, true, false] (prog [.addi 1 0 5]) = ticks 2 (prog [.addi 1 0 5]) := by decide +kernel

/-! ### Helpers for the witnesses -/

/-- `Inv`, decidable. -/
def invAll (s : State) : Bool :=
  decide (s.params.WellFormed ∧ s.x[0] = 0 ∧ s.pc.toNat % 2 = 0 ∧ s.mem.wf = true) &&
  decide (s.mem.within s.params.memSize = true ∧ s.dcHits ≤ s.dcAccesses ∧ s.icHits ≤ s.icAccesses ∧
    s.lgCount < Config.livenessN) &&
  decide (Cache.Shaped s.params.dc s.params.memSize s.dc) && decide (Cache.CleanCopies s.params.dc s.mem s.dc) &&
  decide (Cache.Shaped s.params.ic s.params.memSize s.ic) && decide (Cache.AllClean s.params.ic s.ic)

theorem inv_of {s : State} (h : invAll s = true) : s.Inv := by
  simp only [invAll, Bool.and_eq_true, decide_eq_true_eq] at h
  obtain ⟨⟨⟨⟨⟨⟨h1, h2, h3, h4⟩, h5, h10, h11, h12⟩, h6⟩, h7⟩, h8⟩, h9⟩ := h
  exact ⟨h1, h2, h3, h4, h5, h6, h7, h8, h9, h10, h11, h12⟩

/-- `Fetched`, decidable. -/
abbrev fetchedAll (b : Behaviour) : Prop :=
  b.op1.isSome = (sourcesOf b.instr).1.isSome ∧ b.op2.isSome = (sourcesOf b.instr).2.isSome ∧
  b.originPc.isSome = recordsOriginPc b.instr ∧ (b.originPc.getD 0).toNat % 2 = 0 ∧
  b.result = none ∧ b.addr = none ∧ b.taken = none ∧ b.target = none ∧ b.loaded = none

theorem fetched_of {b : Behaviour} (h : fetchedAll b) : b.Fetched := by
  obtain ⟨h1, h2, h3, h4, h5⟩ := h
  refine ⟨h1, h2, h3, ?_, h5⟩
  intro a ha
  simpa [Option.mem_def.mp ha] using h4

/-- The coherence of one register, decidable. -/
def coherentAt (s : State) (r : RegRef) : Bool :=
  match s.inFlight r with
  | some e => s.forwarded r == some e
  | none =>
    match s.forwarded r with
    | some e => e.value == s.committed r
    | none => true

/-- A property of a slot's occupant, decidable. -/
def slotAll (p : Behaviour → Bool) (q : Option Behaviour) : Bool :=
  match q with
  | some b => p b
  | none => true

theorem slot_of {p : Behaviour → Bool} {q : Option Behaviour} (h : slotAll p q = true) : ∀ b ∈ q, p b = true := by
  intro b hb
  simpa [slotAll, Option.mem_def.mp hb] using h

/-- `EngineInv` without `Inv`, decidable. -/
abbrev engineAll (s : State) : Prop :=
  (s.qRF.isSome = true → s.lgAddr = some (s.pc - 4)) ∧
  (holdsTransfer s.qEX = true → s.qRF = none) ∧
  (holdsTransfer s.qMEM = true → s.qRF = none ∧ s.qEX = none) ∧
  (holdsTransfer s.qWB = true → s.qRF = none ∧ s.qEX = none ∧ s.qMEM = none) ∧
  (s.seqs.Pairwise (· < ·) ∧ s.seqs.all (fun n => decide (n < s.icount)) = true) ∧
  s.forwarded (xr 0) = none ∧
  (List.range 32).all (fun i => i == 0 || coherentAt s (xr (BitVec.ofNat 5 i))) = true ∧
  (List.range 32).all (fun i => coherentAt s (fr (BitVec.ofNat 5 i))) = true ∧
  slotAll (fun b => decide (fetchedAll b)) s.qEX = true ∧
  slotAll (fun b => decide (fetchedAll b.unfill ∧ b = executeFill b.unfill)) s.qMEM = true ∧
  slotAll (fun b => decide (isStore b.instr = false ∧ b.loaded.isSome = isLoad b.instr ∧
    fetchedAll ({ b with loaded := none } : Behaviour).unfill ∧
    ({ b with loaded := none } : Behaviour) = executeFill ({ b with loaded := none } : Behaviour).unfill)) s.qWB = true

theorem coherent_of {s : State} {r : RegRef} (h : coherentAt s r = true) :
    (∀ e ∈ s.inFlight r, s.forwarded r = some e) ∧
    (s.inFlight r = none → ∀ e ∈ s.forwarded r, e.value = s.committed r) := by
  unfold coherentAt at h
  refine ⟨?_, ?_⟩
  · intro e he
    simpa [Option.mem_def.mp he] using h
  · intro hn e he
    simpa [hn, Option.mem_def.mp he] using h

theorem engineInv_of {s : State} (hi : invAll s = true) (h : engineAll s) : s.EngineInv := by
  obtain ⟨h1, h2, h3, h4, h5, h6, h7, h8, h9, h10, h11⟩ := h
  refine ⟨inv_of hi, h1, h2, h3, h4, ⟨h5.1, ?_⟩, h6, ?_, ?_, ?_, ?_⟩
  · simpa using h5.2
  · rintro ⟨b, i⟩ hr
    apply coherent_of
    cases b with
    | x =>
      have := List.all_eq_true.mp h7 i.toNat (by simpa using i.isLt)
      rw [BitVec.ofNat_toNat, BitVec.setWidth_eq] at this
      rcases Bool.or_eq_true_iff.mp this with h0 | h0
      · refine absurd ?_ hr
        have : i = 0 := BitVec.eq_of_toNat_eq (by simpa using h0)
        rw [this]; rfl
      · exact h0
    | f =>
      have := List.all_eq_true.mp h8 i.toNat (by simpa using i.isLt)
      rwa [BitVec.ofNat_toNat, BitVec.setWidth_eq] at this
  · exact fun b hb => fetched_of (of_decide_eq_true (slot_of h9 b hb))
  · intro b hb
    obtain ⟨g1, g2⟩ := of_decide_eq_true (slot_of h10 b hb)
    exact ⟨fetched_of g1, g2⟩
  · intro b hb
    obtain ⟨g1, g2, g3, g4⟩ := of_decide_eq_true (slot_of h11 b hb)
    exact ⟨g1, g2, fetched_of g3, g4⟩

theorem fetches_of {s : State} {i : Instr}
    (h : s.run = .running ∧ guardCount s.pc s < Config.livenessN ∧ s.pc.toNat % 4 = 0 ∧
      s.pc.toNat + 4 ≤ s.params.memSize ∧ (decodeBytes (s.fetchBytes s.pc.toNat)).1 = .instr i) : s.FetchesInstr i := by
  obtain ⟨h1, h2, h3, h4, h5⟩ := h
  refine ⟨⟨h1, h2, h3, h4⟩, Prod.ext h5 ?_⟩
  simp [State.fetchBytes, decodeBytes]

/-- Whether an outcome is a next state. -/
def isNext (r : Result) : Bool :=
  match r with
  | .next _ => true
  | .fault _ => false
  | .refused _ => false

theorem next_of {r : Result} (h : isNext r = true) : ∃ t, r = .next t := by
  cases r with
  | next t => exact ⟨t, rfl⟩
  | fault _ => simp [isNext] at h
  | refused _ => simp [isNext] at h

/-! ### Witnesses: encoding -/

theorem witness_DecodeOfEncode :
    (Instr.srai 31 31 0x41F).wellFormed = true ∧ (Instr.jal 31 0x80000).wellFormed = true := by decide

theorem witness_EncodeOfDecode :
    decodeWord 0x58F081D3#32 = .instr (.fsqrtS 3 1) ∧ decodeWord 0xFE209EE3#32 = .instr (.bne 1 2 0xFFE) := by
  decide +kernel

theorem witness_EveryWordIsOneOfThree :
    KeyMapped 0x40435393#32 ∧ ¬ KeyMapped 0x02208033#32 ∧ ¬ KeyMapped 0x00000000#32 := by
  refine ⟨?_, ?_, ?_⟩ <;> simp [KeyMapped]

/-- Words that meet the premises of each `Selects…`. -/
theorem witness_Selects :
    ((0x402081B3#32).toNat % 2 ^ 7 = 0x33 ∧ (0x402081B3#32).toNat / 2 ^ 12 % 2 ^ 3 = 0 ∧ (0x402081B3#32).toNat / 2 ^ 25 = 0x20) ∧
    ((0x58F081D3#32).toNat % 2 ^ 7 = 0x53 ∧ (0x58F081D3#32).toNat / 2 ^ 12 % 2 ^ 3 = 0 ∧ (0x58F081D3#32).toNat / 2 ^ 25 = 0x2C) ∧
    ((0xFFC12203#32).toNat % 2 ^ 7 = 0x03 ∧ (0xFFC12203#32).toNat / 2 ^ 12 % 2 ^ 3 = 2) ∧
    ((0x40435393#32).toNat % 2 ^ 7 = 0x13 ∧ (0x40435393#32).toNat / 2 ^ 12 % 2 ^ 3 = 5 ∧ (0x40435393#32).toNat / 2 ^ 25 = 0x20) ∧
    ((0x02001013#32).toNat % 2 ^ 7 = 0x13 ∧ (0x02001013#32).toNat / 2 ^ 12 % 2 ^ 3 = 1 ∧ (0x02001013#32).toNat / 2 ^ 25 ∉ [0]) ∧
    ((0xFE312E23#32).toNat % 2 ^ 7 = 0x23 ∧ (0xFE312E23#32).toNat / 2 ^ 12 % 2 ^ 3 = 2) ∧
    ((0xFE209EE3#32).toNat % 2 ^ 7 = 0x63 ∧ (0xFE209EE3#32).toNat / 2 ^ 12 % 2 ^ 3 = 1) ∧
    (0xFF9FF06F#32).toNat % 2 ^ 7 = 0x6F ∧ (0x123452B7#32).toNat % 2 ^ 7 = 0x37 := by decide

/-! ### Witnesses: steps -/

/-- Three instructions of which the second and third hit the instruction cache. -/
def straight : State := prog [.addi 1 0 5, .add 2 1 1, .sw 0 2 128, .lw 3 0 128]

theorem witness_StepRunsDecodedInstruction :
    straight.params.WellFormed ∧ straight.FetchesInstr (.addi 1 0 5) ∧
    Cache.lookup straight.params.ic straight.ic straight.pc.toNat = none ∧
    (seqRun 1 straight).FetchesInstr (.add 2 1 1) ∧
    (Cache.lookup straight.params.ic (seqRun 1 straight).ic (seqRun 1 straight).pc.toNat).isSome = true :=
  ⟨by decide +kernel, fetches_of (by decide +kernel), by decide +kernel, fetches_of (by decide +kernel), by decide +kernel⟩

theorem witness_FetchThroughInstructionCache :
    straight.params.WellFormed ∧ straight.pc.toNat % 4 = 0 ∧
    Cache.lookup straight.params.ic straight.ic straight.pc.toNat = none ∧
    baseOf straight.params.ic 15 = baseOf straight.params.ic straight.pc.toNat ∧
    1 ≠ indexOf straight.params.ic straight.pc.toNat ∧
    (seqRun 1 straight).pc.toNat % 4 = 0 := by decide +kernel

theorem witness_BadFetchAddressIsFatal :
    (∀ a ∈ [(2 : Nat), 254, 258, 0xFFFFFFFE],
      guardCount (BitVec.ofNat 32 a) { straight with pc := BitVec.ofNat 32 a } < Config.livenessN ∧
      (BitVec.ofNat 32 a).toNat % 4 ≠ 0) ∧
    (∀ a ∈ [(256 : Nat), 0xFFFFFFFC],
      guardCount (BitVec.ofNat 32 a) { straight with pc := BitVec.ofNat 32 a } < Config.livenessN ∧
      (BitVec.ofNat 32 a).toNat % 4 = 0 ∧ straight.params.memSize < (BitVec.ofNat 32 a).toNat + 4) ∧
    straight.run = .running := by decide +kernel

/-- A machine whose last word of memory is the one to be fetched. -/
def lastWord (w : Word) : State := { prog [] with pc := 252, mem := (prog []).mem.writeBlock 252 (bytesOfWord w) }

theorem rejected_of {s : State} {e : DecodeError}
    (h : s.run = .running ∧ guardCount s.pc s < Config.livenessN ∧ s.pc.toNat % 4 = 0 ∧
      s.pc.toNat + 4 ≤ s.params.memSize ∧ (decodeBytes (s.fetchBytes s.pc.toNat)).1 = .rejected e) :
    s.Fetches ∧ decodeBytes (s.fetchBytes s.pc.toNat) = (.rejected e, []) := by
  obtain ⟨h1, h2, h3, h4, h5⟩ := h
  refine ⟨⟨h1, h2, h3, h4⟩, Prod.ext h5 ?_⟩
  simp [State.fetchBytes, decodeBytes]

theorem witness_RejectedWordIsFatal :
    small.WellFormed ∧
    ((lastWord 0).Fetches ∧ decodeBytes ((lastWord 0).fetchBytes (lastWord 0).pc.toNat) =
      (.rejected .unrecognizedOpcode, [])) ∧
    ((lastWord 0x02208033).Fetches ∧ decodeBytes ((lastWord 0x02208033).fetchBytes (lastWord 0x02208033).pc.toNat) =
      (.rejected .unmappedInstruction, [])) :=
  ⟨by decide +kernel, rejected_of (by decide +kernel), rejected_of (by decide +kernel)⟩

theorem witness_GuardHaltsExactlyAtTheFifthFetch :
    let s : State := { straight with lgAddr := some 0, lgCount := 4 }
    s.run = .running ∧ s.lgAddr = some s.pc ∧ 4 ≤ s.lgCount ∧
    (∃ t, step s = .next t ∧ t.run = .halted) ∧
    ∃ t, step { s with lgCount := 3 } = .next t ∧ t.run = .running := by
  refine ⟨by decide +kernel, by decide +kernel, by decide +kernel, ⟨_, rfl, by decide +kernel⟩, ⟨_, rfl, by decide +kernel⟩⟩

/-- A machine whose first instruction is `i`, with two registers set. -/
def looping (i : Instr) (a b : Word) : State := ((prog [i]).writeX 1 a).writeX 2 b

theorem witness_SelfLoopHaltsAfterFourExecutions :
    small.WellFormed ∧
    (∀ c ∈ [(Instr.beq 1 2 0, (7 : Nat), (7 : Nat)), (.bne 1 2 0, 7, 8), (.blt 1 2 0, 0xFFFFFFFF, 0),
        (.bge 1 2 0, 5, 5), (.bltu 1 2 0, 0, 0xFFFFFFFF), (.bgeu 1 2 0, 3, 3), (.jal 1 0, 0, 0), (.jal 0 0, 0, 0),
        (.jalr 0 1 0, 1, 0), (.jalr 2 1 4, 0xFFFFFFFC, 0), (.jalr 0 0 0, 0, 0),
        (.jalr 1 1 0xFFC, 4, 0), (.jalr 1 1 0xFFC, 5, 0)],
      let s := looping c.1 (BitVec.ofNat 32 c.2.1) (BitVec.ofNat 32 c.2.2)
      s.FetchesInstr c.1 ∧ s.lgAddr ≠ some s.pc ∧ JumpsToItself c.1 s) := by
  refine ⟨by decide +kernel, ?_⟩
  intro c hc
  simp only [List.mem_cons, List.not_mem_nil, or_false] at hc
  rcases hc with rfl | rfl | rfl | rfl | rfl | rfl | rfl | rfl | rfl | rfl | rfl | rfl | rfl <;>
    exact ⟨fetches_of (by decide +kernel), by decide +kernel, by unfold JumpsToItself; decide +kernel⟩

theorem witness_EndedRunsStay :
    { straight with run := .halted }.run ≠ .running ∧
    { straight with run := .fatal (.misalignedAccess 1) }.run = .fatal (.misalignedAccess 1) := by decide

/-! ### Witnesses: reset, invariants, frames -/

theorem witness_ConstructionGivesTheResetState :
    (small.WellFormed ∧ 4 * (List.replicate 64 (0x00000013#32)).length ≤ small.memSize) ∧
    (State.construct small (List.replicate 64 0x00000013#32)).isSome = true ∧
    (State.construct small (List.replicate 65 0x00000013#32)).isSome = false ∧
    (State.construct { small with memSize := 2 } []).isSome = false := by decide +kernel

theorem witness_ConstructionMeetsTheInvariants :
    ∃ s, State.construct small [encode (.addi 1 0 5), encode (.jal 0 0)] = some s := by
  exact ⟨_, rfl⟩

/-- Stores that fill a set of the data cache with dirty lines and evict one. -/
def evicting : State := seqRun 5 (prog [.addi 1 0 5, .sw 0 1 64, .sw 0 1 80, .lw 2 0 96, .sw 0 1 112, .jal 0 0])

theorem witness_StepKeepsInv : evicting.Inv ∧ evicting.mem.read 64 = 5 ∧ ∃ t, step evicting = .next t :=
  ⟨inv_of (by decide +kernel), by decide +kernel, next_of (by decide +kernel)⟩

/-- Four slots occupied. -/
def full : State := ticks 5 (prog [.addi 1 0 5, .add 2 1 1, .lw 3 0 64, .fcvtSW 4 2, .sw 0 2 64, .sub 4 3 1])

theorem witness_TickKeepsEngineInv :
    full.EngineInv ∧ full.qRF.isSome = true ∧ full.qEX.isSome = true ∧ full.qMEM.isSome = true ∧
    full.qWB.isSome = true ∧ (full.inFlight (xr 2)).isSome = true :=
  ⟨engineInv_of (by decide +kernel) (by decide +kernel), by decide +kernel, by decide +kernel, by decide +kernel,
    by decide +kernel, by decide +kernel⟩

theorem witness_OnlyTheDestinationChanges :
    (∃ t, exec (.add 2 1 1) evicting = .next t) ∧ destOf (.add 2 1 1) ≠ some (xr 1) ∧
    destOf (.add 2 1 1) ≠ some (fr 2) ∧ (∃ t, exec (.fsw 1 2 4) evicting = .next t) ∧ destOf (.fsw 1 2 4) = none :=
  ⟨next_of (by decide +kernel), by decide +kernel, by decide +kernel, next_of (by decide +kernel), by decide +kernel⟩

theorem witness_OnlyTheSourcesAreRead :
    let s' : State := { evicting with x := evicting.x.set 5 77, f := evicting.f.set 1 3 }
    evicting.run = .running ∧
    (∀ r, (sourcesOf (.fsw 1 2 4)).1 = some r ∨ (sourcesOf (.fsw 1 2 4)).2 = some r →
      s'.committed r = evicting.committed r) ∧
    (∃ t, exec (.fsw 1 2 4) evicting = .next t) ∧ ∃ t, exec (.fsw 1 2 4) s' = .next t := by
  refine ⟨by decide +kernel, ?_, next_of (by decide +kernel), next_of (by decide +kernel)⟩
  rintro r (h | h) <;> (cases h; decide +kernel)

theorem witness_NothingElseChanges :
    (∃ t, exec (.add 2 1 1) evicting = .next t) ∧ isBranchOrJump (.add 2 1 1) = false ∧
    isLoad (.add 2 1 1) = false ∧ isStore (.add 2 1 1) = false ∧
    ∃ t, exec (.lw 2 0 66) evicting = .next t ∧ t.run ≠ evicting.run :=
  ⟨next_of (by decide +kernel), by decide, by decide, by decide, _, rfl, by decide +kernel⟩

/-! ### Witnesses: control transfer, load and store -/

theorem witness_BranchResults :
    let s := looping (.beq 1 2 4) 0xFFFFFFFF 1
    ((s.readX 1).toNat ≠ (s.readX 2).toNat ∧ (s.readX 1).toInt < (s.readX 2).toInt ∧
      (s.readX 2).toNat ≤ (s.readX 1).toNat) ∧
    ¬ (s.readX 1).toNat = (s.readX 2).toNat ∧ ¬ (s.readX 2).toInt ≤ (s.readX 1).toInt ∧
    ¬ (s.readX 1).toNat < (s.readX 2).toNat ∧ ((s.readX 1).toNat = (s.readX 1).toNat) := by decide +kernel

/-- The state a fetch at 0x20 left. -/
def fetched20 : State := { straight with pc := 0x24, lgAddr := some 0x20, lgCount := 1 }

theorem witness_BadTargetsFaultAtTheNextFetch :
    (fetched20.run = .running ∧ fetched20.lgAddr = some fetched20.originPc ∧ fetched20.originPc.toNat % 4 = 0 ∧
      fetched20.originPc.toNat + 4 ≤ fetched20.params.memSize) ∧
    (∃ t, exec (.jal 1 1) fetched20 = .next t ∧ t.pc.toNat % 4 = 2) ∧
    (∃ t, exec (.jal 1 112) fetched20 = .next t ∧ t.pc.toNat % 4 = 0 ∧ t.params.memSize < t.pc.toNat + 4) ∧
    ∃ t, exec (.jalr 1 0 0xFFE) fetched20 = .next t ∧ t.pc.toNat % 4 = 2 :=
  ⟨by decide +kernel, ⟨_, rfl, by decide +kernel⟩, ⟨_, rfl, by decide +kernel⟩, ⟨_, rfl, by decide +kernel⟩⟩

/-- Addresses of the last byte, half and word, and of resident and evicted lines, as bases. -/
theorem witness_LoadStoreResults :
    evicting.Inv ∧
    (∀ b ∈ [(0 : Nat), 64, 96, 112, 255],
      (effectiveAddress ((evicting.writeX 3 (BitVec.ofNat 32 b)).readX 3) 0).toNat + 1 ≤ evicting.params.memSize) ∧
    (∀ b ∈ [(0 : Nat), 64, 98, 254],
      (effectiveAddress ((evicting.writeX 3 (BitVec.ofNat 32 b)).readX 3) 0).toNat % 2 = 0 ∧
      (effectiveAddress ((evicting.writeX 3 (BitVec.ofNat 32 b)).readX 3) 0).toNat + 2 ≤ evicting.params.memSize) ∧
    (∀ b ∈ [(0 : Nat), 64, 96, 252],
      (effectiveAddress ((evicting.writeX 3 (BitVec.ofNat 32 b)).readX 3) 0).toNat % 4 = 0 ∧
      (effectiveAddress ((evicting.writeX 3 (BitVec.ofNat 32 b)).readX 3) 0).toNat + 4 ≤ evicting.params.memSize) ∧
    (∀ b ∈ [(256 : Nat), 0xFFFFFFFF],
      evicting.params.memSize < (effectiveAddress ((evicting.writeX 3 (BitVec.ofNat 32 b)).readX 3) 0).toNat + 1) ∧
    (∀ b ∈ [(256 : Nat), 0xFFFFFFFC],
      (effectiveAddress ((evicting.writeX 3 (BitVec.ofNat 32 b)).readX 3) 0).toNat % 4 = 0 ∧
      evicting.params.memSize < (effectiveAddress ((evicting.writeX 3 (BitVec.ofNat 32 b)).readX 3) 0).toNat + 2) ∧
    (∀ b ∈ [(1 : Nat), 253, 255, 257],
      (effectiveAddress ((evicting.writeX 3 (BitVec.ofNat 32 b)).readX 3) 0).toNat % 2 ≠ 0) ∧
    (evicting.writeX 3 252).Inv :=
  ⟨inv_of (by decide +kernel), by decide +kernel, by decide +kernel, by decide +kernel, by decide +kernel,
    by decide +kernel, by decide +kernel, inv_of (by decide +kernel)⟩

theorem witness_FatalDataAccess :
    (dataAccess (.lh 1 0 1) evicting = some (1, 2) ∧ (1#32).toNat % 2 ≠ 0) ∧
    (dataAccess (.fsw 0 1 255) evicting = some (255, 4) ∧ (255#32).toNat % 4 ≠ 0) ∧
    (dataAccess (.sb 0 1 256) evicting = some (256, 1) ∧ evicting.params.memSize < (256#32).toNat + 1) ∧
    (dataAccess (.lhu 1 0 256) evicting = some (256, 2) ∧ evicting.params.memSize < (256#32).toNat + 2) ∧
    (dataAccess (.flw 1 0 0xFFC) evicting = some (0xFFFFFFFC, 4) ∧ (0xFFFFFFFC#32).toNat % 4 = 0 ∧
      evicting.params.memSize < (0xFFFFFFFC#32).toNat + 4) := by decide +kernel

theorem witness_OneDataCacheAccess :
    evicting.params.WellFormed ∧
    (dataAccess (.lw 0 0 112) evicting = some (112, 4) ∧ accessCheck evicting.params 112 4 = none ∧
      (Cache.lookup evicting.params.dc evicting.dc 112).isSome = true ∧ ∃ t, exec (.lw 0 0 112) evicting = .next t) ∧
    (dataAccess (.sb 0 1 255) evicting = some (255, 1) ∧ accessCheck evicting.params 255 1 = none ∧
      isStore (.sb 0 1 255) = true ∧ Cache.lookup evicting.params.dc evicting.dc 255 = none ∧
      ∃ t, exec (.sb 0 1 255) evicting = .next t) :=
  ⟨by decide +kernel, ⟨by decide +kernel, by decide +kernel, by decide +kernel, next_of (by decide +kernel)⟩,
    ⟨by decide +kernel, by decide +kernel, by decide, by decide +kernel, next_of (by decide +kernel)⟩⟩

/-! ### Witnesses: the caches -/

/-- A cache of two sets of two lines: set 0 full, its head dirty; set 1 with one line. -/
def someCache : Cache :=
  [[{ tag := 4, valid := true, dirty := true, accessed := true, bytes := [1, 2, 3, 4, 5, 6, 7, 8] },
    { tag := 6, valid := true, dirty := false, accessed := false, bytes := [0, 0, 0, 0, 0, 0, 0, 9] }],
   [{ tag := 0, valid := true, dirty := false, accessed := true, bytes := [0, 0, 0, 0, 0, 0, 0, 0] }]]

theorem witness_HitsRefreshRecency :
    ((Cache.setAt someCache (indexOf small.dc 68)).map Line.tag).Nodup ∧
    (∀ l ∈ Cache.setAt someCache (indexOf small.dc 128), l.tag ≠ tagOf small.dc 128) ∧
    ((Cache.setAt someCache (indexOf small.dc 128)).map Line.tag).Nodup ∧
    (∃ l younger, Cache.setAt someCache (indexOf small.dc 68) = [] ++ l :: younger ∧ l.tag = tagOf small.dc 68 ∧
      offsetOf small.dc 68 + 4 ≤ l.bytes.length) ∧
    ∃ l older, Cache.setAt someCache (indexOf small.dc 103) = older ++ l :: [] ∧ l.tag = tagOf small.dc 103 ∧
      offsetOf small.dc 103 + 1 ≤ l.bytes.length :=
  ⟨by decide +kernel, by decide +kernel, by decide +kernel, ⟨_, _, rfl, by decide +kernel, by decide +kernel⟩,
    ⟨{ tag := 6, valid := true, dirty := false, accessed := false, bytes := [0, 0, 0, 0, 0, 0, 0, 9] },
      [{ tag := 4, valid := true, dirty := true, accessed := true, bytes := [1, 2, 3, 4, 5, 6, 7, 8] }],
      by decide +kernel, by decide +kernel, by decide +kernel⟩⟩

theorem witness_InstallEvictsTheLeastRecentlyUsed :
    1 ≤ small.dc.ways ∧ (Cache.setAt someCache (indexOf small.dc 24)).length < small.dc.ways ∧
    (∃ v rest, Cache.setAt someCache (indexOf small.dc 128) = v :: rest ∧ small.dc.ways ≤ (v :: rest).length ∧
      v.dirty = true) ∧
    (∃ v rest, Cache.setAt (someCache.map List.reverse) (indexOf small.dc 128) = v :: rest ∧
      small.dc.ways ≤ (v :: rest).length ∧ v.dirty = false) ∧
    1 ≠ indexOf small.dc 128 :=
  ⟨by decide, by decide +kernel, ⟨_, _, rfl, by decide +kernel, by decide +kernel⟩,
    ⟨_, _, rfl, by decide +kernel, by decide +kernel⟩, by decide +kernel⟩

theorem witness_LeastRecentlyTouchedIsTheVictim :
    ∃ u, 1 ≤ small.dc.ways ∧ (Cache.setAt someCache (indexOf small.dc 128)).length = small.dc.ways ∧
      ((Cache.setAt someCache (indexOf small.dc 128)).map Line.tag).Nodup ∧
      u ∈ Cache.setAt someCache (indexOf small.dc 128) ∧
      tagOf small.dc 128 ∉ (Cache.setAt someCache (indexOf small.dc 128)).map Line.tag ∧
      (∀ b ∈ [(96 : Nat), 100], indexOf small.dc b = indexOf small.dc 128 ∧ tagOf small.dc b ≠ u.tag) ∧
      (∀ l ∈ Cache.setAt someCache (indexOf small.dc 128), l.tag ≠ u.tag →
        ∃ b ∈ [(96 : Nat), 100], tagOf small.dc b = l.tag) ∧ u.dirty = true :=
  ⟨{ tag := 4, valid := true, dirty := true, accessed := true, bytes := [1, 2, 3, 4, 5, 6, 7, 8] },
    by decide +kernel⟩

theorem witness_OnlyWriteHitsChangeArchMem :
    let s := seqRun 3 (prog [.addi 1 0 5, .sw 0 1 64, .sw 0 1 80])
    s.Inv ∧ (96 % 4 = 0 ∧ 96 + 4 ≤ s.params.memSize ∧ Cache.lookup s.params.dc s.dc 96 = none ∧
      (dcFill 96 s).mem ≠ s.mem) ∧
    (255 + 1 ≤ s.params.memSize ∧ Cache.lookup s.params.dc s.dc 255 = none) ∧
    (84 % 2 = 0 ∧ (Cache.read s.params.dc s.dc 84 2).isSome = true ∧ (Cache.write s.params.dc s.dc 84 2 7).isSome = true) :=
  ⟨inv_of (by decide +kernel), by decide +kernel, by decide +kernel, by decide +kernel⟩

theorem witness_MixedWidthAccess :
    evicting.Inv ∧ ((252#32).toNat % 4 = 0 ∧ (252#32).toNat + 4 ≤ evicting.params.memSize) ∧
    ((64#32).toNat % 4 = 0 ∧ (64#32).toNat + 4 ≤ evicting.params.memSize) :=
  ⟨inv_of (by decide +kernel), by decide +kernel, by decide +kernel⟩

/-- Accesses that evict the line of address 64 twice over. -/
def evictors : List Access := [.load 80 4, .store 96 2 7, .load 112 1, .store 68 4 9, .load 128 4, .load 144 4]

theorem witness_WriteEvictReadRoundTrip :
    evicting.Inv ∧ (Access.store 64 4 0xCAFE).Legal evicting.params ∧
    (∀ c ∈ evictors, c.Legal evicting.params ∧ c.Avoids (64#32).toNat 4) :=
  ⟨inv_of (by decide +kernel), by unfold Access.Legal; decide +kernel, by
    intro c hc
    simp only [evictors, List.mem_cons, List.not_mem_nil, or_false] at hc
    rcases hc with rfl | rfl | rfl | rfl | rfl | rfl <;> (unfold Access.Legal Access.Avoids; decide +kernel)⟩

theorem lookup_fresh (g : Geometry) (k a : Nat) : Cache.lookup g (List.replicate k []) a = none := by
  have : Cache.setAt (List.replicate k ([] : CacheSet)) (indexOf g a) = [] := by
    simp [Cache.setAt, List.getD_eq_getElem?_getD, List.getElem?_replicate]
    split <;> rfl
  simp [Cache.lookup, this]

theorem witness_LoadsDoNotDependOnTheGeometry :
    let s := prog [.lw 1 0 64]
    let s' := machine { small with dc := ⟨16, 1, 4⟩ } [encode (.lw 1 0 64)]
    s.Inv ∧ s'.Inv ∧ s.params.memSize = s'.params.memSize ∧ s.params.dc ≠ s'.params.dc ∧
    (∀ a, s.archMem a = s'.archMem a) ∧ (∀ c ∈ evictors, c.Legal s.params) := by
  refine ⟨inv_of (by decide +kernel), inv_of (by decide +kernel), by decide +kernel, by decide +kernel, ?_, ?_⟩
  · intro a
    show (match Cache.lookup small.dc (List.replicate 2 []) a with
        | some l => l.bytes.getD (offsetOf small.dc a) 0
        | none => Memory.read (loadImage [] 0 [encode (.lw 1 0 64)]) a) =
      (match Cache.lookup ⟨16, 1, 4⟩ (List.replicate 4 []) a with
        | some l => l.bytes.getD (offsetOf ⟨16, 1, 4⟩ a) 0
        | none => Memory.read (loadImage [] 0 [encode (.lw 1 0 64)]) a)
    rw [lookup_fresh, lookup_fresh]
  · intro c hc
    simp only [evictors, List.mem_cons, List.not_mem_nil, or_false] at hc
    rcases hc with rfl | rfl | rfl | rfl | rfl | rfl <;> (unfold Access.Legal; decide +kernel)

/-! ### Witnesses: floating point -/

theorem witness_classes :
    (classF 0x00000000 = .zero ∧ classF 0x80000000 = .zero ∧ classF 0x007FFFFF = .zero ∧ classF 0x80000001 = .zero) ∧
    (classF 0x00800000 = .normal ∧ classF 0x7F7FFFFF = .normal ∧ classF 0xBF800000 = .normal) ∧
    (classF 0x7F800000 = .inf ∧ classF 0xFF800000 = .inf) ∧
    (classF 0x7F800001 = .nan ∧ classF 0x7FC00000 = .nan ∧ classF 0xFFFFFFFF = .nan) ∧
    (signF 0x80000000 = true ∧ signF 0xFF800000 = true ∧ signF 0xBF800000 = true ∧ signF 0x3F800000 = false ∧
      signF 0x7F800000 = false) := by decide +kernel

/-- The three cases of a sum of NORMAL patterns (R264). -/
theorem witness_AdditionIsRoundedExactly :
    valF 0x3F800000#32 + valF 0xBF800000#32 = 0 ∧ 0 < valF 0x3F800000#32 + valF 0x3F800000#32 ∧
    valF 0xBF800000#32 + valF 0xBF800000#32 < 0 := by
  have h1 : valF 0x3F800000#32 = 1 := by
    have a : signF 0x3F800000#32 = false := by decide
    have b : expF 0x3F800000#32 = 127 := by decide
    have c : manF 0x3F800000#32 = 0 := by decide
    simp [valF, a, b, c]
  have h2 : valF 0xBF800000#32 = -1 := by
    have a : signF 0xBF800000#32 = true := by decide
    have b : expF 0xBF800000#32 = 127 := by decide
    have c : manF 0xBF800000#32 = 0 := by decide
    simp [valF, a, b, c]
  rw [h1, h2]; norm_num

theorem witness_ArithmeticResultsAreCanonical :
    expF (fsub 0x00C00000 0x00800000) = 0 ∧ classF (fmul 0x7F800000 0) = .nan ∧ classF (fsqrt 0xBF800000) = .nan ∧
    fmul 0x7F800000 0 ∈ [fadd 0x7F800000 0, fsub 0x7F800000 0, fmul 0x7F800000 0, fdiv 0x7F800000 0,
      fsqrt 0x7F800000, itof 0x7F800000] := by decide +kernel

theorem witness_ComparisonOrder :
    (classF 0x7FC00000 = .nan ∧ classF 0x7F800000 ≠ .nan) ∧ feq 0x7FC00000 0x7FC00000 = true ∧
    flt 0x3F800000 0x40000000 = true ∧ feq 0x80000001 0 = true := by decide +kernel

theorem witness_IntegerFloat :
    (0#32).toInt = 0 ∧ (0x80000000#32).toInt ≠ 0 ∧ 0 < (0x7FFFFFFF#32).toInt ∧ (0x80000000#32).toInt < 0 ∧
    (0x01000000#32).toInt.natAbs ≤ 2 ^ 24 ∧ (0xFF000000#32).toInt.natAbs ≤ 2 ^ 24 := by decide +kernel

/-! ### Witnesses: the engine -/

theorem witness_ControlTransferMatchesTheReference :
    let s := seqRun 1 (prog [.addi 1 0 5, .bne 1 0 4, .addi 2 0 1, .addi 3 0 1])
    s.EngineInv ∧ s.qRF = none ∧ s.qEX = none ∧ s.qMEM = none ∧ s.qWB = none ∧ s.FetchesInstr (.bne 1 0 4) ∧
    isBranchOrJump (.bne 1 0 4) = true ∧ ∃ t, step s = .next t :=
  ⟨engineInv_of (by decide +kernel) (by decide +kernel), by decide +kernel, by decide +kernel, by decide +kernel,
    by decide +kernel, fetches_of (by decide +kernel), by decide, next_of (by decide +kernel)⟩

theorem witness_LoadUseInterlockHoldsOneTick :
    let s := ticks 2 (prog [.lw 1 0 64, .add 2 1 1])
    s.EngineInv ∧ (memoryStep (writeBackStep s)).run = .running ∧
    (∃ l, s.qEX = some l ∧ isLoad l.instr = true ∧ destOf l.instr = some (xr 1)) ∧ xr 1 ≠ xr 0 ∧
    s.qRF = some (encode (.add 2 1 1)) ∧ decodeWord (encode (.add 2 1 1)) = .instr (.add 2 1 1) ∧
    (sourcesOf (.add 2 1 1)).1 = some (xr 1) ∧ (sourcesOf (.add 2 1 1)).2 = some (xr 1) ∧
    (memoryStep (writeBackStep (tick s))).run = .running := by
  refine ⟨engineInv_of (by decide +kernel) (by decide +kernel), by decide +kernel,
    ⟨_, rfl, by decide +kernel, by decide +kernel⟩, by decide, by decide +kernel, by decide +kernel, by decide +kernel,
    by decide +kernel, by decide +kernel⟩

theorem witness_ForwardedResultReachesTheNextInstruction :
    let s := ticks 2 (prog [.addi 1 0 5, .add 2 1 1])
    s.EngineInv ∧ (memoryStep (writeBackStep s)).run = .running ∧
    (∃ b, s.qEX = some b ∧ isLoad b.instr = false ∧ destOf b.instr = some (xr 1)) ∧ xr 1 ≠ xr 0 ∧
    s.qRF = some (encode (.add 2 1 1)) ∧ decodeWord (encode (.add 2 1 1)) = .instr (.add 2 1 1) ∧
    (sourcesOf (.add 2 1 1)).1 = some (xr 1) ∧ (sourcesOf (.add 2 1 1)).2 = some (xr 1) := by
  refine ⟨engineInv_of (by decide +kernel) (by decide +kernel), by decide +kernel,
    ⟨_, rfl, by decide +kernel, by decide +kernel⟩, by decide, by decide +kernel, by decide +kernel, by decide +kernel,
    by decide +kernel⟩

theorem witness_FatalDataAccessIsPrecise :
    (let s := ticks 4 (prog [.addi 1 0 5, .lh 2 0 1, .add 3 2 2])
     s.EngineInv ∧ s.run = .running ∧ s.qWB.isSome = true ∧
     ∃ b, s.qMEM = some b ∧ b.addr = some 1 ∧ (loadOf b.instr).map Prod.fst = some 2 ∧
       accessCheck s.params 1 2 = some (.misalignedAccess 1)) ∧
    (let s := ticks 3 (prog [.sb 0 1 256])
     s.EngineInv ∧ s.run = .running ∧
     ∃ b, s.qMEM = some b ∧ b.addr = some 256 ∧ storeOf b.instr = some 1 ∧
       accessCheck s.params 256 1 = some (.memOutOfRange 256)) :=
  ⟨⟨engineInv_of (by decide +kernel) (by decide +kernel), by decide +kernel, by decide +kernel,
      _, rfl, by decide +kernel, by decide +kernel, by decide +kernel⟩,
    ⟨engineInv_of (by decide +kernel) (by decide +kernel), by decide +kernel,
      _, rfl, by decide +kernel, by decide +kernel, by decide +kernel⟩⟩

theorem witness_FatalWordWaitsForOlderInstructions :
    let s := ticks 3 (machine small [encode (.lw 1 0 64), encode (.addi 2 0 1), 0x02208033])
    s.EngineInv ∧ s.run = .running ∧ s.qRF = some 0x02208033 ∧
    decodeWord 0x02208033 = .rejected .unmappedInstruction ∧ s.qEX.isSome = true ∧ s.qMEM.isSome = true :=
  ⟨engineInv_of (by decide +kernel) (by decide +kernel), by decide +kernel, by decide +kernel, by decide +kernel,
    by decide +kernel, by decide +kernel⟩

/-- A store outside the code, then the zero word. -/
def storing : State := prog [.sw 0 1 64]

/-- A load at a misaligned address, then two additions the engine fetches ahead. -/
def faulting : State := prog [.lw 1 0 1, .addi 2 0 1, .addi 3 0 1]

/-- Nothing is fetched after the run has ended. -/
theorem ended_of {s : State} {n k : Nat} {c : Fault} (h : (seqRun n s).run = .fatal c) (hk : n ≤ k) :
    ¬ (seqRun k s).Fetches := by
  obtain ⟨m, rfl⟩ := Nat.exists_eq_add_of_le hk
  rw [seqRun_add, seqRun_stopped m (by simp [step, h])]
  intro hf
  have := h.symm.trans hf.1
  cases this

theorem unique_instr {s : State} {i j : Instr} (h : s.FetchesInstr i) (h' : s.FetchesInstr j) : i = j := by
  have h1 := h.2.symm.trans h'.2
  injection h1 with h1
  injection h1

theorem storing_store {j k : Nat} {a : Word} {n : Nat} (hjk : j < k) (hs : (seqRun j storing).StoresAt a n)
    (hk : (seqRun k storing).Fetches) : k = 1 ∧ a = 64 ∧ n = 4 := by
  by_cases h2 : 2 ≤ k
  · exact absurd hk (ended_of (c := .unrecognizedOpcode 0 4) (by decide +kernel) h2)
  obtain ⟨rfl, rfl⟩ : j = 0 ∧ k = 1 := by omega
  obtain ⟨i, hi, -, hacc⟩ := hs
  cases unique_instr (s := storing) hi (fetches_of (i := .sw 0 1 64) (by decide +kernel))
  have hd : dataAccess (.sw 0 1 64) storing = some (64, 4) := by decide +kernel
  rw [seqRun_zero, hd] at hacc
  injection hacc with hacc
  injection hacc with ha hn
  exact ⟨rfl, ha.symm, hn.symm⟩

theorem storing_noStoreIntoCode : storing.NoStoreIntoCode := by
  intro j k a n hjk hs hk
  obtain ⟨rfl, rfl, rfl⟩ := storing_store hjk hs hk
  right
  decide +kernel

theorem storing_noStoreIntoFilledLines : storing.NoStoreIntoFilledLines := by
  intro j k a n hjk hs hk _
  obtain ⟨rfl, rfl, rfl⟩ := storing_store hjk hs hk
  right
  decide +kernel

theorem faulting_noStoreIntoCode : faulting.NoStoreIntoCode := by
  intro j k a n hjk _ hk
  exact absurd hk (ended_of (n := 1) (c := .misalignedAccess 1) (by decide +kernel) (by omega))

theorem witness_EngineMatchesTheReference :
    (State.construct small [encode (.sw 0 1 64)] = some storing ∧ storing.NoStoreIntoCode ∧
      storing.NoStoreIntoFilledLines ∧
      (ticks 4 storing).run ≠ .running ∧ (seqRun 2 storing).run ≠ .running ∧ ¬ (seqRun 2 storing).run.IsDataFault) ∧
    (State.construct small [encode (.lw 1 0 1), encode (.addi 2 0 1), encode (.addi 3 0 1)] = some faulting ∧
      faulting.NoStoreIntoCode ∧ (ticks 4 faulting).run ≠ .running ∧ (seqRun 1 faulting).run.IsDataFault ∧
      (tickTrace tickFetches 4 faulting).length = (seqTrace seqFetches 1 faulting).length + 2) := by
  have h1 : (seqRun 2 storing).run = .fatal (.unrecognizedOpcode 0 4) := by decide +kernel
  have h2 : (seqRun 1 faulting).run = .fatal (.misalignedAccess 1) := by decide +kernel
  exact ⟨⟨rfl, storing_noStoreIntoCode, storing_noStoreIntoFilledLines, by decide +kernel, by rw [h1]; simp, by rw [h1]; simp [RunState.IsDataFault]⟩,
    rfl, faulting_noStoreIntoCode, by decide +kernel, ⟨1, .inl h2⟩, by decide +kernel⟩

/-- R361, the events of the program of R347: both levels commit 5 and 10 and retire the loop's first turn third. -/
theorem test_traces_of_R347 :
    let s := machine Params.reference [0x00500093, 0x00108133, 0x00000063]
    seqTrace seqCommits 3 s = [(xr 1, 5), (xr 2, 10)] ∧ tickTrace tickCommits 7 s = [(xr 1, 5), (xr 2, 10)] ∧
    (seqTrace seqRetired 3 s).map Retired.seq = [0, 1, 2] ∧ tickTrace tickRetired 7 s = seqTrace seqRetired 3 s := by
  decide +kernel

/-- Two stores, the second of which evicts the first's line; then a word that selects no instruction, in an
instruction-cache line whose other word the first store has written and no fetch reads. -/
def lineBytesDiffer : State :=
  machine { memSize := 256, dc := ⟨4, 1, 4⟩, ic := ⟨16, 2, 8⟩ } [encode (.sw 0 0 0xC), encode (.sw 0 0 0x4C), 0, 7]

/-- R361 says the instruction caches end equal; of line bytes a store has written that is false (log 20). The engine fills
the line from memory before the second store writes the first's back, the reference after it. -/
theorem test_instruction_cache_bytes_differ :
    let e := ticks 6 lineBytesDiffer
    let r := seqRun 3 lineBytesDiffer
    e.run = .fatal (.unrecognizedOpcode 0 8) ∧ r.run = e.run ∧ e.ic.map tagsOf = r.ic.map tagsOf ∧
    (e.fetchByte 0xC, r.fetchByte 0xC) = (7, 0) ∧ e.ic ≠ r.ic ∧
    seqTrace seqAccesses 3 lineBytesDiffer = [.store 0xC 4 0, .store 0x4C 4 0] ∧
    (seqTrace seqFetches 3 lineBytesDiffer).map Prod.fst = [0, 4, 8] := by decide +kernel

/-- The program of the last test meets R361's premise. -/
theorem test_lineBytesDiffer_noStoreIntoCode : lineBytesDiffer.NoStoreIntoCode := by
  intro j k a n hjk hs hk
  by_cases h3 : 3 ≤ k
  · exact absurd hk (ended_of (c := .unrecognizedOpcode 0 8) (by decide +kernel) h3)
  obtain ⟨i, hi, -, hacc⟩ := hs
  right
  have hpc : (seqRun k lineBytesDiffer).pc.toNat ≤ 8 := by
    obtain rfl | rfl : k = 1 ∨ k = 2 := by omega
    all_goals decide +kernel
  suffices 12 ≤ a.toNat by omega
  obtain rfl | rfl : j = 0 ∨ j = 1 := by omega
  · cases unique_instr hi (fetches_of (i := .sw 0 0 0xC) (by decide +kernel))
    have hd : dataAccess (.sw 0 0 0xC) (seqRun 0 lineBytesDiffer) = some (0xC, 4) := by decide +kernel
    cases hd.symm.trans hacc
    decide
  · cases unique_instr hi (fetches_of (i := .sw 0 0 0x4C) (by decide +kernel))
    have hd : dataAccess (.sw 0 0 0x4C) (seqRun 1 lineBytesDiffer) = some (0x4C, 4) := by decide +kernel
    cases hd.symm.trans hacc
    decide

/-- R361's words on `IC`, as they stand, are false of R330 to R335 and R360 (log 20). -/
theorem test_R361_instruction_cache_clause_is_false : ¬ InstructionCachesEndEqual := by
  intro h
  have hr : (seqRun 3 lineBytesDiffer).run = .fatal (.unrecognizedOpcode 0 8) := by decide +kernel
  have hc : State.construct { memSize := 256, dc := ⟨4, 1, 4⟩, ic := ⟨16, 2, 8⟩ }
      [encode (.sw 0 0 0xC), encode (.sw 0 0 0x4C), 0, 7] = some lineBytesDiffer := rfl
  have he := h _ _ _ 6 3 hc test_lineBytesDiffer_noStoreIntoCode (by decide +kernel) (by rw [hr]; simp)
    (by rw [hr]; simp [RunState.IsDataFault])
  exact test_instruction_cache_bytes_differ.2.2.2.2.1 he

end Sys2Proof.Tests
end

/-! Memory accesses byte by byte (20_memory.md R61 to R63): what a load returns and what a store leaves,
in bytes of `ArchMem`. -/

namespace Sys2Proof.Machine

/-! ### Addresses of one line -/

/-- An aligned block whose size divides LINE lies in one line (20_memory.md R64). -/
theorem div_line_eq_of_div_eq {g : Geometry} {n a b : Nat} (hn : n ∣ g.line) (h : b / n = a / n) :
    b / g.line = a / g.line := by
  obtain ⟨m, hm⟩ := hn
  rw [hm, ← Nat.div_div_eq_div_mul, ← Nat.div_div_eq_div_mul, h]

/-- Two addresses of one line are as far apart as their offsets. -/
theorem offsetOf_add_eq_of_same_line {g : Geometry} {a b : Nat} (h : b / g.line = a / g.line) :
    offsetOf g b + a = offsetOf g a + b := by
  have ha := Nat.div_add_mod a g.line
  have hb := Nat.div_add_mod b g.line
  rw [h] at hb
  unfold offsetOf
  omega

/-- A lookup sees the line only. -/
theorem Cache.lookup_eq_of_same_line {g : Geometry} (c : Cache) {a b : Nat} (h : b / g.line = a / g.line) :
    Cache.lookup g c b = Cache.lookup g c a := by
  obtain ⟨ht, hi⟩ := same_line h
  rw [Cache.lookup, Cache.lookup, ht, hi]

/-! ### The line an access works on -/

/-- The line an access at `a` works on: the resident one, or the one the miss installs (21_cache.md R110). -/
def State.accessedLine (s : State) (a : Nat) : Line :=
  (Cache.lookup s.params.dc s.dc a).getD (filledLine s.params.dc s.mem a)

theorem State.tag_accessedLine (s : State) (a : Nat) : (s.accessedLine a).tag = tagOf s.params.dc a := by
  unfold State.accessedLine
  cases h : Cache.lookup s.params.dc s.dc a with
  | some l => exact (Cache.lookup_some h).1
  | none => rfl

theorem State.Inv.length_accessedLine {s : State} (hs : s.Inv) (a : Nat) :
    (s.accessedLine a).bytes.length = s.params.dc.line := by
  unfold State.accessedLine
  cases h : Cache.lookup s.params.dc s.dc a with
  | some l =>
    have hi := indexOf_lt (Geometry.WellFormed.sets_pos hs.params.1) a
    obtain ⟨-, -, hlines⟩ := hs.dcShaped.2 _ hi
    obtain ⟨-, hlen, -⟩ := hlines l (Cache.lookup_some h).2
    exact hlen
  | none => exact Memory.length_readBlock ..

/-- The accessed line holds the bytes of `ArchMem` at its addresses. -/
theorem State.getD_accessedLine {s : State} (hl : 0 < s.params.dc.line) {a b : Nat}
    (h : b / s.params.dc.line = a / s.params.dc.line) :
    (s.accessedLine a).bytes.getD (offsetOf s.params.dc b) 0 = s.archMem b := by
  unfold State.accessedLine State.archMem
  rw [Cache.lookup_eq_of_same_line s.dc h]
  cases Cache.lookup s.params.dc s.dc a with
  | some l => rfl
  | none =>
    have hb : baseOf s.params.dc a + offsetOf s.params.dc b = b := by
      have := baseOf_add_offsetOf s.params.dc a
      have := offsetOf_add_eq_of_same_line h
      omega
    change (s.mem.readBlock (baseOf s.params.dc a) s.params.dc.line).getD (offsetOf s.params.dc b) 0 = s.mem.read b
    rw [Memory.getD_readBlock _ _ _ _ (offsetOf_lt hl b), hb]

theorem dcRead_value (a n : Nat) (s : State) :
    (dcRead a n s).1 = BitVec.ofNat 32 (leValue ((s.accessedLine a).slice (offsetOf s.params.dc a) n)) := by
  unfold State.accessedLine
  cases h : Cache.lookup s.params.dc s.dc a with
  | some l => rw [dcRead_hit h, Option.getD_some]
  | none => rw [dcRead_miss h, Option.getD_none]

theorem lookup_touched_self {g : Geometry} (c : Cache) {a : Nat} {l : Line} (hl : l.tag = tagOf g a) :
    Cache.lookup g (touched g c a l) a = some l := by
  rw [touched, Cache.lookup_touch c a a l hl, if_pos ⟨rfl, rfl⟩]

/-- A write leaves its line, written, resident. -/
theorem lookup_dcWrite_self (a n : Nat) (v : Word) (s : State) :
    Cache.lookup s.params.dc (dcWrite a n v s).dc a = some (writtenLine s.params.dc a n v (s.accessedLine a)) := by
  have ht : (writtenLine s.params.dc a n v (s.accessedLine a)).tag = tagOf s.params.dc a := s.tag_accessedLine a
  unfold State.accessedLine at ht ⊢
  cases h : Cache.lookup s.params.dc s.dc a with
  | some l => rw [h] at ht; rw [dcWrite_hit h]; exact lookup_touched_self _ ht
  | none => rw [h] at ht; rw [dcWrite_miss h]; exact lookup_touched_self _ ht

/-! ### Loads -/

theorem State.archValue_eq_leValue (s : State) (a n : Nat) :
    s.archValue a n = leValue ((List.range n).map fun k => s.archMem (a + k)) := by
  induction n generalizing a with
  | zero => rfl
  | succ n ih =>
    rw [State.archValue, ih, List.range_succ_eq_map]
    simp [leValue, Function.comp_def, Nat.add_comm, Nat.add_left_comm]

/-- An aligned load returns the little-endian value of its bytes of `ArchMem` (20_memory.md R63, R66). -/
theorem memRead_eq_archValue {s : State} {a : Word} {n : Nat} (hp : s.params.WellFormed) (hn : n ∣ 4)
    (h : accessCheck s.params a n = none) :
    ∃ s1, memRead a n s = .ok (BitVec.ofNat 32 (s.archValue a.toNat n), s1) := by
  have hl := Geometry.WellFormed.line_pos hp.1
  have hd : n ∣ s.params.dc.line := hn.trans (Geometry.WellFormed.four_dvd hp.1)
  have ha := (accessCheck_eq_none.1 h).1
  have hbyte : ∀ k < n, (s.accessedLine a.toNat).bytes.getD (offsetOf s.params.dc a.toNat + k) 0 =
      s.archMem (a.toNat + k) := by
    intro k hk
    have hline : (a.toNat + k) / s.params.dc.line = a.toNat / s.params.dc.line :=
      div_line_eq_of_div_eq hd (by
        rw [Nat.add_div_of_dvd_right (Nat.dvd_of_mod_eq_zero ha), Nat.div_eq_of_lt hk, Nat.add_zero])
    rw [← (offsetOf_add hd hl ha hk).1, State.getD_accessedLine hl hline]
  refine ⟨(dcRead a.toNat n s).2, ?_⟩
  rw [memRead_ok h, ← Prod.eta (dcRead a.toNat n s), dcRead_value, leValue_slice, State.archValue_eq_leValue,
    List.map_congr_left fun k hk => hbyte k (List.mem_range.1 hk)]

/-! ### Stores -/

/-- A byte of a line after a splice. -/
theorem Line.getD_splice (l : Line) {off : Nat} (bs : List Byte) (k : Nat) (h : off ≤ l.bytes.length) :
    (l.splice off bs).getD k 0 =
      if off ≤ k ∧ k < off + bs.length then bs.getD (k - off) 0 else l.bytes.getD k 0 := by
  have ht : (l.bytes.take off).length = off := List.length_take_of_le h
  simp only [Line.splice, List.append_assoc, List.getD_eq_getElem?_getD]
  rcases Nat.lt_or_ge k off with hk | hk
  · rw [if_neg (by omega), List.getElem?_append_left (by omega), List.getElem?_take_of_lt hk]
  · rw [List.getElem?_append_right (by omega), ht]
    by_cases hb : k < off + bs.length
    · rw [if_pos ⟨hk, hb⟩, List.getElem?_append_left (by omega)]
    · rw [if_neg (by omega), List.getElem?_append_right (by omega), List.getElem?_drop]
      congr 2
      omega

/-- Within its line a store changes its own bytes of `ArchMem`, least significant lowest, and no other (R62, R63). -/
theorem State.Inv.archMem_dcWrite_of_same_line {s : State} (hs : s.Inv) (n : Nat) (v : Word) {a b : Nat}
    (h : b / s.params.dc.line = a / s.params.dc.line) :
    (dcWrite a n v s).archMem b =
      if a ≤ b ∧ b < a + n then BitVec.ofNat 8 (v.toNat / 256 ^ (b - a)) else s.archMem b := by
  have hl := Geometry.WellFormed.line_pos hs.params.1
  have hoff := offsetOf_add_eq_of_same_line h
  have hle : offsetOf s.params.dc a ≤ (s.accessedLine a).bytes.length := by
    rw [hs.length_accessedLine]
    exact (offsetOf_lt hl a).le
  have hw : (dcWrite a n v s).archMem b =
      ((s.accessedLine a).splice (offsetOf s.params.dc a) (leBytes v n)).getD (offsetOf s.params.dc b) 0 := by
    rw [State.archMem, (dcWrite_frame a n v s).1.params, Cache.lookup_eq_of_same_line _ h, lookup_dcWrite_self]
    rfl
  rw [hw, Line.getD_splice _ _ _ hle, length_leBytes, State.getD_accessedLine hl h]
  by_cases hb : a ≤ b ∧ b < a + n
  · rw [if_pos hb, if_pos (by omega), getD_leBytes _ _ _ (by omega)]
    congr 3
    omega
  · rw [if_neg hb, if_neg (by omega)]

/-! ### Values and their bytes -/

/-- Consecutive bytes of `ArchMem` that are the bytes of a number are worth its low end. -/
theorem State.archValue_of_bytes {t : State} {a n V : Nat}
    (h : ∀ k < n, t.archMem (a + k) = BitVec.ofNat 8 (V / 256 ^ k)) : t.archValue a n = V % 256 ^ n := by
  induction n generalizing a V with
  | zero => simp [State.archValue, Nat.mod_one]
  | succ n ih =>
    have h0 : t.archMem a = BitVec.ofNat 8 V := by simpa using h 0 (by omega)
    have hrest : t.archValue (a + 1) n = V / 256 % 256 ^ n := ih fun k hk => by
      rw [Nat.add_assoc, Nat.add_comm 1 k, h (k + 1) (by omega), Nat.div_div_eq_div_mul, Nat.pow_succ']
    rw [State.archValue, h0, hrest, BitVec.toNat_ofNat, Nat.pow_succ' (n := n) (m := 256), Nat.mod_mul (a := 256)]

theorem State.archValue_lt (t : State) (a n : Nat) : t.archValue a n < 256 ^ n := by
  rw [State.archValue_eq_leValue]
  simpa using leValue_lt ((List.range n).map fun k => t.archMem (a + k))

/-- Bytes of `ArchMem` are the digits of their value. -/
theorem State.archValue_div_mod (t : State) (a : Nat) {n j : Nat} (hj : j < n) :
    t.archValue a n / 256 ^ j % 256 = (t.archMem (a + j)).toNat := by
  induction n generalizing a j with
  | zero => omega
  | succ n ih =>
    have hb := (t.archMem a).isLt
    rw [State.archValue]
    cases j with
    | zero => rw [Nat.pow_zero, Nat.div_one, Nat.add_zero a]; omega
    | succ j =>
      have hdiv : ((t.archMem a).toNat + 256 * t.archValue (a + 1) n) / 256 = t.archValue (a + 1) n := by omega
      rw [Nat.pow_succ', ← Nat.div_div_eq_div_mul, hdiv, ih (a + 1) (by omega), Nat.add_assoc, Nat.add_comm 1 j]

/-- A loaded word has the bytes of `ArchMem` in their places (20_memory.md R61). -/
theorem State.extractLsb'_archValue (t : State) (a : Nat) {j : Nat} (hj : j < 4) :
    (BitVec.ofNat 32 (t.archValue a 4)).extractLsb' (8 * j) 8 = t.archMem (a + j) := by
  have hlt : t.archValue a 4 < 2 ^ 32 := t.archValue_lt a 4
  apply BitVec.eq_of_toNat_eq
  rw [BitVec.extractLsb'_toNat, BitVec.toNat_ofNat, Nat.mod_eq_of_lt hlt, Nat.shiftRight_eq_div_pow, Nat.pow_mul]
  exact t.archValue_div_mod a hj

/-! ### Accesses inside an aligned word -/

section WordParts

variable {s : State} {a : Word} {n k : Nat}

/-- An access to an aligned part of an aligned word in range is at `a + k` unreduced and passes the checks. -/
theorem accessCheck_part_of_word {p : Params} (hp : p.WellFormed) (ha : a.toNat % 4 = 0)
    (hr : a.toNat + 4 ≤ p.memSize) (hn : n ∣ 4) (hd : n ∣ k) (hk : k + n ≤ 4) :
    (a + BitVec.ofNat 32 k).toNat = a.toNat + k ∧ accessCheck p (a + BitVec.ofNat 32 k) n = none := by
  obtain ⟨-, -, -, -, -, hmem⟩ := hp
  have hpos : 0 < n := Nat.pos_of_dvd_of_pos hn (by decide)
  have hadd : (a + BitVec.ofNat 32 k).toNat = a.toNat + k := by
    rw [BitVec.toNat_add, BitVec.toNat_ofNat]
    omega
  refine ⟨hadd, accessCheck_eq_none.2 ⟨?_, by omega⟩⟩
  rw [hadd]
  exact Nat.mod_eq_zero_of_dvd ((hn.trans (Nat.dvd_of_mod_eq_zero ha)).add hd)

/-- Within its word a store changes its own bytes of `ArchMem` and no other. -/
theorem archMem_dcWrite_of_same_word (hs : s.Inv) (n : Nat) (v : Word) {b c : Nat} (h : c / 4 = b / 4) :
    (dcWrite b n v s).archMem c =
      if b ≤ c ∧ c < b + n then BitVec.ofNat 8 (v.toNat / 256 ^ (c - b)) else s.archMem c :=
  hs.archMem_dcWrite_of_same_line n v (div_line_eq_of_div_eq (Geometry.WellFormed.four_dvd hs.params.1) h)

/-- After a word store, a load of `n` bytes at distance `k` returns the stored word's bytes `k` to `k + n - 1`. -/
theorem memRead_part_of_stored_word (hs : s.Inv) (ha : a.toNat % 4 = 0) (hr : a.toNat + 4 ≤ s.params.memSize)
    (v : Word) (hn : n ∣ 4) (hd : n ∣ k) (hk : k + n ≤ 4) :
    ∃ s1, memRead (a + BitVec.ofNat 32 k) n (dcWrite a.toNat 4 v s) =
      .ok (BitVec.ofNat 32 (v.toNat / 256 ^ k % 256 ^ n), s1) := by
  have hp := (dcWrite_frame a.toNat 4 v s).1.params
  obtain ⟨hadd, hchk⟩ := accessCheck_part_of_word hs.params ha hr hn hd hk
  have hbytes : ∀ j < n, (dcWrite a.toNat 4 v s).archMem (a.toNat + k + j) =
      BitVec.ofNat 8 (v.toNat / 256 ^ k / 256 ^ j) := by
    intro j hj
    rw [Nat.add_assoc, archMem_dcWrite_of_same_word hs 4 v (by omega), if_pos (by omega), Nat.add_sub_cancel_left,
      Nat.div_div_eq_div_mul, Nat.pow_add]
  obtain ⟨s1, h1⟩ := memRead_eq_archValue (hp ▸ hs.params) hn (hp ▸ hchk)
  exact ⟨s1, by rw [h1, hadd, State.archValue_of_bytes hbytes]⟩

/-- After a store of `n` bytes at distance `k` in a word, a load of the word returns the new bytes in their places and the
old ones elsewhere. -/
theorem memRead_word_of_stored_part (hs : s.Inv) (ha : a.toNat % 4 = 0) (hr : a.toNat + 4 ≤ s.params.memSize)
    (v : Word) (hk : k < 4) :
    ∃ w s1, memRead a 4 (dcWrite (a.toNat + k) n v s) = .ok (w, s1) ∧
      ∀ j < 4, w.extractLsb' (8 * j) 8 =
        if k ≤ j ∧ j < k + n then BitVec.ofNat 8 (v.toNat / 256 ^ (j - k)) else s.archMem (a.toNat + j) := by
  have hp := (dcWrite_frame (a.toNat + k) n v s).1.params
  obtain ⟨s1, h1⟩ := memRead_eq_archValue (hp ▸ hs.params) (dvd_refl 4) (hp ▸ accessCheck_eq_none.2 ⟨ha, hr⟩)
  refine ⟨_, s1, h1, fun j hj => ?_⟩
  rw [State.extractLsb'_archValue _ _ hj, archMem_dcWrite_of_same_word hs n v (by omega)]
  simp only [Nat.add_le_add_iff_left, Nat.add_assoc, Nat.add_lt_add_iff_left, Nat.add_sub_add_left]

end WordParts

/-- Settles O39: a store changes only its own bytes within its line, and a load is the value of its bytes. -/
theorem mixedWidthAccess : Obligations.MixedWidthAccess := by
  intro s a v hs ha hr
  refine ⟨⟨dcWrite a.toNat 4 v s, memWrite_ok (accessCheck_eq_none.2 ⟨ha, hr⟩), fun k hk => ?_, fun k hk => ?_, ?_⟩, ?_⟩
  · simpa using memRead_part_of_stored_word hs ha hr v (n := 1) (by decide) (Nat.one_dvd k) (by omega)
  · simpa [Nat.pow_mul] using
      memRead_part_of_stored_word hs ha hr v (n := 2) (by decide) (Nat.dvd_mul_right 2 k) (by omega)
  · have hv : v.toNat % 4294967296 = v.toNat := Nat.mod_eq_of_lt v.isLt
    simpa [hv] using memRead_part_of_stored_word hs ha hr v (k := 0) (dvd_refl 4) (Nat.dvd_zero 4) (by decide)
  · intro n k hnk
    obtain ⟨hn, hd, hle, hk⟩ : n ∣ 4 ∧ n ∣ k ∧ k + n ≤ 4 ∧ k < 4 := by
      rcases hnk with ⟨rfl, hk⟩ | ⟨rfl, rfl | rfl⟩
      · exact ⟨by decide, Nat.one_dvd k, by omega, hk⟩
      · decide
      · decide
    obtain ⟨hadd, hchk⟩ := accessCheck_part_of_word hs.params ha hr hn hd hle
    obtain ⟨w, s1, hread, hbytes⟩ := memRead_word_of_stored_part (n := n) hs ha hr v hk
    exact ⟨_, w, s1, memWrite_ok hchk, by rw [hadd]; exact hread, hbytes⟩

end Sys2Proof.Machine

/-! The caches' operations (21_cache.md R100 to R102) on the lines of a set, and what they do to `ArchMem` and to the
invariant of the data cache (R120, R121). -/

namespace Sys2Proof.Machine

/-! ### Bytes of a line -/

/-- The bytes of a list are the digits of its value. -/
theorem leValue_div_mod (bs : List Byte) (k : Nat) : leValue bs / 256 ^ k % 256 = (bs.getD k 0).toNat := by
  induction bs generalizing k with
  | nil => simp [leValue]
  | cons b bs ih =>
    have hb := b.isLt
    cases k with
    | zero => rw [leValue, Nat.pow_zero, Nat.div_one, List.getD_cons_zero]; omega
    | succ k =>
      have hdiv : leValue (b :: bs) / 256 = leValue bs := by rw [leValue]; omega
      rw [Nat.pow_succ', ← Nat.div_div_eq_div_mul, hdiv, ih, List.getD_cons_succ]

theorem Line.getD_slice (l : Line) (off : Nat) {n k : Nat} (hk : k < n) :
    (l.slice off n).getD k 0 = l.bytes.getD (off + k) 0 := by
  simp [Line.slice, hk, List.getD_eq_getElem?_getD]

theorem Line.leValue_slice_lt (l : Line) (off n : Nat) : leValue (l.slice off n) < 256 ^ n :=
  (leValue_lt _).trans_le (Nat.pow_le_pow_right (by decide) (List.length_take_le ..))

/-- The value of at most four bytes of a line fits a word. -/
theorem Line.toNat_ofNat_leValue_slice (l : Line) (off : Nat) {n : Nat} (hn : n ≤ 4) :
    (BitVec.ofNat 32 (leValue (l.slice off n))).toNat = leValue (l.slice off n) := by
  have hpow : 256 ^ n ≤ 2 ^ 32 := Nat.pow_le_pow_right (n := 256) (by decide) hn
  rw [BitVec.toNat_ofNat, Nat.mod_eq_of_lt ((l.leValue_slice_lt off n).trans_le hpow)]

theorem Line.length_splice (l : Line) {off : Nat} {bs : List Byte} (h : off + bs.length ≤ l.bytes.length) :
    (l.splice off bs).length = l.bytes.length := by
  simp only [Line.splice, List.length_append, List.length_take, List.length_drop]
  omega

/-! ### A hit in a set with different tags (21_cache.md R100, R101) -/

section Hit

variable {g : Geometry} {c : Cache} {a : Nat} {older younger : CacheSet} {l l' : Line}

/-- In a set with different tags no other line has the tag of `l`. -/
theorem CacheSet.tag_ne_of_split (hnd : ((older ++ l :: younger).map Line.tag).Nodup) {k : Line}
    (hk : k ∈ older ++ younger) : k.tag ≠ l.tag := by
  rw [List.map_append, List.map_cons, List.nodup_middle, List.nodup_cons, ← List.map_append] at hnd
  exact fun he => hnd.1 (List.mem_map.2 ⟨k, hk, he⟩)

/-- A touch takes the line of the tag from its place and appends the new one; the others keep their order. -/
theorem CacheSet.touch_of_split (hnd : ((older ++ l :: younger).map Line.tag).Nodup) (ht : l'.tag = l.tag) :
    CacheSet.touch (older ++ l :: younger) l' = older ++ younger ++ [l'] := by
  have hkeep : (older ++ younger).filter (fun k => k.tag != l'.tag) = older ++ younger :=
    List.filter_eq_self.2 fun k hk => by simpa [ht] using CacheSet.tag_ne_of_split hnd hk
  rw [List.filter_append] at hkeep
  rw [CacheSet.touch, List.filter_append, List.filter_cons_of_neg (by simp [ht]), hkeep]

/-- In a set with different tags the one line of the address's tag is found. -/
theorem Cache.lookup_of_split (hset : Cache.setAt c (indexOf g a) = older ++ l :: younger)
    (hnd : ((older ++ l :: younger).map Line.tag).Nodup) (ht : l.tag = tagOf g a) : Cache.lookup g c a = some l := by
  have hold : older.find? (fun k => k.tag == tagOf g a) = none := by
    simpa [← ht] using fun k hk => CacheSet.tag_ne_of_split hnd (List.mem_append_left younger hk)
  rw [Cache.lookup, hset, List.find?_append, hold]
  simp [ht]

theorem setAt_touched_of_split (hset : Cache.setAt c (indexOf g a) = older ++ l :: younger)
    (hnd : ((older ++ l :: younger).map Line.tag).Nodup) (ht : l'.tag = l.tag) :
    Cache.setAt (touched g c a l') (indexOf g a) = older ++ younger ++ [l'] := by
  rw [touched, Cache.setAt_putSet_self, hset, CacheSet.touch_of_split hnd ht]

theorem setAt_touched_ne (g : Geometry) (c : Cache) (a : Nat) (l : Line) {j : Nat} (hj : j ≠ indexOf g a) :
    Cache.setAt (touched g c a l) j = Cache.setAt c j :=
  Cache.setAt_putSet_ne c _ hj

end Hit

/-- Settles O35: a hit finds the one line of its tag and touches it, and a touch appends the line it takes out. -/
theorem hitsRefreshRecency : Obligations.HitsRefreshRecency := by
  intro g c a n v hn hnd
  have hn4 : n ≤ 4 := by omega
  refine ⟨fun hmiss => ?_, fun older l younger hset ht hlen => ?_⟩
  · have hnone := Cache.lookup_none.2 hmiss
    exact ⟨Cache.read_miss hnone n, Cache.write_miss hnone n v⟩
  · rw [hset] at hnd
    have hhit := Cache.lookup_of_split hset hnd ht
    refine ⟨⟨_, _, Cache.read_hit hhit n, fun k hk => ?_, ?_, setAt_touched_of_split hset hnd rfl,
        fun j hj => setAt_touched_ne g c a _ hj⟩,
      ⟨_, writtenLine g a n v l, Cache.write_hit hhit n v, setAt_touched_of_split hset hnd rfl, rfl, rfl, rfl, rfl,
        l.length_splice (by rwa [length_leBytes]), fun k hk => ?_, fun j hj => setAt_touched_ne g c a _ hj⟩⟩
    · rw [l.toNat_ofNat_leValue_slice _ hn4, leValue_div_mod, l.getD_slice _ hk]
    · rw [l.toNat_ofNat_leValue_slice _ hn4]
      exact l.leValue_slice_lt _ n
    · rw [writtenLine, Line.getD_splice l _ k (by omega), length_leBytes]
      refine if_ctx_congr Iff.rfl (fun hin => getD_leBytes v n _ (by omega)) fun _ => rfl

/-! ### The line an install evicts and the lines it keeps (21_cache.md R102) -/

/-- The line an install at `a` evicts: the head of the set, if the set is full. -/
def Cache.evicted (g : Geometry) (c : Cache) (a : Nat) : Option Line :=
  if (Cache.setAt c (indexOf g a)).length < g.ways then none else (Cache.setAt c (indexOf g a)).head?

/-- The lines an install at `a` keeps in the set, in their order. -/
def Cache.kept (g : Geometry) (c : Cache) (a : Nat) : CacheSet :=
  if (Cache.setAt c (indexOf g a)).length < g.ways then Cache.setAt c (indexOf g a)
  else (Cache.setAt c (indexOf g a)).tail

section Install

variable {g : Geometry} {c : Cache} {a : Nat}

theorem Cache.evicted_of_lt (h : (Cache.setAt c (indexOf g a)).length < g.ways) : Cache.evicted g c a = none := if_pos h

theorem Cache.kept_of_lt (h : (Cache.setAt c (indexOf g a)).length < g.ways) :
    Cache.kept g c a = Cache.setAt c (indexOf g a) := if_pos h

theorem Cache.evicted_of_full {l : Line} {rest : CacheSet} (hs : Cache.setAt c (indexOf g a) = l :: rest)
    (h : g.ways ≤ (l :: rest).length) : Cache.evicted g c a = some l := by
  rw [Cache.evicted, hs, if_neg (by omega), List.head?_cons]

theorem Cache.kept_of_full {l : Line} {rest : CacheSet} (hs : Cache.setAt c (indexOf g a) = l :: rest)
    (h : g.ways ≤ (l :: rest).length) : Cache.kept g c a = rest := by
  rw [Cache.kept, hs, if_neg (by omega), List.tail_cons]

/-- The evicted line, if there is one, stood before the lines kept. -/
theorem Cache.setAt_eq_evicted_append_kept (g : Geometry) (c : Cache) (a : Nat) :
    Cache.setAt c (indexOf g a) = (Cache.evicted g c a).toList ++ Cache.kept g c a := by
  rcases Nat.lt_or_ge (Cache.setAt c (indexOf g a)).length g.ways with h | h
  · rw [Cache.evicted_of_lt h, Cache.kept_of_lt h]
    rfl
  · cases hs : Cache.setAt c (indexOf g a) with
    | nil => simp [Cache.evicted, Cache.kept, hs]
    | cons l rest =>
      rw [hs] at h
      rw [Cache.evicted_of_full hs h, Cache.kept_of_full hs h]
      rfl

/-- In a set of at most WAYS lines the lines kept leave room for one more. -/
theorem Cache.length_kept_lt (hw : 1 ≤ g.ways) (h : (Cache.setAt c (indexOf g a)).length ≤ g.ways) :
    (Cache.kept g c a).length < g.ways := by
  unfold Cache.kept
  split
  · assumption
  · rw [List.length_tail]
    omega

/-- An install replaces the set by the lines kept and the new one, and answers the evicted line if it is dirty. -/
theorem Cache.install_eq (hw : 1 ≤ g.ways) (c : Cache) (a : Nat) (bytes : List Byte) :
    Cache.install g c a bytes =
      (Cache.putSet c (indexOf g a) (Cache.kept g c a ++ [newLine g a bytes]),
        (Cache.evicted g c a).bind (victimOf g (indexOf g a))) := by
  unfold Cache.install
  cases hs : Cache.setAt c (indexOf g a) with
  | nil =>
    have hlt : (Cache.setAt c (indexOf g a)).length < g.ways := by rw [hs]; exact hw
    rw [Cache.evicted_of_lt hlt, Cache.kept_of_lt hlt, hs]
    simp only [hs]
    rfl
  | cons l rest =>
    simp only [hs]
    split
    · next h =>
      rw [← hs] at h
      rw [Cache.evicted_of_lt h, Cache.kept_of_lt h, hs]
      rfl
    · next h =>
      rw [Cache.evicted_of_full hs (Nat.not_lt.1 h), Cache.kept_of_full hs (Nat.not_lt.1 h)]
      rfl

theorem Cache.setAt_install_eq (hw : 1 ≤ g.ways) (bytes : List Byte) :
    Cache.setAt (Cache.install g c a bytes).1 (indexOf g a) = Cache.kept g c a ++ [newLine g a bytes] := by
  rw [Cache.install_eq hw, Cache.setAt_putSet_self]

end Install

/-- Settles O36: an install is the lines kept and the new one, and a full set keeps all but its head. -/
theorem installEvictsTheLeastRecentlyUsed : Obligations.InstallEvictsTheLeastRecentlyUsed := by
  intro g c a bytes hw
  refine ⟨fun hroom => ⟨?_, ?_⟩, fun v rest hs hfull => ⟨?_, fun hd => ?_, fun hd => ?_⟩,
    fun j hj => Cache.setAt_install_ne g c a bytes hj⟩
  · rw [Cache.setAt_install_eq hw, Cache.kept_of_lt hroom]
    rfl
  · rw [Cache.install_eq hw, Cache.evicted_of_lt hroom]
    rfl
  · rw [Cache.setAt_install_eq hw, Cache.kept_of_full hs hfull]
    rfl
  · rw [Cache.install_eq hw, Cache.evicted_of_full hs hfull]
    exact if_pos hd
  · rw [Cache.install_eq hw, Cache.evicted_of_full hs hfull]
    exact if_neg (by simp [hd])

/-! ### The line of an address -/

/-- Line `l` of set `i` is the line of address `b`. -/
def Line.Holds (g : Geometry) (i : Nat) (l : Line) (b : Nat) : Prop := l.tag = tagOf g b ∧ i = indexOf g b

theorem line_eq_iff {g : Geometry} {a b : Nat} :
    b / g.line = a / g.line ↔ tagOf g b = tagOf g a ∧ indexOf g b = indexOf g a := by
  refine ⟨same_line, fun ⟨ht, hi⟩ => ?_⟩
  rw [← Nat.div_add_mod' (b / g.line) g.sets, ← Nat.div_add_mod' (a / g.line) g.sets]
  unfold tagOf at ht
  unfold indexOf at hi
  rw [ht, hi]

section Block

variable {g : Geometry} {m : Memory} {i b : Nat} {l : Line}

/-- A line written back gives memory its bytes. -/
theorem Memory.read_writeBlock_of_holds (hm : m.wf = true) (hl : 0 < g.line) (hlen : l.bytes.length = g.line)
    (h : l.Holds g i b) :
    (m.writeBlock (lineAddr g l.tag i) l.bytes).read b = l.bytes.getD (offsetOf g b) 0 := by
  obtain ⟨ht, hi⟩ := h
  have hread := Memory.read_writeBlock_of_mem hm (lineAddr g l.tag i) (offsetOf g b) l.bytes
    (by rw [hlen]; exact offsetOf_lt hl b)
  rwa [ht, hi, lineAddr_tagOf_indexOf, ← ht, ← hi] at hread

/-- A line written back changes no byte of another line. -/
theorem Memory.read_writeBlock_of_not_holds (m : Memory) (hi : i < g.sets) (hlen : l.bytes.length = g.line)
    (h : ¬ l.Holds g i b) : (m.writeBlock (lineAddr g l.tag i) l.bytes).read b = m.read b := by
  apply Memory.read_writeBlock_of_not_mem
  by_contra hin
  obtain ⟨o, rfl⟩ := Nat.exists_eq_add_of_le (show lineAddr g l.tag i ≤ b by omega)
  have ho : o < g.line := by omega
  exact h ⟨(tagOf_lineAddr_add _ _ _ hi ho).symm, (indexOf_lineAddr_add _ _ _ hi ho).symm⟩

/-- A line equal to its block of memory holds memory's bytes. -/
theorem Memory.getD_readBlock_of_holds (m : Memory) (hl : 0 < g.line) (h : l.Holds g i b) :
    (m.readBlock (lineAddr g l.tag i) g.line).getD (offsetOf g b) 0 = m.read b := by
  obtain ⟨ht, hi⟩ := h
  rw [Memory.getD_readBlock _ _ _ _ (offsetOf_lt hl b), ht, hi, lineAddr_tagOf_indexOf]

/-- The line of an address inside memory is inside memory. -/
theorem lineAddr_add_line_le {size a : Nat} (hsize : size % g.line = 0) (ha : a < size) :
    lineAddr g (tagOf g a) (indexOf g a) + g.line ≤ size := by
  obtain ⟨q, rfl⟩ := Nat.dvd_of_mod_eq_zero hsize
  have hq : a / g.line < q := Nat.div_lt_of_lt_mul ha
  unfold lineAddr tagOf indexOf
  rw [Nat.div_add_mod', ← Nat.succ_mul, Nat.mul_comm]
  exact Nat.mul_le_mul_left _ hq

end Block

/-! ### What a hit does to `ArchMem` -/

/-- Touching the line of `a` can change `ArchMem` in that line only. -/
theorem archMem_touched (s : State) {a : Nat} {l : Line} (hl : l.tag = tagOf s.params.dc a) (b : Nat) :
    ({ s with dc := touched s.params.dc s.dc a l } : State).archMem b =
      if b / s.params.dc.line = a / s.params.dc.line then l.bytes.getD (offsetOf s.params.dc b) 0
      else s.archMem b := by
  unfold State.archMem touched
  rw [Cache.lookup_touch _ _ _ _ hl]
  by_cases h : b / s.params.dc.line = a / s.params.dc.line
  · obtain ⟨ht, hi⟩ := line_eq_iff.1 h
    rw [if_pos h, if_pos ⟨hi, ht⟩]
  · rw [if_neg h, if_neg fun ⟨hi, ht⟩ => h (line_eq_iff.2 ⟨ht, hi⟩)]

/-- A read hit changes no byte of `ArchMem`. -/
theorem archMem_read_hit {s : State} (hline : 0 < s.params.dc.line) {a : Nat} {l : Line}
    (h : Cache.lookup s.params.dc s.dc a = some l) (b : Nat) :
    ({ s with dc := touched s.params.dc s.dc a (readLine l) } : State).archMem b = s.archMem b := by
  have hacc : s.accessedLine a = l := by rw [State.accessedLine, h, Option.getD_some]
  rw [archMem_touched s (l := readLine l) (Cache.lookup_some h).1]
  split
  · next hb => rw [← State.getD_accessedLine hline hb, hacc]; rfl
  · rfl

/-- A write hit changes the bytes written and no other. -/
theorem State.Inv.archMem_write_hit {s : State} (hs : s.Inv) {a n : Nat} (v : Word) {l : Line}
    (hn : n ∣ 4) (ha : a % n = 0) (h : Cache.lookup s.params.dc s.dc a = some l) (b : Nat) :
    ({ s with dc := touched s.params.dc s.dc a (writtenLine s.params.dc a n v l) } : State).archMem b =
      if a ≤ b ∧ b < a + n then BitVec.ofNat 8 (v.toNat / 256 ^ (b - a)) else s.archMem b := by
  by_cases hb : b / s.params.dc.line = a / s.params.dc.line
  · rw [← hs.archMem_dcWrite_of_same_line n v hb, dcWrite_hit h]
    rfl
  · have hout : ¬ (a ≤ b ∧ b < a + n) := by
      rintro ⟨hle, hlt⟩
      obtain ⟨k, rfl⟩ := Nat.exists_eq_add_of_le hle
      refine hb (div_line_eq_of_div_eq (hn.trans (Geometry.WellFormed.four_dvd hs.params.1)) ?_)
      rw [Nat.add_div_of_dvd_right (Nat.dvd_of_mod_eq_zero ha), Nat.div_eq_of_lt (Nat.lt_of_add_lt_add_left hlt),
        Nat.add_zero]
    rw [archMem_touched s (l := writtenLine s.params.dc a n v l) (Cache.lookup_some h).1, if_neg hb, if_neg hout]

/-! ### What a fill does to memory, to lookups and to `ArchMem` (21_cache.md R110, R121) -/

theorem mem_dcFill_of_clean {s : State} {a : Nat} (hw : 1 ≤ s.params.dc.ways)
    (h : ∀ l ∈ Cache.evicted s.params.dc s.dc a, l.dirty = false) : (dcFill a s).mem = s.mem := by
  cases hv : Cache.evicted s.params.dc s.dc a with
  | none => simp [dcFill, Cache.install_eq hw, hv]
  | some l => simp [dcFill, Cache.install_eq hw, hv, victimOf, h l hv]

theorem mem_dcFill_of_dirty {s : State} {a : Nat} {l : Line} (hw : 1 ≤ s.params.dc.ways)
    (h : Cache.evicted s.params.dc s.dc a = some l) (hd : l.dirty = true) :
    (dcFill a s).mem = s.mem.writeBlock (lineAddr s.params.dc l.tag (indexOf s.params.dc a)) l.bytes := by
  simp [dcFill, Cache.install_eq hw, h, victimOf, hd]

section Fill

variable {s : State} {a b : Nat} {l : Line}

theorem setAt_dcFill_self (hw : 1 ≤ s.params.dc.ways) :
    Cache.setAt (dcFill a s).dc (indexOf s.params.dc a) =
      Cache.kept s.params.dc s.dc a ++ [filledLine s.params.dc s.mem a] :=
  Cache.setAt_install_eq hw _

theorem setAt_dcFill_ne (a : Nat) {j : Nat} (hj : j ≠ indexOf s.params.dc a) :
    Cache.setAt (dcFill a s).dc j = Cache.setAt s.dc j :=
  Cache.setAt_install_ne _ _ _ _ hj

theorem mem_setAt_of_evicted (h : Cache.evicted s.params.dc s.dc a = some l) :
    l ∈ Cache.setAt s.dc (indexOf s.params.dc a) := by
  rw [Cache.setAt_eq_evicted_append_kept, h]
  exact List.mem_cons_self

theorem mem_setAt_of_kept (h : l ∈ Cache.kept s.params.dc s.dc a) :
    l ∈ Cache.setAt s.dc (indexOf s.params.dc a) := by
  rw [Cache.setAt_eq_evicted_append_kept]
  exact List.mem_append_right _ h

variable (hs : s.Inv)
include hs

theorem State.Inv.ways_pos : 1 ≤ s.params.dc.ways := by
  obtain ⟨-, -, hw, -⟩ := hs.params.1
  exact hw

theorem State.Inv.indexOf_dc_lt (a : Nat) : indexOf s.params.dc a < s.params.dc.sets :=
  indexOf_lt (Geometry.WellFormed.sets_pos hs.params.1) a

theorem State.Inv.nodup_tags (a : Nat) : ((Cache.setAt s.dc (indexOf s.params.dc a)).map Line.tag).Nodup := by
  obtain ⟨-, hnd, -⟩ := hs.dcShaped.2 _ (hs.indexOf_dc_lt a)
  exact hnd

/-- The lines kept have tags different from the evicted one's. -/
theorem State.Inv.tag_kept_ne_evicted {k : Line} (h : Cache.evicted s.params.dc s.dc a = some l)
    (hk : k ∈ Cache.kept s.params.dc s.dc a) : k.tag ≠ l.tag := by
  have hnd := hs.nodup_tags a
  rw [Cache.setAt_eq_evicted_append_kept, h] at hnd
  exact CacheSet.tag_ne_of_split (older := []) hnd hk

theorem State.Inv.shaped_evicted (h : Cache.evicted s.params.dc s.dc a = some l) :
    Line.Shaped s.params.dc s.params.memSize (indexOf s.params.dc a) l := by
  obtain ⟨-, -, hlines⟩ := hs.dcShaped.2 _ (hs.indexOf_dc_lt a)
  exact hlines l (mem_setAt_of_evicted h)

/-- After a fill memory holds the evicted line's bytes: written back if dirty, there before if clean (R120 d). -/
theorem State.Inv.read_mem_dcFill_of_evicted (h : Cache.evicted s.params.dc s.dc a = some l)
    (hb : l.Holds s.params.dc (indexOf s.params.dc a) b) :
    (dcFill a s).mem.read b = l.bytes.getD (offsetOf s.params.dc b) 0 := by
  have hl := Geometry.WellFormed.line_pos hs.params.1
  obtain ⟨-, hlen, -⟩ := hs.shaped_evicted h
  cases hd : l.dirty with
  | true => rw [mem_dcFill_of_dirty hs.ways_pos h hd, Memory.read_writeBlock_of_holds hs.memWf hl hlen hb]
  | false =>
    have hclean : ∀ k ∈ Cache.evicted s.params.dc s.dc a, k.dirty = false := by simp [h, hd]
    rw [mem_dcFill_of_clean hs.ways_pos hclean,
      hs.dcClean _ (hs.indexOf_dc_lt a) l (mem_setAt_of_evicted h) hd, Memory.getD_readBlock_of_holds _ hl hb]

/-- A fill changes no byte of memory outside the evicted line. -/
theorem State.Inv.read_mem_dcFill_of_not_evicted
    (h : ∀ l ∈ Cache.evicted s.params.dc s.dc a, ¬ l.Holds s.params.dc (indexOf s.params.dc a) b) :
    (dcFill a s).mem.read b = s.mem.read b := by
  by_cases hclean : ∀ l ∈ Cache.evicted s.params.dc s.dc a, l.dirty = false
  · rw [mem_dcFill_of_clean hs.ways_pos hclean]
  · push Not at hclean
    obtain ⟨l, hv, hd⟩ := hclean
    obtain ⟨-, hlen, -⟩ := hs.shaped_evicted hv
    rw [mem_dcFill_of_dirty hs.ways_pos hv (by simpa using hd),
      Memory.read_writeBlock_of_not_holds _ (hs.indexOf_dc_lt a) hlen (h l hv)]

/-- The evicted line was the one its addresses found, and after the fill they find none. -/
theorem State.Inv.lookup_dcFill_of_evicted (hm : Cache.lookup s.params.dc s.dc a = none)
    (h : Cache.evicted s.params.dc s.dc a = some l) (hb : l.Holds s.params.dc (indexOf s.params.dc a) b) :
    Cache.lookup s.params.dc s.dc b = some l ∧ Cache.lookup s.params.dc (dcFill a s).dc b = none := by
  obtain ⟨ht, hi⟩ := hb
  have hset := Cache.setAt_eq_evicted_append_kept s.params.dc s.dc a
  have hnd := hs.nodup_tags a
  rw [hset, h] at hnd
  rw [h, hi] at hset
  refine ⟨Cache.lookup_of_split (older := []) hset hnd ht, Cache.lookup_none.2 fun k hk => ?_⟩
  rw [← hi, setAt_dcFill_self hs.ways_pos, List.mem_append, List.mem_singleton] at hk
  rw [← ht]
  rcases hk with hk | rfl
  · exact hs.tag_kept_ne_evicted h hk
  · exact fun he => Cache.lookup_none.1 hm l (mem_setAt_of_evicted h) he.symm

/-- Addresses of other lines than the filled and the evicted one find after a fill what they found before. -/
theorem State.Inv.lookup_dcFill_of_not_evicted (hne : b / s.params.dc.line ≠ a / s.params.dc.line)
    (h : ∀ l ∈ Cache.evicted s.params.dc s.dc a, ¬ l.Holds s.params.dc (indexOf s.params.dc a) b) :
    Cache.lookup s.params.dc (dcFill a s).dc b = Cache.lookup s.params.dc s.dc b := by
  by_cases hi : indexOf s.params.dc b = indexOf s.params.dc a
  · have hnew : ((filledLine s.params.dc s.mem a).tag == tagOf s.params.dc b) = false :=
      beq_false_of_ne fun ht => hne (line_eq_iff.2 ⟨ht.symm, hi⟩)
    have hold : (Cache.evicted s.params.dc s.dc a).toList.find? (fun k => k.tag == tagOf s.params.dc b) = none :=
      List.find?_eq_none.2 fun k hk => by
        simpa using fun ht => h k (Option.mem_toList.1 hk) ⟨ht, hi.symm⟩
    rw [Cache.lookup, Cache.lookup, hi, setAt_dcFill_self hs.ways_pos, Cache.setAt_eq_evicted_append_kept,
      List.find?_append, List.find?_append, hold, List.find?_singleton, hnew]
    simp
  · exact Cache.lookup_congr (setAt_dcFill_ne a hi)

/-- A fill changes no byte of `ArchMem`: the filled line is memory's, the evicted one is in memory afterwards. -/
theorem State.Inv.archMem_dcFill (hm : Cache.lookup s.params.dc s.dc a = none) (b : Nat) :
    (dcFill a s).archMem b = s.archMem b := by
  by_cases hb : b / s.params.dc.line = a / s.params.dc.line
  · have hacc : s.accessedLine a = filledLine s.params.dc s.mem a := by rw [State.accessedLine, hm, Option.getD_none]
    rw [← State.getD_accessedLine (Geometry.WellFormed.line_pos hs.params.1) hb, hacc, State.archMem, dcFill_params,
      Cache.lookup_eq_of_same_line _ hb, lookup_dcFill hm]
    rfl
  · by_cases hv : ∀ l ∈ Cache.evicted s.params.dc s.dc a, ¬ l.Holds s.params.dc (indexOf s.params.dc a) b
    · rw [State.archMem, State.archMem, dcFill_params, hs.lookup_dcFill_of_not_evicted hb hv,
        hs.read_mem_dcFill_of_not_evicted hv]
    · push Not at hv
      obtain ⟨l, hl, hholds⟩ := hv
      obtain ⟨hbefore, hafter⟩ := hs.lookup_dcFill_of_evicted hm hl hholds
      rw [State.archMem, State.archMem, dcFill_params, hbefore, hafter]
      exact hs.read_mem_dcFill_of_evicted hl hholds

/-! ### A fill keeps the invariant (21_cache.md R120) -/

theorem State.Inv.memWithin_dcFill (a : Nat) : (dcFill a s).mem.within s.params.memSize = true := by
  by_cases hclean : ∀ l ∈ Cache.evicted s.params.dc s.dc a, l.dirty = false
  · rw [mem_dcFill_of_clean hs.ways_pos hclean]
    exact hs.memWithin
  · push Not at hclean
    obtain ⟨l, hv, hd⟩ := hclean
    obtain ⟨-, hlen, hin⟩ := hs.shaped_evicted hv
    rw [mem_dcFill_of_dirty hs.ways_pos hv (by simpa using hd)]
    exact Memory.within_writeBlock _ _ (by rwa [hlen]) hs.memWithin

theorem State.Inv.shaped_filledLine (ha : a < s.params.memSize) :
    Line.Shaped s.params.dc s.params.memSize (indexOf s.params.dc a) (filledLine s.params.dc s.mem a) := by
  obtain ⟨-, -, hsize, -⟩ := hs.params
  exact ⟨rfl, Memory.length_readBlock .., lineAddr_add_line_le hsize ha⟩

/-- The set of a fill: one line at most was dropped to make room, and no line kept has the new line's tag. -/
theorem State.Inv.shaped_set_dcFill (ha : a < s.params.memSize) (hm : Cache.lookup s.params.dc s.dc a = none) :
    CacheSet.Shaped s.params.dc s.params.memSize (indexOf s.params.dc a)
      (Cache.kept s.params.dc s.dc a ++ [filledLine s.params.dc s.mem a]) := by
  obtain ⟨hlen, hnd, hlines⟩ := hs.dcShaped.2 _ (hs.indexOf_dc_lt a)
  have hnew : (filledLine s.params.dc s.mem a).tag ∉ (Cache.kept s.params.dc s.dc a).map Line.tag := by
    rw [List.mem_map]
    rintro ⟨k, hk, ht⟩
    exact Cache.lookup_none.1 hm k (mem_setAt_of_kept hk) ht
  refine ⟨?_, ?_, fun l hl => ?_⟩
  · have hroom := Cache.length_kept_lt hs.ways_pos hlen
    rw [List.length_append, List.length_singleton]
    exact hroom
  · rw [Cache.setAt_eq_evicted_append_kept, List.map_append] at hnd
    rw [List.map_append, List.map_singleton, ← List.concat_eq_append]
    exact List.Nodup.concat hnew hnd.of_append_right
  · rw [List.mem_append, List.mem_singleton] at hl
    rcases hl with hl | rfl
    · exact hlines l (mem_setAt_of_kept hl)
    · exact hs.shaped_filledLine ha

theorem State.Inv.dcShaped_dcFill (ha : a < s.params.memSize) (hm : Cache.lookup s.params.dc s.dc a = none) :
    Cache.Shaped s.params.dc s.params.memSize (dcFill a s).dc := by
  obtain ⟨hsets, hshaped⟩ := hs.dcShaped
  refine ⟨?_, fun j hj => ?_⟩
  · change (Cache.install s.params.dc s.dc a _).1.length = _
    rw [Cache.install_eq hs.ways_pos, Cache.length_putSet _ (by rw [hsets]; exact hs.indexOf_dc_lt a), hsets]
  · by_cases hi : j = indexOf s.params.dc a
    · rw [hi, setAt_dcFill_self hs.ways_pos]
      exact hs.shaped_set_dcFill ha hm
    · rw [setAt_dcFill_ne a hi]
      exact hshaped j hj

/-- A fill leaves memory's block of every line but the evicted one. -/
theorem State.Inv.readBlock_dcFill {t j : Nat} (hj : j < s.params.dc.sets)
    (h : ∀ l ∈ Cache.evicted s.params.dc s.dc a, ¬ (l.tag = t ∧ indexOf s.params.dc a = j)) :
    (dcFill a s).mem.readBlock (lineAddr s.params.dc t j) s.params.dc.line =
      s.mem.readBlock (lineAddr s.params.dc t j) s.params.dc.line :=
  Memory.readBlock_congr _ _ fun k hk => hs.read_mem_dcFill_of_not_evicted fun l hl => by
    rw [Line.Holds, tagOf_lineAddr_add t j k hj hk, indexOf_lineAddr_add t j k hj hk]
    exact h l hl

theorem State.Inv.dcClean_dcFill (hm : Cache.lookup s.params.dc s.dc a = none) :
    Cache.CleanCopies s.params.dc (dcFill a s).mem (dcFill a s).dc := by
  intro j hj l hl hd
  by_cases hi : j = indexOf s.params.dc a
  · subst hi
    rw [setAt_dcFill_self hs.ways_pos, List.mem_append, List.mem_singleton] at hl
    rcases hl with hl | rfl
    · rw [hs.readBlock_dcFill hj fun e he ⟨ht, _⟩ => hs.tag_kept_ne_evicted he hl ht.symm]
      exact hs.dcClean _ hj l (mem_setAt_of_kept hl) hd
    · have hother : ∀ e ∈ Cache.evicted s.params.dc s.dc a,
          ¬ (e.tag = tagOf s.params.dc a ∧ indexOf s.params.dc a = indexOf s.params.dc a) :=
        fun e he ⟨ht, _⟩ => Cache.lookup_none.1 hm e (mem_setAt_of_evicted he) ht
      change s.mem.readBlock (baseOf s.params.dc a) _ = _
      rw [baseOf_eq_lineAddr]
      exact (hs.readBlock_dcFill hj hother).symm
  · rw [setAt_dcFill_ne a hi] at hl
    rw [hs.readBlock_dcFill hj fun e _ ⟨_, he⟩ => hi he.symm]
    exact hs.dcClean j hj l hl hd

/-- The miss part of the protocol keeps the invariant. -/
theorem State.Inv.inv_dcFill (ha : a < s.params.memSize) (hm : Cache.lookup s.params.dc s.dc a = none) :
    (dcFill a s).Inv where
  params := hs.params
  x0 := hs.x0
  pcEven := hs.pcEven
  memWf := wf_dcFill a hs.memWf
  memWithin := hs.memWithin_dcFill a
  dcShaped := hs.dcShaped_dcFill ha hm
  dcClean := hs.dcClean_dcFill hm
  icShaped := hs.icShaped
  icClean := hs.icClean
  dcCounts := hs.dcCounts
  icCounts := hs.icCounts
  guard := hs.guard

end Fill

/-- Settles O38: a fill moves the evicted line's bytes to memory and memory's into the filled line; a hit touches one
line. -/
theorem onlyWriteHitsChangeArchMem : Obligations.OnlyWriteHitsChangeArchMem := by
  intro s a n v hs hn ha hr
  have hn4 : n ∣ 4 := by rcases hn with rfl | rfl | rfl <;> decide
  have hline := Geometry.WellFormed.line_pos hs.params.1
  refine ⟨fun hm => ⟨?_, hs.archMem_dcFill hm, hs.inv_dcFill (by omega) hm⟩, fun w c hread => ?_, fun c hwrite => ?_⟩
  · rw [lookup_dcFill hm, Option.isSome_some]
  · cases hl : Cache.lookup s.params.dc s.dc a with
    | none => rw [Cache.read_miss hl] at hread; cases hread
    | some l =>
      rw [Cache.read_hit hl] at hread
      cases hread
      exact archMem_read_hit hline hl
  · cases hl : Cache.lookup s.params.dc s.dc a with
    | none => rw [Cache.write_miss hl] at hwrite; cases hwrite
    | some l =>
      rw [Cache.write_hit hl] at hwrite
      cases hwrite
      exact hs.archMem_write_hit v hn4 ha hl

end Sys2Proof.Machine

/-! Integer computational instructions (40_integer_computational.md): a key of the registry selects its instruction, an
instruction that commits a value completes with it, and the results as numbers. -/

namespace Sys2Proof.Machine

/-! ### The fields of a word, read from its number (30_encoding.md R131) -/

theorem ofNat_mod_two_pow (n k : Nat) : BitVec.ofNat n (k % 2 ^ n) = BitVec.ofNat n k :=
  BitVec.eq_of_toNat_eq (by rw [BitVec.toNat_ofNat, BitVec.toNat_ofNat, Nat.mod_mod])

theorem extractLsb'_eq_ofNat_div {n : Nat} (w : BitVec n) (k len : Nat) :
    w.extractLsb' k len = BitVec.ofNat len (w.toNat / 2 ^ k) := by
  rw [BitVec.extractLsb', Nat.shiftRight_eq_div_pow]

section Fields

variable {w : Word} {op f3 f7 : Nat}

theorem fieldOpcode_of_toNat (h : w.toNat % 2 ^ 7 = op) : fieldOpcode w = BitVec.ofNat 7 op := by
  rw [fieldOpcode, extractLsb'_eq_ofNat_div, Nat.pow_zero, Nat.div_one, ← h, ofNat_mod_two_pow]

theorem fieldFunct3_of_toNat (h : w.toNat / 2 ^ 12 % 2 ^ 3 = f3) : fieldFunct3 w = BitVec.ofNat 3 f3 := by
  rw [fieldFunct3, extractLsb'_eq_ofNat_div, ← h, ofNat_mod_two_pow]

theorem fieldFunct7_of_toNat (h : w.toNat / 2 ^ 25 = f7) : fieldFunct7 w = BitVec.ofNat 7 f7 := by
  rw [fieldFunct7, extractLsb'_eq_ofNat_div, h]

end Fields

/-- R140's `imm12[11:5]` is the funct7 field. -/
theorem extractLsb'_fieldImmI (w : Word) : (fieldImmI w).extractLsb' 5 7 = fieldFunct7 w := by
  apply BitVec.eq_of_getLsbD_eq
  intro k hk
  have hk12 : 5 + k < 12 := by omega
  simp [fieldImmI, fieldFunct7, hk, hk12, ← Nat.add_assoc]

theorem toNat_fieldFunct7 (w : Word) : (fieldFunct7 w).toNat = w.toNat / 2 ^ 25 := by
  rw [fieldFunct7, extractLsb'_eq_ofNat_div, BitVec.toNat_ofNat]
  have := w.isLt
  omega

/-! ### A key of the registry selects its instruction (R140) -/

/-- A word of a known opcode is what the registry holds under its key. -/
theorem decodeWord_of_recognized {w : Word} (h : decodeShape w ≠ .unrecognized) :
    decodeWord w = (registry (decodeShape w)).elim (.rejected .unmappedInstruction) .instr := by
  unfold decodeWord
  cases hd : decodeShape w with
  | unrecognized => exact absurd hd h
  | _ => dsimp only; cases registry _ <;> rfl

theorem selectsR_of_key {i : RegIdx → RegIdx → RegIdx → Instr} {op f3 f7 : Nat}
    (hshape : opcodeShapes.lookup (BitVec.ofNat 7 op) = some .r)
    (hkey : registryR.lookup (BitVec.ofNat 7 op, BitVec.ofNat 7 f7, BitVec.ofNat 3 f3) = some i) :
    SelectsR i op f3 f7 := by
  intro w hop hf3 hf7
  have hd : decodeShape w = .r (BitVec.ofNat 7 op) (BitVec.ofNat 7 f7) (fieldRs2 w) (fieldRs1 w) (BitVec.ofNat 3 f3)
      (fieldRd w) := by
    rw [decodeShape, fieldOpcode_of_toNat hop, hshape, fieldFunct3_of_toNat hf3, fieldFunct7_of_toNat hf7]
  rw [decodeWord_of_recognized (by simp [hd]), hd, registry, hkey]
  simp only [fieldRd, fieldRs1, fieldRs2, extractLsb'_eq_ofNat_div, Option.map_some, Option.elim_some]

/-- Both kinds of I-shape word, before the registry is looked up. -/
theorem decodeShape_of_shapeI {w : Word} {op f3 : Nat} (hop : w.toNat % 2 ^ 7 = op)
    (hf3 : w.toNat / 2 ^ 12 % 2 ^ 3 = f3) (hshape : opcodeShapes.lookup (BitVec.ofNat 7 op) = some .i) :
    decodeShape w = .i (BitVec.ofNat 7 op) (fieldImmI w) (fieldRs1 w) (BitVec.ofNat 3 f3) (fieldRd w) := by
  rw [decodeShape, fieldOpcode_of_toNat hop, hshape, fieldFunct3_of_toNat hf3]

theorem selectsI_of_key {i : RegIdx → RegIdx → Imm12 → Instr} {op f3 : Nat}
    (hshape : opcodeShapes.lookup (BitVec.ofNat 7 op) = some .i)
    (hshift : isShiftKey (BitVec.ofNat 7 op) (BitVec.ofNat 3 f3) = false)
    (hkey : registryI.lookup (BitVec.ofNat 7 op, BitVec.ofNat 3 f3) = some i) : SelectsI i op f3 := by
  intro w hop hf3
  have hd := decodeShape_of_shapeI hop hf3 hshape
  rw [decodeWord_of_recognized (by simp [hd]), hd, registry, hshift, hkey]
  simp only [fieldRd, fieldRs1, fieldImmI, extractLsb'_eq_ofNat_div, Option.map_some, Option.elim_some,
    Bool.false_eq_true, if_false]

/-- The immediate shifts: R140's longer key, and no instruction under the keys the registry does not hold (R151). -/
theorem selectsShift_of_key {i : RegIdx → RegIdx → Imm12 → Instr} {f3 f7 : Nat} {f7s : List Nat}
    (hshift : isShiftKey 0x13#7 (BitVec.ofNat 3 f3) = true)
    (hkey : registryShift.lookup (BitVec.ofNat 3 f3, BitVec.ofNat 7 f7) = some i)
    (hother : ∀ k : BitVec 7, k.toNat ∉ f7s → registryShift.lookup (BitVec.ofNat 3 f3, k) = none) :
    SelectsShift i f3 f7 f7s := by
  intro w hop hf3
  have hd := decodeShape_of_shapeI hop hf3 rfl
  rw [decodeWord_of_recognized (by simp [hd]), hd, registry, if_pos hshift, extractLsb'_fieldImmI]
  refine ⟨fun hf7 => ?_, fun hf7 => ?_⟩
  · rw [fieldFunct7_of_toNat hf7, hkey]
    simp only [fieldRd, fieldRs1, fieldImmI, extractLsb'_eq_ofNat_div, Option.map_some, Option.elim_some]
  · rw [hother _ (by rwa [toNat_fieldFunct7])]
    rfl

theorem selectsU_of_key {i : RegIdx → Imm20 → Instr} {op : Nat}
    (hshape : opcodeShapes.lookup (BitVec.ofNat 7 op) = some .u)
    (hkey : registryJU.lookup (BitVec.ofNat 7 op) = some i) : SelectsU i op := by
  intro w hop
  have hd : decodeShape w = .u (BitVec.ofNat 7 op) (fieldImmU w) (fieldRd w) := by
    rw [decodeShape, fieldOpcode_of_toNat hop, hshape]
  rw [decodeWord_of_recognized (by simp [hd]), hd, registry, hkey]
  simp only [fieldRd, fieldImmU, extractLsb'_eq_ofNat_div, Option.map_some, Option.elim_some]

/-! ### Completion -/

/-- An instruction whose meaning is a commit completes with the committed value. -/
theorem completesX_of_commitX {i : Instr} {rd : RegIdx} {v v' : Word} {s : State} (h : exec i s = commitX rd v s)
    (hv : v = v') : CompletesX i rd v' s := by
  subst hv
  obtain ⟨hout, hpc⟩ := commit_frame (xr rd) v s
  exact ⟨s.writeX rd v, h, onlyX_writeX rd v s, hpc, hout⟩

/-! ### Operands and results as numbers -/

theorem immI_eq_ofInt (imm : Imm12) : immI imm = BitVec.ofInt 32 imm.toInt := immI_eq_signExtend imm

/-- The sign-extended immediate read as unsigned (R174). -/
theorem toNat_immI (imm : Imm12) : ((immI imm).toNat : Int) = imm.toInt % 2 ^ 32 := by
  rw [immI_eq_ofInt, BitVec.toNat_ofInt, Int.toNat_of_nonneg (Int.emod_nonneg _ (by decide))]
  rfl

theorem immU_eq_ofNat (imm : Imm20) : immU imm = BitVec.ofNat 32 (imm.toNat * 2 ^ 12) := by
  apply BitVec.eq_of_toNat_eq
  have := imm.isLt
  rw [immU, BitVec.toNat_append, BitVec.toNat_ofNat, Nat.shiftLeft_eq, BitVec.toNat_ofNat, Nat.zero_mod, Nat.or_zero,
    Nat.mod_eq_of_lt (by omega)]

theorem add_eq_ofInt_add (a b : Word) : a + b = BitVec.ofInt 32 (a.toInt + b.toInt) := by
  rw [BitVec.ofInt_add, BitVec.ofInt_toInt, BitVec.ofInt_toInt]

theorem sub_eq_ofInt_sub (a b : Word) : a - b = BitVec.ofInt 32 (a.toInt - b.toInt) :=
  BitVec.eq_of_toInt_eq (by rw [BitVec.toInt_sub, BitVec.toInt_ofInt])

theorem boolWord_decide (p : Prop) [Decidable p] : boolWord (decide p) = if p then 1 else 0 := by
  simp [boolWord]

theorem shiftLeft_eq_ofNat_mul (a : Word) (k : Nat) : a <<< k = BitVec.ofNat 32 (a.toNat * 2 ^ k) := by
  rw [← Nat.shiftLeft_eq]
  rfl

theorem ushiftRight_eq_ofNat_div (a : Word) (k : Nat) : a >>> k = BitVec.ofNat 32 (a.toNat / 2 ^ k) := by
  apply BitVec.eq_of_toNat_eq
  rw [BitVec.toNat_ushiftRight, Nat.shiftRight_eq_div_pow, BitVec.toNat_ofNat,
    Nat.mod_eq_of_lt (Nat.lt_of_le_of_lt (Nat.div_le_self ..) a.isLt)]

theorem sshiftRight_eq_ofInt_div (a : Word) (k : Nat) : a.sshiftRight k = BitVec.ofInt 32 (a.toInt / 2 ^ k) := by
  rw [BitVec.sshiftRight, Int.shiftRight_eq_div_pow]
  norm_cast

/-! ### The obligations -/

/-- Settles O22: the upper immediate is its field times 2^12, and a sum of words is the sum of their numbers. -/
theorem upperImmediateResults : Obligations.UpperImmediateResults := by
  refine ⟨⟨selectsU_of_key rfl rfl, selectsU_of_key rfl rfl⟩, fun rd imm s => ⟨?_, ?_⟩⟩
  · exact completesX_of_commitX rfl (immU_eq_ofNat imm)
  · refine completesX_of_commitX rfl ?_
    rw [resultAuipc, immU_eq_ofNat, BitVec.ofNat_add, BitVec.ofNat_toNat, BitVec.setWidth_eq]

/-- Settles O23: sums and differences of words are those of their signed values. -/
theorem addSubResults : Obligations.AddSubResults := by
  refine ⟨⟨selectsI_of_key rfl rfl rfl, selectsR_of_key rfl rfl, selectsR_of_key rfl rfl⟩,
    fun rd rs1 rs2 imm s => ⟨?_, ?_, ?_⟩⟩
  · refine completesX_of_commitX rfl ?_
    rw [resultAddi, add_eq_ofInt_add, toInt_immI]
  · exact completesX_of_commitX rfl (add_eq_ofInt_add _ _)
  · exact completesX_of_commitX rfl (sub_eq_ofInt_sub _ _)

/-- Settles O24: the comparisons are on the signed and unsigned values of the operands, and a Boolean is 1 or 0. -/
theorem compareResults : Obligations.CompareResults := by
  refine ⟨⟨selectsI_of_key rfl rfl rfl, selectsI_of_key rfl rfl rfl, selectsR_of_key rfl rfl, selectsR_of_key rfl rfl⟩,
    fun rd rs1 rs2 imm s => ⟨?_, ?_, ?_, ?_⟩⟩
  · refine completesX_of_commitX rfl ?_
    rw [resultSlti, ltSigned, toInt_immI, boolWord_decide]
  · refine completesX_of_commitX rfl ?_
    simp only [resultSltiu, ltUnsigned, boolWord_decide, ← toNat_immI, Nat.cast_lt]
  · exact completesX_of_commitX rfl (boolWord_decide _)
  · exact completesX_of_commitX rfl (boolWord_decide _)

/-- Settles O25: the meanings are the bitwise functions of the operands, an immediate being worth its signed field. -/
theorem bitwiseResults : Obligations.BitwiseResults := by
  refine ⟨⟨selectsI_of_key rfl rfl rfl, selectsI_of_key rfl rfl rfl, selectsI_of_key rfl rfl rfl, selectsR_of_key rfl rfl,
    selectsR_of_key rfl rfl, selectsR_of_key rfl rfl⟩, fun rd rs1 rs2 imm s => ?_⟩
  rw [← immI_eq_ofInt]
  exact ⟨completesX_of_commitX rfl rfl, completesX_of_commitX rfl rfl, completesX_of_commitX rfl rfl,
    completesX_of_commitX rfl rfl, completesX_of_commitX rfl rfl, completesX_of_commitX rfl rfl⟩

/-- Settles O26: a shift by `k` multiplies or divides by 2^k, and both forms of the amount are its low five bits. -/
theorem shiftResults : Obligations.ShiftResults := by
  refine ⟨⟨selectsShift_of_key rfl rfl (by decide), selectsShift_of_key rfl rfl (by decide),
    selectsShift_of_key rfl rfl (by decide), selectsR_of_key rfl rfl, selectsR_of_key rfl rfl, selectsR_of_key rfl rfl⟩,
    fun rd rs1 rs2 imm s => ?_⟩
  simp only [← shamtImm_eq, ← shamtReg_eq]
  exact ⟨completesX_of_commitX rfl (shiftLeft_eq_ofNat_mul _ _), completesX_of_commitX rfl (ushiftRight_eq_ofNat_div _ _),
    completesX_of_commitX rfl (sshiftRight_eq_ofInt_div _ _), completesX_of_commitX rfl (shiftLeft_eq_ofNat_mul _ _),
    completesX_of_commitX rfl (ushiftRight_eq_ofNat_div _ _), completesX_of_commitX rfl (sshiftRight_eq_ofInt_div _ _)⟩

end Sys2Proof.Machine

/-! Control transfer (41_control_transfer.md): the keys of the J and B shapes select their instructions, the targets and
conditions are read as numbers, and a jump or a branch completes with the redirect of the pc. -/

namespace Sys2Proof.Machine

/-! ### The split immediates, read from the number of the word (30_encoding.md R135, R136) -/

theorem ofNat_append_ofNat (m n x y : Nat) :
    BitVec.ofNat m x ++ BitVec.ofNat n y = BitVec.ofNat (m + n) (x * 2 ^ n + y % 2 ^ n) := by
  apply BitVec.eq_of_toNat_eq
  have hy : y % 2 ^ n < 2 ^ n := Nat.mod_lt _ (Nat.two_pow_pos n)
  have hhigh : (x * 2 ^ n + y % 2 ^ n) / 2 ^ n = x := by
    rw [Nat.mul_comm, Nat.mul_add_div (Nat.two_pow_pos n), Nat.div_eq_of_lt hy, Nat.add_zero]
  rw [BitVec.toNat_append, BitVec.toNat_ofNat, BitVec.toNat_ofNat, BitVec.toNat_ofNat,
    ← Nat.shiftLeft_add_eq_or_of_lt hy, Nat.shiftLeft_eq, Nat.pow_add, Nat.mul_comm (2 ^ m), Nat.mod_mul, hhigh,
    Nat.mul_add_mod_of_lt hy, Nat.add_comm, Nat.mul_comm]

theorem fieldImmB_eq_ofNat (w : Word) :
    fieldImmB w = BitVec.ofNat 12 (w.toNat / 2 ^ 31 * 2048 + w.toNat / 2 ^ 7 % 2 * 1024 + w.toNat / 2 ^ 25 % 64 * 16 +
      w.toNat / 2 ^ 8 % 16) := by
  simp only [fieldImmB, extractLsb'_eq_ofNat_div, ofNat_append_ofNat]
  refine congrArg (BitVec.ofNat 12) ?_
  omega

theorem fieldImmJ_eq_ofNat (w : Word) :
    fieldImmJ w = BitVec.ofNat 20 (w.toNat / 2 ^ 31 * 2 ^ 19 + w.toNat / 2 ^ 12 % 256 * 2048 +
      w.toNat / 2 ^ 20 % 2 * 1024 + w.toNat / 2 ^ 21 % 1024) := by
  simp only [fieldImmJ, extractLsb'_eq_ofNat_div, ofNat_append_ofNat]
  refine congrArg (BitVec.ofNat 20) ?_
  omega

/-! ### A key of the registry selects its instruction (R140, R141, R143) -/

theorem selectsJ_jal : SelectsJ .jal := by
  intro w hop
  have hd : decodeShape w = .j 0x6F#7 (fieldImmJ w) (fieldRd w) := by
    rw [decodeShape, fieldOpcode_of_toNat hop]
    rfl
  have hkey : registryJU.lookup 0x6F#7 = some .jal := rfl
  rw [decodeWord_of_recognized (by simp [hd]), hd, registry, hkey, fieldImmJ_eq_ofNat, fieldRd,
    extractLsb'_eq_ofNat_div]
  rfl

theorem selectsB_of_key {i : RegIdx → RegIdx → Imm12 → Instr} {f3 : Nat}
    (hkey : registryB.lookup (0x63#7, BitVec.ofNat 3 f3) = some i) : SelectsB i f3 := by
  intro w hop hf3
  have hd : decodeShape w = .b 0x63#7 (fieldImmB w) (fieldRs2 w) (fieldRs1 w) (BitVec.ofNat 3 f3) := by
    rw [decodeShape, fieldOpcode_of_toNat hop, fieldFunct3_of_toNat hf3]
    rfl
  rw [decodeWord_of_recognized (by simp [hd]), hd, registry, hkey, fieldImmB_eq_ofNat, fieldRs1, fieldRs2,
    extractLsb'_eq_ofNat_div, extractLsb'_eq_ofNat_div]
  rfl

/-! ### Targets as numbers -/

theorem add_shiftLeft_one_eq_ofInt (a b : Word) : a + b <<< 1 = BitVec.ofInt 32 (a.toInt + 2 * b.toInt) := by
  have hb : b <<< 1 = b + b := (BitVec.shiftLeft_eq_mul_twoPow b 1).trans BitVec.mul_two
  rw [hb, add_eq_ofInt_add b b, ← two_mul, BitVec.ofInt_add, BitVec.ofInt_toInt]

theorem branchTarget_eq_ofInt (originPc : Word) (imm : Imm12) :
    branchTarget originPc imm = BitVec.ofInt 32 (originPc.toInt + 2 * imm.toInt) := by
  rw [branchTarget, add_shiftLeft_one_eq_ofInt, toInt_immI]

theorem jalTarget_eq_ofInt (originPc : Word) (imm : Imm20) :
    jalTarget originPc imm = BitVec.ofInt 32 (originPc.toInt + 2 * imm.toInt) := by
  rw [jalTarget, add_shiftLeft_one_eq_ofInt, toInt_immJ]

theorem and_clear_bit_zero (a : Word) : a &&& 0xFFFFFFFE#32 = BitVec.ofNat 32 (a.toNat / 2 * 2) := by
  have hmask : 0xFFFFFFFE#32 = BitVec.allOnes 32 <<< 1 := rfl
  rw [hmask, ← BitVec.shiftLeft_ushiftRight, shiftLeft_eq_ofNat_mul, BitVec.toNat_ushiftRight,
    Nat.shiftRight_eq_div_pow, pow_one]

theorem jalrTarget_eq_ofNat (base : Word) (imm : Imm12) :
    jalrTarget base imm = BitVec.ofNat 32 ((BitVec.ofInt 32 (base.toInt + imm.toInt)).toNat / 2 * 2) := by
  rw [jalrTarget, and_clear_bit_zero, add_eq_ofInt_add, toInt_immI]

/-! ### Completion -/

/-- A redirect moves the pc alone (R229). -/
theorem SameOutsideRegs.redirect {s t : State} (h : SameOutsideRegs s t) (target : Word) :
    SameOutsideRegs s { t with pc := target } :=
  { h with outside := { h.outside with } }

theorem SameOutsideRegs.refl (s : State) : SameOutsideRegs s s :=
  ⟨⟨rfl, rfl, rfl, rfl, ⟨rfl, rfl, rfl, rfl⟩, rfl, ⟨rfl, rfl⟩, ⟨rfl, rfl⟩, rfl⟩, fun _ => rfl, rfl, rfl, ⟨rfl, rfl⟩⟩

theorem OnlyX.redirect {rd : RegIdx} {v : Word} {s t : State} (h : OnlyX rd v s t) (target : Word) :
    OnlyX rd v s { t with pc := target } :=
  { h with }

/-- An instruction whose meaning is a jump completes with the link value and the target (R220, R221). -/
theorem completes_of_jumpTo {i : Instr} {rd : RegIdx} {link target target' : Word} {s : State}
    (h : exec i s = jumpTo rd link target s) (ht : target = target') :
    ∃ t, exec i s = .next t ∧ t.pc = target' ∧ OnlyX rd link s t ∧ SameOutsideRegs s t :=
  ⟨_, h, ht, (onlyX_writeX rd link s).redirect target, (commit_frame (xr rd) link s).1.redirect target⟩

theorem originPc_add_four (s : State) : s.originPc + 4 = s.pc := BitVec.sub_add_cancel s.pc 4

/-- An instruction whose meaning is a branch completes as one, on any reading of its condition (R228, R229). -/
theorem completesBranch_of_branchTo {i : Instr} {b : Bool} {taken : Prop} {imm : Imm12} {s : State}
    (h : exec i s = branchTo b (branchTarget s.originPc imm) s) (hb : b = true ↔ taken) :
    CompletesBranch i taken imm s := by
  cases b with
  | true =>
    have ht : taken := hb.1 rfl
    exact ⟨_, h, fun _ => branchTarget_eq_ofInt _ _, fun hn => absurd ht hn, ⟨fun _ => rfl, fun _ => rfl⟩,
      (SameOutsideRegs.refl s).redirect _⟩
  | false =>
    have hn : ¬ taken := fun ht => Bool.false_ne_true (hb.2 ht)
    exact ⟨s, h, fun ht => absurd ht hn, fun _ => (originPc_add_four s).symm, ⟨fun _ => rfl, fun _ => rfl⟩,
      SameOutsideRegs.refl s⟩

/-! ### The conditions (R222 to R227) -/

section Conditions

variable {a b : Word}

theorem takenBeq_iff : takenBeq a b = true ↔ a.toNat = b.toNat := by
  rw [takenBeq, beq_iff_eq, BitVec.toNat_inj]

theorem takenBne_iff : takenBne a b = true ↔ a.toNat ≠ b.toNat := by
  rw [takenBne, bne_iff_ne, ne_eq, ne_eq, BitVec.toNat_inj]

theorem takenBlt_iff : takenBlt a b = true ↔ a.toInt < b.toInt := decide_eq_true_iff

theorem takenBge_iff : takenBge a b = true ↔ b.toInt ≤ a.toInt := by
  rw [takenBge, ltSigned, Bool.not_eq_true', decide_eq_false_iff_not, not_lt]

theorem takenBltu_iff : takenBltu a b = true ↔ a.toNat < b.toNat := decide_eq_true_iff

theorem takenBgeu_iff : takenBgeu a b = true ↔ b.toNat ≤ a.toNat := by
  rw [takenBgeu, ltUnsigned, Bool.not_eq_true', decide_eq_false_iff_not, not_lt]

end Conditions

/-! ### The obligations -/

/-- Settles O27: both meanings are `jumpTo`, whose target reads the base before the link is written. -/
theorem jumpResults : Obligations.JumpResults := by
  refine ⟨⟨selectsJ_jal, selectsI_of_key rfl rfl rfl⟩, fun rd rs1 imm imm20 s => ⟨?_, ?_⟩⟩
  · exact completes_of_jumpTo rfl (jalTarget_eq_ofInt s.originPc imm20)
  · exact completes_of_jumpTo rfl (jalrTarget_eq_ofNat (s.readX rs1) imm)

/-- Settles O28: the six meanings are `branchTo` under conditions that are the comparisons of the operands' numbers. -/
theorem branchResults : Obligations.BranchResults := by
  refine ⟨⟨selectsB_of_key rfl, selectsB_of_key rfl, selectsB_of_key rfl, selectsB_of_key rfl, selectsB_of_key rfl,
    selectsB_of_key rfl⟩, fun rs1 rs2 imm s => ?_⟩
  exact ⟨completesBranch_of_branchTo rfl takenBeq_iff, completesBranch_of_branchTo rfl takenBne_iff,
    completesBranch_of_branchTo rfl takenBlt_iff, completesBranch_of_branchTo rfl takenBge_iff,
    completesBranch_of_branchTo rfl takenBltu_iff, completesBranch_of_branchTo rfl takenBgeu_iff⟩

end Sys2Proof.Machine

/-! Load and store (42_load_store.md): the S shape's keys select their instructions, a data access that fails a check is
fatal, and one that passes is seen in bytes of `ArchMem`. -/

namespace Sys2Proof.Machine

/-! ### The keys of the S shape (R144) -/

theorem fieldImmS_eq_ofNat (w : Word) :
    fieldImmS w = BitVec.ofNat 12 (w.toNat / 2 ^ 25 * 32 + w.toNat / 2 ^ 7 % 32) := by
  simp only [fieldImmS, extractLsb'_eq_ofNat_div, ofNat_append_ofNat]
  rfl

theorem selectsS_of_key {i : RegIdx → RegIdx → Imm12 → Instr} {op f3 : Nat}
    (hshape : opcodeShapes.lookup (BitVec.ofNat 7 op) = some .s)
    (hkey : registryS.lookup (BitVec.ofNat 7 op, BitVec.ofNat 3 f3) = some i) : SelectsS i op f3 := by
  intro w hop hf3
  have hd : decodeShape w = .s (BitVec.ofNat 7 op) (fieldImmS w) (fieldRs2 w) (fieldRs1 w) (BitVec.ofNat 3 f3) := by
    rw [decodeShape, fieldOpcode_of_toNat hop, hshape, fieldFunct3_of_toNat hf3]
  rw [decodeWord_of_recognized (by simp [hd]), hd, registry, hkey, fieldImmS_eq_ofNat]
  simp only [fieldRs1, fieldRs2, extractLsb'_eq_ofNat_div, Option.map_some, Option.elim_some]

/-! ### Fatal data accesses (R252) -/

theorem accessCheck_of_misaligned {p : Params} {a : Word} {n : Nat} (h : a.toNat % n ≠ 0) :
    accessCheck p a n = some (.misalignedAccess a) := if_pos h

theorem accessCheck_of_out_of_range {p : Params} {a : Word} {n : Nat} (ha : a.toNat % n = 0)
    (hr : p.memSize < a.toNat + n) : accessCheck p a n = some (.memOutOfRange a) := by
  rw [accessCheck, if_neg (not_not.2 ha), if_pos hr]

section Fatal

variable {s : State} {a : Word} {n : Nat} {c : Fault} (h : accessCheck s.params a n = some c)
include h

theorem loadX_of_failed_check (rd : RegIdx) (ext : Word → Word) : loadX rd a n ext s = .next (raiseFatal c s) := by
  rw [loadX, memRead_error h]

theorem loadF_of_failed_check (rd : RegIdx) (ext : Word → Word) : loadF rd a n ext s = .next (raiseFatal c s) := by
  rw [loadF, memRead_error h]

theorem storeTo_of_failed_check (v : Word) : storeTo a n v s = .next (raiseFatal c s) := by
  rw [storeTo, memWrite_error h]

/-- A data access that fails its checks is fatal and nothing else, whichever load or store makes it. -/
theorem exec_of_failed_check {i : Instr} (hd : dataAccess i s = some (a, n)) : exec i s = .next (raiseFatal c s) := by
  cases i with
  | lb rd | lh rd | lw rd | lbu rd | lhu rd => cases hd; exact loadX_of_failed_check h rd _
  | flw rd => cases hd; exact loadF_of_failed_check h rd _
  | sb | sh | sw | fsw => cases hd; exact storeTo_of_failed_check h _
  | _ => cases hd

end Fatal

/-! ### Accesses that pass their checks, in bytes of `ArchMem` -/

section Access

variable {s : State} (hs : s.Inv) {a : Nat}
include hs

/-- A read through the data cache changes no byte of `ArchMem`, hit or miss. -/
theorem State.Inv.archMem_dcRead (n b : Nat) : (dcRead a n s).2.archMem b = s.archMem b := by
  have hline := Geometry.WellFormed.line_pos hs.params.1
  cases h : Cache.lookup s.params.dc s.dc a with
  | some l =>
    rw [dcRead_hit h]
    exact archMem_read_hit hline h b
  | none =>
    rw [dcRead_miss h, ← hs.archMem_dcFill h b]
    exact archMem_read_hit (s := dcFill a s) hline (lookup_dcFill h) b

/-- An aligned write through the data cache changes the bytes written and no other, hit or miss. -/
theorem State.Inv.archMem_dcWrite {n : Nat} (v : Word) (hn : n ∣ 4) (ha : a % n = 0) (hr : a < s.params.memSize)
    (b : Nat) :
    (dcWrite a n v s).archMem b =
      if a ≤ b ∧ b < a + n then BitVec.ofNat 8 (v.toNat / 256 ^ (b - a)) else s.archMem b := by
  cases h : Cache.lookup s.params.dc s.dc a with
  | some l =>
    rw [dcWrite_hit h]
    exact hs.archMem_write_hit v hn ha h b
  | none =>
    rw [dcWrite_miss h, ← hs.archMem_dcFill h b]
    exact (hs.inv_dcFill hr h).archMem_write_hit v hn ha (lookup_dcFill h) b

end Access

/-! ### Completion -/

section Frames

variable {s t u : State}

theorem SameOutsideData.trans (h : SameOutsideData s t) (h' : SameOutsideData t u) : SameOutsideData s u where
  params := h'.params.trans h.params
  ic := h'.ic.trans h.ic
  fwdX := h'.fwdX.trans h.fwdX
  fwdF := h'.fwdF.trans h.fwdF
  slots := by simp only [h'.slots, h.slots, and_self]
  icount := h'.icount.trans h.icount
  icCounters := by simp only [h'.icCounters, h.icCounters, and_self]
  guard := by simp only [h'.guard, h.guard, and_self]
  run := h'.run.trans h.run

theorem NoReg.trans_onlyX {rd : RegIdx} {v : Word} (h : NoReg s t) (h' : OnlyX rd v t u) : OnlyX rd v s u :=
  ⟨h'.value, h'.zero, fun r hr => (h'.others r hr).trans (h.ints r), fun r => (h'.floats r).trans (h.floats r)⟩

theorem NoReg.trans_onlyF {rd : RegIdx} {v : Word} (h : NoReg s t) (h' : OnlyF rd v t u) : OnlyF rd v s u :=
  ⟨h'.value, fun r hr => (h'.others r hr).trans (h.floats r), fun r => (h'.ints r).trans (h.ints r)⟩

end Frames

/-- What a load does besides its register write, in whichever bank (R251). -/
theorem State.Inv.frame_commit_dcRead {s : State} (hs : s.Inv) (r : RegRef) (v : Word) (a n : Nat) :
    (commit r v (dcRead a n s).2).pc = s.pc ∧ SameOutsideData s (commit r v (dcRead a n s).2) ∧
      CountedAccess a s (commit r v (dcRead a n s).2) ∧
      ∀ b, (commit r v (dcRead a n s).2).archMem b = s.archMem b := by
  obtain ⟨hregs, hpc⟩ := commit_frame r v (dcRead a n s).2
  obtain ⟨hout, -, -, -, hpc', hacc, hhits⟩ := dcRead_frame a n s
  obtain ⟨hacc', hhits'⟩ := hregs.dcCounters
  exact ⟨hpc.trans hpc', hout.trans hregs.outside, ⟨hacc'.trans hacc, hhits'.trans hhits⟩,
    fun b => (hregs.bytes b).trans (hs.archMem_dcRead n b)⟩

/-- A load that passes its checks: the little-endian value of its bytes of `ArchMem`, and one access (20_memory.md R66). -/
theorem memRead_of_passed_check {s : State} {a : Word} {n : Nat} (hp : s.params.WellFormed) (hn : n ∣ 4)
    (h : accessCheck s.params a n = none) :
    memRead a n s = .ok (BitVec.ofNat 32 (s.archValue a.toNat n), (dcRead a.toNat n s).2) := by
  obtain ⟨s', hv⟩ := memRead_eq_archValue hp hn h
  have hread : dcRead a.toNat n s = (BitVec.ofNat 32 (s.archValue a.toNat n), s') :=
    Except.ok.inj ((memRead_ok h).symm.trans hv)
  rw [hv, hread]

section Completion

variable {i : Instr} {rd : RegIdx} {a v : Word} {n : Nat} {ext : Word → Word} {s : State}
  (hs : s.Inv) (hn : n ∣ 4) (ha : a.toNat % n = 0) (hr : a.toNat + n ≤ s.params.memSize)
include hs hn ha hr

/-- A load whose meaning is `loadX` completes with the extension of the value of its bytes of `ArchMem`. -/
theorem State.Inv.completesLoadX_of_loadX (h : exec i s = loadX rd a n ext s)
    (hv : ext (BitVec.ofNat 32 (s.archValue a.toNat n)) = v) : CompletesLoadX i rd a v s := by
  obtain ⟨-, hregs, -⟩ := dcRead_frame a.toNat n s
  refine ⟨_, ?_, hregs.trans_onlyX (onlyX_writeX rd v _), hs.frame_commit_dcRead (xr rd) v a.toNat n⟩
  rw [h, loadX, memRead_of_passed_check hs.params hn (accessCheck_eq_none.2 ⟨ha, hr⟩), ← hv]

/-- A load whose meaning is `loadF` completes with the extension of the value of its bytes of `ArchMem`. -/
theorem State.Inv.completesLoadF_of_loadF (h : exec i s = loadF rd a n ext s)
    (hv : ext (BitVec.ofNat 32 (s.archValue a.toNat n)) = v) : CompletesLoadF i rd a v s := by
  obtain ⟨-, hregs, -⟩ := dcRead_frame a.toNat n s
  refine ⟨_, ?_, hregs.trans_onlyF (onlyF_writeF rd v _), hs.frame_commit_dcRead (fr rd) v a.toNat n⟩
  rw [h, loadF, memRead_of_passed_check hs.params hn (accessCheck_eq_none.2 ⟨ha, hr⟩), ← hv]

/-- A store whose meaning is `storeTo` completes with the low bytes of its data register (R245 to R247, R249). -/
theorem State.Inv.completesStore_of_storeTo (h : exec i s = storeTo a n v s) : CompletesStore i a n v s := by
  have hpos : 0 < n := Nat.pos_of_dvd_of_pos hn (by decide)
  have hbyte := hs.archMem_dcWrite v hn ha (show a.toNat < s.params.memSize by omega)
  obtain ⟨hout, hregs, -, -, hpc, hcount⟩ := dcWrite_frame a.toNat n v s
  refine ⟨_, ?_, hregs, hpc, hout, hcount, fun k hk => ?_, fun b hb => ?_⟩
  · rw [h, storeTo, memWrite_ok (accessCheck_eq_none.2 ⟨ha, hr⟩)]
  · rw [hbyte, if_pos (by omega), Nat.add_sub_cancel_left]
  · rw [hbyte, if_neg (by omega)]

end Completion

/-! ### Loaded values as numbers (R240 to R244) -/

theorem sext_ofNat {n : Nat} (hn : n ≤ 32) (k : Nat) :
    sext n (BitVec.ofNat 32 k) = BitVec.ofInt 32 (BitVec.ofNat n k).toInt := by
  rw [sext, BitVec.setWidth_ofNat_of_le hn, BitVec.signExtend]

theorem zext_ofNat {n k : Nat} (hn : n ≤ 32) (hk : k < 2 ^ n) : zext n (BitVec.ofNat 32 k) = BitVec.ofNat 32 k := by
  rw [zext, BitVec.setWidth_ofNat_of_le hn, ← BitVec.ofNat_toNat, BitVec.toNat_ofNat, Nat.mod_eq_of_lt hk]

theorem State.archValue_one (s : State) (a : Nat) : s.archValue a 1 = (s.archMem a).toNat := rfl

/-! ### The obligations -/

/-- Settles O33: the check names the cause, alignment first, and a failed check is all an access does. -/
theorem fatalDataAccess : Obligations.FatalDataAccess := by
  intro i s a n hd
  exact ⟨fun ha => exec_of_failed_check (accessCheck_of_misaligned ha) hd,
    fun ha hr => exec_of_failed_check (accessCheck_of_out_of_range ha hr) hd⟩

/-- Settles O31: each load is `loadX` or `loadF` of its width, its extension is worth the sign or the zeros, and its fatal
addresses are those of every data access. -/
theorem loadResults : Obligations.LoadResults := by
  refine ⟨⟨selectsI_of_key rfl rfl rfl, selectsI_of_key rfl rfl rfl, selectsI_of_key rfl rfl rfl,
    selectsI_of_key rfl rfl rfl, selectsI_of_key rfl rfl rfl, selectsI_of_key rfl rfl rfl⟩, fun rd rs1 imm s hs => ?_⟩
  intro a
  refine ⟨fun hr => ⟨?_, ?_⟩, fun ha hr => ⟨?_, ?_⟩, fun ha hr => ⟨?_, ?_⟩, fun hr i hi => ?_, fun i hi => ?_,
    fun i hi => ?_⟩
  · refine hs.completesLoadX_of_loadX (Nat.one_dvd 4) (Nat.mod_one _) hr rfl ?_
    rw [extendLb, sext_ofNat (by decide), State.archValue_one, BitVec.ofNat_toNat, BitVec.setWidth_eq]
  · exact hs.completesLoadX_of_loadX (Nat.one_dvd 4) (Nat.mod_one _) hr rfl
      (zext_ofNat (by decide) (s.archValue_lt a.toNat 1))
  · exact hs.completesLoadX_of_loadX (by decide) ha hr rfl (sext_ofNat (by decide) _)
  · exact hs.completesLoadX_of_loadX (by decide) ha hr rfl (zext_ofNat (by decide) (s.archValue_lt a.toNat 2))
  · exact hs.completesLoadX_of_loadX (dvd_refl 4) ha hr rfl rfl
  · exact hs.completesLoadF_of_loadF (dvd_refl 4) ha hr rfl rfl
  · have hd : dataAccess i s = some (a, 1) := by rcases List.mem_pair.1 hi with rfl | rfl <;> rfl
    exact (fatalDataAccess i s a 1 hd).2 (Nat.mod_one _) hr
  · exact fatalDataAccess i s a 2 (by rcases List.mem_pair.1 hi with rfl | rfl <;> rfl)
  · exact fatalDataAccess i s a 4 (by rcases List.mem_pair.1 hi with rfl | rfl <;> rfl)

/-- Settles O32: each store is `storeTo` of its width and data register, and its fatal addresses are those of every data
access. -/
theorem storeResults : Obligations.StoreResults := by
  refine ⟨⟨selectsS_of_key rfl rfl, selectsS_of_key rfl rfl, selectsS_of_key rfl rfl, selectsS_of_key rfl rfl⟩,
    fun rs1 rs2 imm s hs => ?_⟩
  intro a
  obtain ⟨hsh, hsh'⟩ := fatalDataAccess (.sh rs1 rs2 imm) s a 2 rfl
  refine ⟨fun hr => ?_, fun ha hr => ?_, fun ha hr => ⟨?_, ?_⟩, fun hr => ?_, hsh, hsh', fun i hi => ?_⟩
  · exact hs.completesStore_of_storeTo (Nat.one_dvd 4) (Nat.mod_one _) hr rfl
  · exact hs.completesStore_of_storeTo (by decide) ha hr rfl
  · exact hs.completesStore_of_storeTo (dvd_refl 4) ha hr rfl
  · exact hs.completesStore_of_storeTo (dvd_refl 4) ha hr rfl
  · exact (fatalDataAccess (.sb rs1 rs2 imm) s a 1 rfl).2 (Nat.mod_one _) hr
  · exact fatalDataAccess i s a 4 (by rcases List.mem_pair.1 hi with rfl | rfl <;> rfl)

end Sys2Proof.Machine

/-! The floating-point format (43_float.md R260, R261): the fields of a pattern read from its number, the pattern of given
fields, and the exact value of a NORMAL pattern by its significand. -/

namespace Sys2Proof.Machine

/-! ### The fields of a pattern, read from its number (R260) -/

theorem signF_eq_decide (p : Word) : signF p = decide (2 ^ 31 ≤ p.toNat) := BitVec.msb_eq_decide p

theorem expF_eq_div (p : Word) : expF p = p.toNat / 2 ^ 23 % 2 ^ 8 := by
  rw [expF, extractLsb'_eq_ofNat_div, BitVec.toNat_ofNat]

theorem manF_eq_mod (p : Word) : manF p = p.toNat % 2 ^ 23 := by
  rw [manF, extractLsb'_eq_ofNat_div, BitVec.toNat_ofNat, Nat.pow_zero, Nat.div_one]

theorem expF_lt (p : Word) : expF p < 256 := (p.extractLsb' 23 8).isLt

theorem manF_lt (p : Word) : manF p < 2 ^ 23 := (p.extractLsb' 0 23).isLt

/-- The low 31 bits are the exponent and the mantissa. -/
theorem toNat_mod_eq_fields (p : Word) : p.toNat % 2 ^ 31 = expF p * 2 ^ 23 + manF p := by
  rw [expF_eq_div, manF_eq_mod]
  omega

/-- A pattern is its sign and its low 31 bits. -/
theorem eq_of_signF_of_toNat_mod {p q : Word} (hs : signF p = signF q) (hm : p.toNat % 2 ^ 31 = q.toNat % 2 ^ 31) :
    p = q := by
  apply BitVec.eq_of_toNat_eq
  have hp := p.isLt
  have hq := q.isLt
  simp only [signF_eq_decide, decide_eq_decide] at hs
  omega

/-! ### The pattern of given fields (R263) -/

section Pack

variable {e m : Nat} (he : e < 2 ^ 8) (hm : m < 2 ^ 23) (s : Bool)
include he hm

theorem toNat_packF : (packF s e m).toNat = s.toNat * 2 ^ 31 + e * 2 ^ 23 + m := by
  have hs := s.toNat_lt
  have hbit : BitVec.ofBool s = BitVec.ofNat 1 s.toNat := by cases s <;> rfl
  rw [packF, hbit, ofNat_append_ofNat, ofNat_append_ofNat, BitVec.toNat_ofNat]
  omega

theorem signF_packF : signF (packF s e m) = s := by
  rw [signF_eq_decide, toNat_packF he hm]
  cases s
  · exact decide_eq_false (by rw [Bool.toNat_false]; omega)
  · exact decide_eq_true (by rw [Bool.toNat_true]; omega)

theorem expF_packF : expF (packF s e m) = e := by
  rw [expF_eq_div, toNat_packF he hm]
  omega

theorem manF_packF : manF (packF s e m) = m := by
  rw [manF_eq_mod, toNat_packF he hm]
  omega

end Pack

theorem infF_eq (s : Bool) : infF s = if s = true then 0xFF800000#32 else 0x7F800000#32 := by cases s <;> rfl

theorem zeroF_eq (s : Bool) : zeroF s = if s = true then 0x80000000#32 else 0x00000000#32 := by cases s <;> rfl

/-! ### Classes (R261) -/

section Classes

variable {p : Word}

theorem classF_eq_zero_iff : classF p = .zero ↔ expF p = 0 := by
  unfold classF
  split_ifs <;> simp [*]

theorem classF_eq_normal_iff : classF p = .normal ↔ expF p ≠ 0 ∧ expF p ≠ 255 := by
  unfold classF
  split_ifs <;> simp [*]

theorem classF_eq_inf_iff : classF p = .inf ↔ expF p = 255 ∧ manF p = 0 := by
  unfold classF
  split_ifs <;> simp [*]

theorem classF_eq_nan_iff : classF p = .nan ↔ expF p = 255 ∧ manF p ≠ 0 := by
  unfold classF
  split_ifs <;> simp [*]

end Classes

/-! ### The exact value of a NORMAL pattern (R261) -/

theorem sigF_pos (p : Word) : 0 < sigF p := Nat.add_pos_left (Nat.two_pow_pos 23) _

theorem sigF_lt (p : Word) : sigF p < 2 ^ 24 := by
  have := manF_lt p
  rw [sigF]
  omega

/-- The magnitude of the value is the significand times a power of two. -/
theorem valF_eq_sigF (p : Word) :
    valF p = (if signF p then -1 else 1) * ((sigF p : ℚ) * (2 : ℚ) ^ ((expF p : ℤ) - 150)) := by
  have hexp : (2 : ℚ) ^ ((expF p : ℤ) - 127) = 2 ^ 23 * (2 : ℚ) ^ ((expF p : ℤ) - 150) := by
    rw [← zpow_natCast, ← zpow_add₀ two_ne_zero]
    congr 1
    push_cast
    ring
  rw [valF, sigF, hexp]
  push_cast
  ring

theorem abs_valF (p : Word) : |valF p| = (sigF p : ℚ) * (2 : ℚ) ^ ((expF p : ℤ) - 150) := by
  have hnonneg : 0 ≤ (sigF p : ℚ) * (2 : ℚ) ^ ((expF p : ℤ) - 150) := by positivity
  rw [valF_eq_sigF, abs_mul, abs_of_nonneg hnonneg]
  split <;> simp

theorem valF_of_positive {p : Word} (h : signF p = false) : valF p = |valF p| := by
  rw [abs_valF, valF_eq_sigF, h]
  simp

theorem valF_of_negative {p : Word} (h : signF p = true) : valF p = -|valF p| := by
  rw [abs_valF, valF_eq_sigF, h]
  simp

theorem valF_eq_sigInt (p : Word) : valF p = (sigInt p : ℚ) * (2 : ℚ) ^ ((expF p : ℤ) - 150) := by
  rw [valF_eq_sigF, sigInt]
  split <;> push_cast <;> ring

end Sys2Proof.Machine

/-! Rounding (43_float.md R263): each step of `roundPack` on the exact rational it stands for, and `roundPack` as the
rational rounded once. -/

namespace Sys2Proof.Machine

/-! ### Nearest integers -/

/-- A fraction of at most a half is dropped, of exactly a half to the even integer. -/
theorem nearestEven_add_fraction_down {q : ℕ} {f : ℚ} (h0 : 0 ≤ f) (h1 : f ≤ 1 / 2) (htie : f = 1 / 2 → q % 2 = 0) :
    NearestEven (q + f) (q : ℕ) := by
  rw [NearestEven, Int.cast_natCast, add_sub_cancel_left, abs_of_nonneg h0]
  exact ⟨h1, fun h => by have := htie h; omega⟩

/-- A fraction of at least a half is rounded up, of exactly a half to the even integer. -/
theorem nearestEven_add_fraction_up {q : ℕ} {f : ℚ} (h0 : 1 / 2 ≤ f) (h1 : f < 1) (htie : f = 1 / 2 → q % 2 = 1) :
    NearestEven (q + f) (q + 1 : ℕ) := by
  rw [NearestEven, Int.cast_natCast, Nat.cast_succ, add_sub_add_left_eq_sub, abs_of_neg (by linarith)]
  exact ⟨by linarith, fun h => by have := htie (by linarith); omega⟩

/-- Twice the remainder against the divisor is the fraction against a half. -/
theorem nearestEven_roundEven (num : Nat) {den : Nat} (hden : 0 < den) :
    NearestEven ((num : ℚ) / den) (roundEven num den : ℕ) := by
  have hd : (0 : ℚ) < den := Nat.cast_pos.2 hden
  have hq : (num : ℚ) / den = (num / den : ℕ) + ((num % den : ℕ) : ℚ) / den := by
    rw [div_eq_iff hd.ne', add_mul, div_mul_cancel₀ _ hd.ne']
    exact_mod_cast (Nat.div_add_mod' num den).symm
  have hr0 : (0 : ℚ) ≤ ((num % den : ℕ) : ℚ) / den := by positivity
  have hr1 : ((num % den : ℕ) : ℚ) / den < 1 := (div_lt_one hd).2 (Nat.cast_lt.2 (Nat.mod_lt _ hden))
  have hlow : 2 * (num % den) < den ↔ ((num % den : ℕ) : ℚ) / den < 1 / 2 := by
    rw [div_lt_div_iff₀ hd two_pos, mul_comm 2, one_mul]
    exact_mod_cast Iff.rfl
  have hhigh : den < 2 * (num % den) ↔ 1 / 2 < ((num % den : ℕ) : ℚ) / den := by
    rw [div_lt_div_iff₀ two_pos hd, mul_comm 2, one_mul]
    exact_mod_cast Iff.rfl
  rw [hq]
  simp only [roundEven, hlow, hhigh]
  split_ifs with h1 h2 h3
  · exact nearestEven_add_fraction_down hr0 h1.le fun h => absurd h h1.ne
  · exact nearestEven_add_fraction_up h2.le hr1 fun h => absurd h h2.ne'
  · exact nearestEven_add_fraction_down hr0 (not_lt.1 h2) fun _ => h3
  · exact nearestEven_add_fraction_up (not_lt.1 h1) hr1 fun _ => by omega

theorem NearestEven.neg {q : ℚ} {n : ℤ} (h : NearestEven q n) : NearestEven (-q) (-n) := by
  obtain ⟨hdist, htie⟩ := h
  have habs : |-q - ((-n : ℤ) : ℚ)| = |q - n| := by
    rw [← abs_neg]
    push_cast
    ring_nf
  rw [NearestEven, habs]
  exact ⟨hdist, fun h => by have := htie h; omega⟩

/-- No integer lies between a rational and its nearest integer. -/
theorem NearestEven.le_of_le {q : ℚ} {n k : ℤ} (h : NearestEven q n) (hk : (k : ℚ) ≤ q) : k ≤ n := by
  obtain ⟨-, hlow⟩ := abs_le.1 h.1
  have : (k : ℚ) < (n + 1 : ℤ) := by push_cast; linarith
  exact Int.lt_add_one_iff.1 (Int.cast_lt.1 this)

theorem NearestEven.le_of_ge {q : ℚ} {n k : ℤ} (h : NearestEven q n) (hk : q ≤ k) : n ≤ k := by
  have := h.neg.le_of_le (k := -k) (by push_cast; linarith)
  omega

/-- An integer is its own nearest integer. -/
theorem NearestEven.eq_of_int {n k : ℤ} (h : NearestEven k n) : n = k :=
  le_antisymm (h.le_of_ge le_rfl) (h.le_of_le le_rfl)

/-! ### Fractions and their binary exponents -/

theorem two_zpow_of_nonneg {e : ℤ} (he : 0 ≤ e) : (2 : ℚ) ^ e = (2 ^ e.toNat : ℕ) := by
  conv_lhs => rw [← Int.toNat_of_nonneg he]
  rw [zpow_natCast]
  push_cast
  rfl

theorem scaleFrac_snd_pos (num : Nat) {den : Nat} (hden : 0 < den) (e : ℤ) : 0 < (scaleFrac num den e).2 := by
  unfold scaleFrac
  split_ifs
  · exact hden
  · exact Nat.mul_pos hden (Nat.two_pow_pos _)

theorem scaleFrac_value (num den : Nat) (e : ℤ) :
    ((scaleFrac num den e).1 : ℚ) / (scaleFrac num den e).2 = (num : ℚ) / den * (2 : ℚ) ^ e := by
  unfold scaleFrac
  split_ifs with he
  · rw [two_zpow_of_nonneg he]
    push_cast
    ring
  · rw [← neg_neg e, zpow_neg, neg_neg, two_zpow_of_nonneg (e := -e) (by omega)]
    push_cast
    rw [div_mul_eq_div_div, div_eq_mul_inv (_ / _)]

/-- The floating exponent of a positive fraction (R263). -/
theorem ilog2_spec {num den : Nat} (hnum : 0 < num) (hden : 0 < den) :
    (2 : ℚ) ^ ilog2 num den ≤ (num : ℚ) / den ∧ (num : ℚ) / den < (2 : ℚ) ^ (ilog2 num den + 1) := by
  have hd : (0 : ℚ) < den := Nat.cast_pos.2 hden
  have hn0 : (2 : ℚ) ^ (num.log2 : ℤ) ≤ num := by exact_mod_cast Nat.log2_self_le hnum.ne'
  have hn1 : (num : ℚ) < (2 : ℚ) ^ ((num.log2 : ℤ) + 1) := by exact_mod_cast Nat.lt_log2_self (n := num)
  have hd0 : (2 : ℚ) ^ (den.log2 : ℤ) ≤ den := by exact_mod_cast Nat.log2_self_le hden.ne'
  have hd1 : (den : ℚ) < (2 : ℚ) ^ ((den.log2 : ℤ) + 1) := by exact_mod_cast Nat.lt_log2_self (n := den)
  have hbelow : (2 : ℚ) ^ ((num.log2 : ℤ) - den.log2 - 1) ≤ num / den := by
    rw [le_div_iff₀ hd]
    calc (2 : ℚ) ^ ((num.log2 : ℤ) - den.log2 - 1) * den
        ≤ 2 ^ ((num.log2 : ℤ) - den.log2 - 1) * 2 ^ ((den.log2 : ℤ) + 1) := by gcongr
      _ = 2 ^ (num.log2 : ℤ) := by rw [← zpow_add₀ two_ne_zero]; ring_nf
      _ ≤ num := hn0
  have habove : (num : ℚ) / den < (2 : ℚ) ^ ((num.log2 : ℤ) - den.log2 + 1) := by
    rw [div_lt_iff₀ hd]
    calc (num : ℚ) < 2 ^ ((num.log2 : ℤ) + 1) := hn1
      _ = 2 ^ ((num.log2 : ℤ) - den.log2 + 1) * 2 ^ (den.log2 : ℤ) := by rw [← zpow_add₀ two_ne_zero]; ring_nf
      _ ≤ 2 ^ ((num.log2 : ℤ) - den.log2 + 1) * den := by gcongr
  have htest : (scaleFrac num den (-((num.log2 : ℤ) - den.log2))).2 ≤
      (scaleFrac num den (-((num.log2 : ℤ) - den.log2))).1 ↔ (2 : ℚ) ^ ((num.log2 : ℤ) - den.log2) ≤ num / den := by
    rw [← Nat.cast_le (α := ℚ), ← one_le_div₀ (Nat.cast_pos.2 (scaleFrac_snd_pos num hden _)), scaleFrac_value,
      zpow_neg, ← div_eq_mul_inv, one_le_div₀ (by positivity)]
  unfold ilog2
  dsimp only
  split_ifs with h
  · exact ⟨htest.1 h, habove⟩
  · rw [sub_add_cancel]
    exact ⟨hbelow, not_le.1 (htest.not.1 h)⟩

/-! ### Packing -/

/-- A significand in [2^23, 2^24] is packed as the last four lines of R263 say. -/
theorem packed_packRounded (s : Bool) {n : Nat} (e : ℤ) (h0 : 2 ^ 23 ≤ n) (h1 : n ≤ 2 ^ 24) :
    Packed s n e (packRounded s n e) := by
  have hcarry : (n : ℤ) = 2 ^ 24 ↔ n = 2 ^ 24 := by norm_cast
  have hcarried : (if n = 2 ^ 24 then 2 ^ 23 else (n : ℤ)) = ((if n = 2 ^ 24 then 2 ^ 23 else n : ℕ) : ℤ) := by
    push_cast
    rfl
  have hlow : 2 ^ 23 ≤ (if n = 2 ^ 24 then 2 ^ 23 else n) := by split_ifs <;> omega
  have hhigh : (if n = 2 ^ 24 then 2 ^ 23 else n) < 2 ^ 24 := by split_ifs <;> omega
  simp only [Packed, packRounded, hcarry, hcarried]
  generalize (if n = 2 ^ 24 then 2 ^ 23 else n) = n' at *
  generalize (if n = 2 ^ 24 then e + 1 else e) = e'
  split_ifs with hover hunder
  · exact ⟨signF_packF (by decide) (by decide) s, .inl ⟨hover, expF_packF (by decide) (by decide) s,
      manF_packF (by decide) (by decide) s⟩⟩
  · exact ⟨signF_packF (by decide) (by decide) s, .inr (.inl ⟨hunder, expF_packF (by decide) (by decide) s,
      manF_packF (by decide) (by decide) s⟩)⟩
  · have he : (e' + 127).toNat < 2 ^ 8 := by omega
    have hm : n' - 2 ^ 23 < 2 ^ 23 := by omega
    rw [signF_packF he hm, expF_packF he hm, manF_packF he hm]
    exact ⟨rfl, .inr (.inr ⟨by omega, by omega, by omega, by omega⟩)⟩

/-! ### The one rounding (R263) -/

/-- `roundPack` rounds the exact positive rational its arguments stand for. -/
theorem roundsTo_roundPack (s : Bool) {num den : Nat} (hnum : 0 < num) (hden : 0 < den) (ex : ℤ) :
    RoundsTo s ((num : ℚ) / den * (2 : ℚ) ^ ex) (roundPack s num den ex) := by
  obtain ⟨hlow, hhigh⟩ := ilog2_spec hnum hden
  unfold roundPack
  dsimp only
  generalize ilog2 num den = l at *
  have hq := scaleFrac_value num den (23 - l)
  have hnear := nearestEven_roundEven (scaleFrac num den (23 - l)).1 (scaleFrac_snd_pos num hden (23 - l))
  rw [hq] at hnear
  have hq0 : (2 : ℚ) ^ (23 : ℤ) ≤ (num : ℚ) / den * 2 ^ (23 - l) := by
    calc (2 : ℚ) ^ (23 : ℤ) = 2 ^ l * 2 ^ (23 - l) := by rw [← zpow_add₀ two_ne_zero, add_sub_cancel]
      _ ≤ _ := by gcongr
  have hq1 : (num : ℚ) / den * 2 ^ (23 - l) ≤ (2 : ℚ) ^ (24 : ℤ) := by
    calc (num : ℚ) / den * 2 ^ (23 - l) ≤ 2 ^ (l + 1) * 2 ^ (23 - l) := by gcongr
      _ = 2 ^ (24 : ℤ) := by rw [← zpow_add₀ two_ne_zero, show l + 1 + (23 - l) = 24 by ring]
  have hn0 := hnear.le_of_le (k := 2 ^ 23) (by push_cast; exact_mod_cast hq0)
  have hn1 := hnear.le_of_ge (k := 2 ^ 24) (by push_cast; exact_mod_cast hq1)
  refine ⟨l + ex, _, ?_, ?_, ?_, packed_packRounded s (l + ex) (by exact_mod_cast hn0) (by exact_mod_cast hn1)⟩
  · rw [zpow_add₀ two_ne_zero]
    gcongr
  · rw [add_right_comm, zpow_add₀ two_ne_zero]
    gcongr
  · have hscale : (num : ℚ) / den * 2 ^ ex / 2 ^ (l + ex - 23) = num / den * 2 ^ (23 - l) := by
      rw [mul_div_assoc, ← zpow_sub₀ two_ne_zero]
      ring_nf
    rwa [hscale]

end Sys2Proof.Machine

/-! Addition, multiplication and division (43_float.md R264, R266, R267): the classes decide every case but the last, in
which the arguments of `roundPack` stand for the exact rational result. -/

namespace Sys2Proof.Machine

/-! ### Two NORMAL patterns -/

/-- `sumInt` is the exact sum in units of the smaller exponent's last place. -/
theorem valF_add_valF (a b : Word) :
    valF a + valF b = (sumInt a b : ℚ) * (2 : ℚ) ^ (((min (expF a) (expF b) : ℕ) : ℤ) - 150) := by
  have hsplit : ∀ {m e : ℕ}, m ≤ e → (2 : ℚ) ^ ((e : ℤ) - 150) = 2 ^ (e - m) * 2 ^ ((m : ℤ) - 150) := by
    intro m e hm
    rw [← zpow_natCast, ← zpow_add₀ two_ne_zero, Nat.cast_sub hm, sub_add_sub_cancel]
  rw [valF_eq_sigInt, valF_eq_sigInt, hsplit (min_le_left (expF a) (expF b)), hsplit (min_le_right (expF a) (expF b)),
    sumInt]
  push_cast
  ring

theorem roundsTo_fadd_of_normal {a b : Word} (ha : classF a = .normal) (hb : classF b = .normal)
    (h : valF a + valF b ≠ 0) : RoundsTo (decide (valF a + valF b < 0)) |valF a + valF b| (fadd a b) := by
  have hpow : (0 : ℚ) < 2 ^ (((min (expF a) (expF b) : ℕ) : ℤ) - 150) := by positivity
  have hr : sumInt a b ≠ 0 := fun h0 => h (by rw [valF_add_valF, h0, Int.cast_zero, zero_mul])
  have hsign : valF a + valF b < 0 ↔ sumInt a b < 0 := by
    rw [valF_add_valF, ← not_le, mul_nonneg_iff_of_pos_right hpow, not_le, Int.cast_lt_zero]
  have habs : |valF a + valF b| = (((sumInt a b).natAbs : ℕ) : ℚ) / (1 : ℕ) *
      2 ^ (((min (expF a) (expF b) : ℕ) : ℤ) - 150) := by
    rw [valF_add_valF, abs_mul, abs_of_pos hpow, Nat.cast_natAbs, Int.cast_abs, Nat.cast_one, div_one]
  rw [fadd, ha, hb, habs]
  simp only [hsign, if_neg hr]
  exact roundsTo_roundPack _ (Int.natAbs_pos.2 hr) one_pos _

theorem fadd_of_normal_of_sum_zero {a b : Word} (ha : classF a = .normal) (hb : classF b = .normal)
    (h : valF a + valF b = 0) : fadd a b = 0x00000000#32 := by
  rw [valF_add_valF, mul_eq_zero_iff_right (by positivity), Int.cast_eq_zero] at h
  rw [fadd, ha, hb]
  exact if_pos h

theorem roundsTo_fmul_of_normal {a b : Word} (ha : classF a = .normal) (hb : classF b = .normal) :
    RoundsTo (signF a ^^ signF b) (|valF a| * |valF b|) (fmul a b) := by
  have hprod : |valF a| * |valF b| =
      ((sigF a * sigF b : ℕ) : ℚ) / (1 : ℕ) * 2 ^ ((expF a : ℤ) + expF b - 300) := by
    rw [abs_valF, abs_valF, mul_mul_mul_comm, ← zpow_add₀ two_ne_zero, Nat.cast_mul, Nat.cast_one, div_one]
    ring_nf
  rw [fmul, ha, hb, hprod]
  exact roundsTo_roundPack _ (Nat.mul_pos (sigF_pos a) (sigF_pos b)) one_pos _

theorem roundsTo_fdiv_of_normal {a b : Word} (ha : classF a = .normal) (hb : classF b = .normal) :
    RoundsTo (signF a ^^ signF b) (|valF a| / |valF b|) (fdiv a b) := by
  have hquot : |valF a| / |valF b| = (sigF a : ℚ) / (sigF b : ℕ) * 2 ^ ((expF a : ℤ) - expF b) := by
    rw [abs_valF, abs_valF, mul_div_mul_comm, ← zpow_sub₀ two_ne_zero, sub_sub_sub_cancel_right]
  rw [fdiv, ha, hb, hquot]
  exact roundsTo_roundPack _ (sigF_pos a) (sigF_pos b) _

/-! ### The obligations -/

/-- Settles O44: the classes decide all but two NORMAL operands, whose sum `sumInt` states exactly. -/
theorem additionIsRoundedExactly : Obligations.AdditionIsRoundedExactly := by
  intro a b
  refine ⟨?_, fun ha hb => ?_, ?_, ?_, fun ha hb => ?_, fun ha hb => ?_, fun ha hb => ?_, fun ha hb => ⟨?_, ?_, ?_⟩⟩
  · rintro (h | h)
    · rw [fadd, h]
      rfl
    · rw [fadd, h]
      cases classF a <;> rfl
  · rw [fadd, ha, hb]
    rfl
  · rintro ha (hb | hb) <;> rw [fadd, ha, hb]
  · rintro hb (ha | ha) <;> rw [fadd, ha, hb]
  · rw [fadd, ha, hb]
    simp only [zeroF_eq, Bool.and_eq_true]
  · rw [fadd, ha, hb]
  · rw [fadd, ha, hb]
  · exact fadd_of_normal_of_sum_zero ha hb
  · intro h
    have := roundsTo_fadd_of_normal ha hb h.ne'
    rwa [abs_of_pos h, decide_eq_false h.not_gt] at this
  · intro h
    have := roundsTo_fadd_of_normal ha hb h.ne
    rwa [abs_of_neg h, decide_eq_true h] at this

/-- Settles O45: the classes decide all but two NORMAL operands, whose significands and exponents give the product. -/
theorem multiplicationIsRoundedExactly : Obligations.MultiplicationIsRoundedExactly := by
  intro a b
  dsimp only
  rw [← infF_eq, ← zeroF_eq]
  refine ⟨?_, ?_, ?_, ?_, roundsTo_fmul_of_normal⟩
  · rintro (h | h)
    · rw [fmul, h]
      rfl
    · rw [fmul, h]
      cases classF a <;> rfl
  · rintro (⟨ha, hb⟩ | ⟨ha, hb⟩) <;> rw [fmul, ha, hb] <;> rfl
  · rintro (⟨ha, hb | hb⟩ | ⟨ha, hb⟩) <;> rw [fmul, ha, hb]
  · rintro (⟨ha, hb | hb⟩ | ⟨ha, hb⟩) <;> rw [fmul, ha, hb]

/-- Settles O46: the classes decide all but two NORMAL operands, whose significands and exponents give the quotient. -/
theorem divisionIsRoundedExactly : Obligations.DivisionIsRoundedExactly := by
  intro a b
  dsimp only
  rw [← infF_eq, ← zeroF_eq]
  refine ⟨?_, ?_, ?_, ?_, fun ha hb => ?_, fun ha hb => ?_, roundsTo_fdiv_of_normal⟩
  · rintro (h | h)
    · rw [fdiv, h]
      rfl
    · rw [fdiv, h]
      cases classF a <;> rfl
  · rintro (⟨ha, hb⟩ | ⟨ha, hb⟩) <;> rw [fdiv, ha, hb] <;> rfl
  · rintro ha (hb | hb) <;> rw [fdiv, ha, hb]
  · rintro (ha | ha) hb <;> rw [fdiv, ha, hb]
  · rw [fdiv, ha, hb]
  · rw [fdiv, ha, hb]

end Sys2Proof.Machine

/-! Square root (43_float.md R268): the bitwise integer root is the natural root, its nearest integer is strict in the
squares, and the significand of a NORMAL pattern leaves no room for a carry. -/

namespace Sys2Proof.Machine

/-! ### The integer root -/

theorem isqrtFrom_eq_sqrt {n : Nat} (k : Nat) {lo : Nat} (hlow : lo * lo ≤ n) (hhigh : n < (lo + 2 ^ k) * (lo + 2 ^ k)) :
    isqrtFrom n lo k = n.sqrt := by
  induction k generalizing lo with
  | zero => exact Nat.eq_sqrt.2 ⟨hlow, hhigh⟩
  | succ k ih =>
    rw [isqrtFrom]
    split_ifs with h
    · refine ih h ?_
      rwa [add_assoc, ← two_mul, ← pow_succ']
    · exact ih hlow (not_le.1 h)

theorem sqrtNearest_eq {n : Nat} (hn : n < 2 ^ 48) :
    sqrtNearest n = if n.sqrt * (n.sqrt + 1) < n then n.sqrt + 1 else n.sqrt := by
  rw [sqrtNearest, isqrtFrom_eq_sqrt 24 (Nat.zero_le n) (by omega)]

/-- `n` is strictly between the squares of `sqrtNearest n` less and more a half. -/
theorem sqrtNearest_strict {n : Nat} (h0 : 0 < n) (hn : n < 2 ^ 48) :
    ((sqrtNearest n : ℚ) - 1 / 2) ^ 2 < n ∧ (n : ℚ) < ((sqrtNearest n : ℚ) + 1 / 2) ^ 2 := by
  have hpos : (1 : ℚ) ≤ n.sqrt := Nat.one_le_cast.2 (Nat.sqrt_pos.2 h0)
  have hlow : (n.sqrt * n.sqrt : ℚ) ≤ n := by exact_mod_cast Nat.sqrt_le n
  have hhigh : (n : ℚ) < (n.sqrt + 1) * (n.sqrt + 1) := by exact_mod_cast Nat.lt_succ_sqrt n
  rw [sqrtNearest_eq hn]
  split_ifs with h
  · have hmid : (n.sqrt * (n.sqrt + 1) + 1 : ℚ) ≤ n := by exact_mod_cast h
    push_cast
    constructor <;> nlinarith only [hmid, hhigh, hpos]
  · have hmid : (n : ℚ) ≤ n.sqrt * (n.sqrt + 1) := by exact_mod_cast not_lt.1 h
    constructor <;> nlinarith only [hmid, hlow, hpos]

/-- The scaled significands of `fsqrt` have a root of 24 bits that rounding does not carry. -/
theorem sqrtNearest_bounds {n : Nat} (h0 : 2 ^ 46 ≤ n) (h1 : n ≤ (2 ^ 24 - 1) * 2 ^ 24) :
    2 ^ 23 ≤ sqrtNearest n ∧ sqrtNearest n < 2 ^ 24 := by
  have hlow : 2 ^ 23 ≤ n.sqrt := Nat.le_sqrt.2 (by omega)
  have hhigh : n.sqrt < 2 ^ 24 := Nat.sqrt_lt.2 (by omega)
  rw [sqrtNearest_eq (by omega)]
  split_ifs with h
  · refine ⟨by omega, lt_of_le_of_ne hhigh fun hcarry => ?_⟩
    rw [show n.sqrt = 2 ^ 24 - 1 by omega] at h
    omega
  · exact ⟨hlow, hhigh⟩

/-! ### Packing the root -/

/-- The root of `n` times an even power of two, with its exponent. -/
theorem rootRoundsTo_packRounded {n : Nat} (h0 : 2 ^ 46 ≤ n) (h1 : n ≤ (2 ^ 24 - 1) * 2 ^ 24) (k : ℤ) :
    RootRoundsTo ((n : ℚ) * (2 ^ k) ^ 2) (packRounded false (sqrtNearest n) (k + 23)) := by
  obtain ⟨hq0, hq1⟩ := sqrtNearest_bounds h0 h1
  obtain ⟨hbelow, habove⟩ := sqrtNearest_strict (n := n) (by omega) (by omega)
  have hk : (0 : ℚ) < (2 ^ k) ^ 2 := by positivity
  have hn0 : ((2 : ℚ) ^ 23) ^ 2 ≤ n := by exact_mod_cast h0
  have hn1 : (n : ℚ) < (2 ^ 24) ^ 2 := by
    have : n < (2 ^ 24) ^ 2 := by omega
    exact_mod_cast this
  have he0 : (2 : ℚ) ^ (k + 23) = 2 ^ 23 * 2 ^ k := by rw [zpow_add₀ two_ne_zero, mul_comm]; rfl
  have he1 : (2 : ℚ) ^ (k + 23 + 1) = 2 ^ 24 * 2 ^ k := by
    rw [add_assoc, zpow_add₀ two_ne_zero, mul_comm]
    rfl
  refine ⟨k + 23, sqrtNearest n, by omega, ?_, ?_, ?_, ?_, packed_packRounded false (k + 23) hq0 hq1.le⟩
  · rw [he0, mul_pow]
    gcongr
  · rw [he1, mul_pow]
    gcongr
  · rw [add_sub_cancel_right, mul_pow]
    exact mul_lt_mul_of_pos_right hbelow hk
  · rw [add_sub_cancel_right, mul_pow]
    exact mul_lt_mul_of_pos_right habove hk

/-- Without a carry and in the normal range, the exponent field is the exponent with its bias. -/
theorem expF_packRounded {s : Bool} {n : Nat} {e : ℤ} (h0 : 2 ^ 23 ≤ n) (h1 : n < 2 ^ 24) (he0 : -126 ≤ e)
    (he1 : e ≤ 127) : (expF (packRounded s n e) : ℤ) = e + 127 := by
  have hcarry : (n : ℤ) ≠ 2 ^ 24 := by omega
  obtain ⟨-, h⟩ := packed_packRounded s e h0 h1.le
  rw [if_neg hcarry] at h
  omega

/-! ### `fsqrt` of a positive NORMAL pattern -/

/-- The root of the significand scaled by 2^23 or 2^24: its value, and an exponent in range. -/
theorem rootRoundsTo_of_scaled {a p : Word} {j : ℕ} {k : ℤ} (ha : classF a = .normal) (hs : signF a = false)
    (hj : j = 23 ∨ j = 24) (hk : 2 * k + j = (expF a : ℤ) - 150)
    (hp : p = packRounded false (sqrtNearest (sigF a * 2 ^ j)) (k + 23)) :
    RootRoundsTo (valF a) p ∧ 64 ≤ expF p ∧ expF p ≤ 190 := by
  obtain ⟨he0, he1⟩ := classF_eq_normal_iff.1 ha
  have he := expF_lt a
  have hsig := sigF_lt a
  have hscaled : 2 ^ 46 ≤ sigF a * 2 ^ j ∧ sigF a * 2 ^ j ≤ (2 ^ 24 - 1) * 2 ^ 24 := by
    have hsig0 : 2 ^ 23 ≤ sigF a := Nat.le_add_right _ _
    rcases hj with rfl | rfl <;> omega
  obtain ⟨h0, h1⟩ := hscaled
  obtain ⟨hq0, hq1⟩ := sqrtNearest_bounds h0 h1
  have hval : valF a = ((sigF a * 2 ^ j : ℕ) : ℚ) * (2 ^ k) ^ 2 := by
    have hpow : (2 : ℚ) ^ (2 * k) = (2 ^ k) ^ 2 := by rw [mul_comm, zpow_mul, zpow_ofNat]
    rw [valF_of_positive hs, abs_valF, ← hk, zpow_add₀ two_ne_zero, hpow, zpow_natCast, Nat.cast_mul, Nat.cast_pow,
      Nat.cast_ofNat]
    ring
  have hexp := expF_packRounded (s := false) (e := k + 23) hq0 hq1 (by omega) (by omega)
  rw [hval, hp]
  exact ⟨rootRoundsTo_packRounded h0 h1 k, by omega, by omega⟩

/-- `fsqrt` scales by the one of 2^23 and 2^24 that leaves an even power of two. -/
theorem rootRoundsTo_fsqrt {a : Word} (ha : classF a = .normal) (hs : signF a = false) :
    RootRoundsTo (valF a) (fsqrt a) ∧ 64 ≤ expF (fsqrt a) ∧ expF (fsqrt a) ≤ 190 := by
  have hsqrt : fsqrt a =
      if expF a % 2 = 0 then packRounded false (sqrtNearest (sigF a * 2 ^ 24)) (((expF a : ℤ) - 150) / 2 + 11)
      else packRounded false (sqrtNearest (sigF a * 2 ^ 23)) (((expF a : ℤ) - 149) / 2 + 11) := by
    rw [fsqrt, ha, hs]
    simp only [Bool.false_eq_true, if_false]
  by_cases heven : expF a % 2 = 0
  · rw [if_pos heven] at hsqrt
    refine rootRoundsTo_of_scaled (k := ((expF a : ℤ) - 150) / 2 - 12) ha hs (.inr rfl) (by omega) (hsqrt.trans ?_)
    ring_nf
  · rw [if_neg heven] at hsqrt
    refine rootRoundsTo_of_scaled (k := ((expF a : ℤ) - 149) / 2 - 12) ha hs (.inl rfl) (by omega) (hsqrt.trans ?_)
    ring_nf

/-! ### The obligation -/

/-- Settles O47: the classes and the sign decide all but a positive NORMAL operand, whose scaled significand has the root. -/
theorem squareRootIsRoundedExactly : Obligations.SquareRootIsRoundedExactly := by
  intro a
  refine ⟨fun ha => ?_, fun ha => ?_, ?_, fun ha hs => ?_, rootRoundsTo_fsqrt⟩
  · rw [fsqrt, ha]
    rfl
  · rw [fsqrt, ha, ← zeroF_eq]
  · rintro (ha | ha) hs <;> rw [fsqrt, ha, hs] <;> rfl
  · rw [fsqrt, ha, hs]
    rfl

end Sys2Proof.Machine

/-! Comparison (43_float.md R269): the comparisons are those of `orderF`, which orders NORMAL patterns by value and puts
each class beyond the ones below it. -/

namespace Sys2Proof.Machine

/-! ### The signed magnitude -/

theorem orderF_of_expF_zero {p : Word} (h : expF p = 0) : orderF p = 0 := if_pos h

theorem orderF_of_expF_ne_zero {p : Word} (h : expF p ≠ 0) :
    orderF p = if signF p = true then -((p.toNat % 2 ^ 31 : ℕ) : ℤ) else ((p.toNat % 2 ^ 31 : ℕ) : ℤ) := if_neg h

theorem abs_orderF (p : Word) : |orderF p| = if expF p = 0 then 0 else (expF p : ℤ) * 2 ^ 23 + manF p := by
  by_cases h : expF p = 0
  · rw [orderF_of_expF_zero h, if_pos h, abs_zero]
  · rw [orderF_of_expF_ne_zero h, if_neg h, apply_ite abs, abs_neg, ite_self, Nat.abs_cast, toNat_mod_eq_fields]
    push_cast
    rfl

theorem orderF_neg_iff {p : Word} (h : expF p ≠ 0) : orderF p < 0 ↔ signF p = true := by
  have hpos := toNat_mod_eq_fields p
  rw [orderF_of_expF_ne_zero h]
  split_ifs with hs
  · exact iff_of_true (by omega) hs
  · exact iff_of_false (by omega) hs

theorem orderF_ne_zero {p : Word} (h : expF p ≠ 0) : orderF p ≠ 0 := by
  rw [ne_eq, ← abs_eq_zero, abs_orderF, if_neg h]
  omega

/-- `ford` is injective on normalised patterns. -/
theorem eq_of_orderF_eq {p q : Word} (h : expF p ≠ 0) (heq : orderF p = orderF q) : p = q := by
  have hq : expF q ≠ 0 := fun h0 => orderF_ne_zero h (heq.trans (orderF_of_expF_zero h0))
  have hsign : signF p = signF q := by
    rw [Bool.eq_iff_iff, ← orderF_neg_iff h, ← orderF_neg_iff hq, heq]
  rw [orderF_of_expF_ne_zero h, orderF_of_expF_ne_zero hq, hsign] at heq
  exact eq_of_signF_of_toNat_mod hsign (by split_ifs at heq <;> omega)

/-! ### The comparisons are those of the signed magnitude -/

theorem ford_fnorm (p : Word) : ford (fnorm p) = orderF p := by
  rw [fnorm]
  split_ifs with h
  · rw [orderF_of_expF_zero h]
    rfl
  · rw [orderF_of_expF_ne_zero h, ford, extractLsb'_eq_ofNat_div, BitVec.toNat_ofNat, Nat.pow_zero, Nat.div_one]

theorem flt_iff {a b : Word} : flt a b = true ↔ orderF a < orderF b := by
  rw [flt, ford_fnorm, ford_fnorm, decide_eq_true_iff]

theorem fle_iff {a b : Word} : fle a b = true ↔ orderF a ≤ orderF b := by
  rw [fle, ford_fnorm, ford_fnorm, decide_eq_true_iff]

theorem feq_iff {a b : Word} : feq a b = true ↔ orderF a = orderF b := by
  rw [feq, beq_iff_eq]
  refine ⟨fun h => by rw [← ford_fnorm, h, ford_fnorm], fun h => ?_⟩
  by_cases ha : expF a = 0
  · have hb : expF b = 0 := by
      by_contra hb
      exact orderF_ne_zero hb (h.symm.trans (orderF_of_expF_zero ha))
    rw [fnorm, fnorm, if_pos ha, if_pos hb]
  · rw [eq_of_orderF_eq ha h]

/-! ### Comparison by class -/

/-- Against a pattern of smaller magnitude the sign decides. -/
theorem compare_of_abs_orderF_lt {a b : Word} (h : |orderF b| < |orderF a|) :
    flt a b = signF a ∧ feq a b = false := by
  have ha : expF a ≠ 0 := fun h0 => by
    rw [orderF_of_expF_zero h0, abs_zero] at h
    exact absurd h (abs_nonneg _).not_gt
  have hlt : orderF a < orderF b ↔ orderF a < 0 := by
    rw [Int.abs_eq_natAbs, Int.abs_eq_natAbs] at h
    omega
  refine ⟨?_, Bool.eq_false_iff.2 fun heq => ?_⟩
  · rw [Bool.eq_iff_iff, flt_iff, hlt, orderF_neg_iff ha]
  · rw [feq_iff.1 heq] at h
    exact lt_irrefl _ h

theorem abs_orderF_of_inf {p : Word} (h : classF p = .inf) : |orderF p| = 255 * 2 ^ 23 := by
  obtain ⟨he, hm⟩ := classF_eq_inf_iff.1 h
  rw [abs_orderF, he, hm]
  rfl

theorem abs_orderF_of_nan {p : Word} (h : classF p = .nan) : 255 * 2 ^ 23 < |orderF p| := by
  obtain ⟨he, hm⟩ := classF_eq_nan_iff.1 h
  rw [abs_orderF, he, if_neg (by decide)]
  omega

theorem abs_orderF_of_zero_or_normal {p : Word} (h : classF p = .zero ∨ classF p = .normal) :
    |orderF p| < 255 * 2 ^ 23 := by
  have he := expF_lt p
  have hm := manF_lt p
  rw [classF_eq_zero_iff, classF_eq_normal_iff] at h
  rw [abs_orderF]
  split_ifs <;> omega

theorem abs_orderF_of_ne_nan {p : Word} (h : classF p ≠ .nan) : |orderF p| ≤ 255 * 2 ^ 23 := by
  cases hc : classF p with
  | nan => exact absurd hc h
  | inf => exact (abs_orderF_of_inf hc).le
  | zero => exact (abs_orderF_of_zero_or_normal (.inl hc)).le
  | normal => exact (abs_orderF_of_zero_or_normal (.inr hc)).le

/-! ### NORMAL patterns compare by value -/

/-- A larger exponent outweighs every mantissa. -/
theorem abs_valF_lt_of_expF_lt {a b : Word} (h : expF a < expF b) : |valF a| < |valF b| := by
  have hsig : (sigF a : ℚ) < 2 ^ 24 := by exact_mod_cast sigF_lt a
  have hsig' : (2 : ℚ) ^ 23 ≤ sigF b := by exact_mod_cast Nat.le_add_right (2 ^ 23) (manF b)
  rw [abs_valF, abs_valF]
  calc (sigF a : ℚ) * 2 ^ ((expF a : ℤ) - 150) < 2 ^ 24 * 2 ^ ((expF a : ℤ) - 150) := by gcongr
    _ = 2 ^ 23 * 2 ^ ((expF a : ℤ) + 1 - 150) := by
      rw [add_sub_right_comm, zpow_add_one₀ two_ne_zero]
      ring
    _ ≤ sigF b * 2 ^ ((expF b : ℤ) - 150) := by
      gcongr
      · norm_num
      · omega

theorem abs_valF_lt_iff {a b : Word} : |valF a| < |valF b| ↔ a.toNat % 2 ^ 31 < b.toNat % 2 ^ 31 := by
  have ha := manF_lt a
  have hb := manF_lt b
  rw [toNat_mod_eq_fields, toNat_mod_eq_fields]
  rcases lt_trichotomy (expF a) (expF b) with h | h | h
  · exact iff_of_true (abs_valF_lt_of_expF_lt h) (by omega)
  · rw [abs_valF, abs_valF, h, mul_lt_mul_iff_left₀ (by positivity), Nat.cast_lt, sigF, sigF]
    omega
  · exact iff_of_false (abs_valF_lt_of_expF_lt h).not_gt (by omega)

theorem abs_valF_pos (p : Word) : 0 < |valF p| := by
  have := sigF_pos p
  rw [abs_valF]
  positivity

theorem valF_lt_iff {a b : Word} (ha : expF a ≠ 0) (hb : expF b ≠ 0) : valF a < valF b ↔ orderF a < orderF b := by
  have hpa := abs_valF_pos a
  have hpb := abs_valF_pos b
  rw [orderF_of_expF_ne_zero ha, orderF_of_expF_ne_zero hb]
  cases hsa : signF a <;> cases hsb : signF b <;> simp only [Bool.false_eq_true, if_false, if_true]
  · rw [valF_of_positive hsa, valF_of_positive hsb, abs_valF_lt_iff, Nat.cast_lt]
  · rw [valF_of_positive hsa, valF_of_negative hsb]
    exact iff_of_false (by linarith) (by omega)
  · have hmag := toNat_mod_eq_fields a
    rw [valF_of_negative hsa, valF_of_positive hsb]
    exact iff_of_true (by linarith) (by omega)
  · rw [valF_of_negative hsa, valF_of_negative hsb, neg_lt_neg_iff, neg_lt_neg_iff, abs_valF_lt_iff, Nat.cast_lt]

/-! ### The obligation -/

/-- Settles O49: each comparison is one of signed magnitudes, whose classes lie beyond each other. -/
theorem comparisonOrder : Obligations.ComparisonOrder := by
  intro a b
  refine ⟨⟨feq_iff, flt_iff, fle_iff⟩, fun ha hb => ?_, fun ha hb => ?_, fun ha hb => ?_, fun ha hb => ?_, fun ha hb => ?_,
    fun ha hb => ?_, fun ha h => ?_, ?_, ?_, ?_⟩
  · rw [classF_eq_zero_iff] at ha hb
    rw [feq_iff, orderF_of_expF_zero ha, orderF_of_expF_zero hb]
  · obtain ⟨ha, -⟩ := classF_eq_normal_iff.1 ha
    obtain ⟨hb, -⟩ := classF_eq_normal_iff.1 hb
    refine ⟨?_, flt_iff.trans (valF_lt_iff ha hb).symm⟩
    rw [feq_iff, le_antisymm_iff, le_antisymm_iff, ← not_lt, ← not_lt, ← not_lt, ← not_lt, valF_lt_iff ha hb,
      valF_lt_iff hb ha]
  · obtain ⟨ha, -⟩ := classF_eq_normal_iff.1 ha
    rw [classF_eq_zero_iff] at hb
    refine (compare_of_abs_orderF_lt ?_).symm
    rw [orderF_of_expF_zero hb, abs_zero]
    exact abs_pos.2 (orderF_ne_zero ha)
  · obtain ⟨hb, -⟩ := classF_eq_normal_iff.1 hb
    rw [classF_eq_zero_iff] at ha
    have hne := orderF_ne_zero hb
    rw [Bool.eq_false_iff, ne_eq, feq_iff, Bool.eq_iff_iff, flt_iff, Bool.not_eq_true', Bool.eq_false_iff, ne_eq,
      ← orderF_neg_iff hb, orderF_of_expF_zero ha]
    exact ⟨hne.symm, by omega⟩
  · refine compare_of_abs_orderF_lt ?_
    rw [abs_orderF_of_inf ha]
    exact abs_orderF_of_zero_or_normal hb
  · exact compare_of_abs_orderF_lt ((abs_orderF_of_ne_nan hb).trans_lt (abs_orderF_of_nan ha))
  · obtain ⟨he, -⟩ := classF_eq_nan_iff.1 ha
    exact eq_of_orderF_eq (by omega) (feq_iff.1 h)
  · rw [Bool.eq_iff_iff, Bool.or_eq_true, fle_iff, flt_iff, feq_iff, le_iff_lt_or_eq]
  · rw [flt_iff, Bool.eq_false_iff, ne_eq, fle_iff, not_le]
  · simp only [feq_iff, Bool.eq_false_iff, ne_eq, flt_iff]
    omega

end Sys2Proof.Machine

/-! Conversions (43_float.md R271, R272): an integer is rounded once into the format, a NORMAL value once to an integer,
and an integer the format holds exactly survives both. -/

namespace Sys2Proof.Machine

/-! ### Float to integer (R272) -/

theorem nearestEven_roundedMagnitude (p : Word) : NearestEven |valF p| (roundedMagnitude p : ℕ) := by
  have h := nearestEven_roundEven (scaleFrac (sigF p) 1 ((expF p : ℤ) - 150)).1
    (scaleFrac_snd_pos (sigF p) one_pos ((expF p : ℤ) - 150))
  rwa [scaleFrac_value, Nat.cast_one, div_one, ← abs_valF] at h

/-- The value of a NORMAL pattern rounded to an integer, before saturation. -/
def roundedValue (p : Word) : ℤ := if signF p = true then -(roundedMagnitude p : ℤ) else (roundedMagnitude p : ℤ)

theorem nearestEven_roundedValue (p : Word) : NearestEven (valF p) (roundedValue p) := by
  have h := nearestEven_roundedMagnitude p
  rw [roundedValue]
  split_ifs with hs
  · rw [valF_of_negative hs]
    exact h.neg
  · rwa [valF_of_positive (Bool.eq_false_iff.2 hs)]

theorem toInt_ftoi_of_normal {p : Word} (h : classF p = .normal) :
    (ftoi p).toInt = max (-2 ^ 31) (min (roundedValue p) (2 ^ 31 - 1)) := by
  have hf : ftoi p = if roundedValue p > 2 ^ 31 - 1 then 0x7FFFFFFF#32
      else if roundedValue p < -2 ^ 31 then 0x80000000#32 else BitVec.ofInt 32 (roundedValue p) := by
    rw [ftoi, h, roundedValue]
  have hmax : (0x7FFFFFFF#32).toInt = 2 ^ 31 - 1 := rfl
  have hmin : (0x80000000#32).toInt = -2 ^ 31 := rfl
  rw [hf]
  split_ifs with hhigh hlow
  · rw [hmax]
    omega
  · rw [hmin]
    omega
  · rw [BitVec.toInt_ofInt_eq_self (by decide) (by omega) (by omega)]
    omega

/-! ### Integer to float (R271) -/

theorem roundsTo_itof {x : Word} (h : x.toInt ≠ 0) :
    RoundsTo (decide (x.toInt < 0)) (x.toInt.natAbs : ℕ) (itof x) := by
  have hround := roundsTo_roundPack (decide (x.toInt < 0)) (Int.natAbs_pos.2 h) one_pos 0
  rw [Nat.cast_one, div_one, zpow_zero, mul_one] at hround
  rwa [itof, if_neg h]

/-! ### The exponent of a rounded result -/

section Exponent

variable {r : ℚ} {e k : ℤ}

theorem le_exponent (hk : (2 : ℚ) ^ k ≤ r) (h : r < (2 : ℚ) ^ (e + 1)) : k ≤ e :=
  Int.lt_add_one_iff.1 ((zpow_lt_zpow_iff_right₀ one_lt_two).1 (hk.trans_lt h))

theorem exponent_le (hk : r ≤ (2 : ℚ) ^ k) (h : (2 : ℚ) ^ e ≤ r) : e ≤ k :=
  (zpow_le_zpow_iff_right₀ one_lt_two).1 (h.trans hk)

end Exponent

/-- Rounding to 24 bits keeps a rational of [1, 2^31] in [1, 2^31]. -/
theorem RoundsTo.expF_bounds {s : Bool} {r : ℚ} {p : Word} (h : RoundsTo s r p) (h0 : 1 ≤ r) (h1 : r ≤ 2 ^ 31) :
    127 ≤ expF p ∧ expF p ≤ 158 := by
  obtain ⟨e, n, hlow, hhigh, hnear, -, hpacked⟩ := h
  have he0 : 0 ≤ e := le_exponent (by simpa using h0) hhigh
  have he1 : e ≤ 31 := exponent_le (by exact_mod_cast h1) hlow
  have hcarry : n = 2 ^ 24 → e ≤ 30 := by
    intro hn
    by_contra he
    obtain rfl : e = 31 := by omega
    have hr : r = 2 ^ 31 := le_antisymm h1 (by exact_mod_cast hlow)
    have hq : r / (2 : ℚ) ^ (31 - 23 : ℤ) = (2 ^ 23 : ℤ) := by rw [hr]; norm_num
    rw [hq] at hnear
    have := hnear.eq_of_int
    omega
  split_ifs at hpacked with hn
  · have := hcarry hn
    omega
  · omega

/-- A packed significand without a carry is worth itself times its exponent. -/
theorem Packed.valF_eq {s : Bool} {n e : ℤ} {p : Word} (h : Packed s n e p) (hn : n ≠ 2 ^ 24) (he0 : -126 ≤ e)
    (he1 : e ≤ 127) : valF p = (if s then -1 else 1) * (n * (2 : ℚ) ^ (e - 23)) := by
  obtain ⟨hs, hfields⟩ := h
  rw [if_neg hn, if_neg hn] at hfields
  have hexp : (expF p : ℤ) - 150 = e - 23 := by omega
  have hsig : (sigF p : ℤ) = n := by
    rw [sigF]
    omega
  rw [valF_eq_sigF, hs, hexp, ← hsig, Int.cast_natCast]

/-- An integer of at most 24 bits is rounded to itself. -/
theorem RoundsTo.valF_of_nat {s : Bool} {m : ℕ} {p : Word} (h : RoundsTo s m p) (h0 : 0 < m) (h1 : m ≤ 2 ^ 24) :
    valF p = (if s then -1 else 1) * (m : ℚ) := by
  obtain ⟨e, n, hlow, hhigh, hnear, hpacked⟩ := h
  have he0 : 0 ≤ e := le_exponent (by rw [zpow_zero]; exact_mod_cast h0) hhigh
  have he1 : e ≤ 24 := exponent_le (by exact_mod_cast h1) hlow
  have hint : ∃ k : ℤ, (m : ℚ) / (2 : ℚ) ^ (e - 23) = k := by
    rcases he1.lt_or_eq with he | rfl
    · refine ⟨m * 2 ^ (23 - e).toNat, ?_⟩
      rw [← neg_sub, zpow_neg, div_inv_eq_mul, two_zpow_of_nonneg (by omega)]
      push_cast
      rfl
    · have hm : m = 2 ^ 24 := le_antisymm h1 (by exact_mod_cast hlow)
      exact ⟨2 ^ 23, by rw [hm]; norm_num⟩
  obtain ⟨k, hk⟩ := hint
  rw [hk] at hnear
  rw [← hnear.eq_of_int, div_eq_iff (by positivity)] at hk
  have hn : n ≠ 2 ^ 24 := by
    rintro rfl
    have htop : ((2 ^ 24 : ℤ) : ℚ) * 2 ^ (e - 23) = 2 ^ (e + 1) := by
      rw [show e + 1 = 24 + (e - 23) by ring, zpow_add₀ two_ne_zero]
      norm_num
    rw [hk, htop] at hhigh
    exact lt_irrefl _ hhigh
  rw [hpacked.valF_eq hn (by omega) (by omega), hk]

/-! ### The obligations -/

/-- Settles O51: `roundedValue` is the nearest integer and `ftoi` is its saturation. -/
theorem floatToIntegerRoundsAndSaturates : Obligations.FloatToIntegerRoundsAndSaturates := by
  intro p
  refine ⟨fun h => ?_, fun h => ?_, fun h => ?_, fun h => ?_⟩
  · rw [ftoi, h]
  · rw [ftoi, h]
  · rw [ftoi, h]
  · exact ⟨roundedValue p, nearestEven_roundedValue p, toInt_ftoi_of_normal h⟩

section IntegerToFloat

variable {x : Word} (hx : x.toInt ≠ 0)
include hx

theorem expF_itof : 127 ≤ expF (itof x) ∧ expF (itof x) ≤ 158 := by
  have hlow := x.le_toInt
  have hhigh := x.toInt_lt
  have h0 : 1 ≤ x.toInt.natAbs := by omega
  have h1 : x.toInt.natAbs ≤ 2 ^ 31 := by omega
  exact (roundsTo_itof hx).expF_bounds (by exact_mod_cast h0) (by exact_mod_cast h1)

theorem valF_itof (h : x.toInt.natAbs ≤ 2 ^ 24) : valF (itof x) = x.toInt := by
  rw [(roundsTo_itof hx).valF_of_nat (Int.natAbs_pos.2 hx) h, Nat.cast_natAbs, Int.cast_abs]
  by_cases hneg : x.toInt < 0
  · rw [decide_eq_true hneg, abs_of_neg (Int.cast_lt_zero.2 hneg)]
    simp
  · rw [decide_eq_false hneg, abs_of_nonneg (Int.cast_nonneg (not_lt.1 hneg))]
    simp

theorem ftoi_itof (h : x.toInt.natAbs ≤ 2 ^ 24) : ftoi (itof x) = x := by
  obtain ⟨he0, he1⟩ := expF_itof hx
  have hnear := nearestEven_roundedValue (itof x)
  rw [valF_itof hx h] at hnear
  apply BitVec.eq_of_toInt_eq
  rw [toInt_ftoi_of_normal (classF_eq_normal_iff.2 ⟨by omega, by omega⟩), hnear.eq_of_int]
  omega

end IntegerToFloat

/-- Settles O50: the magnitude is rounded once, and an integer of 24 bits is its own rounding both ways. -/
theorem integerToFloatIsRoundedExactly : Obligations.IntegerToFloatIsRoundedExactly := by
  intro x
  refine ⟨fun h => if_pos h, fun h => ?_, fun h => ?_, fun h => ⟨?_, fun hx => valF_itof hx h⟩, expF_itof,
    by decide +kernel, by decide +kernel⟩
  · have := roundsTo_itof h.ne'
    rwa [decide_eq_false h.not_gt, Nat.cast_natAbs, abs_of_pos h] at this
  · have := roundsTo_itof h.ne
    rwa [decide_eq_true h, Nat.cast_natAbs, abs_of_neg h, Int.cast_neg] at this
  · by_cases hx : x.toInt = 0
    · obtain rfl : x = 0#32 := BitVec.eq_of_toInt_eq hx
      rfl
    · exact ftoi_itof hx h

end Sys2Proof.Machine

/-! The floating-point instructions (43_float.md R280 to R292): their keys select them, and each commits the function of its
rule. -/

namespace Sys2Proof.Machine

/-- An instruction that commits a float value completes with it. -/
theorem completesF_of_commitF {i : Instr} {rd : RegIdx} {v v' : Word} {s : State} (h : exec i s = commitF rd v s)
    (hv : v = v') : CompletesF i rd v' s := by
  subst hv
  obtain ⟨hout, hpc⟩ := commit_frame (fr rd) v s
  exact ⟨s.writeF rd v, h, onlyF_writeF rd v s, hpc, hout⟩

/-! ### Sign bits as numbers (R265, R285 to R287) -/

/-- A bit above the low 31 bits of a pattern. -/
theorem bit_append_low (k : Nat) (a : Word) :
    BitVec.ofNat 1 k ++ a.extractLsb' 0 31 = BitVec.ofNat 32 (k * 2 ^ 31 + a.toNat % 2 ^ 31) := by
  rw [extractLsb'_eq_ofNat_div, ofNat_append_ofNat, Nat.pow_zero, Nat.div_one]

theorem fsgnj_eq_ofNat (a b : Word) :
    fsgnj a b = BitVec.ofNat 32 (b.toNat / 2 ^ 31 * 2 ^ 31 + a.toNat % 2 ^ 31) := by
  rw [fsgnj, extractLsb'_eq_ofNat_div b, bit_append_low]

theorem fsgnjn_eq_ofNat (a b : Word) :
    fsgnjn a b = BitVec.ofNat 32 ((1 - b.toNat / 2 ^ 31) * 2 ^ 31 + a.toNat % 2 ^ 31) := by
  have hb := b.isLt
  have hnot : ~~~ BitVec.ofNat 1 (b.toNat / 2 ^ 31) = BitVec.ofNat 1 (1 - b.toNat / 2 ^ 31) := by
    obtain h | h : b.toNat / 2 ^ 31 = 0 ∨ b.toNat / 2 ^ 31 = 1 := by omega
    all_goals rw [h]; rfl
  rw [fsgnjn, extractLsb'_eq_ofNat_div b, hnot, bit_append_low]

theorem fsgnjx_eq_ofNat (a b : Word) : fsgnjx a b =
    BitVec.ofNat 32 ((a.toNat / 2 ^ 31 + b.toNat / 2 ^ 31) % 2 * 2 ^ 31 + a.toNat % 2 ^ 31) := by
  have ha := a.isLt
  have hb := b.isLt
  have hxor : BitVec.ofNat 1 (a.toNat / 2 ^ 31) ^^^ BitVec.ofNat 1 (b.toNat / 2 ^ 31) =
      BitVec.ofNat 1 ((a.toNat / 2 ^ 31 + b.toNat / 2 ^ 31) % 2) := by
    obtain h | h : a.toNat / 2 ^ 31 = 0 ∨ a.toNat / 2 ^ 31 = 1 := by omega
    all_goals
      obtain h' | h' : b.toNat / 2 ^ 31 = 0 ∨ b.toNat / 2 ^ 31 = 1 := by omega
      all_goals rw [h, h']; rfl
  rw [fsgnjx, extractLsb'_eq_ofNat_div a, extractLsb'_eq_ofNat_div b, hxor, bit_append_low]

/-- The sign bit is flipped, the low 31 bits stay (R270). -/
theorem fneg_eq_ofNat (b : Word) : fneg b = BitVec.ofNat 32 ((b.toNat + 2 ^ 31) % 2 ^ 32) := by
  have hb := b.isLt
  have hhigh : (b.toNat ^^^ 2 ^ 31) / 2 ^ 31 = b.toNat / 2 ^ 31 ^^^ 1 := Nat.xor_div_two_pow
  have hlow : (b.toNat ^^^ 2 ^ 31) % 2 ^ 31 = b.toNat % 2 ^ 31 := by
    rw [Nat.xor_mod_two_pow, Nat.mod_self, Nat.xor_zero]
  have hneg : (fneg b).toNat = b.toNat ^^^ 2 ^ 31 := BitVec.toNat_xor b _
  apply BitVec.eq_of_toNat_eq
  rw [hneg, BitVec.toNat_ofNat, Nat.mod_mod]
  obtain h | h : b.toNat / 2 ^ 31 = 0 ∨ b.toNat / 2 ^ 31 = 1 := by omega
  all_goals
    rw [h] at hhigh
    simp only [Nat.xor_self, Nat.zero_xor] at hhigh
    omega

/-! ### The obligations -/

/-- Settles O42: each meaning commits its function, and the sign bits are read as numbers. -/
theorem floatResults : Obligations.FloatResults := by
  refine ⟨⟨selectsR_of_key rfl rfl, selectsR_of_key rfl rfl, selectsR_of_key rfl rfl, selectsR_of_key rfl rfl,
    selectsR_of_key rfl rfl, selectsR_of_key rfl rfl, selectsR_of_key rfl rfl, selectsR_of_key rfl rfl⟩,
    fun rd rs1 rs2 s => ?_⟩
  exact ⟨completesF_of_commitF rfl rfl, completesF_of_commitF rfl (by rw [fsub, fneg_eq_ofNat]),
    completesF_of_commitF rfl rfl, completesF_of_commitF rfl rfl, completesF_of_commitF rfl rfl,
    completesF_of_commitF rfl (fsgnj_eq_ofNat _ _), completesF_of_commitF rfl (fsgnjn_eq_ofNat _ _),
    completesF_of_commitF rfl (fsgnjx_eq_ofNat _ _)⟩

/-- Settles O43: each meaning commits its function in the bank of its rule, a comparison as 1 or 0. -/
theorem compareConvertResults : Obligations.CompareConvertResults := by
  refine ⟨⟨selectsR_of_key rfl rfl, selectsR_of_key rfl rfl, selectsR_of_key rfl rfl, selectsR_of_key rfl rfl,
    selectsR_of_key rfl rfl⟩, fun rd rs1 rs2 s => ?_⟩
  exact ⟨completesX_of_commitX rfl rfl, completesX_of_commitX rfl rfl, completesX_of_commitX rfl rfl,
    completesX_of_commitX rfl rfl, completesF_of_commitF rfl rfl⟩

end Sys2Proof.Machine

/-! The accesses of both caches keep `Inv` (21_cache.md R120): a touch keeps a set's shape, an install too, and so does
every data access and fetch that passed its checks. -/

namespace Sys2Proof.Machine

/-! ### A touch keeps a cache's invariants -/

section Touch

variable {g : Geometry} {size i j a : Nat} {c : Cache} {set : CacheSet} {l l' k : Line}

theorem mem_setAt_touched (h : k ∈ Cache.setAt (touched g c a l') j) :
    k ∈ Cache.setAt c j ∨ j = indexOf g a ∧ k = l' := by
  by_cases hj : j = indexOf g a
  · subst hj
    rw [touched, Cache.setAt_putSet_self, CacheSet.touch, List.mem_append, List.mem_singleton] at h
    exact h.imp (fun hk => (List.mem_filter.1 hk).1) fun hk => ⟨rfl, hk⟩
  · exact .inl (setAt_touched_ne g c a l' hj ▸ h)

/-- A touch takes out the line of its tag and appends one line, so the set keeps its length and its tags. -/
theorem CacheSet.Shaped.touch (hs : CacheSet.Shaped g size i set) (hl : l ∈ set) (ht : l'.tag = l.tag)
    (hl' : Line.Shaped g size i l') : CacheSet.Shaped g size i (CacheSet.touch set l') := by
  obtain ⟨older, younger, rfl⟩ := List.append_of_mem hl
  obtain ⟨hlen, hnd, hlines⟩ := hs
  have hperm : List.Perm ((older ++ younger ++ [l']).map Line.tag) ((older ++ l :: younger).map Line.tag) := by
    rw [List.map_append, List.map_singleton, ht, List.map_append, List.map_append, List.map_cons, List.append_assoc]
    exact (List.perm_append_singleton _ _).append_left _
  rw [CacheSet.touch_of_split hnd ht]
  refine ⟨?_, hperm.nodup_iff.2 hnd, fun k hk => ?_⟩
  · rw [← List.length_map (f := Line.tag), hperm.length_eq, List.length_map]
    exact hlen
  · simp only [List.mem_append, List.mem_singleton] at hk
    obtain (hk | hk) | rfl := hk
    · exact hlines k (List.mem_append_left _ hk)
    · exact hlines k (List.mem_append_right _ (List.mem_cons_of_mem _ hk))
    · exact hl'

theorem Cache.Shaped.touched (hg : 0 < g.sets) (hc : Cache.Shaped g size c) (hl : Cache.lookup g c a = some l)
    (ht : l'.tag = l.tag) (hv : l'.valid = l.valid) (hb : l'.bytes.length = l.bytes.length) :
    Cache.Shaped g size (touched g c a l') := by
  obtain ⟨hlen, hsets⟩ := hc
  have hi := indexOf_lt hg a
  obtain ⟨-, hmem⟩ := Cache.lookup_some hl
  have hl' : Line.Shaped g size (indexOf g a) l' := by
    obtain ⟨-, -, hlines⟩ := hsets _ hi
    rw [Line.Shaped, ht, hv, hb]
    exact hlines l hmem
  refine ⟨by rw [Machine.touched, Cache.length_putSet _ (hlen ▸ hi), hlen], fun j hj => ?_⟩
  by_cases hja : j = indexOf g a
  · rw [hja, Machine.touched, Cache.setAt_putSet_self]
    exact (hsets _ hi).touch hmem ht hl'
  · rw [setAt_touched_ne g c a l' hja]
    exact hsets j hj

theorem Cache.AllClean.touched (hc : Cache.AllClean g c) (hd : l'.dirty = false) :
    Cache.AllClean g (touched g c a l') := fun j hj k hk => by
  rcases mem_setAt_touched hk with hk | ⟨-, rfl⟩
  · exact hc j hj k hk
  · exact hd

/-- A touched line that is not dirty still holds its bytes, so it stays a copy of memory. -/
theorem Cache.CleanCopies.touched {m : Memory} (hc : Cache.CleanCopies g m c) (hl : Cache.lookup g c a = some l)
    (ht : l'.tag = l.tag) (hclean : l'.dirty = false → l.dirty = false ∧ l'.bytes = l.bytes) :
    Cache.CleanCopies g m (touched g c a l') := fun j hj k hk hd => by
  rcases mem_setAt_touched hk with hk | ⟨rfl, rfl⟩
  · exact hc j hj k hk hd
  · obtain ⟨hld, hbytes⟩ := hclean hd
    rw [hbytes, ht]
    exact hc _ hj l (Cache.lookup_some hl).2 hld

end Touch

/-! ### An install keeps a cache's invariants -/

section Install

variable {g : Geometry} {size i j a : Nat} {c : Cache} {bytes : List Byte} {k : Line}

theorem mem_setAt_install (hw : 1 ≤ g.ways) (h : k ∈ Cache.setAt (Cache.install g c a bytes).1 j) :
    k ∈ Cache.setAt c j ∨ j = indexOf g a ∧ k = newLine g a bytes := by
  by_cases hj : j = indexOf g a
  · subst hj
    rw [Cache.setAt_install_eq hw, List.mem_append, List.mem_singleton] at h
    rw [Cache.setAt_eq_evicted_append_kept, List.mem_append]
    exact h.imp .inr fun hk => ⟨rfl, hk⟩
  · exact .inl (Cache.setAt_install_ne g c a bytes hj ▸ h)

/-- On a miss the new line's tag is none of the set's, and the lines kept leave room for it. -/
theorem Cache.Shaped.install (hg : g.WellFormed) (hc : Cache.Shaped g size c) (hm : Cache.lookup g c a = none)
    (hl : Line.Shaped g size (indexOf g a) (newLine g a bytes)) :
    Cache.Shaped g size (Cache.install g c a bytes).1 := by
  obtain ⟨hlen, hsets⟩ := hc
  have hi := indexOf_lt (Geometry.WellFormed.sets_pos hg) a
  have hw : 1 ≤ g.ways := hg.2.2.1
  refine ⟨by rw [Cache.install_eq hw, Cache.length_putSet _ (hlen ▸ hi), hlen], fun j hj => ?_⟩
  obtain ⟨hways, hnd, hlines⟩ := hsets j hj
  by_cases hja : j = indexOf g a
  · subst hja
    have hroom := Cache.length_kept_lt hw hways
    rw [Cache.lookup_none] at hm
    rw [Cache.setAt_eq_evicted_append_kept] at hnd hm hlines
    rw [List.map_append] at hnd
    rw [Cache.setAt_install_eq hw]
    refine ⟨by rw [List.length_append]; exact hroom, ?_, fun k hk => ?_⟩
    · rw [List.map_append, List.map_singleton, ← List.concat_eq_append]
      refine hnd.of_append_right.concat fun ht => ?_
      obtain ⟨k, hk, hkt⟩ := List.mem_map.1 ht
      exact hm k (List.mem_append_right _ hk) hkt
    · rcases List.mem_append.1 hk with hk | hk
      · exact hlines k (List.mem_append_right _ hk)
      · rw [List.mem_singleton.1 hk]
        exact hl
  · rw [Cache.setAt_install_ne g c a bytes hja]
    exact ⟨hways, hnd, hlines⟩

theorem Cache.AllClean.install (hw : 1 ≤ g.ways) (hc : Cache.AllClean g c) :
    Cache.AllClean g (Cache.install g c a bytes).1 := fun j hj k hk => by
  rcases mem_setAt_install hw hk with hk | ⟨-, rfl⟩
  · exact hc j hj k hk
  · rfl

end Install

/-! ### Data accesses and fetches keep `Inv` -/

section Access

variable {s : State} (hs : s.Inv) {a n : Nat} {l l' : Line}
include hs

theorem State.Inv.inv_touched_dc (hl : Cache.lookup s.params.dc s.dc a = some l) (ht : l'.tag = l.tag)
    (hv : l'.valid = l.valid) (hb : l'.bytes.length = l.bytes.length)
    (hclean : l'.dirty = false → l.dirty = false ∧ l'.bytes = l.bytes) :
    ({ s with dc := touched s.params.dc s.dc a l' } : State).Inv :=
  have hpos := Geometry.WellFormed.sets_pos hs.params.1
  { hs with
    dcShaped := hs.dcShaped.touched hpos hl ht hv hb
    dcClean := hs.dcClean.touched hl ht hclean }

theorem State.Inv.inv_touched_ic (hl : Cache.lookup s.params.ic s.ic a = some l) :
    ({ s with ic := touched s.params.ic s.ic a (readLine l) } : State).Inv :=
  have hpos := Geometry.WellFormed.sets_pos hs.params.2.1
  have hclean : l.dirty = false := hs.icClean _ (indexOf_lt hpos a) l (Cache.lookup_some hl).2
  { hs with
    icShaped := hs.icShaped.touched hpos hl rfl rfl rfl
    icClean := hs.icClean.touched hclean }

theorem State.Inv.inv_readLine_dc (hl : Cache.lookup s.params.dc s.dc a = some l) :
    ({ s with dc := touched s.params.dc s.dc a (readLine l) } : State).Inv :=
  hs.inv_touched_dc hl rfl rfl rfl fun hd => ⟨hd, rfl⟩

/-- A written line is dirty, and an aligned write inside it keeps its length. -/
theorem State.Inv.inv_writtenLine_dc (hn : n ∣ 4) (ha : a % n = 0) (v : Word)
    (hl : Cache.lookup s.params.dc s.dc a = some l) :
    ({ s with dc := touched s.params.dc s.dc a (writtenLine s.params.dc a n v l) } : State).Inv := by
  have hpos : 0 < n := Nat.pos_of_dvd_of_pos hn (by decide)
  obtain ⟨hoff, hlt⟩ := offsetOf_add (hn.trans (Geometry.WellFormed.four_dvd hs.params.1))
    (Geometry.WellFormed.line_pos hs.params.1) ha (Nat.sub_lt hpos Nat.one_pos)
  have hlen := hs.length_accessedLine a
  rw [State.accessedLine, hl, Option.getD_some] at hlen
  refine hs.inv_touched_dc hl rfl rfl (l.length_splice ?_) (fun hd => nomatch hd)
  rw [length_leBytes]
  omega

theorem State.Inv.inv_dcRead (n : Nat) (ha : a < s.params.memSize) : (dcRead a n s).2.Inv := by
  have hcounts := hs.dcCounts
  cases hl : Cache.lookup s.params.dc s.dc a with
  | some l =>
    rw [dcRead_hit hl]
    exact { hs.inv_readLine_dc hl with dcCounts := Nat.succ_le_succ hcounts }
  | none =>
    rw [dcRead_miss hl]
    exact { (hs.inv_dcFill ha hl).inv_readLine_dc (lookup_dcFill hl) with dcCounts := Nat.le_succ_of_le hcounts }

theorem State.Inv.inv_dcWrite (hn : n ∣ 4) (ha : a % n = 0) (hr : a < s.params.memSize) (v : Word) :
    (dcWrite a n v s).Inv := by
  have hcounts := hs.dcCounts
  cases hl : Cache.lookup s.params.dc s.dc a with
  | some l =>
    rw [dcWrite_hit hl]
    exact { hs.inv_writtenLine_dc hn ha v hl with dcCounts := Nat.succ_le_succ hcounts }
  | none =>
    rw [dcWrite_miss hl]
    exact { (hs.inv_dcFill hr hl).inv_writtenLine_dc hn ha v (lookup_dcFill hl) with
      dcCounts := Nat.le_succ_of_le hcounts }

theorem State.Inv.inv_install_ic (ha : a < s.params.memSize) (hm : Cache.lookup s.params.ic s.ic a = none) :
    ({ s with ic := (Cache.install s.params.ic s.ic a
        (s.mem.readBlock (baseOf s.params.ic a) s.params.ic.line)).1 } : State).Inv := by
  obtain ⟨-, hic, -, hsize, -⟩ := hs.params
  exact { hs with
    icShaped := hs.icShaped.install hic hm ⟨rfl, Memory.length_readBlock .., lineAddr_add_line_le hsize ha⟩
    icClean := hs.icClean.install hic.2.2.1 }

theorem State.Inv.inv_icRead (ha : a < s.params.memSize) : (icRead a s).2.Inv := by
  have hcounts := hs.icCounts
  cases hl : Cache.lookup s.params.ic s.ic a with
  | some l =>
    rw [icRead_hit hl]
    exact { hs.inv_touched_ic hl with icCounts := Nat.succ_le_succ hcounts }
  | none =>
    rw [icRead_miss hl]
    exact { (hs.inv_install_ic ha hl).inv_touched_ic (Cache.lookup_install_self _ hl) with
      icCounts := Nat.le_succ_of_le hcounts }

/-- A fetch that passed the guard and its checks keeps `Inv`. -/
theorem State.Inv.inv_fetchWord (hg : guardCount s.pc s < Config.livenessN) (hc : fetchCheck s.params s.pc = none) :
    (fetchWord s).2.Inv := by
  obtain ⟨haligned, hrange⟩ := fetchCheck_eq_none.1 hc
  have hguard : ({ s with lgAddr := some s.pc, lgCount := guardCount s.pc s } : State).Inv := { hs with guard := hg }
  have heven : (s.pc + 4).toNat % 2 = 0 := by
    have := hs.pcEven
    bv_omega
  exact { hguard.inv_icRead (a := s.pc.toNat) (show s.pc.toNat < s.params.memSize by omega) with pcEven := heven }

end Access

/-! ### Commits and redirects keep `Inv` -/

section Commit

variable {s : State} (hs : s.Inv)
include hs

theorem State.Inv.inv_writeX (i : RegIdx) (v : Word) : (s.writeX i v).Inv := by
  unfold State.writeX
  split
  · exact hs
  · next hi =>
    have hx0 : (s.x.set i.toNat v i.isLt)[0] = 0 :=
      (Vector.getElem_set_ne _ _ (regIdx_toNat_ne hi)).trans hs.x0
    exact { hs with x0 := hx0 }

theorem State.Inv.inv_commit (r : RegRef) (v : Word) : (commit r v s).Inv := by
  obtain ⟨b, i⟩ := r
  cases b with
  | x => exact hs.inv_writeX i v
  | f => exact { hs with }

theorem State.Inv.inv_setPc {t : Word} (ht : t.toNat % 2 = 0) : ({ s with pc := t } : State).Inv :=
  { hs with pcEven := ht }

end Commit

end Sys2Proof.Machine

/-! The records of the stage slots (10_state.md R31) as execute fills them: which fields it writes, and that its targets are
even (41_control_transfer.md R230). -/

namespace Sys2Proof.Machine

/-! ### What execute writes (50_pipeline.md R333, R339) -/

@[simp] theorem executeFill_instr (b : Behaviour) : (executeFill b).instr = b.instr := by
  unfold executeFill
  split <;> rfl

@[simp] theorem executeFill_seq (b : Behaviour) : (executeFill b).seq = b.seq := by
  unfold executeFill
  split <;> rfl

@[simp] theorem executeFill_loaded (b : Behaviour) : (executeFill b).loaded = b.loaded := by
  unfold executeFill
  split <;> rfl

/-- Execute fills only fields that `unfill` empties. -/
theorem unfill_executeFill (b : Behaviour) : (executeFill b).unfill = b.unfill := by
  unfold executeFill
  split <;> rfl

theorem Behaviour.Fetched.unfill_eq {b : Behaviour} (h : b.Fetched) : b.unfill = b := by
  have hun := h.unfilled
  cases b
  simp_all [Behaviour.unfill]

theorem Behaviour.Fetched.executed {b : Behaviour} (h : b.Fetched) : (executeFill b).Executed := by
  rw [Behaviour.Executed, unfill_executeFill, h.unfill_eq]
  exact ⟨h, rfl⟩

theorem Behaviour.Executed.loaded_eq_none {b : Behaviour} (h : b.Executed) : b.loaded = none :=
  (congrArg Behaviour.loaded h.2).trans (executeFill_loaded b.unfill)

/-- What the memory stage makes of a load. -/
theorem Behaviour.Executed.accessed_of_load {b : Behaviour} (h : b.Executed) (hl : isLoad b.instr = true) (v : Word) :
    ({ b with loaded := some v } : Behaviour).Accessed := by
  have hstore : isStore b.instr = false := congrArg Option.isSome (loadOf_dest hl).2
  have hb : ({ b with loaded := none } : Behaviour) = b := by rw [← h.loaded_eq_none]
  exact ⟨hstore, hl.symm, hb.symm ▸ h⟩

/-- What the memory stage makes of a kind without an access. -/
theorem Behaviour.Executed.accessed_of_no_access {b : Behaviour} (h : b.Executed) (hl : isLoad b.instr = false)
    (hstore : isStore b.instr = false) : b.Accessed := by
  have hb : ({ b with loaded := none } : Behaviour) = b := by rw [← h.loaded_eq_none]
  exact ⟨hstore, by rw [hl, h.loaded_eq_none]; rfl, hb.symm ▸ h⟩

/-! ### Targets are even (R228, R230) -/

theorem even_branchTarget {pc : Word} (h : pc.toNat % 2 = 0) (imm : Imm12) : (branchTarget pc imm).toNat % 2 = 0 := by
  rw [branchTarget, shiftLeft_eq_ofNat_mul, BitVec.toNat_add, BitVec.toNat_ofNat]
  omega

theorem even_jalTarget {pc : Word} (h : pc.toNat % 2 = 0) (imm : Imm20) : (jalTarget pc imm).toNat % 2 = 0 := by
  rw [jalTarget, shiftLeft_eq_ofNat_mul, BitVec.toNat_add, BitVec.toNat_ofNat]
  omega

theorem even_jalrTarget (base : Word) (imm : Imm12) : (jalrTarget base imm).toNat % 2 = 0 := by
  rw [jalrTarget_eq_ofNat, BitVec.toNat_ofNat]
  omega

theorem executeOut_branch {i : Instr} {a b pc target : Word} {taken : Bool}
    (h : executeOut i a b pc = .branch taken target) : ∃ imm, target = branchTarget pc imm := by
  cases i <;> cases h <;> exact ⟨_, rfl⟩

theorem executeOut_jump {i : Instr} {a b pc link target : Word} (h : executeOut i a b pc = .jump link target) :
    (∃ imm, target = jalTarget pc imm) ∨ ∃ imm, target = jalrTarget a imm := by
  cases i <;> cases h
  · exact .inl ⟨_, rfl⟩
  · exact .inr ⟨_, rfl⟩

theorem Behaviour.Executed.even_target {b : Behaviour} (h : b.Executed) : ∀ t ∈ b.target, t.toNat % 2 = 0 := by
  obtain ⟨hf, hb⟩ := h
  have hpc : (b.unfill.originPc.getD 0).toNat % 2 = 0 := by
    cases ho : b.unfill.originPc with
    | none => rfl
    | some pc => exact hf.even pc ho
  intro t ht
  rw [hb, executeFill] at ht
  split at ht
  · cases ht
  · cases ht
  · next hout =>
    cases ht
    obtain ⟨imm, rfl⟩ := executeOut_branch hout
    exact even_branchTarget hpc imm
  · next hout =>
    cases ht
    obtain ⟨imm, rfl⟩ | ⟨imm, rfl⟩ := executeOut_jump hout
    · exact even_jalTarget hpc imm
    · exact even_jalrTarget _ imm

/-- The widths of accesses divide a word (42_load_store.md). -/
theorem dvd_four_of_loadOf {i : Instr} {n : Nat} {ext : Word → Word} (h : loadOf i = some (n, ext)) : n ∣ 4 := by
  cases i <;> cases h <;> decide

theorem dvd_four_of_storeOf {i : Instr} {n : Nat} (h : storeOf i = some n) : n ∣ 4 := by
  cases i <;> cases h <;> decide

end Sys2Proof.Machine

/-! Every tick keeps the engine's invariant (50_pipeline.md R346): each of its five steps does, provided that the slot it
moves a record into is empty, as the step before it has left it. -/

namespace Sys2Proof.Machine

/-! ### Values in flight and the forwarding tables (R338, R346 e) -/

/-- R346 e of one register. -/
def State.Coherent (s : State) (r : RegRef) : Prop :=
  (∀ e ∈ s.inFlight r, s.forwarded r = some e) ∧ (s.inFlight r = none → ∀ e ∈ s.forwarded r, e.value = s.committed r)

/-- A value published when it comes in flight keeps a register coherent. -/
theorem State.Coherent.of_published {s t : State} {r : RegRef} {q : Option FwdEntry} (hs : s.Coherent r)
    (hf : t.forwarded r = q.orElse fun _ => s.forwarded r) (hi : t.inFlight r = q.orElse fun _ => s.inFlight r)
    (hc : t.committed r = s.committed r) : t.Coherent r := by
  rw [State.Coherent, hf, hi, hc]
  cases q with
  | none => exact hs
  | some e => exact ⟨fun _ h => h, fun h => nomatch h⟩

/-- The youngest value in flight committed, when it is the only one, keeps a register coherent. -/
theorem State.Coherent.of_committed {s t : State} {r : RegRef} {p q : Option FwdEntry} (hs : s.Coherent r)
    (hf : t.forwarded r = s.forwarded r) (hi : s.inFlight r = p.orElse fun _ => q) (hp : t.inFlight r = p)
    (hc : t.committed r = (q.map FwdEntry.value).getD (s.committed r)) : t.Coherent r := by
  rw [State.Coherent, hi] at hs
  rw [State.Coherent, hf, hp, hc]
  cases p with
  | some e => exact ⟨hs.1, fun h => nomatch h⟩
  | none =>
    refine ⟨fun _ h => (nomatch h), fun _ e he => ?_⟩
    cases q with
    | none => exact hs.2 rfl e he
    | some d =>
      rw [hs.1 d rfl] at he
      cases he
      rfl

theorem uncommitted_of_dest {b : Behaviour} {r : RegRef} (h : destOf b.instr = some r) :
    uncommitted (some b) r = (commitValue b).map fun v => { seq := b.seq, value := v } := if_pos h

theorem uncommitted_of_not_dest {b : Behaviour} {r : RegRef} (h : destOf b.instr ≠ some r) :
    uncommitted (some b) r = none := if_neg h

theorem inFlight_of_qMEM_none {s : State} (h : s.qMEM = none) (r : RegRef) : s.inFlight r = uncommitted s.qWB r := by
  rw [State.inFlight, h]
  rfl

theorem inFlight_of_qWB_none {s : State} (h : s.qWB = none) (r : RegRef) : s.inFlight r = uncommitted s.qMEM r := by
  rw [State.inFlight, h]
  exact Option.orElse_eq_or.trans Option.or_none

/-- A load whose value is not yet loaded has nothing to commit. -/
theorem uncommitted_of_unloaded {b : Behaviour} (hl : isLoad b.instr = true) (h : b.loaded = none) (r : RegRef) :
    uncommitted (some b) r = none := by
  rw [uncommitted, commitValue, if_pos hl, h]
  exact ite_self none

/-- The publication of the value a record commits, if it has one. -/
def publishValue (b : Behaviour) (s : State) : State :=
  match commitValue b with
  | some v => publishDest b v s
  | none => s

/-- A publication changes the forwarding tables only. -/
theorem publishValue_frame (b : Behaviour) (s : State) :
    ∃ X F, publishValue b s = { s with fwdX := X, fwdF := F } := by
  unfold publishValue publishDest
  split
  · split
    · exact ⟨_, _, publish_frame _ _ _ s⟩
    · exact ⟨_, _, rfl⟩
  · exact ⟨_, _, rfl⟩

/-- What the memory stage publishes of a load is what its record then commits. -/
theorem publishValue_loaded {b : Behaviour} (hl : isLoad b.instr = true) (v : Word) (s : State) :
    publishValue { b with loaded := some v } s = publishDest b v s := by
  simp only [publishValue, commitValue, if_pos hl]
  rfl

/-- A published value is the entry of its destination; every other entry stays. -/
theorem forwarded_publishValue (b : Behaviour) (s : State) {r : RegRef} (hr : r ≠ xr 0) :
    (publishValue b s).forwarded r = (uncommitted (some b) r).orElse fun _ => s.forwarded r := by
  by_cases hd : destOf b.instr = some r
  · rw [uncommitted_of_dest hd, publishValue]
    cases commitValue b with
    | none => rfl
    | some v =>
      simp only [publishDest, hd]
      exact forwarded_publish_self hr b.seq v s
  · rw [uncommitted_of_not_dest hd]
    unfold publishValue publishDest
    split
    · split
      · next q hq => exact forwarded_publish_ne (fun h => hd (by rw [h, hq])) _ _ s
      · rfl
    · rfl

theorem forwarded_publishValue_x0 (b : Behaviour) (s : State) :
    (publishValue b s).forwarded (xr 0) = s.forwarded (xr 0) := by
  unfold publishValue publishDest
  split
  · split
    · next q _ =>
      by_cases hq : xr 0 = q
      · rw [← hq]
        rfl
      · exact forwarded_publish_ne hq _ _ s
    · rfl
  · rfl

/-! ### What the steps do, for the invariant -/

section Steps

variable {s : State} {b : Behaviour}

theorem writeBackStep_empty (h : s.qWB = none) : writeBackStep s = s := by
  rw [writeBackStep, h]

theorem writeBackStep_some (h : s.qWB = some b) :
    writeBackStep s = { redirect b (commitDest b s) with qWB := none } := by
  rw [writeBackStep, h]

/-- A redirect moves the pc to the target of a control transfer or does nothing (R335). -/
theorem redirect_cases (b : Behaviour) (s : State) :
    redirect b s = s ∨
      isBranchOrJump b.instr = true ∧ ∃ t, b.target = some t ∧ redirect b s = { s with pc := t } := by
  unfold redirect
  split
  · next t _ ht =>
    split
    · next hb => exact .inr ⟨hb, t, ht, rfl⟩
    · exact .inl rfl
  · exact .inl rfl

theorem commitDest_pc (b : Behaviour) (s : State) : (commitDest b s).pc = s.pc := by
  unfold commitDest
  split
  · exact (commit_frame _ _ s).2
  · rfl

/-- The destination of a record gets the value it commits; every other register stays. -/
theorem committed_commitDest (b : Behaviour) (s : State) {r : RegRef} (hr : r ≠ xr 0) :
    (commitDest b s).committed r = ((uncommitted (some b) r).map FwdEntry.value).getD (s.committed r) := by
  by_cases hd : destOf b.instr = some r
  · rw [uncommitted_of_dest hd, commitDest, hd]
    cases commitValue b with
    | none => rfl
    | some v => exact committed_commit_self hr v s
  · rw [uncommitted_of_not_dest hd]
    unfold commitDest
    split
    · next q v hq _ => exact committed_commit_ne (fun h => hd (by rw [h, hq])) v s
    · rfl

theorem committed_writeBackStep (s : State) {r : RegRef} (hr : r ≠ xr 0) :
    (writeBackStep s).committed r = ((uncommitted s.qWB r).map FwdEntry.value).getD (s.committed r) := by
  cases h : s.qWB with
  | none => rw [writeBackStep_empty h]; rfl
  | some b =>
    rw [writeBackStep_some h, ← committed_commitDest b s hr]
    rcases redirect_cases b (commitDest b s) with h | ⟨-, t, -, h⟩ <;> rw [h] <;> rfl

/-- Only a control transfer's write-back moves the pc. -/
theorem pc_writeBackStep (h : holdsTransfer s.qWB = false) : (writeBackStep s).pc = s.pc := by
  cases hq : s.qWB with
  | none => rw [writeBackStep_empty hq]
  | some b =>
    rw [hq] at h
    rw [writeBackStep_some hq, ← commitDest_pc b s]
    rcases redirect_cases b (commitDest b s) with hr | ⟨ht, -⟩
    · rw [hr]
    · exact absurd (h.symm.trans ht) Bool.false_ne_true

/-- Execute publishes the value its record commits: a load has none yet (R333). -/
theorem executeStep_publishes (h : s.qEX = some b) (hl : b.loaded = none) :
    executeStep s = { publishValue (executeFill b) s with qEX := none, qMEM := some (executeFill b) } := by
  simp only [executeStep, h, publishValue, commitValue, executeFill_instr, executeFill_loaded, hl]
  cases isLoad b.instr with
  | true => cases (executeFill b).result <;> rfl
  | false => cases (executeFill b).result <;> rfl

theorem qWB_writeBackStep (s : State) : (writeBackStep s).qWB = none := by
  rw [writeBackStep_frame]

/-- What a memory step that runs on leaves to write-back. -/
theorem qMEM_memoryStep (s : State) (h : (memoryStep s).run = .running) : (memoryStep s).qMEM = none := by
  cases hq : s.qMEM with
  | none => rw [memoryStep_empty hq, hq]
  | some b =>
    obtain ⟨n, ext, -, ⟨c, -, hm⟩ | ⟨-, hm⟩⟩ | ⟨n, -, -, ⟨c, -, hm⟩ | ⟨-, hm⟩⟩ | ⟨-, -, hm⟩ := memoryStep_cases hq <;>
      rw [hm] at h ⊢
    · cases h
    · cases h

theorem qEX_executeStep (s : State) : (executeStep s).qEX = none := by
  cases hq : s.qEX with
  | none => rw [executeStep_empty hq, hq]
  | some b => rw [executeStep_some hq]

theorem fetchDue_eq_true :
    fetchDue s = true ↔
      s.qRF = none ∧ holdsTransfer s.qEX = false ∧ holdsTransfer s.qMEM = false ∧ holdsTransfer s.qWB = false := by
  simp [fetchDue, and_assoc]

/-- A data access changes the data cache, memory and the counters of the data cache. -/
theorem SameOutsideData.eq_update {t : State} (h : SameOutsideData s t) (hx : t.x = s.x) (hf : t.f = s.f)
    (hpc : t.pc = s.pc) :
    t = { s with dc := t.dc, mem := t.mem, dcAccesses := t.dcAccesses, dcHits := t.dcHits } := by
  obtain ⟨hp, hic, hfx, hff, ⟨hrf, hex, hmem, hwb⟩, hi, ⟨hia, hih⟩, ⟨hla, hlc⟩, hr⟩ := h
  cases s
  cases t
  simp only [State.mk.injEq, true_and]
  exact ⟨hp, hx, hf, hpc, hic, hfx, hff, hrf, hex, hmem, hwb, hi, hia, hih, hla, hlc, hr⟩

end Steps

theorem State.seqs_eq_append (s : State) :
    s.seqs = (s.qWB.map Behaviour.seq).toList ++ (s.qMEM.map Behaviour.seq).toList ++
      (s.qEX.map Behaviour.seq).toList := by
  unfold State.seqs
  cases s.qWB <;> cases s.qMEM <;> cases s.qEX <;> rfl

/-! ### Each step keeps the invariant -/

section Keeps

variable {s : State} (hs : s.EngineInv)
include hs

theorem State.EngineInv.seqs_of_sublist {t : State} (h : t.seqs.Sublist s.seqs) (hi : t.icount = s.icount) :
    t.seqs.Pairwise (· < ·) ∧ ∀ n ∈ t.seqs, n < t.icount := by
  obtain ⟨hpair, hlt⟩ := hs.seqs
  exact ⟨hpair.sublist h, fun n hn => hi ▸ hlt n (h.subset hn)⟩

theorem State.EngineInv.inv_writeBackStep : (writeBackStep s).Inv := by
  cases hq : s.qWB with
  | none => rw [writeBackStep_empty hq]; exact hs.base
  | some b =>
    have hc : (commitDest b s).Inv := by
      unfold commitDest
      split
      · exact hs.base.inv_commit _ _
      · exact hs.base
    obtain ⟨-, -, hexec⟩ := hs.recordWB b hq
    rw [writeBackStep_some hq]
    rcases redirect_cases b (commitDest b s) with h | ⟨-, t, ht, h⟩
    · rw [h]
      exact { hc with }
    · rw [h]
      exact { hc.inv_setPc (hexec.even_target t ht) with }

/-- Write-back commits the oldest value in flight. A redirect finds `q_RF` empty. -/
theorem State.EngineInv.engineInv_writeBackStep : (writeBackStep s).EngineInv := by
  have hinv := hs.inv_writeBackStep
  have hpc : s.qRF.isSome = true → (writeBackStep s).pc = s.pc := fun hrf =>
    pc_writeBackStep (Bool.eq_false_iff.2 fun h => by simp [(hs.aloneWB h).1] at hrf)
  have hcommitted := fun (r : RegRef) (hr : r ≠ xr 0) => committed_writeBackStep s hr
  obtain ⟨x, f, pc, hstep⟩ : ∃ x f pc, writeBackStep s = { s with x := x, f := f, pc := pc, qWB := none } :=
    ⟨_, _, _, writeBackStep_frame s⟩
  have hseqs : (writeBackStep s).seqs.Sublist s.seqs := by
    rw [hstep]
    exact (List.sublist_cons_self _ _).filterMap _
  rw [hstep] at hinv hpc hcommitted hseqs ⊢
  exact { hs with
    base := hinv
    fetched := fun hrf => (hs.fetched hrf).trans (by rw [hpc hrf])
    aloneWB := fun h => nomatch h
    seqs := hs.seqs_of_sublist hseqs rfl
    coherent := fun r hr => State.Coherent.of_committed (hs.coherent r hr) rfl rfl (inFlight_of_qWB_none rfl r)
      (hcommitted r hr)
    recordWB := fun _ h => nomatch h }

/-- A change of the data cache and memory only. -/
theorem State.EngineInv.of_sameOutsideData {t : State} (ht : t.Inv) (h : SameOutsideData s t) (hx : t.x = s.x)
    (hf : t.f = s.f) (hpc : t.pc = s.pc) : t.EngineInv := by
  rw [h.eq_update hx hf hpc] at ht ⊢
  exact { hs with base := ht }

theorem State.EngineInv.engineInv_raiseFatal (c : Fault) : (raiseFatal c s).EngineInv :=
  { hs with base := { hs.base with } }

/-- A load that passed its checks publishes the loaded value and moves to write-back. -/
theorem State.EngineInv.engineInv_loaded {b : Behaviour} (hq : s.qMEM = some b) (hwb : s.qWB = none)
    (hl : isLoad b.instr = true) (v : Word) :
    ({ publishDest b v s with qMEM := none, qWB := some { b with loaded := some v } } : State).EngineInv := by
  have hexec := hs.recordMEM b hq
  have hflight : ∀ r, s.inFlight r = none := fun r => by
    rw [inFlight_of_qWB_none hwb, hq, uncommitted_of_unloaded hl hexec.loaded_eq_none]
  rw [← publishValue_loaded hl]
  have hf := fun (r : RegRef) (hr : r ≠ xr 0) => forwarded_publishValue { b with loaded := some v } s hr
  have hx0 := forwarded_publishValue_x0 { b with loaded := some v } s
  obtain ⟨X, F, hp⟩ := publishValue_frame { b with loaded := some v } s
  rw [hp] at hf hx0 ⊢
  exact { hs with
    base := { hs.base with }
    aloneMEM := fun h => nomatch h
    aloneWB := fun h =>
      have ⟨hrf, hex⟩ := hs.aloneMEM (hq ▸ h)
      ⟨hrf, hex, rfl⟩
    seqs := by simpa [State.seqs_eq_append, hq, hwb] using hs.seqs
    fwdX0 := hx0.trans hs.fwdX0
    coherent := fun r hr => State.Coherent.of_published (hs.coherent r hr) (hf r hr)
      (by rw [hflight r]; exact (Option.orElse_eq_or.trans Option.or_none).symm) rfl
    recordMEM := fun _ h => nomatch h
    recordWB := fun _ h => by cases h; exact hexec.accessed_of_load hl v }

/-- A store leaves the pipeline. -/
theorem State.EngineInv.engineInv_stored {b : Behaviour} (hq : s.qMEM = some b) (hwb : s.qWB = none)
    (hst : isStore b.instr = true) : ({ s with qMEM := none } : State).EngineInv := by
  obtain ⟨hdest, -⟩ := storeOf_dest hst
  have hflight : ∀ r, s.inFlight r = none := fun r => by
    rw [inFlight_of_qWB_none hwb, hq, uncommitted_of_not_dest (by simp [hdest])]
  have hseqs : ({ s with qMEM := none } : State).seqs.Sublist s.seqs := by
    simp [State.seqs_eq_append, hq, hwb]
  exact { hs with
    base := { hs.base with }
    aloneMEM := fun h => nomatch h
    aloneWB := fun h => by simp [hwb, holdsTransfer] at h
    seqs := hs.seqs_of_sublist hseqs rfl
    coherent := fun r hr => State.Coherent.of_published (q := none) (hs.coherent r hr) rfl
      (by rw [hflight r, inFlight_of_qMEM_none rfl, hwb]; rfl) rfl
    recordMEM := fun _ h => nomatch h }

/-- A record without a data access moves to write-back. -/
theorem State.EngineInv.engineInv_moved {b : Behaviour} (hq : s.qMEM = some b) (hwb : s.qWB = none)
    (hl : isLoad b.instr = false) (hst : isStore b.instr = false) :
    ({ s with qMEM := none, qWB := some b } : State).EngineInv :=
  { hs with
    base := { hs.base with }
    aloneMEM := fun h => nomatch h
    aloneWB := fun h =>
      have ⟨hrf, hex⟩ := hs.aloneMEM (hq ▸ h)
      ⟨hrf, hex, rfl⟩
    seqs := by simpa [State.seqs_eq_append, hq, hwb] using hs.seqs
    coherent := fun r hr => State.Coherent.of_published (q := none) (hs.coherent r hr) rfl
      (by rw [inFlight_of_qWB_none hwb, hq]; rfl) rfl
    recordMEM := fun _ h => nomatch h
    recordWB := fun _ h => by cases h; exact (hs.recordMEM b hq).accessed_of_no_access hl hst }

theorem State.EngineInv.engineInv_memoryStep (hwb : s.qWB = none) : (memoryStep s).EngineInv := by
  cases hq : s.qMEM with
  | none => rw [memoryStep_empty hq]; exact hs
  | some b =>
    obtain ⟨n, ext, hl, ⟨c, -, hm⟩ | ⟨hc, hm⟩⟩ | ⟨n, -, hst, ⟨c, -, hm⟩ | ⟨hc, hm⟩⟩ | ⟨hl, hst, hm⟩ :=
      memoryStep_cases hq <;> rw [hm]
    · exact hs.engineInv_raiseFatal c
    · obtain ⟨-, hrange⟩ := accessCheck_eq_none.1 hc
      have hpos : 0 < n := Nat.pos_of_dvd_of_pos (dvd_four_of_loadOf hl) (by decide)
      obtain ⟨hout, -, hx, hf, hpc, -⟩ := dcRead_frame (b.addr.getD 0).toNat n s
      obtain ⟨-, -, hmem, hwb'⟩ := hout.slots
      have hread := hs.of_sameOutsideData (hs.base.inv_dcRead n (by omega)) hout hx hf hpc
      exact hread.engineInv_loaded (hmem.trans hq) (hwb'.trans hwb) (congrArg Option.isSome hl) _
    · exact hs.engineInv_raiseFatal c
    · obtain ⟨haligned, hrange⟩ := accessCheck_eq_none.1 hc
      have hn := dvd_four_of_storeOf hst
      have hpos : 0 < n := Nat.pos_of_dvd_of_pos hn (by decide)
      obtain ⟨hout, -, hx, hf, hpc, -⟩ := dcWrite_frame (b.addr.getD 0).toNat n (b.op2.getD 0) s
      obtain ⟨-, -, hmem, hwb'⟩ := hout.slots
      have hwrite := hs.of_sameOutsideData (hs.base.inv_dcWrite hn haligned (by omega) _) hout hx hf hpc
      exact hwrite.engineInv_stored (hmem.trans hq) (hwb'.trans hwb) (congrArg Option.isSome hst)
    · exact hs.engineInv_moved hq hwb (congrArg Option.isSome hl) (congrArg Option.isSome hst)

/-- Execute fills the record, publishes its result unless it is a load, and moves it. -/
theorem State.EngineInv.engineInv_executeStep (hmem : s.qMEM = none) : (executeStep s).EngineInv := by
  cases hq : s.qEX with
  | none => rw [executeStep_empty hq]; exact hs
  | some b =>
    have hfetched := hs.recordEX b hq
    obtain ⟨-, -, -, -, hloaded⟩ := hfetched.unfilled
    have hf := fun (r : RegRef) (hr : r ≠ xr 0) => forwarded_publishValue (executeFill b) s hr
    have hx0 := forwarded_publishValue_x0 (executeFill b) s
    rw [executeStep_publishes hq hloaded]
    obtain ⟨X, F, hp⟩ := publishValue_frame (executeFill b) s
    rw [hp] at hf hx0 ⊢
    exact { hs with
      base := { hs.base with }
      aloneEX := fun h => nomatch h
      aloneMEM := fun h => by
        rw [holdsTransfer, executeFill_instr] at h
        exact ⟨hs.aloneEX (hq ▸ h), rfl⟩
      aloneWB := fun h => by
        obtain ⟨-, hex, -⟩ := hs.aloneWB h
        exact nomatch hq.symm.trans hex
      seqs := by simpa [State.seqs_eq_append, hq, hmem] using hs.seqs
      fwdX0 := hx0.trans hs.fwdX0
      coherent := fun r hr => State.Coherent.of_published (hs.coherent r hr) (hf r hr)
        (by rw [inFlight_of_qMEM_none hmem]; rfl) rfl
      recordEX := fun _ h => nomatch h
      recordMEM := fun _ h => by cases h; exact hfetched.executed }

/-- Register-fetch numbers the record with `icount`. It finds `q_RF` occupied, so no control transfer is in flight. -/
theorem State.EngineInv.engineInv_registerFetch {w : Word} (hq : s.qRF = some w) (hex : s.qEX = none) (i : Instr) :
    (registerFetch i s).EngineInv := by
  obtain ⟨hpair, hlt⟩ := hs.seqs
  have hseqs : (registerFetch i s).seqs = s.seqs ++ [s.icount] := by
    simp [State.seqs_eq_append, registerFetch, hex]
  have horigin : ∀ a ∈ (if recordsOriginPc i then some (s.pc - 4) else none : Option Word), a.toNat % 2 = 0 := by
    have := hs.base.pcEven
    intro a ha
    split at ha <;> cases ha
    bv_omega
  exact { hs with
    base := { hs.base with }
    fetched := fun h => nomatch h
    aloneEX := fun _ => rfl
    aloneMEM := fun h => nomatch hq.symm.trans (hs.aloneMEM h).1
    aloneWB := fun h => nomatch hq.symm.trans (hs.aloneWB h).1
    seqs := by
      rw [hseqs]
      refine ⟨List.pairwise_append.2 ⟨hpair, List.pairwise_singleton _ _, fun n hn m hm => ?_⟩, fun n hn => ?_⟩
      · rw [List.mem_singleton.1 hm]
        exact hlt n hn
      · rcases List.mem_append.1 hn with hn | hn
        · exact Nat.lt_succ_of_lt (hlt n hn)
        · rw [List.mem_singleton.1 hn]
          exact Nat.lt_succ_self _
    recordEX := fun _ h => by
      cases h
      exact ⟨Option.isSome_map, Option.isSome_map, by cases recordsOriginPc i <;> rfl, horigin, rfl, rfl, rfl, rfl, rfl⟩ }

theorem State.EngineInv.engineInv_decodeStep (hex : s.qEX = none) : (decodeStep s).EngineInv := by
  cases hq : s.qRF with
  | none => rw [decodeStep_empty hq]; exact hs
  | some w =>
    obtain ⟨e, -, hmem, -, h⟩ | ⟨e, -, -, h⟩ | ⟨i, -, -, h⟩ | ⟨i, -, -, h⟩ := decodeStep_cases hq <;> rw [h]
    · exact { hs with
        base := { hs.base with }
        fetched := fun h => nomatch h
        aloneEX := fun _ => rfl
        aloneMEM := fun h => ⟨rfl, hex⟩
        aloneWB := fun h => ⟨rfl, hex, hmem⟩ }
    · exact hs
    · exact hs
    · exact hs.engineInv_registerFetch hq hex i

/-- A fetch is made only while no control transfer is in flight, and records its address in the guard. -/
theorem State.EngineInv.engineInv_fetchStep : (fetchStep s).EngineInv := by
  cases hdue : fetchDue s with
  | false => rw [fetchStep_not_due hdue]; exact hs
  | true =>
    obtain ⟨hrf, hex, hmem, hwb⟩ := fetchDue_eq_true.1 hdue
    obtain ⟨-, h⟩ | ⟨hg, ⟨c, -, -, -, -, h⟩ | ⟨c, -, -, h⟩ | ⟨hc, h⟩⟩ := fetchStep_cases hdue <;> rw [h]
    · exact { hs with base := { hs.base with } }
    · exact hs.engineInv_raiseFatal c
    · exact hs
    · have hinv := hs.base.inv_fetchWord hg hc
      rw [fetchWord_frame] at hinv ⊢
      exact { hs with
        base := { hinv with }
        fetched := fun _ => by rw [BitVec.add_sub_cancel]
        aloneEX := fun h => absurd (hex.symm.trans h) Bool.false_ne_true
        aloneMEM := fun h => absurd (hmem.symm.trans h) Bool.false_ne_true
        aloneWB := fun h => absurd (hwb.symm.trans h) Bool.false_ne_true }

end Keeps

/-! ### The tick -/

/-- A fact about the step's result holds after `whileRunning` as long as the run goes on. -/
theorem whileRunning_of_running {f : State → State} {p : State → Prop} {s : State}
    (h : (f s).run = .running → p (f s)) (hr : (whileRunning f s).run = .running) : p (whileRunning f s) := by
  by_cases hs : s.run = .running
  · rw [whileRunning_of_eq hs] at hr ⊢
    exact h hr
  · rw [whileRunning_of_ne hs] at hr
    exact absurd hr hs

theorem State.EngineInv.engineInv_whileRunning {f : State → State} {s : State} (hs : s.EngineInv)
    (h : s.run = .running → (f s).EngineInv) : (whileRunning f s).EngineInv := by
  by_cases hr : s.run = .running
  · rw [whileRunning_of_eq hr]
    exact h hr
  · rw [whileRunning_of_ne hr]
    exact hs

/-- Settles O18: each of the five steps keeps the invariant, the slot it fills having been emptied by the step before. -/
theorem tickKeepsEngineInv : Obligations.TickKeepsEngineInv := by
  intro s hs
  have hwritten := hs.engineInv_whileRunning fun _ => hs.engineInv_writeBackStep
  have hwb := whileRunning_of_running (p := fun t => t.qWB = none) fun _ => qWB_writeBackStep s
  have haccessed := hwritten.engineInv_whileRunning fun hr => hwritten.engineInv_memoryStep (hwb hr)
  have hmem := whileRunning_of_running (p := fun t => t.qMEM = none) (qMEM_memoryStep (whileRunning writeBackStep s))
  have hexecuted := haccessed.engineInv_whileRunning fun hr => haccessed.engineInv_executeStep (hmem hr)
  have hex := whileRunning_of_running (p := fun t => t.qEX = none) fun _ =>
    qEX_executeStep (whileRunning memoryStep (whileRunning writeBackStep s))
  have hdecoded := hexecuted.engineInv_whileRunning fun hr => hexecuted.engineInv_decodeStep (hex hr)
  exact hdecoded.engineInv_whileRunning fun _ => hdecoded.engineInv_fetchStep

end Sys2Proof.Machine

/-! The host interface (80_host_interface.md): the machine a construction gives, and the run loop as a number of ticks. -/

namespace Sys2Proof.Machine

/-! ### The image in memory (R431) -/

@[simp] theorem length_bytesOfWord (w : Word) : (bytesOfWord w).length = 4 := rfl

theorem getD_bytesOfWord (w : Word) {j : Nat} (hj : j < 4) : (bytesOfWord w).getD j 0 = w.extractLsb' (8 * j) 8 := by
  obtain rfl | rfl | rfl | rfl : j = 0 ∨ j = 1 ∨ j = 2 ∨ j = 3 := by omega
  all_goals rfl

theorem Memory.read_loadImage_of_not_mem (m : Memory) (a b : Nat) (ws : List Word)
    (h : b < a ∨ a + 4 * ws.length ≤ b) : (loadImage m a ws).read b = m.read b := by
  induction ws generalizing m a with
  | nil => rfl
  | cons w ws ih =>
    simp only [List.length_cons] at h
    rw [loadImage, ih _ _ (by omega), Memory.read_writeBlock_of_not_mem _ _ _ _ (by rw [length_bytesOfWord]; omega)]

/-- The words before the k-th lie below its bytes, and those after it above, so that its own block is what a read sees. -/
theorem Memory.read_loadImage_of_mem {m : Memory} (hm : m.wf = true) (a : Nat) (ws : List Word) {k j : Nat}
    (hk : k < ws.length) (hj : j < 4) :
    (loadImage m a ws).read (a + 4 * k + j) = ws[k].extractLsb' (8 * j) 8 := by
  induction ws generalizing m a k with
  | nil => cases hk
  | cons w ws ih =>
    rw [loadImage]
    cases k with
    | zero =>
      rw [Memory.read_loadImage_of_not_mem _ _ _ _ (by omega), Nat.mul_zero, Nat.add_zero,
        Memory.read_writeBlock_of_mem hm a j (bytesOfWord w) hj, getD_bytesOfWord w hj]
      rfl
    | succ k =>
      rw [show a + 4 * (k + 1) + j = a + 4 + 4 * k + j by omega,
        ih (Memory.wf_writeBlock a _ hm) (a + 4) (Nat.lt_of_succ_lt_succ hk)]
      rfl

/-! ### The reset state (70_reset_and_hazards.md R400) -/

theorem setAt_replicate_nil (n i : Nat) : Cache.setAt (List.replicate n []) i = [] := by
  rw [Cache.setAt, List.getD_eq_getElem?_getD, List.getElem?_getD_replicate_default_eq]

theorem lookup_replicate_nil (g : Geometry) (n a : Nat) : Cache.lookup g (List.replicate n []) a = none := by
  rw [Cache.lookup, setAt_replicate_nil, List.find?_nil]

section Reset
variable (p : Params) (mem : Memory)

theorem readX_resetWith (r : RegIdx) : (State.resetWith p mem).readX r = 0 := by
  simp [State.readX, State.resetWith]

theorem readF_resetWith (r : RegIdx) : (State.resetWith p mem).readF r = 0 := Vector.getElem_replicate _

theorem archMem_resetWith (a : Nat) : (State.resetWith p mem).archMem a = mem.read a := by
  have hmiss : Cache.lookup (State.resetWith p mem).params.dc (State.resetWith p mem).dc a = none := lookup_replicate_nil p.dc p.dc.sets a
  rw [State.archMem, hmiss]
  rfl

theorem forwarded_resetWith (r : RegRef) : (State.resetWith p mem).forwarded r = none := by
  obtain ⟨bank, idx⟩ := r
  cases bank <;> exact Vector.getElem_replicate _

end Reset

/-! ### Construction (R431, 70_reset_and_hazards.md R402) -/

theorem construct_eq_some {p : Params} {image : List Word} {s : State} :
    State.construct p image = some s ↔
      (p.WellFormed ∧ 4 * image.length ≤ p.memSize) ∧ State.resetWith p (loadImage [] 0 image) = s := by
  rw [State.construct, Option.ite_none_right_eq_some, Option.some.injEq]

theorem isSome_construct {p : Params} {image : List Word} :
    (State.construct p image).isSome = true ↔ p.WellFormed ∧ 4 * image.length ≤ p.memSize := by
  simp [Option.isSome_iff_exists, construct_eq_some]

/-- Settles O14: the machine constructed is the reset state over the loaded image, whose words are where they were put. -/
theorem constructionGivesTheResetState : Obligations.ConstructionGivesTheResetState := by
  refine fun p image => ⟨isSome_construct, fun s hs => ?_⟩
  obtain ⟨-, rfl⟩ := construct_eq_some.1 hs
  have hword : ∀ k j (h : k < image.length), j < 4 →
      (loadImage [] 0 image).read (4 * k + j) = image[k].extractLsb' (8 * j) 8 := fun k j hk hj => by
    simpa only [Nat.zero_add] using Memory.read_loadImage_of_mem (m := []) rfl 0 image hk hj
  have hpast : ∀ a, 4 * image.length ≤ a → (loadImage [] 0 image).read a = 0 := fun a ha =>
    Memory.read_loadImage_of_not_mem [] 0 a image (.inr (by omega))
  exact ⟨rfl, readX_resetWith p _, readF_resetWith p _, rfl, hword, hpast, archMem_resetWith p _,
    lookup_replicate_nil p.ic p.ic.sets, setAt_replicate_nil p.dc.sets, setAt_replicate_nil p.ic.sets,
    forwarded_resetWith p _, rfl, rfl, rfl, rfl, rfl, rfl, rfl, rfl, rfl, rfl, rfl, rfl⟩

/-! ### The run loop (R433) -/

/-- After the run has ended every step of the tick is skipped (50_pipeline.md R330). -/
theorem tick_of_ended {s : State} (h : s.run ≠ .running) : tick s = s := by
  simp [tick, h]

theorem ticks_of_ended {s : State} (h : s.run ≠ .running) (n : Nat) : ticks n s = s := by
  induction n with
  | zero => rfl
  | succ n ih => rw [ticks_succ, tick_of_ended h, ih]

theorem driverTick_of_stop (s : State) : driverTick true s = s := by
  simp [driverTick]

theorem driverTick_of_not_stop (s : State) : driverTick false s = tick s := by
  by_cases h : s.run = .running
  · simp [driverTick, h]
  · simp [driverTick, h, tick_of_ended h]

theorem driverRun_eq_ticks (stops : List Bool) (s : State) : driverRun stops s = ticks (stops.count false) s := by
  induction stops generalizing s with
  | nil => rfl
  | cons b bs ih =>
    cases b with
    | true => rw [driverRun, driverTick_of_stop, ih, List.count_cons_of_ne (by decide)]
    | false => rw [driverRun, driverTick_of_not_stop, ih, List.count_cons_self, ticks_succ]

/-- Settles O58: a turn of the loop is a tick unless `stop` is asserted, and ticks keep an ended machine. -/
theorem runLoopTicksWhileNotStopped : Obligations.RunLoopTicksWhileNotStopped := fun stops s =>
  ⟨driverRun_eq_ticks stops s, fun h => (driverRun_eq_ticks stops s).trans (ticks_of_ended h _)⟩

end Sys2Proof.Machine

/-! What an instruction can do, said once for all 52: seven cases, read off its row (50_pipeline.md R339). -/

namespace Sys2Proof.Machine

/-! ### What the rows of each execute result are -/

section Rows

variable {i : Instr} {a b pc : Word}

theorem executeOut_result {v : Word} (h : executeOut i a b pc = .result v) :
    (destOf i).isSome = true ∧ isLoad i = false ∧ isStore i = false ∧ isBranchOrJump i = false := by
  cases i <;> cases h <;> exact ⟨rfl, rfl, rfl, rfl⟩

theorem executeOut_addr {addr : Word} (h : executeOut i a b pc = .addr addr) :
    isBranchOrJump i = false ∧
      ((isLoad i = true ∧ (sourcesOf i).2 = none) ∨ (isStore i = true ∧ (sourcesOf i).2.isSome = true)) := by
  cases i <;> cases h <;> simp [isBranchOrJump, isLoad, loadOf, isStore, storeOf, sourcesOf]

theorem isBranchOrJump_of_branch {taken : Bool} {target : Word} (h : executeOut i a b pc = .branch taken target) :
    isBranchOrJump i = true ∧ destOf i = none := by
  cases i <;> cases h <;> exact ⟨rfl, rfl⟩

theorem isBranchOrJump_of_jump {link target : Word} (h : executeOut i a b pc = .jump link target) :
    isBranchOrJump i = true ∧ (destOf i).isSome = true ∧ link = linkValue pc := by
  cases i <;> cases h <;> exact ⟨rfl, rfl, rfl⟩

end Rows

/-! ### The cases -/

/-- What execute computes of an instruction on the committed registers (50_pipeline.md R333, R360). -/
def State.executed (s : State) (i : Instr) : ExecuteOut :=
  executeOut i (s.source (sourcesOf i).1) (s.source (sourcesOf i).2) s.originPc

/-- What `exec i s` can answer (50_pipeline.md R360): a commit, a redirect, a link and a redirect, or a data access, which
its checks may make fatal. -/
inductive Executes (i : Instr) (s : State) : State → Prop
  | result {r v} (hd : destOf i = some r) (hout : s.executed i = .result v) : Executes i s (commit r v s)
  | branch {taken target} (hout : s.executed i = .branch taken target) :
      Executes i s (if taken then { s with pc := target } else s)
  | jump {r link target} (hd : destOf i = some r) (hout : s.executed i = .jump link target) :
      Executes i s { commit r link s with pc := target }
  | fatal {a n c} (hout : s.executed i = .addr a) (hacc : dataAccess i s = some (a, n))
      (hc : accessCheck s.params a n = some c) : Executes i s (raiseFatal c s)
  | load {r a n ext} (hd : destOf i = some r) (hload : loadOf i = some (n, ext)) (hout : s.executed i = .addr a)
      (hacc : dataAccess i s = some (a, n)) (hc : accessCheck s.params a n = none) :
      Executes i s (commit r (ext (dcRead a.toNat n s).1) (dcRead a.toNat n s).2)
  | store {a n} (hstore : storeOf i = some n) (hout : s.executed i = .addr a) (hacc : dataAccess i s = some (a, n))
      (hc : accessCheck s.params a n = none) :
      Executes i s (dcWrite a.toNat n (s.source (sourcesOf i).2) s)

theorem dataAccess_of_load {i : Instr} {s : State} {a : Word} {n : Nat} {ext : Word → Word}
    (hout : s.executed i = .addr a) (h : loadOf i = some (n, ext)) : dataAccess i s = some (a, n) := by
  rw [State.executed] at hout
  rw [dataAccess_eq, hout, h]
  rfl

theorem dataAccess_of_store {i : Instr} {s : State} {a : Word} {n : Nat} (hout : s.executed i = .addr a)
    (h : storeOf i = some n) : dataAccess i s = some (a, n) := by
  rw [State.executed] at hout
  rw [dataAccess_eq, hout, (storeOf_dest (congrArg Option.isSome h)).2, h]
  rfl

/-- A load reads, extends and commits, in whichever bank (42_load_store.md R251). -/
theorem exec_of_load {i : Instr} {s : State} {r : RegRef} {a : Word} {n : Nat} {ext : Word → Word}
    (hd : destOf i = some r) (hload : loadOf i = some (n, ext)) (hout : s.executed i = .addr a)
    (hc : accessCheck s.params a n = none) :
    exec i s = .next (commit r (ext (dcRead a.toNat n s).1) (dcRead a.toNat n s).2) := by
  rw [State.executed] at hout
  obtain ⟨_ | _, idx⟩ := r
  · simp only [exec_eq_rowMeaning, rowMeaning, hout, hload, hd, loadX, memRead_ok hc]
    rfl
  · simp only [exec_eq_rowMeaning, rowMeaning, hout, hload, hd, loadF, memRead_ok hc]
    rfl

theorem exec_of_store {i : Instr} {s : State} {a : Word} {n : Nat} (hstore : storeOf i = some n)
    (hout : s.executed i = .addr a) (hc : accessCheck s.params a n = none) :
    exec i s = .next (dcWrite a.toNat n (s.source (sourcesOf i).2) s) := by
  rw [State.executed] at hout
  have hload := (storeOf_dest (congrArg Option.isSome hstore)).2
  simp only [exec_eq_rowMeaning, rowMeaning, hout, hload, hstore, storeTo, memWrite_ok hc]

/-- Every instruction answers one of the cases. -/
theorem exec_cases (i : Instr) (s : State) : ∃ t, exec i s = .next t ∧ Executes i s t := by
  cases hout : s.executed i with
  | result v =>
    obtain ⟨hdest, -⟩ := executeOut_result hout
    obtain ⟨r, hd⟩ := Option.isSome_iff_exists.1 hdest
    refine ⟨_, ?_, .result hd hout⟩
    rw [State.executed] at hout
    simp only [exec_eq_rowMeaning, rowMeaning, hout, hd]
  | branch taken target =>
    refine ⟨_, ?_, .branch hout⟩
    rw [State.executed] at hout
    simp only [exec_eq_rowMeaning, rowMeaning, hout, branchTo]
  | jump link target =>
    obtain ⟨-, hdest, -⟩ := isBranchOrJump_of_jump hout
    obtain ⟨r, hd⟩ := Option.isSome_iff_exists.1 hdest
    refine ⟨_, ?_, .jump hd hout⟩
    rw [State.executed] at hout
    simp only [exec_eq_rowMeaning, rowMeaning, hout, hd]
  | addr a =>
    obtain ⟨-, ⟨hl, -⟩ | ⟨hst, -⟩⟩ := executeOut_addr hout
    · obtain ⟨⟨n, ext⟩, hload⟩ := Option.isSome_iff_exists.1 hl
      obtain ⟨r, hd⟩ := Option.isSome_iff_exists.1 (loadOf_dest hl).1
      have hacc := dataAccess_of_load hout hload
      cases hc : accessCheck s.params a n with
      | some c => exact ⟨_, exec_of_failed_check hc hacc, .fatal hout hacc hc⟩
      | none => exact ⟨_, exec_of_load hd hload hout hc, .load hd hload hout hacc hc⟩
    · obtain ⟨n, hstore⟩ := Option.isSome_iff_exists.1 hst
      have hacc := dataAccess_of_store hout hstore
      cases hc : accessCheck s.params a n with
      | some c => exact ⟨_, exec_of_failed_check hc hacc, .fatal hout hacc hc⟩
      | none => exact ⟨_, exec_of_store hstore hout hc, .store hstore hout hacc hc⟩

theorem executes_of_exec {i : Instr} {s t : State} (h : exec i s = .next t) : Executes i s t := by
  obtain ⟨u, hu, hcases⟩ := exec_cases i s
  rw [h] at hu
  cases hu
  exact hcases

/-! ### Every step keeps the invariant (21_cache.md R120, 50_pipeline.md R346 f) -/

theorem State.Inv.even_originPc {s : State} (hs : s.Inv) : s.originPc.toNat % 2 = 0 := by
  have := hs.pcEven
  rw [State.originPc]
  bv_omega

/-- A target is even if the instruction's own address is (41_control_transfer.md R228, R230). -/
theorem even_target_of_branch {s : State} {i : Instr} {taken : Bool} {target : Word} (hpc : s.originPc.toNat % 2 = 0)
    (h : s.executed i = .branch taken target) : target.toNat % 2 = 0 := by
  obtain ⟨imm, rfl⟩ := executeOut_branch h
  exact even_branchTarget hpc imm

theorem even_target_of_jump {s : State} {i : Instr} {link target : Word} (hpc : s.originPc.toNat % 2 = 0)
    (h : s.executed i = .jump link target) : target.toNat % 2 = 0 := by
  obtain ⟨imm, rfl⟩ | ⟨imm, rfl⟩ := executeOut_jump h
  · exact even_jalTarget hpc imm
  · exact even_jalrTarget _ imm

theorem State.Inv.inv_executes {i : Instr} {s t : State} (hs : s.Inv) (h : Executes i s t) : t.Inv := by
  cases h with
  | result => exact hs.inv_commit _ _
  | @branch taken target hout =>
    cases taken with
    | true => exact hs.inv_setPc (even_target_of_branch hs.even_originPc hout)
    | false => exact hs
  | jump _ hout => exact (hs.inv_commit _ _).inv_setPc (even_target_of_jump hs.even_originPc hout)
  | fatal => exact { hs with }
  | load _ hload _ _ hc =>
    obtain ⟨-, hrange⟩ := accessCheck_eq_none.1 hc
    have hpos := Nat.pos_of_dvd_of_pos (dvd_four_of_loadOf hload) (by decide)
    exact (hs.inv_dcRead _ (by omega)).inv_commit _ _
  | store hstore _ _ hc =>
    obtain ⟨haligned, hrange⟩ := accessCheck_eq_none.1 hc
    have hn := dvd_four_of_storeOf hstore
    have hpos := Nat.pos_of_dvd_of_pos hn (by decide)
    exact hs.inv_dcWrite hn haligned (by omega) _

theorem State.Inv.inv_exec {i : Instr} {s t : State} (hs : s.Inv) (h : exec i s = .next t) : t.Inv :=
  hs.inv_executes (executes_of_exec h)

/-- The state on which a step executes: its fetch made and its instruction counted (50_pipeline.md R360). -/
def State.issued (s : State) : State := { (fetchWord s).2 with icount := (fetchWord s).2.icount + 1 }

theorem State.Inv.inv_issued {s : State} (hs : s.Inv) (hg : guardCount s.pc s < Config.livenessN)
    (hc : fetchCheck s.params s.pc = none) : s.issued.Inv :=
  { hs.inv_fetchWord hg hc with }

theorem step_of_halted {s : State} (h : s.run = .halted) : step s = .next s := by
  simp [step, h]

theorem step_of_fatal {s : State} {c : Fault} (h : s.run = .fatal c) : step s = .fault c := by
  simp [step, h]

/-- Settles O17: a step ends the run, or fetches and executes, and a fetch and every case of `Executes` keep `Inv`. -/
theorem stepKeepsInv : Obligations.StepKeepsInv := by
  intro s t hs hstep
  cases hr : s.run with
  | halted => rw [step_of_halted hr] at hstep; cases hstep; exact hs
  | fatal c => rw [step_of_fatal hr] at hstep; cases hstep
  | running =>
    obtain ⟨-, h⟩ | ⟨hg, ⟨c, -, h⟩ | ⟨hc, ⟨e, -, h⟩ | ⟨i, -, h⟩⟩⟩ := step_cases hr <;> rw [h] at hstep
    · cases hstep; exact { hs with }
    · cases hstep; exact { hs with }
    · cases hstep; exact { hs.inv_fetchWord hg hc with }
    · exact (hs.inv_issued hg hc).inv_exec hstep

end Sys2Proof.Machine

/-! Decoder and encoder (30_encoding.md): each shape's layout and fields are inverse to each other, each row of the registry
is the encoder's, and the opcode and key of a word decide what it is. -/

namespace Sys2Proof

open Machine

/-! ### A layout of a word's own fields is the word (R132 to R137) -/

section Layout

variable (w : Word)

theorem encodeR_fields :
    encodeR (fieldFunct7 w) (fieldRs2 w) (fieldRs1 w) (fieldFunct3 w) (fieldRd w) (fieldOpcode w) = w := by
  apply BitVec.eq_of_getLsbD_eq
  intro k hk
  unfold encodeR fieldFunct7 fieldRs2 fieldRs1 fieldFunct3 fieldRd fieldOpcode
  simp only [BitVec.getLsbD_append, BitVec.getLsbD_extractLsb']
  interval_cases k <;> simp

theorem encodeI_fields : encodeI (fieldImmI w) (fieldRs1 w) (fieldFunct3 w) (fieldRd w) (fieldOpcode w) = w := by
  apply BitVec.eq_of_getLsbD_eq
  intro k hk
  unfold encodeI fieldImmI fieldRs1 fieldFunct3 fieldRd fieldOpcode
  simp only [BitVec.getLsbD_append, BitVec.getLsbD_extractLsb']
  interval_cases k <;> simp

theorem encodeS_fields : encodeS (fieldImmS w) (fieldRs2 w) (fieldRs1 w) (fieldFunct3 w) (fieldOpcode w) = w := by
  apply BitVec.eq_of_getLsbD_eq
  intro k hk
  unfold encodeS fieldImmS fieldRs2 fieldRs1 fieldFunct3 fieldOpcode
  simp only [BitVec.getLsbD_append, BitVec.getLsbD_extractLsb']
  interval_cases k <;> simp

theorem encodeB_fields : encodeB (fieldImmB w) (fieldRs2 w) (fieldRs1 w) (fieldFunct3 w) (fieldOpcode w) = w := by
  apply BitVec.eq_of_getLsbD_eq
  intro k hk
  unfold encodeB fieldImmB fieldRs2 fieldRs1 fieldFunct3 fieldOpcode
  simp only [BitVec.getLsbD_append, BitVec.getLsbD_extractLsb']
  interval_cases k <;> simp

theorem encodeJ_fields : encodeJ (fieldImmJ w) (fieldRd w) (fieldOpcode w) = w := by
  apply BitVec.eq_of_getLsbD_eq
  intro k hk
  unfold encodeJ fieldImmJ fieldRd fieldOpcode
  simp only [BitVec.getLsbD_append, BitVec.getLsbD_extractLsb']
  interval_cases k <;> simp

theorem encodeU_fields : encodeU (fieldImmU w) (fieldRd w) (fieldOpcode w) = w := by
  apply BitVec.eq_of_getLsbD_eq
  intro k hk
  unfold encodeU fieldImmU fieldRd fieldOpcode
  simp only [BitVec.getLsbD_append, BitVec.getLsbD_extractLsb']
  interval_cases k <;> simp

/-- The word without its rs2 field, as the encoder writes the ignored one. -/
theorem encodeR_rs2_zero (f7 : BitVec 7) (rs2 rs1 : RegIdx) (f3 : BitVec 3) (rd : RegIdx) (op : BitVec 7) :
    encodeR f7 0#5 rs1 f3 rd op = encodeR f7 rs2 rs1 f3 rd op &&& 0xFE0FFFFF#32 := by
  apply BitVec.eq_of_getLsbD_eq
  intro k hk
  unfold encodeR
  rw [BitVec.getLsbD_and]
  simp only [BitVec.getLsbD_append]
  interval_cases k <;> simp

end Layout

/-! ### Decoding what the encoder lays out -/

/-- A word decodes to what the registry holds under its key. -/
theorem decodeWord_eq_instr_iff {w : Word} {i : Instr} : decodeWord w = .instr i ↔ registry (decodeShape w) = some i := by
  unfold decodeWord
  cases decodeShape w with
  | unrecognized => simp [registry]
  | _ => dsimp only; cases registry _ <;> simp

section Encoded

variable {op f7 : BitVec 7} {f3 : BitVec 3} {rd rs1 rs2 : RegIdx} {imm : Imm12} {imm20 : Imm20}

theorem decodeWord_encodeR {k : RegIdx → RegIdx → RegIdx → Instr} (hshape : opcodeShapes.lookup op = some .r)
    (hkey : registryR.lookup (op, f7, f3) = some k) :
    decodeWord (encodeR f7 rs2 rs1 f3 rd op) = .instr (k rd rs1 rs2) := by
  simp [decodeWord_eq_instr_iff, decodeShape, hshape, registry, hkey]

theorem decodeWord_encodeI {k : RegIdx → RegIdx → Imm12 → Instr} (hshape : opcodeShapes.lookup op = some .i)
    (hshift : isShiftKey op f3 = false) (hkey : registryI.lookup (op, f3) = some k) :
    decodeWord (encodeI imm rs1 f3 rd op) = .instr (k rd rs1 imm) := by
  simp [decodeWord_eq_instr_iff, decodeShape, hshape, registry, hshift, hkey]

theorem decodeWord_encodeI_shift {k : RegIdx → RegIdx → Imm12 → Instr} (hshape : opcodeShapes.lookup op = some .i)
    (hshift : isShiftKey op f3 = true) (himm : imm.extractLsb' 5 7 = f7)
    (hkey : registryShift.lookup (f3, f7) = some k) :
    decodeWord (encodeI imm rs1 f3 rd op) = .instr (k rd rs1 imm) := by
  simp [decodeWord_eq_instr_iff, decodeShape, hshape, registry, hshift, himm, hkey]

theorem decodeWord_encodeS {k : RegIdx → RegIdx → Imm12 → Instr} (hshape : opcodeShapes.lookup op = some .s)
    (hkey : registryS.lookup (op, f3) = some k) :
    decodeWord (encodeS imm rs2 rs1 f3 op) = .instr (k rs1 rs2 imm) := by
  simp [decodeWord_eq_instr_iff, decodeShape, hshape, registry, hkey]

theorem decodeWord_encodeB {k : RegIdx → RegIdx → Imm12 → Instr} (hshape : opcodeShapes.lookup op = some .b)
    (hkey : registryB.lookup (op, f3) = some k) :
    decodeWord (encodeB imm rs2 rs1 f3 op) = .instr (k rs1 rs2 imm) := by
  simp [decodeWord_eq_instr_iff, decodeShape, hshape, registry, hkey]

theorem decodeWord_encodeJ {k : RegIdx → Imm20 → Instr} (hshape : opcodeShapes.lookup op = some .j)
    (hkey : registryJU.lookup op = some k) : decodeWord (encodeJ imm20 rd op) = .instr (k rd imm20) := by
  simp [decodeWord_eq_instr_iff, decodeShape, hshape, registry, hkey]

theorem decodeWord_encodeU {k : RegIdx → Imm20 → Instr} (hshape : opcodeShapes.lookup op = some .u)
    (hkey : registryJU.lookup op = some k) : decodeWord (encodeU imm20 rd op) = .instr (k rd imm20) := by
  simp [decodeWord_eq_instr_iff, decodeShape, hshape, registry, hkey]

end Encoded

/-- Every well-formed instruction's encoding has a key under which the registry holds the instruction. -/
theorem decodeWord_encode {i : Instr} (h : i.wellFormed = true) : decodeWord (encode i) = .instr i := by
  cases i with
  | lui | auipc => exact decodeWord_encodeU rfl rfl
  | jal => exact decodeWord_encodeJ rfl rfl
  | jalr | lb | lh | lw | lbu | lhu | flw | addi | slti | sltiu | xori | ori | andi => exact decodeWord_encodeI rfl rfl rfl
  | slli | srli | srai => exact decodeWord_encodeI_shift rfl rfl (eq_of_beq h) rfl
  | beq | bne | blt | bge | bltu | bgeu => exact decodeWord_encodeB rfl rfl
  | sb | sh | sw | fsw => exact decodeWord_encodeS rfl rfl
  | fsqrtS rd rs1 => exact decodeWord_encodeR (k := fun rd rs1 _ => .fsqrtS rd rs1) rfl rfl
  | fcvtWS rd rs1 => exact decodeWord_encodeR (k := fun rd rs1 _ => .fcvtWS rd rs1) rfl rfl
  | fcvtSW rd rs1 => exact decodeWord_encodeR (k := fun rd rs1 _ => .fcvtSW rd rs1) rfl rfl
  | _ => exact decodeWord_encodeR rfl rfl

/-- Settles O1: the encoded word selects its instruction, and its four bytes are the word. -/
theorem decodeOfEncode : Obligations.DecodeOfEncode := fun i h =>
  ⟨decodeWord_encode h, fun rest => by rw [encodeBytes, decodeBytes_bytesOfWord, decodeWord_encode h]⟩

/-- Settles O4: the words, evaluated. -/
theorem exampleWordsDecode : Obligations.ExampleWordsDecode := by
  unfold Obligations.ExampleWordsDecode
  decide

/-! ### Encoding what the decoder finds -/

theorem mem_of_lookup_eq_some {α β : Type} [BEq α] [LawfulBEq α] {l : List (α × β)} {k : α} {b : β}
    (h : l.lookup k = some b) : (k, b) ∈ l := by
  obtain ⟨before, after, rfl, -⟩ := List.lookup_eq_some_iff.1 h
  exact List.mem_append_right _ List.mem_cons_self

/-- The instruction is one of the three whose rs2 field is ignored (R140). -/
def Instr.IgnoresRs2 (i : Instr) : Prop := ∃ rd rs1, i = .fsqrtS rd rs1 ∨ i = .fcvtWS rd rs1 ∨ i = .fcvtSW rd rs1

/-- A row of the R shape encodes in its own key, but for the ignored rs2 field (R146). -/
theorem encode_of_mem_registryR {e : (BitVec 7 × BitVec 7 × BitVec 3) × (RegIdx → RegIdx → RegIdx → Instr)}
    (h : e ∈ registryR) (rd rs1 rs2 : RegIdx) :
    (e.2 rd rs1 rs2).wellFormed = true ∧
      (encode (e.2 rd rs1 rs2) = encodeR e.1.2.1 rs2 rs1 e.1.2.2 rd e.1.1 ∨
        ((e.2 rd rs1 rs2).IgnoresRs2 ∧ encode (e.2 rd rs1 rs2) = encodeR e.1.2.1 0#5 rs1 e.1.2.2 rd e.1.1)) := by
  revert e
  simp [registryR, encode, Instr.wellFormed, Instr.IgnoresRs2]

theorem encode_of_mem_registryI {e : (BitVec 7 × BitVec 3) × (RegIdx → RegIdx → Imm12 → Instr)}
    (h : e ∈ registryI) (rd rs1 : RegIdx) (imm : Imm12) :
    (e.2 rd rs1 imm).wellFormed = true ∧ encode (e.2 rd rs1 imm) = encodeI imm rs1 e.1.2 rd e.1.1 := by
  revert e
  simp [registryI, encode, Instr.wellFormed]

theorem encode_of_mem_registryShift {e : (BitVec 3 × BitVec 7) × (RegIdx → RegIdx → Imm12 → Instr)}
    (h : e ∈ registryShift) (rd rs1 : RegIdx) {imm : Imm12} (himm : imm.extractLsb' 5 7 = e.1.2) :
    (e.2 rd rs1 imm).wellFormed = true ∧ encode (e.2 rd rs1 imm) = encodeI imm rs1 e.1.1 rd 0b0010011#7 := by
  revert e
  simp +contextual [registryShift, encode, Instr.wellFormed]

theorem encode_of_mem_registryS {e : (BitVec 7 × BitVec 3) × (RegIdx → RegIdx → Imm12 → Instr)}
    (h : e ∈ registryS) (rs1 rs2 : RegIdx) (imm : Imm12) :
    (e.2 rs1 rs2 imm).wellFormed = true ∧ encode (e.2 rs1 rs2 imm) = encodeS imm rs2 rs1 e.1.2 e.1.1 := by
  revert e
  simp [registryS, encode, Instr.wellFormed]

theorem encode_of_mem_registryB {e : (BitVec 7 × BitVec 3) × (RegIdx → RegIdx → Imm12 → Instr)}
    (h : e ∈ registryB) (rs1 rs2 : RegIdx) (imm : Imm12) :
    (e.2 rs1 rs2 imm).wellFormed = true ∧ encode (e.2 rs1 rs2 imm) = encodeB imm rs2 rs1 e.1.2 e.1.1 := by
  revert e
  simp [registryB, encode, Instr.wellFormed]

/-- The rows of the J and U shapes, told apart by the opcode's shape (R141). -/
theorem encode_of_mem_registryJU {e : BitVec 7 × (RegIdx → Imm20 → Instr)} (h : e ∈ registryJU) (rd : RegIdx)
    (imm : Imm20) :
    (e.2 rd imm).wellFormed = true ∧
      (opcodeShapes.lookup e.1 = some .j → encode (e.2 rd imm) = encodeJ imm rd e.1) ∧
      (opcodeShapes.lookup e.1 = some .u → encode (e.2 rd imm) = encodeU imm rd e.1) := by
  revert e
  simp [registryJU, encode, Instr.wellFormed, opcodeShapes, List.lookup]

theorem isShiftKey_opcode {op : BitVec 7} {f3 : BitVec 3} (h : isShiftKey op f3 = true) : op = 0b0010011#7 := by
  simp only [isShiftKey, Bool.and_eq_true, beq_iff_eq] at h
  exact h.1

/-- Settles O2: the registry's row encodes in its own key, and the layout of a word's fields is the word. -/
theorem encodeOfDecode : Obligations.EncodeOfDecode := by
  intro w i h
  rw [decodeWord_eq_instr_iff, decodeShape] at h
  split at h
  · obtain ⟨k, hk, rfl⟩ := Option.map_eq_some_iff.1 h
    obtain ⟨hwf, he⟩ := encode_of_mem_registryR (mem_of_lookup_eq_some hk) (fieldRd w) (fieldRs1 w) (fieldRs2 w)
    rw [encodeR_rs2_zero _ (fieldRs2 w), encodeR_fields] at he
    exact ⟨hwf, he⟩
  · rw [registry] at h
    split at h
    · next hshift =>
      obtain ⟨k, hk, rfl⟩ := Option.map_eq_some_iff.1 h
      obtain ⟨hwf, he⟩ := encode_of_mem_registryShift (mem_of_lookup_eq_some hk) (fieldRd w) (fieldRs1 w) rfl
      rw [← isShiftKey_opcode hshift, encodeI_fields] at he
      exact ⟨hwf, .inl he⟩
    · obtain ⟨k, hk, rfl⟩ := Option.map_eq_some_iff.1 h
      obtain ⟨hwf, he⟩ := encode_of_mem_registryI (mem_of_lookup_eq_some hk) (fieldRd w) (fieldRs1 w) (fieldImmI w)
      exact ⟨hwf, .inl (he.trans (encodeI_fields w))⟩
  · obtain ⟨k, hk, rfl⟩ := Option.map_eq_some_iff.1 h
    obtain ⟨hwf, he⟩ := encode_of_mem_registryS (mem_of_lookup_eq_some hk) (fieldRs1 w) (fieldRs2 w) (fieldImmS w)
    exact ⟨hwf, .inl (he.trans (encodeS_fields w))⟩
  · obtain ⟨k, hk, rfl⟩ := Option.map_eq_some_iff.1 h
    obtain ⟨hwf, he⟩ := encode_of_mem_registryB (mem_of_lookup_eq_some hk) (fieldRs1 w) (fieldRs2 w) (fieldImmB w)
    exact ⟨hwf, .inl (he.trans (encodeB_fields w))⟩
  · next hshape =>
    obtain ⟨k, hk, rfl⟩ := Option.map_eq_some_iff.1 h
    obtain ⟨hwf, he, -⟩ := encode_of_mem_registryJU (mem_of_lookup_eq_some hk) (fieldRd w) (fieldImmJ w)
    exact ⟨hwf, .inl ((he hshape).trans (encodeJ_fields w))⟩
  · next hshape =>
    obtain ⟨k, hk, rfl⟩ := Option.map_eq_some_iff.1 h
    obtain ⟨hwf, -, he⟩ := encode_of_mem_registryJU (mem_of_lookup_eq_some hk) (fieldRd w) (fieldImmU w)
    exact ⟨hwf, .inl ((he hshape).trans (encodeU_fields w))⟩
  · cases h

end Sys2Proof

/-! What a word is, by the number of its opcode and key (30_encoding.md R150 to R152), and what its immediate fields are worth
as operands (R133 to R139). -/

namespace Sys2Proof

open Machine

/-! ### The three outcomes -/

section Outcomes

variable {w : Word}

theorem decodeShape_eq_unrecognized_iff : decodeShape w = .unrecognized ↔ opcodeShapes.lookup (fieldOpcode w) = none := by
  unfold decodeShape
  split <;> simp [*]

theorem decodeWord_eq_unrecognized_iff :
    decodeWord w = .rejected .unrecognizedOpcode ↔ opcodeShapes.lookup (fieldOpcode w) = none := by
  rw [← decodeShape_eq_unrecognized_iff]
  unfold decodeWord
  cases decodeShape w with
  | unrecognized => simp
  | _ => dsimp only; cases registry _ <;> simp

/-- No word is too short (R130). -/
theorem decodeWord_ne_truncated : decodeWord w ≠ .rejected .truncated := by
  unfold decodeWord
  cases decodeShape w with
  | unrecognized => simp
  | _ => dsimp only; cases registry _ <;> simp

theorem decodeWord_eq_unmapped_iff :
    decodeWord w = .rejected .unmappedInstruction ↔
      decodeWord w ≠ .rejected .unrecognizedOpcode ∧ ¬ ∃ i, decodeWord w = .instr i := by
  have htruncated := decodeWord_ne_truncated (w := w)
  cases h : decodeWord w with
  | instr i => simp
  | rejected e => cases e <;> simp_all

theorem exists_decodeWord_eq_instr_iff : (∃ i, decodeWord w = .instr i) ↔ (registry (decodeShape w)).isSome = true := by
  simp only [decodeWord_eq_instr_iff, Option.isSome_iff_exists]

end Outcomes

/-! ### Opcodes and keys as numbers -/

section Numbers

variable (w : Word)

theorem toNat_fieldOpcode : (fieldOpcode w).toNat = w.toNat % 2 ^ 7 := by
  rw [fieldOpcode_of_toNat rfl, BitVec.toNat_ofNat, Nat.mod_mod]

theorem toNat_fieldFunct3 : (fieldFunct3 w).toNat = w.toNat / 2 ^ 12 % 2 ^ 3 := by
  rw [fieldFunct3_of_toNat rfl, BitVec.toNat_ofNat, Nat.mod_mod]

end Numbers

theorem lookup_opcodeShapes_eq_none_iff {w : Word} :
    opcodeShapes.lookup (fieldOpcode w) = none ↔
      w.toNat % 2 ^ 7 ∉ [0x33, 0x53, 0x13, 0x03, 0x07, 0x67, 0x23, 0x27, 0x63, 0x6F, 0x37, 0x17] := by
  simp [List.lookup_eq_none_iff, opcodeShapes, BitVec.toNat_eq, toNat_fieldOpcode]

/-- The opcode of each shape (R138). -/
theorem opcode_of_shape {op : BitVec 7} {sh : Shape} (h : opcodeShapes.lookup op = some sh) :
    match sh with
    | .r => op = 0x33#7 ∨ op = 0x53#7
    | .i => op = 0x13#7 ∨ op = 0x03#7 ∨ op = 0x07#7 ∨ op = 0x67#7
    | .s => op = 0x23#7 ∨ op = 0x27#7
    | .b => op = 0x63#7
    | .j => op = 0x6F#7
    | .u => op = 0x37#7 ∨ op = 0x17#7 := by
  have hmem := mem_of_lookup_eq_some h
  cases sh <;> simpa [opcodeShapes] using hmem

/-- `KeyMapped` on the fields themselves. -/
def mappedKey (op : BitVec 7) (f3 : BitVec 3) (f7 : BitVec 7) : Bool :=
  op ∈ [0x37#7, 0x17#7, 0x6F#7] ||
  (op == 0x67#7 && f3 == 0#3) ||
  (op == 0x63#7 && f3 ∈ [0#3, 1#3, 4#3, 5#3, 6#3, 7#3]) ||
  (op == 0x03#7 && f3 ∈ [0#3, 1#3, 2#3, 4#3, 5#3]) ||
  (op == 0x23#7 && f3 ∈ [0#3, 1#3, 2#3]) ||
  (op ∈ [0x07#7, 0x27#7] && f3 == 2#3) ||
  (op == 0x13#7 &&
    (f3 ∈ [0#3, 2#3, 3#3, 4#3, 6#3, 7#3] || (f3 == 1#3 && f7 == 0#7) || (f3 == 5#3 && f7 ∈ [0#7, 0x20#7]))) ||
  (op == 0x33#7 && (f7 == 0#7 || (f7 == 0x20#7 && f3 ∈ [0#3, 5#3]))) ||
  (op == 0x53#7 && ((f7 ∈ [0x00#7, 0x04#7, 0x08#7, 0x0C#7, 0x2C#7, 0x60#7, 0x68#7] && f3 == 0#3) ||
    (f7 ∈ [0x10#7, 0x50#7] && f3 ∈ [0#3, 1#3, 2#3])))

theorem keyMapped_iff {w : Word} :
    KeyMapped w ↔ mappedKey (fieldOpcode w) (fieldFunct3 w) (fieldFunct7 w) = true := by
  simp [KeyMapped, mappedKey, BitVec.toNat_eq, toNat_fieldOpcode, toNat_fieldFunct3, toNat_fieldFunct7, or_assoc]

/-! ### The keys of the registry -/

theorem isSome_lookup_map {α β γ : Type} [BEq α] [LawfulBEq α] (l : List (α × β)) (k : α) (f : β → γ) :
    ((l.lookup k).map f).isSome = true ↔ k ∈ l.map Prod.fst := by
  rw [Option.isSome_map, List.lookup_isSome_iff, List.mem_map]
  exact ⟨fun ⟨p, hp, h⟩ => ⟨p, hp, (eq_of_beq h).symm⟩, fun ⟨p, hp, h⟩ => ⟨p, hp, beq_iff_eq.2 h.symm⟩⟩

theorem funct3_cases (f3 : BitVec 3) :
    f3 = 0#3 ∨ f3 = 1#3 ∨ f3 = 2#3 ∨ f3 = 3#3 ∨ f3 = 4#3 ∨ f3 = 5#3 ∨ f3 = 6#3 ∨ f3 = 7#3 := by
  revert f3
  decide

theorem mem_keysR_iff {op : BitVec 7} (h : op = 0x33#7 ∨ op = 0x53#7) (f3 : BitVec 3) (f7 : BitVec 7) :
    (op, f7, f3) ∈ registryR.map Prod.fst ↔ mappedKey op f3 f7 = true := by
  rcases h with rfl | rfl <;> rcases funct3_cases f3 with rfl | rfl | rfl | rfl | rfl | rfl | rfl | rfl <;>
    simp [registryR, mappedKey]
  tauto

theorem mem_keysI_iff {op : BitVec 7} (h : op = 0x13#7 ∨ op = 0x03#7 ∨ op = 0x07#7 ∨ op = 0x67#7) (f3 : BitVec 3)
    (f7 : BitVec 7) :
    (if isShiftKey op f3 = true then (f3, f7) ∈ registryShift.map Prod.fst else (op, f3) ∈ registryI.map Prod.fst) ↔
      mappedKey op f3 f7 = true := by
  rcases h with rfl | rfl | rfl | rfl
  · rcases funct3_cases f3 with rfl | rfl | rfl | rfl | rfl | rfl | rfl | rfl <;>
      simp [isShiftKey, registryShift, registryI, mappedKey]
  all_goals simp [isShiftKey, registryI, mappedKey]

/-- The registry holds a row for exactly the mapped keys (R140). -/
theorem isSome_registry_iff (w : Word) :
    (registry (decodeShape w)).isSome = true ↔ mappedKey (fieldOpcode w) (fieldFunct3 w) (fieldFunct7 w) = true := by
  unfold decodeShape
  split
  · next h =>
    rw [registry, isSome_lookup_map]
    exact mem_keysR_iff (opcode_of_shape h) ..
  · next h =>
    rw [registry, extractLsb'_fieldImmI, ← mem_keysI_iff (opcode_of_shape h)]
    split <;> exact isSome_lookup_map ..
  · next h =>
    rw [registry, isSome_lookup_map]
    rcases opcode_of_shape h with h | h <;> simp [h, registryS, mappedKey]
  · next h =>
    rw [registry, isSome_lookup_map]
    simp [opcode_of_shape h, registryB, mappedKey]
  · next h =>
    rw [registry, isSome_lookup_map]
    simp [opcode_of_shape h, registryJU, mappedKey]
  · next h =>
    rw [registry, isSome_lookup_map]
    rcases opcode_of_shape h with h | h <;> simp [h, registryJU, mappedKey]
  · next h =>
    have hnone : ∀ op ∈ opcodeShapes.map Prod.fst, fieldOpcode w ≠ op := by
      simpa [List.lookup_eq_none_iff] using h
    refine iff_of_false Bool.false_ne_true ?_
    simp_all [opcodeShapes, mappedKey]

/-- Settles O3: the shape's lookup fails exactly for an unknown opcode, the registry's exactly for an unmapped key. -/
theorem everyWordIsOneOfThree : Obligations.EveryWordIsOneOfThree := by
  intro w
  have hinstr : (∃ i, decodeWord w = .instr i) ↔ KeyMapped w := by
    rw [exists_decodeWord_eq_instr_iff, isSome_registry_iff, keyMapped_iff]
  have hunrec := (decodeWord_eq_unrecognized_iff (w := w)).trans lookup_opcodeShapes_eq_none_iff
  refine ⟨hinstr, hunrec, ?_⟩
  rw [decodeWord_eq_unmapped_iff, ne_eq, hunrec, hinstr, not_not]

/-! ### Immediate operands (R139) -/

/-- Left shift by one doubles a number that stays in range. -/
theorem toInt_shiftLeft_one {x : Word} (hlow : -2 ^ 30 ≤ x.toInt) (hhigh : x.toInt < 2 ^ 30) :
    (x <<< 1).toInt = 2 * x.toInt := by
  have h := add_shiftLeft_one_eq_ofInt 0#32 x
  rw [BitVec.zero_add, BitVec.toInt_zero, zero_add] at h
  rw [h, BitVec.toInt_ofInt, Int.bmod_eq_of_le (by omega) (by omega)]

/-- Settles O5: each field is a number of the word, and a 12-bit or 20-bit field is its signed value. -/
theorem immediateOperands : Obligations.ImmediateOperands := by
  intro w
  have hw := w.isLt
  refine ⟨?_, ?_, ?_, ?_, ?_, ?_⟩
  · rw [toInt_immI, fieldImmI, extractLsb'_eq_ofNat_div, BitVec.toInt_eq_toNat_cond, BitVec.toInt_eq_toNat_cond, BitVec.toNat_ofNat]
    split <;> split <;> omega
  · rw [shamtImm_eq, fieldImmI, extractLsb'_eq_ofNat_div, BitVec.toNat_ofNat]
    omega
  · rw [toInt_immI, fieldImmS_eq_ofNat, BitVec.toInt_eq_toNat_cond, BitVec.toInt_eq_toNat_cond, BitVec.toNat_ofNat]
    split <;> split <;> omega
  · have hlow := (fieldImmB w).le_toInt
    have hhigh := (fieldImmB w).toInt_lt
    rw [toInt_shiftLeft_one (by rw [toInt_immI]; omega) (by rw [toInt_immI]; omega), toInt_immI, fieldImmB_eq_ofNat,
      BitVec.toInt_eq_toNat_cond, BitVec.toInt_eq_toNat_cond, BitVec.toNat_ofNat]
    split <;> split <;> omega
  · have hlow := (fieldImmJ w).le_toInt
    have hhigh := (fieldImmJ w).toInt_lt
    rw [toInt_shiftLeft_one (by rw [toInt_immJ]; omega) (by rw [toInt_immJ]; omega), toInt_immJ, fieldImmJ_eq_ofNat,
      BitVec.toInt_eq_toNat_cond, BitVec.toInt_eq_toNat_cond, BitVec.toNat_ofNat]
    split <;> split <;> omega
  · rw [immU_eq_ofNat, fieldImmU, extractLsb'_eq_ofNat_div, BitVec.toNat_ofNat, BitVec.toNat_ofNat]
    omega

/-- Settles O30: the displacement is worth its signed field. -/
theorem effectiveAddressValue : Obligations.EffectiveAddressValue := fun base imm => by
  rw [effectiveAddress, add_eq_ofInt_add, toInt_immI]

end Sys2Proof

/-! A fetch (50_pipeline.md R331, R360) and what it sees of the instruction cache (20_memory.md R75): the word is that of the
bytes seen, and a step executes what those bytes decode to. -/

namespace Sys2Proof.Machine

/-! ### The instruction cache seen as a data cache

Lookup, read and install are the same for both caches (21_cache.md R95, R100, R102), so what a fetch sees and does is what a
read does in a machine whose data cache is the instruction cache. -/

/-- The machine with the instruction cache in the place of its data cache. -/
def State.icView (s : State) : State := { s with params := { s.params with dc := s.params.ic }, dc := s.ic }

theorem State.fetchByte_eq_archMem (s : State) (a : Nat) : s.fetchByte a = s.icView.archMem a := rfl

/-- A fetch returns and leaves what a read of four bytes does. -/
theorem fetchWord_eq_dcRead (s : State) :
    (fetchWord s).1 = (dcRead s.pc.toNat 4 s.icView).1 ∧ (fetchWord s).2.ic = (dcRead s.pc.toNat 4 s.icView).2.dc := by
  cases h : Cache.lookup s.params.ic s.ic s.pc.toNat with
  | some l =>
    have hread := icRead_hit (s := { s with lgAddr := some s.pc, lgCount := guardCount s.pc s }) h
    rw [dcRead_hit (s := s.icView) h]
    have hword := congrArg Prod.fst hread
    have hic := congrArg (fun r => r.2.ic) hread
    exact ⟨hword, hic⟩
  | none =>
    have hread := icRead_miss (s := { s with lgAddr := some s.pc, lgCount := guardCount s.pc s }) h
    rw [dcRead_miss (s := s.icView) h]
    have hword := congrArg Prod.fst hread
    have hic := congrArg (fun r => r.2.ic) hread
    exact ⟨hword, hic⟩

/-! ### The set of an access afterwards (21_cache.md R100 to R102) -/

section Access

variable (a n : Nat) (s : State)

theorem getLast?_setAt_touched (g : Geometry) (c : Cache) (l : Line) :
    (Cache.setAt (touched g c a l) (indexOf g a)).getLast? = some l := by
  rw [touched, Cache.setAt_putSet_self, CacheSet.touch, List.getLast?_concat]

/-- A read leaves its line most recently used. -/
theorem getLast?_setAt_dcRead :
    (Cache.setAt (dcRead a n s).2.dc (indexOf s.params.dc a)).getLast? = some (readLine (s.accessedLine a)) := by
  unfold State.accessedLine
  cases h : Cache.lookup s.params.dc s.dc a with
  | some l => rw [dcRead_hit h]; exact getLast?_setAt_touched ..
  | none => rw [dcRead_miss h]; exact getLast?_setAt_touched ..

theorem getLast?_setAt_dcWrite (v : Word) :
    (Cache.setAt (dcWrite a n v s).dc (indexOf s.params.dc a)).getLast? =
      some (writtenLine s.params.dc a n v (s.accessedLine a)) := by
  unfold State.accessedLine
  cases h : Cache.lookup s.params.dc s.dc a with
  | some l => rw [dcWrite_hit h]; exact getLast?_setAt_touched ..
  | none => rw [dcWrite_miss h]; exact getLast?_setAt_touched ..

theorem lookup_dcRead_self :
    Cache.lookup s.params.dc (dcRead a n s).2.dc a = some (readLine (s.accessedLine a)) := by
  have ht : (readLine (s.accessedLine a)).tag = tagOf s.params.dc a := s.tag_accessedLine a
  unfold State.accessedLine at ht ⊢
  cases h : Cache.lookup s.params.dc s.dc a with
  | some l => rw [h] at ht; rw [dcRead_hit h]; exact lookup_touched_self _ ht
  | none => rw [h] at ht; rw [dcRead_miss h]; exact lookup_touched_self _ ht

/-- Other sets stay. -/
theorem setAt_dcRead_ne {j : Nat} (hj : j ≠ indexOf s.params.dc a) :
    Cache.setAt (dcRead a n s).2.dc j = Cache.setAt s.dc j := by
  cases h : Cache.lookup s.params.dc s.dc a with
  | some l => rw [dcRead_hit h]; exact setAt_touched_ne _ _ _ _ hj
  | none => rw [dcRead_miss h]; exact (setAt_touched_ne _ _ _ _ hj).trans (setAt_dcFill_ne a hj)

end Access

/-- Addresses of one base are addresses of one line. -/
theorem div_line_eq_of_baseOf_eq {g : Geometry} (hl : 0 < g.line) {a b : Nat} (h : baseOf g b = baseOf g a) :
    b / g.line = a / g.line := by
  have hbase : ∀ c, baseOf g c / g.line = c / g.line := fun c => by
    rw [baseOf_eq_lineAddr, ← Nat.add_zero (lineAddr ..), div_line_lineAddr_add _ _ _ hl, tagOf, indexOf,
      Nat.div_add_mod']
  rw [← hbase b, h, hbase]

/-! ### The word fetched -/

theorem toNat_append_eq {m n : Nat} (x : BitVec m) (y : BitVec n) : (x ++ y).toNat = x.toNat * 2 ^ n + y.toNat := by
  rw [BitVec.toNat_append, ← Nat.shiftLeft_add_eq_or_of_lt y.isLt, Nat.shiftLeft_eq]

theorem toNat_wordOfBytes (b0 b1 b2 b3 : Byte) :
    (wordOfBytes b0 b1 b2 b3).toNat = b0.toNat + 256 * (b1.toNat + 256 * (b2.toNat + 256 * b3.toNat)) := by
  rw [wordOfBytes, toNat_append_eq, toNat_append_eq, toNat_append_eq]
  omega

section Word

variable {s : State} (hp : s.params.WellFormed)
include hp

/-- The bytes of an aligned word are in one line. -/
theorem same_line_of_aligned {a k : Nat} (ha : a % 4 = 0) (hk : k < 4) :
    (a + k) / s.params.ic.line = a / s.params.ic.line :=
  div_line_eq_of_div_eq (Geometry.WellFormed.four_dvd hp.2.1) (by omega)

/-- An aligned fetch returns the little-endian word of the bytes it sees (20_memory.md R61, R68, R75). -/
theorem toNat_fetchWord (ha : s.pc.toNat % 4 = 0) : (fetchWord s).1.toNat = leValue (s.fetchBytes s.pc.toNat) := by
  have hic := hp.2.1
  have hl : 0 < s.icView.params.dc.line := Geometry.WellFormed.line_pos hic
  have hbyte : ∀ k < 4, (s.icView.accessedLine s.pc.toNat).bytes.getD (offsetOf s.params.ic s.pc.toNat + k) 0 =
      s.fetchByte (s.pc.toNat + k) := fun k hk => by
    rw [State.fetchByte_eq_archMem, ← State.getD_accessedLine hl (same_line_of_aligned hp ha hk)]
    exact congrArg (fun o => List.getD _ o 0) (offsetOf_add (Geometry.WellFormed.four_dvd hic) hl ha hk).1.symm
  rw [(fetchWord_eq_dcRead s).1, dcRead_value, Line.toNat_ofNat_leValue_slice _ _ (by decide), leValue_slice]
  exact congrArg leValue (List.map_congr_left fun k hk => hbyte k (List.mem_range.1 hk))

theorem fetchWord_eq_wordOfBytes (ha : s.pc.toNat % 4 = 0) :
    (fetchWord s).1 = wordOfBytes (s.fetchByte s.pc.toNat) (s.fetchByte (s.pc.toNat + 1))
      (s.fetchByte (s.pc.toNat + 2)) (s.fetchByte (s.pc.toNat + 3)) := by
  apply BitVec.eq_of_toNat_eq
  rw [toNat_fetchWord hp ha, State.fetchBytes]
  generalize s.fetchByte s.pc.toNat = b0, s.fetchByte (s.pc.toNat + 1) = b1, s.fetchByte (s.pc.toNat + 2) = b2,
    s.fetchByte (s.pc.toNat + 3) = b3
  simp only [leValue, toNat_wordOfBytes]
  omega

/-- The bytes a fetch sees decode to what the fetched word decodes to. -/
theorem decodeBytes_fetchBytes (ha : s.pc.toNat % 4 = 0) :
    decodeBytes (s.fetchBytes s.pc.toNat) = (decodeWord (fetchWord s).1, []) := by
  rw [fetchWord_eq_wordOfBytes hp ha]
  rfl

end Word

theorem fetchBytes_of_miss {s : State} (hp : s.params.WellFormed) {a : Nat} (ha : a % 4 = 0)
    (h : Cache.lookup s.params.ic s.ic a = none) : s.fetchBytes a = s.mem.readBlock a 4 := by
  have hbyte : ∀ k < 4, s.fetchByte (a + k) = s.mem.read (a + k) := fun k hk => by
    rw [State.fetchByte, Cache.lookup_eq_of_same_line _ (same_line_of_aligned hp ha hk), h]
  have h0 : s.fetchByte a = s.mem.read a := hbyte 0 (by decide)
  simp only [State.fetchBytes, Memory.readBlock, h0, hbyte 1, hbyte 2, hbyte 3, Nat.add_assoc, Nat.reduceAdd,
    Nat.reduceLT]

/-- Settles O7: a fetch is a read of the instruction cache, filled from `Mem`. -/
theorem fetchThroughInstructionCache : Obligations.FetchThroughInstructionCache := by
  intro s hp ha
  have hl := Geometry.WellFormed.line_pos hp.2.1
  obtain ⟨-, hic⟩ := fetchWord_eq_dcRead s
  have hframe := fetchWord_frame s
  refine ⟨toNat_fetchWord hp ha, fetchBytes_of_miss hp ha, ⟨readLine (s.icView.accessedLine s.pc.toNat), ?_,
    s.icView.tag_accessedLine _, rfl⟩, fun b hb => ?_, fun j hj => ?_, by rw [hframe], by rw [hframe]⟩
  · rw [hic]
    exact getLast?_setAt_dcRead s.pc.toNat 4 s.icView
  · have hline := div_line_eq_of_baseOf_eq hl hb
    have hfound : Cache.lookup s.params.ic (fetchWord s).2.ic b = some (readLine (s.icView.accessedLine s.pc.toNat)) := by
      rw [hic, Cache.lookup_eq_of_same_line _ hline]
      exact lookup_dcRead_self s.pc.toNat 4 s.icView
    have hparams : (fetchWord s).2.params = s.params := by rw [hframe]
    rw [State.fetchByte, hparams, hfound, State.fetchByte_eq_archMem, ← State.getD_accessedLine (s := s.icView) hl hline]
    rfl
  · rw [hic]
    exact setAt_dcRead_ne s.pc.toNat 4 s.icView hj

end Sys2Proof.Machine

/-! Whole-machine frames (50_pipeline.md R339): what every instruction leaves alone, reads and answers, from the cases of
`Executes`. -/

namespace Sys2Proof.Machine

/-! ### Frames of the register banks -/

theorem NoReg.committed {s t : State} (h : NoReg s t) (r : RegRef) : t.committed r = s.committed r := by
  obtain ⟨_ | _, idx⟩ := r
  · exact h.ints idx
  · exact h.floats idx

theorem SameOutsideData.refl (s : State) : SameOutsideData s s := (SameOutsideRegs.refl s).outside

theorem SameOutsideData.setPc {s t : State} (h : SameOutsideData s t) (target : Word) :
    SameOutsideData s { t with pc := target } :=
  { h with }

/-- A fatal condition moves the run state alone. -/
theorem sameOutsideData_raiseFatal (c : Fault) (s : State) :
    SameOutsideData { s with run := .fatal c } (raiseFatal c s) := SameOutsideData.refl _

section Executes

variable {i : Instr} {s t : State}

/-- Only the destination changes. -/
theorem Executes.committed (h : Executes i s t) {r : RegRef} (hr : destOf i ≠ some r) :
    t.committed r = s.committed r := by
  have hne : ∀ {q}, destOf i = some q → r ≠ q := fun hd he => hr (he ▸ hd)
  cases h with
  | result hd => exact committed_commit_ne (hne hd) _ _
  | branch => split <;> rfl
  | jump hd => exact committed_commit_ne (hne hd) _ s
  | fatal => rfl
  | @load q a n ext hd =>
    obtain ⟨-, hregs, -⟩ := dcRead_frame a.toNat n s
    exact (committed_commit_ne (hne hd) _ _).trans (hregs.committed r)
  | @store a n =>
    obtain ⟨-, hregs, -⟩ := dcWrite_frame a.toNat n (s.source (sourcesOf i).2) s
    exact hregs.committed r

/-- Nothing outside the banks, the pc and the data side changes, but for a run state that a data access ends. -/
theorem Executes.sameOutsideData (h : Executes i s t) :
    SameOutsideData { s with run := t.run } t ∧
      (t.run = s.run ∨ ∃ a n c, dataAccess i s = some (a, n) ∧ accessCheck s.params a n = some c ∧ t = raiseFatal c s) := by
  have running : ∀ {u}, SameOutsideData s u → SameOutsideData { s with run := u.run } u ∧ u.run = s.run :=
    fun hu => ⟨{ hu with run := rfl }, hu.run⟩
  cases h with
  | @result r v =>
    obtain ⟨hout, hrun⟩ := running (commit_frame r v s).1.outside
    exact ⟨hout, .inl hrun⟩
  | @branch taken target =>
    split
    · exact ⟨(running ((SameOutsideData.refl s).setPc target)).1, .inl rfl⟩
    · exact ⟨SameOutsideData.refl s, .inl rfl⟩
  | @jump r link target =>
    obtain ⟨hout, hrun⟩ := running ((commit_frame r link s).1.outside.setPc target)
    exact ⟨hout, .inl hrun⟩
  | @fatal a n c _ hacc hc => exact ⟨sameOutsideData_raiseFatal c s, .inr ⟨a, n, c, hacc, hc, rfl⟩⟩
  | @load r a n ext =>
    obtain ⟨hout, hrun⟩ := running ((dcRead_frame a.toNat n s).1.trans
      (commit_frame r (ext (dcRead a.toNat n s).1) (dcRead a.toNat n s).2).1.outside)
    exact ⟨hout, .inl hrun⟩
  | @store a n =>
    obtain ⟨hout, hrun⟩ := running (dcWrite_frame a.toNat n (s.source (sourcesOf i).2) s).1
    exact ⟨hout, .inl hrun⟩

/-- Only a control transfer moves the pc. -/
theorem Executes.pc (h : Executes i s t) (hi : isBranchOrJump i = false) : t.pc = s.pc := by
  cases h with
  | @result r v => exact (commit_frame r v s).2
  | branch hout => exact absurd (isBranchOrJump_of_branch hout).1 (by simp [hi])
  | jump _ hout => exact absurd (isBranchOrJump_of_jump hout).1 (by simp [hi])
  | fatal => rfl
  | @load r a n =>
    obtain ⟨-, -, -, -, hpc, -⟩ := dcRead_frame a.toNat n s
    exact (commit_frame r _ _).2.trans hpc
  | @store a n =>
    obtain ⟨-, -, -, -, hpc, -⟩ := dcWrite_frame a.toNat n (s.source (sourcesOf i).2) s
    exact hpc

/-- Only loads and stores touch memory and the data cache. -/
theorem Executes.sameOutsideRegs (h : Executes i s t) (hl : isLoad i = false) (hs : isStore i = false) :
    SameOutsideRegs s t := by
  have noAccess : ∀ {a}, s.executed i ≠ .addr a := fun hout => by
    obtain ⟨-, ⟨h, -⟩ | ⟨h, -⟩⟩ := executeOut_addr hout
    · exact Bool.false_ne_true (hl.symm.trans h)
    · exact Bool.false_ne_true (hs.symm.trans h)
  cases h with
  | @result r v => exact (commit_frame r v s).1
  | branch =>
    split
    · exact (SameOutsideRegs.refl s).redirect _
    · exact SameOutsideRegs.refl s
  | @jump r link target => exact (commit_frame r link s).1.redirect target
  | fatal hout => exact absurd hout noAccess
  | load _ _ hout => exact absurd hout noAccess
  | store _ hout => exact absurd hout noAccess

end Executes

/-- Settles O13: every instruction is one of the cases of `Executes`, and `step` has no other way to answer. -/
theorem nothingIsRefused : Obligations.NothingIsRefused := by
  have hexec : ∀ i s, ∃ t, exec i s = .next t := fun i s =>
    have ⟨t, h, _⟩ := exec_cases i s
    ⟨t, h⟩
  refine ⟨hexec, fun s => ?_⟩
  cases hr : s.run with
  | halted => exact .inl ⟨s, step_of_halted hr⟩
  | fatal c => exact .inr ⟨c, rfl, step_of_fatal hr⟩
  | running =>
    obtain ⟨-, h⟩ | ⟨-, ⟨c, -, h⟩ | ⟨-, ⟨e, -, h⟩ | ⟨i, -, h⟩⟩⟩ := step_cases hr
    · exact .inl ⟨_, h⟩
    · exact .inl ⟨_, h⟩
    · exact .inl ⟨_, h⟩
    · rw [h]
      exact .inl (hexec ..)

/-- Settles O19: every case commits the destination alone. -/
theorem onlyTheDestinationChanges : Obligations.OnlyTheDestinationChanges := fun _ _ _ h =>
  ⟨fun _ hr => (executes_of_exec h).committed hr, fun _ hr => (executes_of_exec h).committed hr, State.readX_zero _⟩

/-- Settles O21: the frames of the cases. -/
theorem nothingElseChanges : Obligations.NothingElseChanges := by
  intro i s t h
  have hcases := executes_of_exec h
  obtain ⟨hout, hrun⟩ := hcases.sameOutsideData
  refine ⟨hout, hcases.pc, hcases.sameOutsideRegs, fun hne => ?_⟩
  obtain hrun | ⟨a, n, c, hacc, hc, rfl⟩ := hrun
  · exact absurd hrun hne
  · refine ⟨a, n, hacc, ?_⟩
    obtain ⟨-, rfl⟩ | ⟨-, -, rfl⟩ := accessCheck_eq_some hc
    · exact .inl rfl
    · exact .inr rfl

/-! ### Only the sources are read -/

section Results

variable {i : Instr} {s : State}

theorem exec_of_result {r : RegRef} {v : Word} (hd : destOf i = some r) (hout : s.executed i = .result v) :
    exec i s = .next (commit r v s) := by
  rw [State.executed] at hout
  simp only [exec_eq_rowMeaning, rowMeaning, hout, hd]

theorem exec_of_branch {taken : Bool} {target : Word} (hout : s.executed i = .branch taken target) :
    exec i s = .next (if taken then { s with pc := target } else s) := by
  rw [State.executed] at hout
  simp only [exec_eq_rowMeaning, rowMeaning, hout, branchTo]

theorem exec_of_jump {r : RegRef} {link target : Word} (hd : destOf i = some r)
    (hout : s.executed i = .jump link target) : exec i s = .next { commit r link s with pc := target } := by
  rw [State.executed] at hout
  simp only [exec_eq_rowMeaning, rowMeaning, hout, hd]

end Results

/-- The state with other register banks. -/
def State.withBanks (s : State) (x f : Vector Word 32) : State := { s with x := x, f := f }

section Banks

variable (s : State) (x f : Vector Word 32)

/-- A commit changes the banks alone. -/
theorem withBanks_commit (r : RegRef) (v : Word) : (commit r v s).withBanks x f = s.withBanks x f := by
  obtain ⟨_ | _, idx⟩ := r
  · simp only [commit, State.writeX]
    split <;> rfl
  · rfl

/-- A commit into other banks differs in the banks alone. -/
theorem commit_withBanks (r : RegRef) (v : Word) :
    (commit r v (s.withBanks x f)).withBanks (commit r v s).x (commit r v s).f = commit r v s := by
  rw [withBanks_commit]
  exact (withBanks_commit s _ _ r v).symm

theorem dcRead_withBanks (a n : Nat) :
    dcRead a n (s.withBanks x f) = ((dcRead a n s).1, (dcRead a n s).2.withBanks x f) := by
  cases h : Cache.lookup s.params.dc s.dc a with
  | some l => rw [dcRead_hit h, dcRead_hit (s := s.withBanks x f) h]; rfl
  | none => rw [dcRead_miss h, dcRead_miss (s := s.withBanks x f) h]; rfl

theorem dcWrite_withBanks (a n : Nat) (v : Word) :
    dcWrite a n v (s.withBanks x f) = (dcWrite a n v s).withBanks x f := by
  cases h : Cache.lookup s.params.dc s.dc a with
  | some l => rw [dcWrite_hit h, dcWrite_hit (s := s.withBanks x f) h]; rfl
  | none => rw [dcWrite_miss h, dcWrite_miss (s := s.withBanks x f) h]; rfl

/-- A register just committed holds the value, index 0 of the integer bank reads 0, whatever the state. -/
theorem committed_commit_congr (r : RegRef) (v : Word) (s t : State) :
    (commit r v s).committed r = (commit r v t).committed r := by
  by_cases hr : r = xr 0
  · rw [hr]
    rfl
  · rw [committed_commit_self hr, committed_commit_self hr]

end Banks

/-- Settles O20: the sources determine what execute computes, and each case of `Executes` is the same function of it. -/
theorem onlyTheSourcesAreRead : Obligations.OnlyTheSourcesAreRead := by
  intro i s x' f' hrun s' hsources t t' h h'
  have hs' : s' = s.withBanks x' f' := rfl
  have hsource : ∀ q, q = (sourcesOf i).1 ∨ q = (sourcesOf i).2 → s'.source q = s.source q := fun q hq => by
    cases q with
    | none => rfl
    | some r => exact hsources r (hq.imp Eq.symm Eq.symm)
  have hexec : s'.executed i = s.executed i := by
    rw [State.executed, hsource _ (.inl rfl), hsource _ (.inr rfl)]
    rfl
  change t'.withBanks t.x t.f = t ∧ _
  clear_value s'
  have hparams : s'.params = s.params := by
    rw [hs']
    rfl
  cases executes_of_exec h with
  | @result r v hd hout =>
    rw [exec_of_result hd (hexec.trans hout)] at h'
    cases h'
    refine ⟨?_, fun _ q hq => ?_⟩
    · exact hs' ▸ commit_withBanks s x' f' r v
    · cases hd.symm.trans hq
      exact committed_commit_congr ..
  | @branch taken target hout =>
    rw [exec_of_branch (hexec.trans hout)] at h'
    cases h'
    refine ⟨?_, fun _ q hq => absurd hq (by simp [(isBranchOrJump_of_branch hout).2])⟩
    rw [hs']
    cases taken <;> rfl
  | @jump r link target hd hout =>
    rw [exec_of_jump hd (hexec.trans hout)] at h'
    cases h'
    refine ⟨?_, fun _ q hq => ?_⟩
    · exact congrArg (fun u : State => { u with pc := target }) (hs' ▸ commit_withBanks s x' f' r link)
    · cases hd.symm.trans hq
      exact committed_commit_congr r link s' s
  | @fatal a n c hout hacc hc =>
    have hacc' : dataAccess i s' = some (a, n) := by
      rw [dataAccess_eq, ← State.executed, hexec, State.executed, ← dataAccess_eq, hacc]
    rw [exec_of_failed_check (hparams ▸ hc) hacc'] at h'
    cases h'
    refine ⟨?_, fun hrunning => nomatch hrunning⟩
    rw [hs']
    rfl
  | @load r a n ext hd hload hout hacc hc =>
    rw [exec_of_load hd hload (hexec.trans hout) (hparams ▸ hc), hs', dcRead_withBanks] at h'
    cases h'
    refine ⟨?_, fun _ q hq => ?_⟩
    · exact commit_withBanks (dcRead a.toNat n s).2 x' f' r _
    · cases hd.symm.trans hq
      exact committed_commit_congr ..
  | @store a n hstore hout hacc hc =>
    have hvalue : s'.source (sourcesOf i).2 = s.source (sourcesOf i).2 := hsource _ (.inr rfl)
    rw [exec_of_store hstore (hexec.trans hout) (hparams ▸ hc), hvalue, hs', dcWrite_withBanks] at h'
    cases h'
    refine ⟨rfl, fun _ q hq => absurd hq (by simp [(storeOf_dest (congrArg Option.isSome hstore)).1])⟩

/-! ### Data accesses -/

theorem executed_of_dataAccess {i : Instr} {s : State} {a : Word} {n : Nat} (h : dataAccess i s = some (a, n)) :
    s.executed i = .addr a := by
  cases i <;> cases h <;> rfl

/-- Settles O34: a load reads the data cache once, a store writes it once. -/
theorem oneDataCacheAccess : Obligations.OneDataCacheAccess := by
  intro i s t a n hp hacc hc h
  have hout := executed_of_dataAccess hacc
  cases executes_of_exec h with
  | result _ hout' => cases hout.symm.trans hout'
  | branch hout' => cases hout.symm.trans hout'
  | jump _ hout' => cases hout.symm.trans hout'
  | fatal _ hacc' hc' => cases hacc.symm.trans hacc'; cases hc.symm.trans hc'
  | @load r a' n' ext _ hload _ hacc' =>
    cases hacc.symm.trans hacc'
    obtain ⟨-, -, -, -, -, haccesses, hhits⟩ := dcRead_frame a.toNat n s
    obtain ⟨hregs, -⟩ := commit_frame r (ext (dcRead a.toNat n s).1) (dcRead a.toNat n s).2
    obtain ⟨haccesses', hhits'⟩ := hregs.dcCounters
    refine ⟨⟨haccesses'.trans haccesses, hhits'.trans hhits⟩, readLine (s.accessedLine a.toNat), ?_,
      s.tag_accessedLine _, rfl, fun hst => ?_⟩
    · rw [hregs.dc]
      exact getLast?_setAt_dcRead ..
    · rw [(storeOf_dest hst).2] at hload
      cases hload
  | @store a' n' _ _ hacc' =>
    cases hacc.symm.trans hacc'
    obtain ⟨-, -, -, -, -, hcounted⟩ := dcWrite_frame a.toNat n (s.source (sourcesOf i).2) s
    exact ⟨hcounted, _, getLast?_setAt_dcWrite .., s.tag_accessedLine _, rfl, fun _ => rfl⟩

end Sys2Proof.Machine

/-! Steps of the reference (50_pipeline.md R345, R360; 60_exceptions.md R370 to R379): the outcomes of a step by name, and
the liveness guard on a control transfer to itself. -/

namespace Sys2Proof.Machine

/-! ### The outcomes of a step -/

section Outcomes

variable {s : State} (hr : s.run = .running)
include hr

theorem step_of_guard (hg : Config.livenessN ≤ guardCount s.pc s) : step s = .next { s with run := .halted } := by
  obtain ⟨-, h⟩ | ⟨hlt, -⟩ := step_cases hr
  · exact h
  · omega

variable (hg : guardCount s.pc s < Config.livenessN)
include hg

theorem step_of_failed_fetch {c : Fault} (hc : fetchCheck s.params s.pc = some c) : step s = .next (raiseFatal c s) := by
  obtain ⟨hge, -⟩ | ⟨-, ⟨c', hc', h⟩ | ⟨hc', -⟩⟩ := step_cases hr
  · omega
  · cases hc.symm.trans hc'
    exact h
  · cases hc.symm.trans hc'

theorem step_of_rejected {e : DecodeError} (hc : fetchCheck s.params s.pc = none)
    (hd : decodeWord (fetchWord s).1 = .rejected e) :
    step s = .next (raiseFatal (decodeFault e (fetchWord s).1 s.pc) (fetchWord s).2) := by
  obtain ⟨hge, -⟩ | ⟨-, ⟨c, hc', -⟩ | ⟨-, ⟨e', hd', h⟩ | ⟨i, hd', -⟩⟩⟩ := step_cases hr
  · omega
  · cases hc.symm.trans hc'
  · cases hd.symm.trans hd'
    exact h
  · cases hd.symm.trans hd'

theorem step_of_instr {i : Instr} (hc : fetchCheck s.params s.pc = none) (hd : decodeWord (fetchWord s).1 = .instr i) :
    step s = exec i s.issued := by
  obtain ⟨hge, -⟩ | ⟨-, ⟨c, hc', -⟩ | ⟨-, ⟨e, hd', -⟩ | ⟨i', hd', h⟩⟩⟩ := step_cases hr
  · omega
  · cases hc.symm.trans hc'
  · cases hd.symm.trans hd'
  · cases hd.symm.trans hd'
    exact h

/-- A misaligned fetch address is fatal first, an aligned one past memory next (20_memory.md R68). -/
theorem step_of_bad_fetch_address :
    (s.pc.toNat % 4 ≠ 0 → step s = .next { s with run := .fatal (.misalignedFetch s.pc) }) ∧
    (s.pc.toNat % 4 = 0 → s.params.memSize < s.pc.toNat + 4 →
      step s = .next { s with run := .fatal (.fetchOutOfRange s.pc) }) := by
  refine ⟨fun ha => step_of_failed_fetch hr hg ?_, fun ha hrange => step_of_failed_fetch hr hg ?_⟩
  · rw [fetchCheck, if_pos ha]
  · rw [fetchCheck, if_neg (by simp [ha]), if_pos hrange]

end Outcomes

theorem State.issued_eq (s : State) :
    s.issued =
      { s with pc := s.pc + 4, lgAddr := some s.pc, lgCount := guardCount s.pc s, icount := s.icount + 1,
               icAccesses := s.icAccesses + 1,
               icHits := s.icHits + (if (Cache.lookup s.params.ic s.ic s.pc.toNat).isSome then 1 else 0),
               ic := (fetchWord s).2.ic } := by
  rw [State.issued, fetchWord_frame]

theorem State.originPc_issued (s : State) : s.issued.originPc = s.pc := by
  rw [State.issued_eq]
  exact BitVec.add_sub_cancel s.pc 4

theorem State.Fetches.check {s : State} (h : s.Fetches) : fetchCheck s.params s.pc = none := by
  obtain ⟨-, -, haligned, hrange⟩ := h
  exact fetchCheck_eq_none.2 ⟨haligned, hrange⟩

/-- The bytes a fetch sees decode to what the step decodes. -/
theorem decodeWord_of_decodeBytes {s : State} {d : Decoding} (hp : s.params.WellFormed) (ha : s.pc.toNat % 4 = 0)
    (h : decodeBytes (s.fetchBytes s.pc.toNat) = (d, [])) : decodeWord (fetchWord s).1 = d := by
  rw [decodeBytes_fetchBytes hp ha] at h
  exact congrArg Prod.fst h

theorem State.FetchesInstr.step_eq {s : State} {i : Instr} (hp : s.params.WellFormed) (h : s.FetchesInstr i) :
    step s = exec i s.issued := by
  obtain ⟨hf, hd⟩ := h
  have ⟨hrun, hg, ha, _⟩ := hf
  exact step_of_instr hrun hg hf.check (decodeWord_of_decodeBytes hp ha hd)

/-- Settles O6: such a step executes on the issued state. -/
theorem stepRunsDecodedInstruction : Obligations.StepRunsDecodedInstruction := by
  intro s i hp h
  have ⟨⟨hrun, _⟩, _⟩ := h
  refine ⟨s.issued, h.step_eq hp, s.originPc_issued, ?_⟩
  rw [State.issued_eq]
  exact ⟨rfl, rfl, rfl, rfl, rfl, rfl, rfl, rfl, rfl, rfl, rfl, rfl, rfl, rfl, rfl, rfl, rfl, rfl, rfl, hrun⟩

/-- Settles O8: the fetch check looks at the alignment first. -/
theorem badFetchAddressIsFatal : Obligations.BadFetchAddressIsFatal := fun _ hr hg => step_of_bad_fetch_address hr hg

/-- Settles O9: the word has been fetched and nothing has been issued. -/
theorem rejectedWordIsFatal : Obligations.RejectedWordIsFatal := by
  intro s e hp hf hdec
  have ⟨hrun, hg, ha, _⟩ := hf
  have hd := decodeWord_of_decodeBytes hp ha hdec
  refine ⟨_, (fetchWord s).1, step_of_rejected hrun hg hf.check hd, toNat_fetchWord hp ha,
    fun he => by rw [he]; rfl, fun he => by rw [he]; rfl, ?_, ?_⟩
  · cases e with
    | unrecognizedOpcode => exact .inl rfl
    | unmappedInstruction => exact .inr rfl
    | truncated => exact absurd hd decodeWord_ne_truncated
  · rw [fetchWord_frame]
    exact ⟨rfl, rfl, rfl, rfl, rfl, rfl, rfl, rfl, rfl⟩

/-! ### The liveness guard (50_pipeline.md R345) -/

theorem guardCount_reaches_iff (s : State) : Config.livenessN ≤ guardCount s.pc s ↔ s.lgAddr = some s.pc ∧ 4 ≤ s.lgCount := by
  rw [guardCount, Config.livenessN]
  split
  · simp_all
  · simp_all

theorem guardCount_of_ne {a : Word} {s : State} (h : s.lgAddr ≠ some a) : guardCount a s = 1 := if_neg h

/-- A guard that has not run is below its threshold. -/
theorem guardCount_lt_of_ne {a : Word} {s : State} (h : s.lgAddr ≠ some a) : guardCount a s < Config.livenessN := by
  rw [guardCount_of_ne h]
  decide

/-- No instruction halts the machine. -/
theorem Executes.run_ne_halted {i : Instr} {s t : State} (h : Executes i s t) (hr : s.run = .running) : t.run ≠ .halted := by
  obtain hrun | ⟨a, n, c, -, -, rfl⟩ := h.sameOutsideData.2
  · rw [hrun, hr]
    nofun
  · nofun

/-- Settles O10: only the guard halts a running machine. -/
theorem guardHaltsExactlyAtTheFifthFetch : Obligations.GuardHaltsExactlyAtTheFifthFetch := by
  intro s hr
  refine ⟨fun h => step_of_guard hr ((guardCount_reaches_iff s).2 h), fun t hstep hhalt => ?_⟩
  obtain ⟨hg, -⟩ | ⟨-, ⟨c, -, h⟩ | ⟨-, ⟨e, -, h⟩ | ⟨i, -, h⟩⟩⟩ := step_cases hr
  · exact (guardCount_reaches_iff s).1 hg
  all_goals rw [hstep] at h
  · cases h
    cases hhalt
  · cases h
    cases hhalt
  · have hrun : s.issued.run = .running := by rw [State.issued_eq]; exact hr
    exact absurd hhalt ((executes_of_exec h.symm).run_ne_halted hrun)

/-- Settles O12: neither a tick nor a turn of the loop nor a step moves an ended machine, and `stop` withholds every tick. -/
theorem endedRunsStay : Obligations.EndedRunsStay := by
  refine ⟨fun s hr n stops => ⟨ticks_of_ended hr n, ?_⟩, fun s => step_of_halted, fun s c => step_of_fatal, fun s n => ?_⟩
  · rw [driverRun_eq_ticks, ticks_of_ended hr]
  · rw [driverRun_eq_ticks, List.count_replicate, if_neg (by decide)]
    rfl

/-! ### Control transfers (41_control_transfer.md R230, R232) -/

/-- A control transfer makes no data access, so it does not end the run. -/
theorem Executes.run_of_transfer {i : Instr} {s t : State} (h : Executes i s t) (hi : isBranchOrJump i = true) :
    t.run = s.run :=
  have ⟨hload, hstore⟩ := transfer_no_access hi
  (h.sameOutsideRegs hload hstore).outside.run

/-- A control transfer redirects, and a jump links first. -/
theorem Executes.transfer_cases {i : Instr} {s t : State} (h : Executes i s t) (hi : isBranchOrJump i = true) :
    (∃ taken target, s.executed i = .branch taken target ∧ t = if taken then { s with pc := target } else s) ∨
    ∃ r link target, destOf i = some r ∧ s.executed i = .jump link target ∧ t = { commit r link s with pc := target } := by
  have noResult : ∀ {v}, s.executed i ≠ .result v := fun hout =>
    have ⟨_, _, _, hno⟩ := executeOut_result hout
    Bool.false_ne_true (hno.symm.trans hi)
  have noAddr : ∀ {a}, s.executed i ≠ .addr a := fun hout =>
    Bool.false_ne_true ((executeOut_addr hout).1.symm.trans hi)
  cases h with
  | result _ hout => exact absurd hout noResult
  | branch hout => exact .inl ⟨_, _, hout, rfl⟩
  | jump hd hout => exact .inr ⟨_, _, _, hd, hout, rfl⟩
  | fatal hout => exact absurd hout noAddr
  | load _ _ hout => exact absurd hout noAddr
  | store _ hout => exact absurd hout noAddr

/-- A control transfer leaves an even pc. -/
theorem Executes.even_pc_of_transfer {i : Instr} {s t : State} (h : Executes i s t) (hi : isBranchOrJump i = true)
    (hpc : s.originPc.toNat % 2 = 0) : t.pc.toNat % 2 = 0 := by
  obtain ⟨taken, target, hout, rfl⟩ | ⟨r, link, target, -, hout, rfl⟩ := h.transfer_cases hi
  · cases taken with
    | true => exact even_target_of_branch hpc hout
    | false =>
      change s.pc.toNat % 2 = 0
      rw [← originPc_add_four]
      bv_omega
  · exact even_target_of_jump hpc hout

/-- Settles O29: a bad target is not the address last fetched, so the guard lets the fetch check speak. -/
theorem badTargetsFaultAtTheNextFetch : Obligations.BadTargetsFaultAtTheNextFetch := by
  intro i s t hi hr hlg haligned hrange h
  have hcases := executes_of_exec h
  have hrun : t.run = .running := (hcases.run_of_transfer hi).trans hr
  obtain ⟨hout, -⟩ := hcases.sameOutsideData
  have hguard : t.pc ≠ s.originPc → guardCount t.pc t < Config.livenessN := fun hne =>
    guardCount_lt_of_ne fun heq => hne (Option.some.inj (heq.symm.trans (hout.guard.1.trans hlg)))
  refine ⟨hcases.even_pc_of_transfer hi (by omega), hrun, fun hmod => ?_, fun hmod hpast => ?_⟩
  · have hne : t.pc ≠ s.originPc := fun he => by
      rw [he] at hmod
      omega
    exact (step_of_bad_fetch_address hrun (hguard hne)).1 (by omega)
  · have hne : t.pc ≠ s.originPc := fun he => by
      rw [he, hout.params] at hpast
      exact absurd hrange (Nat.not_le.2 hpast)
    exact (step_of_bad_fetch_address hrun (hguard hne)).2 hmod hpast

/-! ### Self loops (41_control_transfer.md R232) -/

theorem branchTarget_zero (originPc : Word) : branchTarget originPc 0 = originPc := by
  rw [branchTarget_eq_ofInt]
  simp

theorem jalTarget_zero (originPc : Word) : jalTarget originPc 0 = originPc := by
  rw [jalTarget_eq_ofInt]
  simp

/-- Executed at its address, such a transfer is a taken branch to it, or a jump to it that links. -/
theorem executed_of_jumpsToItself {i : Instr} {s : State} (h : JumpsToItself i s) :
    (destOf i = none ∧ s.issued.executed i = .branch true s.pc) ∨
    ∃ rd, destOf i = some (xr rd) ∧ s.issued.executed i = .jump (s.pc + 4) s.pc := by
  have hx : ∀ r, s.issued.source (some (xr r)) = s.readX r := fun r => by
    rw [State.issued_eq]
    rfl
  rw [State.executed, State.originPc_issued]
  cases i with
  | beq | bne | blt | bge | bltu | bgeu =>
    obtain ⟨rfl, htaken⟩ := h
    refine .inl ⟨rfl, ?_⟩
    rw [executeOut, sourcesOf, hx, hx, htaken, branchTarget_zero]
  | jal rd =>
    cases h
    exact .inr ⟨rd, rfl, congrArg _ (jalTarget_zero _)⟩
  | jalr rd =>
    refine .inr ⟨rd, rfl, ?_⟩
    rw [executeOut, sourcesOf, hx, h.1]
    rfl
  | _ => exact h.elim

/-- It still jumps to itself where its link register holds the link value and every other register is as before. -/
theorem JumpsToItself.of_linked {i : Instr} {s t : State} (h : JumpsToItself i s) (hpc : t.pc = s.pc)
    (hx : ∀ r, t.readX r = if r ≠ 0 ∧ destOf i = some (xr r) then s.pc + 4 else s.readX r) : JumpsToItself i t := by
  cases i with
  | beq | bne | blt | bge | bltu | bgeu => simpa [JumpsToItself, hx, destOf] using h
  | jal => exact h
  | jalr rd rs1 imm =>
    obtain ⟨hself, hagain⟩ := h
    refine ⟨?_, by rwa [hpc]⟩
    rw [hx, hpc]
    split
    next hlink =>
      obtain ⟨hne, hd⟩ := hlink
      cases hd
      exact hagain.resolve_left hne |>.resolve_left (· rfl)
    next => exact hself
  | _ => exact h.elim

/-! #### Runs of a self loop -/

/-- The next fetch is of a control transfer to itself, the guard apart. -/
structure AtSelfLoop (i : Instr) (s : State) : Prop where
  params  : s.params.WellFormed
  run     : s.run = .running
  address : s.pc.toNat % 4 = 0 ∧ s.pc.toNat + 4 ≤ s.params.memSize
  decodes : decodeBytes (s.fetchBytes s.pc.toNat) = (.instr i, [])
  jumps   : JumpsToItself i s

/-- What `n` executions of a control transfer to itself have left. -/
structure Looped (i : Instr) (n : Nat) (s t : State) : Prop where
  pc     : t.pc = s.pc
  icount : t.icount = s.icount + n
  ints   : ∀ r, t.readX r = if 0 < n ∧ r ≠ 0 ∧ destOf i = some (xr r) then s.pc + 4 else s.readX r
  floats : ∀ r, t.readF r = s.readF r
  mem    : t.mem = s.mem
  dc     : t.dc = s.dc

theorem Looped.trans {i : Instr} {m n : Nat} {s t u : State} (h : Looped i m s t) (h' : Looped i n t u) :
    Looped i (m + n) s u where
  pc := h'.pc.trans h.pc
  icount := by rw [h'.icount, h.icount, Nat.add_assoc]
  ints r := by
    rw [h'.ints, h.ints, h.pc]
    grind
  floats r := (h'.floats r).trans (h.floats r)
  mem := h'.mem.trans h.mem
  dc := h'.dc.trans h.dc

theorem run_core_succ {s t : State} (h : step s = .next t) (n : Nat) :
    Host.Core.run core (n + 1) s = Host.Core.run core n t := by
  have hcore : core.step s = .next t := h
  simp only [Host.Core.run, hcore]

/-- Executed, such a transfer is back at its address, with the link value in its link register. -/
theorem exec_of_jumpsToItself {i : Instr} {s : State} (h : JumpsToItself i s) :
    ∃ u, exec i s.issued = .next { u with pc := s.pc } ∧ SameOutsideRegs s.issued u ∧
      (∀ r, u.readX r = if r ≠ 0 ∧ destOf i = some (xr r) then s.pc + 4 else s.readX r) ∧ ∀ r, u.readF r = s.readF r := by
  have hX : ∀ r, s.issued.readX r = s.readX r := fun r => by
    rw [State.issued_eq]
    rfl
  have hF : ∀ r, s.issued.readF r = s.readF r := fun r => by
    rw [State.issued_eq]
    rfl
  obtain ⟨hd, hout⟩ | ⟨rd, hd, hout⟩ := executed_of_jumpsToItself h
  · exact ⟨s.issued, exec_of_branch hout, SameOutsideRegs.refl _, fun r => by rw [hX, if_neg (by simp [hd])], hF⟩
  · refine ⟨_, exec_of_jump hd hout, (commit_frame ..).1, fun r => ?_,
      fun r => (committed_commit_ne (fun h => nomatch h : fr r ≠ xr rd) _ _).trans (hF r)⟩
    split
    next hlink =>
      obtain ⟨hr, hrd⟩ := hlink
      cases hd.symm.trans hrd
      exact State.readX_writeX_self _ hr _
    next hlink =>
      by_cases hr : r = 0
      · rw [hr]
        rfl
      · have hne : r ≠ rd := fun he => hlink ⟨hr, he ▸ hd⟩
        exact (State.readX_writeX_ne _ hne _).trans (hX r)

theorem baseOf_eq_div_mul (g : Geometry) (a : Nat) : baseOf g a = a / g.line * g.line :=
  Nat.sub_eq_of_eq_add (Nat.div_add_mod' a g.line).symm

/-- A fetch leaves the bytes of its word as it saw them. -/
theorem fetchBytes_fetchWord {s : State} (hp : s.params.WellFormed) (ha : s.pc.toNat % 4 = 0) :
    (fetchWord s).2.fetchBytes s.pc.toNat = s.fetchBytes s.pc.toNat := by
  obtain ⟨-, -, -, hbytes, -⟩ := fetchThroughInstructionCache s hp ha
  have hbase : ∀ k < 4, baseOf s.params.ic (s.pc.toNat + k) = baseOf s.params.ic s.pc.toNat := fun k hk => by
    rw [baseOf_eq_div_mul, baseOf_eq_div_mul, same_line_of_aligned hp ha hk]
  simp only [State.fetchBytes, hbytes _ (hbase 1 (by decide)), hbytes _ (hbase 2 (by decide)),
    hbytes _ (hbase 3 (by decide)), hbytes _ rfl]

/-- One execution: back at the instruction, one fetch in a row more. -/
theorem AtSelfLoop.step_loops {i : Instr} {s : State} (h : AtSelfLoop i s) (hg : guardCount s.pc s < Config.livenessN) :
    ∃ t, step s = .next t ∧ AtSelfLoop i t ∧ Looped i 1 s t ∧ guardCount t.pc t = guardCount s.pc s + 1 := by
  have hf : s.FetchesInstr i := ⟨⟨h.run, hg, h.address⟩, h.decodes⟩
  obtain ⟨u, hexec, hregs, hX, hF⟩ := exec_of_jumpsToItself h.jumps
  have hout := hregs.outside
  have hparams : u.params = s.params := by rw [hout.params, State.issued_eq]
  have hbytes : ({ u with pc := s.pc } : State).fetchBytes s.pc.toNat = s.fetchBytes s.pc.toNat := by
    rw [← fetchBytes_fetchWord h.params h.address.1]
    simp only [State.fetchBytes, State.fetchByte, hout.ic, hregs.mem, hout.params]
    rfl
  refine ⟨{ u with pc := s.pc }, (hf.step_eq h.params).trans hexec, ⟨?_, ?_, ?_, ?_, h.jumps.of_linked rfl hX⟩,
    ⟨rfl, ?_, fun r => ?_, hF, ?_, ?_⟩, ?_⟩
  · exact hparams ▸ h.params
  · rw [← h.run]
    exact hout.run.trans (by rw [State.issued_eq])
  · exact hparams ▸ h.address
  · exact hbytes ▸ h.decodes
  · exact hout.icount.trans (by rw [State.issued_eq])
  · exact (hX r).trans (if_congr (by simp) rfl rfl)
  · exact hregs.mem.trans (by rw [State.issued_eq])
  · exact hregs.dc.trans (by rw [State.issued_eq])
  · have hlg : u.lgAddr = some s.pc ∧ u.lgCount = guardCount s.pc s := by
      rw [hout.guard.1, hout.guard.2, State.issued_eq]
      exact ⟨rfl, rfl⟩
    exact (if_pos hlg.1).trans (congrArg (· + 1) hlg.2)

/-- From a guard that allows `n` more fetches in a row, `n` executions, and then the machine halts. -/
theorem AtSelfLoop.run_halts {i : Instr} {n : Nat} {s : State} (h : AtSelfLoop i s)
    (hn : guardCount s.pc s + n = Config.livenessN) :
    ∃ t, Host.Core.run core (n + 1) s = .next t ∧ t.run = .halted ∧ Looped i n s t := by
  induction n generalizing s with
  | zero =>
    rw [run_core_succ (step_of_guard h.run (by omega))]
    exact ⟨_, rfl, rfl, ⟨rfl, rfl, fun r => by simp; rfl, fun r => rfl, rfl, rfl⟩⟩
  | succ n ih =>
    obtain ⟨u, hstep, hu, hloop, hcount⟩ := h.step_loops (by omega)
    obtain ⟨t, hrun, hhalt, hloops⟩ := ih hu (by omega)
    refine ⟨t, (run_core_succ hstep _).trans hrun, hhalt, ?_⟩
    rw [Nat.add_comm]
    exact hloop.trans hloops

/-- Settles O11: the first fetch is the first in a row, so four executions are left. -/
theorem selfLoopHaltsAfterFourExecutions : Obligations.SelfLoopHaltsAfterFourExecutions := by
  intro s i hp h hlg hjumps
  obtain ⟨⟨hrun, hg, ha⟩, hd⟩ := h
  have hat : AtSelfLoop i s := ⟨hp, hrun, ha, hd, hjumps⟩
  obtain ⟨t, hrun, hhalt, hloops⟩ := hat.run_halts (n := 4) (by rw [guardCount_of_ne hlg]; rfl)
  exact ⟨t, hrun, hhalt, hloops.pc, hloops.icount, fun r => (hloops.ints r).trans (if_congr (by simp) rfl rfl), hloops.floats, hloops.mem,
    hloops.dc⟩

end Sys2Proof.Machine

/-! The reset state meets the invariants (70_reset_and_hazards.md R400), and the host interface: image lines and the dump
(80_host_interface.md R430, R432). -/

namespace Sys2Proof.Machine

/-! ### The reset state and the invariants -/

theorem Memory.within_loadImage {m : Memory} {size : Nat} (a : Nat) (ws : List Word) (hs : a + 4 * ws.length ≤ size)
    (h : m.within size = true) : (loadImage m a ws).within size = true := by
  induction ws generalizing m a with
  | nil => exact h
  | cons w ws ih =>
    rw [List.length_cons] at hs
    exact ih _ (by omega) (Memory.within_writeBlock _ _ (by rw [length_bytesOfWord]; omega) h)

section Reset

variable {p : Params} {mem : Memory}

/-- Empty sets are shaped. -/
theorem shaped_replicate_nil (g : Geometry) (size : Nat) : Cache.Shaped g size (List.replicate g.sets []) := by
  refine ⟨List.length_replicate, fun i _ => ?_⟩
  rw [setAt_replicate_nil]
  exact ⟨Nat.zero_le _, List.nodup_nil, nofun⟩

theorem not_mem_setAt_replicate_nil (n i : Nat) (l : Line) : l ∉ Cache.setAt (List.replicate n []) i := by
  rw [setAt_replicate_nil]
  exact List.not_mem_nil

/-- A reset machine with canonical memory inside MEM_SIZE meets `Inv`. -/
theorem inv_resetWith (hp : p.WellFormed) (hwf : mem.wf = true) (hwithin : mem.within p.memSize = true) :
    (State.resetWith p mem).Inv where
  params := hp
  x0 := Vector.getElem_replicate _
  pcEven := rfl
  memWf := hwf
  memWithin := hwithin
  dcShaped := shaped_replicate_nil p.dc p.memSize
  dcClean i _ l hl := absurd hl (not_mem_setAt_replicate_nil p.dc.sets i l)
  icShaped := shaped_replicate_nil p.ic p.memSize
  icClean i _ l hl := absurd hl (not_mem_setAt_replicate_nil p.ic.sets i l)
  dcCounts := Nat.le_refl 0
  icCounts := Nat.le_refl 0
  guard := Nat.succ_pos 4

/-- With empty slots and tables, `EngineInv` asks nothing more. -/
theorem engineInv_resetWith (h : (State.resetWith p mem).Inv) : (State.resetWith p mem).EngineInv := by
  have hseqs : (State.resetWith p mem).seqs = [] := rfl
  have hinFlight : ∀ r, (State.resetWith p mem).inFlight r = none := fun _ => rfl
  constructor
  case base => exact h
  case fetched => exact fun hq => absurd hq Bool.false_ne_true
  case aloneEX => exact fun hq => absurd hq Bool.false_ne_true
  case aloneMEM => exact fun hq => absurd hq Bool.false_ne_true
  case aloneWB => exact fun hq => absurd hq Bool.false_ne_true
  case seqs => simp [hseqs]
  case fwdX0 => exact forwarded_resetWith p mem _
  case coherent => simp [hinFlight, forwarded_resetWith]
  case recordEX => exact fun b hb => absurd hb (Option.not_mem_none b)
  case recordMEM => exact fun b hb => absurd hb (Option.not_mem_none b)
  case recordWB => exact fun b hb => absurd hb (Option.not_mem_none b)

end Reset

/-- Settles O16: the image is in memory and everything else is empty. -/
theorem constructionMeetsTheInvariants : Obligations.ConstructionMeetsTheInvariants := by
  intro p image s h
  obtain ⟨⟨hp, hfit⟩, rfl⟩ := construct_eq_some.1 h
  exact engineInv_resetWith (inv_resetWith hp (wf_loadImage 0 image rfl) (Memory.within_loadImage 0 image (by omega) rfl))

/-- Settles O15: the reset state is the construction with the reference parameters and the empty image. -/
theorem resetMeetsTheInvariants : Obligations.ResetMeetsTheInvariants :=
  have h : State.reset.Inv := inv_resetWith (by decide) rfl rfl
  ⟨h, engineInv_resetWith h⟩

/-! ### Image lines (80_host_interface.md R430) -/

/-- The character of a bit of an image line. -/
def charOfBit (b : Bool) : Char := if b then '1' else '0'

theorem bitOfChar_eq_some {c : Char} {b : Bool} : bitOfChar c = some b ↔ c = charOfBit b := by
  rw [bitOfChar]
  split
  next h => cases b <;> simp [h, charOfBit]
  next h0 =>
    split
    next h => cases b <;> simp [h, charOfBit]
    next h1 => cases b <;> simp [h0, h1, charOfBit]

/-- The bits of a number from the `n`-th on. -/
theorem div_two_pow_eq_iff (v n acc : Nat) (b : Bool) :
    v / 2 ^ n = 2 * acc + b.toNat ↔ v / 2 ^ (n + 1) = acc ∧ v.testBit n = b := by
  rw [Nat.testBit_eq_decide_div_mod_eq, Nat.pow_succ, ← Nat.div_div_eq_div_mul]
  generalize v / 2 ^ n = d
  cases b <;> simp <;> omega

/-- A line of bits has a value exactly if its characters are that value's bits, the leftmost the highest. -/
theorem bitsValue_eq_some {cs : List Char} {acc v : Nat} :
    bitsValue cs acc = some v ↔
      v / 2 ^ cs.length = acc ∧ ∀ k < cs.length, cs[k]? = some (charOfBit (v.testBit (cs.length - 1 - k))) := by
  induction cs generalizing acc with
  | nil => simp [bitsValue, eq_comm]
  | cons c cs ih =>
    have hrest : (∀ k < cs.length + 1, (c :: cs)[k]? = some (charOfBit (v.testBit (cs.length - k)))) ↔
        c = charOfBit (v.testBit cs.length) ∧
          ∀ k < cs.length, cs[k]? = some (charOfBit (v.testBit (cs.length - 1 - k))) := by
      rw [Nat.forall_lt_succ_left]
      simp [Nat.sub_sub, Nat.add_comm]
    simp only [bitsValue, Option.bind_eq_some_iff, bitOfChar_eq_some, ih, div_two_pow_eq_iff, List.length_cons,
      Nat.add_sub_cancel, hrest]
    grind

/-- Settles O59: 32 bits have the value of a word, and it is theirs. -/
theorem imageLineIsAWord : Obligations.ImageLineIsAWord := by
  intro cs w
  rw [parseImageLine, Option.ite_none_right_eq_some]
  refine and_congr_right fun hlen => ?_
  rw [Option.map_eq_some_iff]
  simp only [bitsValue_eq_some, hlen]
  constructor
  · rintro ⟨v, ⟨hv, hbits⟩, rfl⟩ k hk
    rw [hbits k hk, BitVec.getLsbD_ofNat, decide_eq_true (by omega), Bool.true_and]
    rfl
  · intro hbits
    exact ⟨w.toNat, ⟨Nat.div_eq_of_lt w.isLt, hbits⟩, by simp⟩

/-! ### The dump (80_host_interface.md R432) -/

theorem length_dumpMem (s : State) (a n : Nat) : (s.dumpMem a n).length = n := by
  induction n generalizing a with
  | zero => rfl
  | succ n ih => exact congrArg (· + 1) (ih _)

theorem getElem?_dumpMem (s : State) (a : Nat) {k n : Nat} (hk : k < n) : (s.dumpMem a n)[k]? = some (s.archMem (a + k)) := by
  induction n generalizing a k with
  | zero => omega
  | succ n ih =>
    cases k with
    | zero => rfl
    | succ k =>
      rw [State.dumpMem, List.getElem?_cons_succ, ih _ (by omega)]
      congr 2
      omega

/-- Settles O60: the dump reads each register and each byte. -/
theorem dumpShowsTheArchitecturalState : Obligations.DumpShowsTheArchitecturalState := fun s a n =>
  ⟨fun _ => ⟨Vector.getElem_ofFn _, Vector.getElem_ofFn _⟩, Vector.getElem_ofFn _, rfl, rfl, length_dumpMem s a n,
    fun _ hk => getElem?_dumpMem s a hk⟩

end Sys2Proof.Machine

/-! The data cache as a memory (21_cache.md R103, R122; 20_memory.md R63, R72): which line a full set loses, and sequences of
accesses as functions of `ArchMem`. -/

namespace Sys2Proof.Machine

/-! ### Hits and the order of a set (21_cache.md R103) -/

theorem CacheSet.perm_tags_touch {set : CacheSet} {l l' : Line} (hnd : (set.map Line.tag).Nodup) (hl : l ∈ set)
    (ht : l'.tag = l.tag) : ((CacheSet.touch set l').map Line.tag).Perm (set.map Line.tag) := by
  obtain ⟨older, younger, rfl⟩ := List.append_of_mem hl
  rw [CacheSet.touch_of_split hnd ht]
  simp only [List.map_append, List.map_cons, List.map_nil, ht]
  exact (List.perm_append_singleton ..).trans List.perm_middle.symm

/-- The one line of the address's tag is found. -/
theorem Cache.lookup_of_mem {g : Geometry} {c : Cache} {a : Nat} {l : Line}
    (hnd : ((Cache.setAt c (indexOf g a)).map Line.tag).Nodup) (hl : l ∈ Cache.setAt c (indexOf g a))
    (ht : l.tag = tagOf g a) : Cache.lookup g c a = some l := by
  obtain ⟨older, younger, hset⟩ := List.append_of_mem hl
  exact Cache.lookup_of_split hset (hset ▸ hnd) ht

/-- A touch of another line leaves `u` where it is among the lines that stay. -/
theorem CacheSet.touch_around {older younger : CacheSet} {u l : Line} (h : l.tag ≠ u.tag) :
    CacheSet.touch (older ++ u :: younger) l =
      older.filter (fun k => k.tag != l.tag) ++ u :: (younger.filter (fun k => k.tag != l.tag) ++ [l]) := by
  simp [CacheSet.touch, List.filter_append, Ne.symm h]

/-- One read hit, or a miss, which changes nothing. -/
def readHit (g : Geometry) (c : Cache) (a : Nat) : Cache := ((Cache.read g c a 1).map Prod.snd).getD c

section Hits

variable {g : Geometry} {c : Cache} {i : Nat} {older younger : CacheSet} {u : Line}

/-- A read of another line keeps `u`; the lines before it are those there were, but for the one read; that one stands,
accessed, behind it. -/
theorem setAt_readHit {b : Nat} (hset : Cache.setAt c i = older ++ u :: younger)
    (hnd : ((Cache.setAt c i).map Line.tag).Nodup) (hi : indexOf g b = i) (hb : tagOf g b ≠ u.tag) :
    ∃ older' younger', Cache.setAt (readHit g c b) i = older' ++ u :: younger' ∧
      ((Cache.setAt (readHit g c b) i).map Line.tag).Perm ((Cache.setAt c i).map Line.tag) ∧
      (∀ l ∈ older', l ∈ older ∧ l.tag ≠ tagOf g b) ∧
      ∀ l ∈ older ++ younger,
        (l.tag = tagOf g b → readLine l ∈ older' ++ younger') ∧ (l.tag ≠ tagOf g b → l ∈ older' ++ younger') := by
  subst hi
  cases hlook : Cache.lookup g c b with
  | none =>
    have hmiss := Cache.lookup_none.1 hlook
    have hne : ∀ l ∈ older ++ younger, l.tag ≠ tagOf g b := fun l hl => hmiss l (by rw [hset]; grind)
    have hsame : readHit g c b = c := by rw [readHit, Cache.read_miss hlook]; rfl
    rw [hsame]
    exact ⟨older, younger, hset, .refl _, fun l hl => ⟨hl, hne l (List.mem_append_left _ hl)⟩,
      fun l hl => ⟨fun ht => absurd ht (hne l hl), fun _ => hl⟩⟩
  | some m =>
    obtain ⟨hm, hmem⟩ := Cache.lookup_some hlook
    have hread : Cache.setAt (readHit g c b) (indexOf g b) =
        CacheSet.touch (Cache.setAt c (indexOf g b)) (readLine m) := by
      rw [readHit, Cache.read_hit hlook]
      exact Cache.setAt_putSet_self ..
    rw [hread]
    refine ⟨_, _, hset ▸ CacheSet.touch_around (show (readLine m).tag ≠ u.tag from hm ▸ hb),
      CacheSet.perm_tags_touch hnd hmem rfl, fun l hl => ?_, fun l hl => ⟨fun ht => ?_, fun ht => ?_⟩⟩
    · simpa [readLine, hm] using hl
    · have hl' : l ∈ Cache.setAt c (indexOf g b) := by rw [hset]; grind
      have heq : some m = some l := hlook.symm.trans (Cache.lookup_of_mem hnd hl' ht)
      simp [Option.some.inj heq]
    · rw [List.mem_append] at hl
      simpa [readLine, hm, ht, or_assoc] using hl.imp_right .inl

/-- After reads that touch every line before `u` but not `u`, it is the head; every other line stands behind it, accessed
if it was read. -/
theorem setAt_readHits {as : List Nat} (hset : Cache.setAt c i = older ++ u :: younger)
    (hnd : ((Cache.setAt c i).map Line.tag).Nodup) (has : ∀ b ∈ as, indexOf g b = i ∧ tagOf g b ≠ u.tag)
    (holder : ∀ l ∈ older, ∃ b ∈ as, tagOf g b = l.tag) :
    ∃ rest, Cache.setAt (readHits g c as) i = u :: rest ∧
      ((Cache.setAt (readHits g c as) i).map Line.tag).Perm ((Cache.setAt c i).map Line.tag) ∧
      ∀ l ∈ older ++ younger, ((∃ b ∈ as, tagOf g b = l.tag) → readLine l ∈ rest) ∧ (readLine l ∈ rest ∨ l ∈ rest) := by
  induction as generalizing c older younger with
  | nil =>
    obtain rfl : older = [] := List.eq_nil_iff_forall_not_mem.2 fun l hl => by simpa using holder l hl
    exact ⟨younger, hset, .refl _, fun l hl => ⟨by simp, .inr hl⟩⟩
  | cons b bs ih =>
    obtain ⟨⟨hi, hb⟩, hbs⟩ := List.forall_mem_cons.1 has
    obtain ⟨older', younger', hset', hperm, hold, hmoved⟩ := setAt_readHit hset hnd hi hb
    obtain ⟨rest, hrest, hperm', hlines⟩ := ih hset' (hperm.nodup_iff.2 hnd) hbs fun l hl => by
      obtain ⟨hmem, hne⟩ := hold l hl
      obtain ⟨b', hb', ht⟩ := holder l hmem
      obtain rfl | hb' := List.mem_cons.1 hb'
      · exact absurd ht.symm hne
      · exact ⟨b', hb', ht⟩
    refine ⟨rest, hrest, hperm'.trans hperm, fun l hl => ?_⟩
    obtain ⟨hread, hother⟩ := hmoved l hl
    by_cases ht : l.tag = tagOf g b
    · have hin : readLine l ∈ rest := (hlines _ (hread ht)).2.elim id id
      exact ⟨fun _ => hin, .inl hin⟩
    · obtain ⟨htouched, hkept⟩ := hlines l (hother ht)
      refine ⟨fun ⟨b', hb', hb't⟩ => ?_, hkept⟩
      obtain rfl | hb' := List.mem_cons.1 hb'
      · exact absurd hb't.symm ht
      · exact htouched ⟨b', hb', hb't⟩

end Hits

/-- Settles O37: after the reads `u` is the head of the full set, which an install evicts. -/
theorem leastRecentlyTouchedIsTheVictim : Obligations.LeastRecentlyTouchedIsTheVictim := by
  intro g c as a bytes u i hw hfull hnd hu hnew has htouched
  obtain ⟨older, younger, hset⟩ := List.append_of_mem hu
  have hne : ∀ l ∈ older ++ younger, l.tag ≠ u.tag := fun l hl => CacheSet.tag_ne_of_split (hset ▸ hnd) hl
  obtain ⟨rest, hrest, hperm, hlines⟩ := setAt_readHits hset hnd has fun l hl =>
    htouched l (by rw [hset]; grind) (hne l (by grind))
  have hlen : g.ways ≤ (u :: rest).length := by
    have := hperm.length_eq
    rw [List.length_map, List.length_map, hrest, hfull] at this
    exact this.ge
  intro c'
  have hset' : Cache.setAt c' i = rest ++ [newLine g a bytes] := by
    rw [Cache.setAt_install_eq hw, Cache.kept_of_full hrest hlen]
  rw [hset']
  refine ⟨fun l hl => ?_, fun l hl hl' => ?_, fun hd => ?_⟩
  · obtain hl | rfl := by simpa using hl
    · have hnd' : ((u :: rest).map Line.tag).Nodup := hrest ▸ hperm.nodup_iff.2 hnd
      exact CacheSet.tag_ne_of_split (older := []) hnd' hl
    · intro he
      have hmem : u.tag ∈ (Cache.setAt c i).map Line.tag := List.mem_map_of_mem hu
      rw [← he] at hmem
      exact hnew hmem
  · have hmem : l ∈ older ++ younger := by rw [hset] at hl; grind
    exact List.mem_append_left _ ((hlines l hmem).1 (htouched l hl hl'))
  · rw [Cache.install_eq hw, Cache.evicted_of_full hrest hlen, Option.bind_some, victimOf, if_pos hd]

/-! ### Accesses as functions of `ArchMem` (20_memory.md R63; 21_cache.md R122) -/

/-- The bytes an access leaves. -/
def Access.bytesAfter (m : Nat → Byte) : Access → Nat → Byte
  | .load _ _ => m
  | .store a n v => fun b =>
    if a.toNat ≤ b ∧ b < a.toNat + n then BitVec.ofNat 8 (v.toNat / 256 ^ (b - a.toNat)) else m b

/-- The value an access returns, if it is a load. -/
def Access.returned (m : Nat → Byte) : Access → List Word
  | .load a n => [BitVec.ofNat 32 (leValue ((List.range n).map fun k => m (a.toNat + k)))]
  | .store _ _ _ => []

theorem Access.bytesAfter_of_avoids {m : Nat → Byte} {c : Access} {a n b : Nat} (h : c.Avoids a n) (hb : a ≤ b)
    (hb' : b < a + n) : c.bytesAfter m b = m b := by
  cases c with
  | load => rfl
  | store x k v =>
    have h : x.toNat + k ≤ a ∨ a + n ≤ x.toNat := h
    exact if_neg (by omega)

theorem Access.dvd_four_of_width {n : Nat} (h : n = 1 ∨ n = 2 ∨ n = 4) : n ∣ 4 := by
  rcases h with rfl | rfl | rfl <;> decide

theorem Access.Legal.of_memSize {p q : Params} (h : p.memSize = q.memSize) {c : Access} (hc : c.Legal p) : c.Legal q := by
  obtain ⟨hw, hcheck⟩ := hc
  exact ⟨hw, accessCheck_eq_none.2 (h ▸ accessCheck_eq_none.1 hcheck)⟩

/-- What a legal access does, whatever the data cache: it keeps the invariant, and its value and the bytes it leaves are
functions of `ArchMem`. -/
theorem accessStep_of_legal {r : List Word × State} {c : Access} (hs : r.2.Inv) (hc : c.Legal r.2.params) :
    (accessStep r c).2.Inv ∧ (accessStep r c).2.params = r.2.params ∧
      (accessStep r c).2.archMem = c.bytesAfter r.2.archMem ∧
      (accessStep r c).1 = c.returned r.2.archMem ++ r.1 := by
  obtain ⟨vs, s⟩ := r
  obtain ⟨hw, hcheck⟩ := hc
  have hn := Access.dvd_four_of_width hw
  have hpos : 0 < c.width := Nat.pos_of_dvd_of_pos hn (by decide)
  obtain ⟨ha, hr⟩ := accessCheck_eq_none.1 hcheck
  have hlt : c.addr.toNat < s.params.memSize := by
    change _ ≤ s.params.memSize at hr
    omega
  cases c with
  | load a n =>
    have hstep : accessStep (vs, s) (.load a n) =
        (BitVec.ofNat 32 (s.archValue a.toNat n) :: vs, (dcRead a.toNat n s).2) := by
      have hread : memRead a n s = _ := memRead_of_passed_check hs.params hn hcheck
      simp only [accessStep, hread]
    rw [hstep, State.archValue_eq_leValue]
    exact ⟨hs.inv_dcRead n hlt, (dcRead_frame a.toNat n s).1.params, funext fun b => hs.archMem_dcRead n b, rfl⟩
  | store a n v =>
    have hstep : accessStep (vs, s) (.store a n v) = (vs, dcWrite a.toNat n v s) := by
      have hwrite : memWrite a n v s = _ := memWrite_ok hcheck
      simp only [accessStep, hwrite]
    rw [hstep]
    exact ⟨hs.inv_dcWrite hn ha hlt v, (dcWrite_frame a.toNat n v s).1.params,
      funext fun b => hs.archMem_dcWrite v hn ha hlt b, rfl⟩

/-- Legal accesses from equal memories return equal values and leave equal memories. -/
theorem foldl_accessStep_congr {cs : List Access} {r r' : List Word × State} (hs : r.2.Inv) (hs' : r'.2.Inv)
    (hsize : r.2.params.memSize = r'.2.params.memSize) (hmem : r.2.archMem = r'.2.archMem) (hvalues : r.1 = r'.1)
    (hcs : ∀ c ∈ cs, c.Legal r.2.params) :
    (cs.foldl accessStep r).1 = (cs.foldl accessStep r').1 ∧
      (cs.foldl accessStep r).2.archMem = (cs.foldl accessStep r').2.archMem := by
  induction cs generalizing r r' with
  | nil => exact ⟨hvalues, hmem⟩
  | cons c cs ih =>
    obtain ⟨hc, hcs⟩ := List.forall_mem_cons.1 hcs
    obtain ⟨hinv, hp, hbytes, hv⟩ := accessStep_of_legal hs hc
    obtain ⟨hinv', hp', hbytes', hv'⟩ := accessStep_of_legal hs' (hc.of_memSize hsize)
    exact ih hinv hinv' (by rw [hp, hp', hsize]) (by rw [hbytes, hbytes', hmem]) (by rw [hv, hv', hmem, hvalues])
      (hp ▸ hcs)

/-- Legal accesses that store to none of some bytes leave them. -/
theorem foldl_accessStep_of_avoids {cs : List Access} {r : List Word × State} {a n : Nat} (hs : r.2.Inv)
    (hcs : ∀ c ∈ cs, c.Legal r.2.params ∧ c.Avoids a n) :
    (cs.foldl accessStep r).2.Inv ∧ (cs.foldl accessStep r).2.params = r.2.params ∧
      ∀ b, a ≤ b → b < a + n → (cs.foldl accessStep r).2.archMem b = r.2.archMem b := by
  induction cs generalizing r with
  | nil => exact ⟨hs, rfl, fun _ _ _ => rfl⟩
  | cons c cs ih =>
    obtain ⟨⟨hc, havoids⟩, hcs⟩ := List.forall_mem_cons.1 hcs
    obtain ⟨hinv, hp, hbytes, -⟩ := accessStep_of_legal hs hc
    obtain ⟨hinv', hp', hbytes'⟩ := ih hinv (hp ▸ hcs)
    refine ⟨hinv', hp'.trans hp, fun b hb hb' => (hbytes' b hb hb').trans ?_⟩
    rw [hbytes]
    exact Access.bytesAfter_of_avoids havoids hb hb'

/-- Settles O40: the bytes the store wrote stay, and the load assembles them. -/
theorem writeEvictReadRoundTrip : Obligations.WriteEvictReadRoundTrip := by
  intro s a v n cs hs hstore hcs
  obtain ⟨hw, hcheck⟩ := hstore
  obtain ⟨ha, hr⟩ : a.toNat % n = 0 ∧ a.toNat + n ≤ s.params.memSize := accessCheck_eq_none.1 hcheck
  have hn : n ∣ 4 := Access.dvd_four_of_width hw
  have hlt : a.toNat < s.params.memSize := (Nat.lt_add_of_pos_right (Nat.pos_of_dvd_of_pos hn (by decide))).trans_le hr
  have hs0 := hs.inv_dcWrite hn ha hlt v
  have hp0 : (dcWrite a.toNat n v s).params = s.params := (dcWrite_frame a.toNat n v s).1.params
  obtain ⟨hs1, hp1, hbytes⟩ := foldl_accessStep_of_avoids (r := ([], dcWrite a.toNat n v s)) hs0 (hp0 ▸ hcs)
  have hcheck1 : accessCheck (accessRun (dcWrite a.toNat n v s) cs).2.params a n = none := (hp1.trans hp0) ▸ hcheck
  have hvalue : (accessRun (dcWrite a.toNat n v s) cs).2.archValue a.toNat n = v.toNat % 256 ^ n := by
    refine State.archValue_of_bytes fun k hk => ?_
    rw [accessRun, hbytes _ (by omega) (by omega)]
    refine (hs.archMem_dcWrite v hn ha hlt _).trans ?_
    rw [if_pos (by omega), Nat.add_sub_cancel_left]
  have hread : memRead a n (accessRun (dcWrite a.toNat n v s) cs).2 = _ := memRead_of_passed_check hs1.params hn hcheck1
  rw [hvalue] at hread
  exact ⟨_, _, memWrite_ok hcheck, hread⟩

/-- Settles O41: both runs are the same functions of `ArchMem`. -/
theorem loadsDoNotDependOnTheGeometry : Obligations.LoadsDoNotDependOnTheGeometry := by
  intro s s' cs hs hs' hsize hmem hcs
  obtain ⟨hvalues, hbytes⟩ :=
    foldl_accessStep_congr (r := ([], s)) (r' := ([], s')) hs hs' hsize (funext hmem) rfl hcs
  exact ⟨hvalues, congrFun hbytes⟩

end Sys2Proof.Machine

/-! Canonical floating-point results (43_float.md R263, R273). -/

namespace Sys2Proof.Machine

/-- The pattern is not subnormal, and if it is a NaN it is the canonical one. -/
def Canonical (p : Word) : Prop := (expF p = 0 → manF p = 0) ∧ (classF p = .nan → p = cNaN)

section Canonical

variable {p : Word}

theorem canonical_cNaN : Canonical cNaN := ⟨by decide, fun _ => rfl⟩

theorem canonical_zeroF (s : Bool) : Canonical (zeroF s) := by
  rw [zeroF_eq]
  cases s <;> exact ⟨by decide, by decide⟩

theorem canonical_infF (s : Bool) : Canonical (infF s) := by
  rw [infF_eq]
  cases s <;> exact ⟨by decide, by decide⟩

theorem canonical_of_inf (h : classF p = .inf) : Canonical p :=
  ⟨fun _ => (classF_eq_inf_iff.1 h).2, fun hn => nomatch h.symm.trans hn⟩

theorem canonical_of_normal (h : classF p = .normal) : Canonical p :=
  ⟨fun h0 => absurd h0 (classF_eq_normal_iff.1 h).1, fun hn => nomatch h.symm.trans hn⟩

/-- Packing gives an infinity, a zero or a NORMAL pattern. -/
theorem Packed.canonical {s : Bool} {n e : ℤ} (h : Packed s n e p) : Canonical p := by
  rw [Canonical, classF_eq_nan_iff]
  obtain ⟨-, ⟨-, he, hm⟩ | ⟨-, he, hm⟩ | ⟨hlo, hhi, he, -⟩⟩ := h
  · exact ⟨fun _ => hm, fun hn => absurd hm hn.2⟩
  · exact ⟨fun _ => hm, fun hn => absurd hm hn.2⟩
  · generalize (if n = 2 ^ 24 then e + 1 else e) = x at hlo hhi he
    exact ⟨fun h0 => by omega, fun hn => by omega⟩

theorem RoundsTo.canonical {s : Bool} {r : ℚ} (h : RoundsTo s r p) : Canonical p := by
  obtain ⟨e, n, -, -, -, hp⟩ := h
  exact hp.canonical

theorem RootRoundsTo.canonical {r : ℚ} (h : RootRoundsTo r p) : Canonical p := by
  obtain ⟨e, n, -, -, -, -, -, hp⟩ := h
  exact hp.canonical

end Canonical

/-! ### The functions (43_float.md R265 to R268, R271) -/

section Functions

variable (a b : Word)

theorem canonical_fadd : Canonical (fadd a b) := by
  by_cases hnormal : classF a = .normal ∧ classF b = .normal
  · obtain ⟨ha, hb⟩ := hnormal
    by_cases hsum : valF a + valF b = 0
    · rw [fadd_of_normal_of_sum_zero ha hb hsum]
      exact canonical_zeroF false
    · exact (roundsTo_fadd_of_normal ha hb hsum).canonical
  · unfold fadd
    split
    next => exact canonical_cNaN
    next => exact canonical_cNaN
    next ha _ =>
      split
      · exact canonical_of_inf ha
      · exact canonical_cNaN
    next ha _ _ => exact canonical_of_inf ha
    next hb _ _ => exact canonical_of_inf hb
    next => exact canonical_zeroF _
    next hb => exact canonical_of_normal hb
    next ha _ => exact canonical_of_normal ha
    next ha hb => exact absurd ⟨ha, hb⟩ hnormal

theorem canonical_fmul : Canonical (fmul a b) := by
  by_cases hnormal : classF a = .normal ∧ classF b = .normal
  · exact (roundsTo_fmul_of_normal hnormal.1 hnormal.2).canonical
  · unfold fmul
    dsimp only
    split
    next => exact canonical_cNaN
    next => exact canonical_cNaN
    next => exact canonical_cNaN
    next => exact canonical_cNaN
    next => exact canonical_infF _
    next => exact canonical_infF _
    next => exact canonical_zeroF _
    next => exact canonical_zeroF _
    next ha hb => exact absurd ⟨ha, hb⟩ hnormal

theorem canonical_fdiv : Canonical (fdiv a b) := by
  by_cases hnormal : classF a = .normal ∧ classF b = .normal
  · exact (roundsTo_fdiv_of_normal hnormal.1 hnormal.2).canonical
  · unfold fdiv
    dsimp only
    split
    next => exact canonical_cNaN
    next => exact canonical_cNaN
    next => exact canonical_cNaN
    next => exact canonical_cNaN
    next => exact canonical_infF _
    next => exact canonical_zeroF _
    next => exact canonical_infF _
    next => exact canonical_zeroF _
    next ha hb => exact absurd ⟨ha, hb⟩ hnormal

theorem canonical_fsqrt : Canonical (fsqrt a) := by
  by_cases hpos : classF a = .normal ∧ signF a = false
  · exact (rootRoundsTo_fsqrt hpos.1 hpos.2).1.canonical
  · unfold fsqrt
    split
    next => exact canonical_cNaN
    next => exact canonical_zeroF _
    next ha =>
      split
      · exact canonical_cNaN
      · exact canonical_of_inf ha
    next ha =>
      have hs : signF a = true := by simpa [ha] using hpos
      rw [if_pos hs]
      exact canonical_cNaN

theorem canonical_itof : Canonical (itof a) := by
  by_cases h : a.toInt = 0
  · rw [itof, if_pos h]
    exact canonical_zeroF false
  · exact (roundsTo_itof h).canonical

end Functions

/-- Settles O48: each function answers a packed number, an operand that is an infinity or NORMAL, or a constant. -/
theorem arithmeticResultsAreCanonical : Obligations.ArithmeticResultsAreCanonical := by
  intro a b p hp
  simp only [List.mem_cons, List.not_mem_nil, or_false] at hp
  obtain rfl | rfl | rfl | rfl | rfl | rfl := hp
  · exact canonical_fadd a b
  · exact canonical_fadd a (fneg b)
  · exact canonical_fmul a b
  · exact canonical_fdiv a b
  · exact canonical_fsqrt a
  · exact canonical_itof a

end Sys2Proof.Machine

/-! Ticks of the engine (50_pipeline.md R330 to R343): what each step leaves alone, the shape of a tick, and the hazards. -/

namespace Sys2Proof.Machine

/-! ### Frames of the steps -/

theorem publishDest_frame (b : Behaviour) (v : Word) (s : State) :
    publishDest b v s = { s with fwdX := (publishDest b v s).fwdX, fwdF := (publishDest b v s).fwdF } := by
  unfold publishDest
  split
  · exact publish_frame ..
  · rfl

/-- A memory step changes memory, the data cache and its counters, the forwarding tables, `q_MEM`, `q_WB` and the run state. -/
theorem memoryStep_frame (s : State) :
    memoryStep s =
      { s with mem := (memoryStep s).mem, dc := (memoryStep s).dc, dcAccesses := (memoryStep s).dcAccesses,
               dcHits := (memoryStep s).dcHits, fwdX := (memoryStep s).fwdX, fwdF := (memoryStep s).fwdF,
               qMEM := (memoryStep s).qMEM, qWB := (memoryStep s).qWB, run := (memoryStep s).run } := by
  cases h : s.qMEM with
  | none => rw [memoryStep_empty h]
  | some b =>
    obtain ⟨n, ext, -, ⟨c, -, hm⟩ | ⟨-, hm⟩⟩ | ⟨n, -, -, ⟨c, -, hm⟩ | ⟨-, hm⟩⟩ | ⟨-, -, hm⟩ := memoryStep_cases h <;> rw [hm]
    · rfl
    · obtain ⟨hout, -, hx, hf, hpc, -⟩ := dcRead_frame (b.addr.getD 0).toNat n s
      rw [publishDest_frame, hout.eq_update hx hf hpc]
    · rfl
    · obtain ⟨hout, -, hx, hf, hpc, -⟩ := dcWrite_frame (b.addr.getD 0).toNat n (b.op2.getD 0) s
      rw [hout.eq_update hx hf hpc]

/-- A fetch step changes `q_RF`, the pc, the instruction cache and its counters, the guard and the run state. -/
theorem fetchStep_frame (s : State) :
    fetchStep s =
      { s with qRF := (fetchStep s).qRF, pc := (fetchStep s).pc, ic := (fetchStep s).ic,
               icAccesses := (fetchStep s).icAccesses, icHits := (fetchStep s).icHits, lgAddr := (fetchStep s).lgAddr,
               lgCount := (fetchStep s).lgCount, run := (fetchStep s).run } := by
  cases h : fetchDue s with
  | false => rw [fetchStep_not_due h]
  | true =>
    obtain ⟨-, hf⟩ | ⟨-, ⟨c, -, -, -, -, hf⟩ | ⟨c, -, -, hf⟩ | ⟨-, hf⟩⟩ := fetchStep_cases h <;> rw [hf]
    · rfl
    · rw [fetchWord_frame]

/-- An execute step changes the forwarding tables, `q_EX` and `q_MEM`. -/
theorem executeStep_frame (s : State) :
    executeStep s =
      { s with fwdX := (executeStep s).fwdX, fwdF := (executeStep s).fwdF, qEX := none,
               qMEM := (s.qEX.map executeFill).or s.qMEM } := by
  cases h : s.qEX with
  | none => rw [executeStep_empty h, Option.map_none, Option.none_or, ← h]
  | some b => rw [executeStep_some h]; rfl

/-! ### The shape of a tick (R330) -/

/-- The state after write-back and memory. -/
def State.afterMemory (s : State) : State := memoryStep (writeBackStep s)

/-- The state after execute. -/
def State.afterExecute (s : State) : State := executeStep s.afterMemory

theorem run_writeBackStep (s : State) : (writeBackStep s).run = s.run := by
  rw [writeBackStep_frame]

theorem run_executeStep (s : State) : (executeStep s).run = s.run := by
  rw [executeStep_frame]

/-- A memory step runs on only from a running machine. -/
theorem run_of_run_memoryStep {s : State} (h : (memoryStep s).run = .running) : s.run = .running := by
  cases hq : s.qMEM with
  | none => rwa [memoryStep_empty hq] at h
  | some b =>
    obtain ⟨n, ext, -, ⟨c, -, hm⟩ | ⟨-, hm⟩⟩ | ⟨n, -, -, ⟨c, -, hm⟩ | ⟨-, hm⟩⟩ | ⟨-, -, hm⟩ := memoryStep_cases hq <;>
      rw [hm] at h
    · cases h
    · rw [publishDest_frame] at h
      exact (dcRead_frame (b.addr.getD 0).toNat n s).1.run.symm.trans h
    · cases h
    · exact (dcWrite_frame (b.addr.getD 0).toNat n (b.op2.getD 0) s).1.run.symm.trans h
    · exact h

/-- A memory step that ends the run is a failed check of the occupant's access, and changes nothing else. -/
theorem memoryStep_of_ends {s : State} (hr : s.run = .running) (h : (memoryStep s).run ≠ .running) :
    ∃ b n c, s.qMEM = some b ∧ ((loadOf b.instr).map Prod.fst = some n ∨ storeOf b.instr = some n) ∧
      accessCheck s.params (b.addr.getD 0) n = some c ∧ memoryStep s = raiseFatal c s := by
  cases hq : s.qMEM with
  | none =>
    rw [memoryStep_empty hq] at h
    exact absurd hr h
  | some b =>
    obtain ⟨n, ext, hl, ⟨c, hc, hm⟩ | ⟨-, hm⟩⟩ | ⟨n, -, hst, ⟨c, hc, hm⟩ | ⟨-, hm⟩⟩ | ⟨-, -, hm⟩ := memoryStep_cases hq
    · exact ⟨b, n, c, rfl, .inl (by rw [hl]; rfl), hc, hm⟩
    · rw [hm, publishDest_frame] at h
      exact absurd ((dcRead_frame (b.addr.getD 0).toNat n s).1.run.trans hr) h
    · exact ⟨b, n, c, rfl, .inr hst, hc, hm⟩
    · rw [hm] at h
      exact absurd ((dcWrite_frame (b.addr.getD 0).toNat n (b.op2.getD 0) s).1.run.trans hr) h
    · rw [hm] at h
      exact absurd hr h

section Tick

variable {s : State}

theorem tick_of_memory_ends (hr : s.run = .running) (h : s.afterMemory.run ≠ .running) : tick s = s.afterMemory := by
  have hw : (writeBackStep s).run = .running := (run_writeBackStep s).trans hr
  have h' : (memoryStep (writeBackStep s)).run ≠ .running := h
  rw [tick, whileRunning_of_eq hr, whileRunning_of_eq hw, whileRunning_of_ne h', whileRunning_of_ne h',
    whileRunning_of_ne h', State.afterMemory]

section Running

variable (h : s.afterMemory.run = .running)
include h

theorem run_of_run_afterMemory : s.run = .running :=
  (run_writeBackStep s).symm.trans (run_of_run_memoryStep h)

theorem tick_of_memory_runs : tick s = whileRunning fetchStep (decodeStep s.afterExecute) := by
  have hr := run_of_run_afterMemory h
  have hw : (writeBackStep s).run = .running := (run_writeBackStep s).trans hr
  have h' : (memoryStep (writeBackStep s)).run = .running := h
  have hx : (executeStep (memoryStep (writeBackStep s))).run = .running := (run_executeStep _).trans h
  rw [tick, whileRunning_of_eq hr, whileRunning_of_eq hw, whileRunning_of_eq h', whileRunning_of_eq hx,
    State.afterExecute, State.afterMemory]

theorem run_afterExecute : s.afterExecute.run = .running := (run_executeStep _).trans h

/-- Execute finds `q_MEM` empty. -/
theorem qMEM_afterExecute : s.afterExecute.qMEM = s.qEX.map executeFill := by
  have hmem : s.afterMemory.qMEM = none := qMEM_memoryStep _ h
  have hex : s.afterMemory.qEX = s.qEX := by rw [State.afterMemory, memoryStep_frame, writeBackStep_frame]
  rw [State.afterExecute, executeStep_frame]
  change (s.afterMemory.qEX.map executeFill).or s.afterMemory.qMEM = _
  rw [hmem, hex, Option.or_none]

theorem State.EngineInv.engineInv_afterExecute (hs : s.EngineInv) : s.afterExecute.EngineInv :=
  (hs.engineInv_writeBackStep.engineInv_memoryStep (qWB_writeBackStep s)).engineInv_executeStep (qMEM_memoryStep _ h)

end Running

/-- The first three steps leave `q_RF`, `icount`, the fetch side and, but for write-back, the banks and the pc. -/
theorem afterExecute_frame (s : State) :
    s.afterExecute =
      { writeBackStep s with
        mem := s.afterMemory.mem, dc := s.afterMemory.dc, dcAccesses := s.afterMemory.dcAccesses,
        dcHits := s.afterMemory.dcHits, fwdX := s.afterExecute.fwdX, fwdF := s.afterExecute.fwdF, qEX := none,
        qMEM := s.afterExecute.qMEM, qWB := s.afterMemory.qWB, run := s.afterMemory.run } := by
  have hx := executeStep_frame s.afterMemory
  have hm := memoryStep_frame (writeBackStep s)
  rw [State.afterExecute, State.afterMemory] at *
  rw [hx, hm]

theorem qEX_afterExecute (s : State) : s.afterExecute.qEX = none := qEX_executeStep _

theorem qRF_afterExecute (s : State) : s.afterExecute.qRF = s.qRF := by
  rw [afterExecute_frame, writeBackStep_frame]

theorem icount_afterExecute (s : State) : s.afterExecute.icount = s.icount := by
  rw [afterExecute_frame, writeBackStep_frame]

/-- While a word waits in `q_RF` no control transfer is in flight, so the pc stays. -/
theorem State.EngineInv.pc_writeBackStep_of_qRF (hs : s.EngineInv) (h : s.qRF ≠ none) : (writeBackStep s).pc = s.pc :=
  pc_writeBackStep (Bool.eq_false_iff.2 fun ht => h (hs.aloneWB ht).1)

theorem fetchStep_of_qRF (h : s.qRF ≠ none) : fetchStep s = s :=
  fetchStep_not_due (by cases hq : s.qRF with | none => exact absurd hq h | some w => simp [fetchDue, hq])

theorem whileRunning_fetchStep_of_qRF (h : s.qRF ≠ none) : whileRunning fetchStep s = s := by
  unfold whileRunning
  split
  · exact fetchStep_of_qRF h
  · rfl

end Tick

/-! ### Fatal data accesses (R343 c) -/

theorem memoryStep_of_failed_check {s : State} {b : Behaviour} {a : Word} {n : Nat} {c : Fault} (hq : s.qMEM = some b)
    (ha : b.addr = some a) (hn : (loadOf b.instr).map Prod.fst = some n ∨ storeOf b.instr = some n)
    (hc : accessCheck s.params a n = some c) : memoryStep s = raiseFatal c s := by
  have haddr : b.addr.getD 0 = a := by rw [ha]; rfl
  obtain ⟨k, ext, hl, h⟩ | ⟨k, hl, hst, h⟩ | ⟨hl, hst, -⟩ := memoryStep_cases hq
  · have hst : storeOf b.instr = none := (loadOf_dest (congrArg Option.isSome hl)).2
    rw [hl, hst] at hn
    obtain rfl : k = n := by simpa using hn
    rw [haddr, hc] at h
    obtain ⟨c', hc', h⟩ | ⟨hnone, -⟩ := h
    · cases hc'
      exact h
    · cases hnone
  · rw [hl, hst] at hn
    obtain rfl : k = n := by simpa using hn
    rw [haddr, hc] at h
    obtain ⟨c', hc', h⟩ | ⟨hnone, -⟩ := h
    · cases hc'
      exact h
    · cases hnone
  · rw [hl, hst] at hn
    simp at hn

/-- Settles O55: the memory step after write-back is the last of the tick. -/
theorem fatalDataAccessIsPrecise : Obligations.FatalDataAccessIsPrecise := by
  intro s b a n c hs hr hq ha hn hc
  have hw := writeBackStep_frame s
  have hpc : (writeBackStep s).pc = s.pc :=
    pc_writeBackStep (Bool.eq_false_iff.2 fun ht => nomatch hq.symm.trans (hs.aloneWB ht).2.2)
  have hmem : s.afterMemory = raiseFatal c (writeBackStep s) :=
    memoryStep_of_failed_check (by rw [hw]; exact hq) ha hn (by rw [hw]; exact hc)
  have htick : tick s = { writeBackStep s with run := .fatal c } := by
    rw [tick_of_memory_ends hr (by rw [hmem]; nofun), hmem]
    rfl
  refine ⟨htick, ?_⟩
  rw [htick]
  refine ⟨hpc, qWB_writeBackStep s, ?_, ?_, ?_, ?_, ?_, ?_⟩
  · rw [hw]
  · rw [hw]
  · rw [hw]
  · rw [hw]
  · rw [hw]
  · obtain ⟨-, h⟩ | ⟨-, -, h⟩ := accessCheck_eq_some hc
    · exact .inl h
    · exact .inr h

/-! ### Sources (R337) -/

theorem fetchSource_of_forwarded {s : State} {r : RegRef} {e : FwdEntry} (hr : r ≠ xr 0) (h : s.forwarded r = some e) :
    fetchSource s r = e.value := by
  obtain ⟨_ | _, idx⟩ := r
  · have hne : idx ≠ 0 := fun he => hr (congrArg xr he)
    have h : s.fwdX[idx.toNat]'idx.isLt = some e := h
    simp only [fetchSource, if_neg hne, h]
  · have h : s.fwdF[idx.toNat]'idx.isLt = some e := h
    simp only [fetchSource, h]

/-- Without a load of one of its sources in `q_MEM`, an instruction is issued. -/
theorem decodeStep_of_instr {s : State} {w : Word} {i : Instr} (hq : s.qRF = some w) (hd : decodeWord w = .instr i)
    (hi : interlocked i s = false) : decodeStep s = registerFetch i s := by
  obtain ⟨e, he, -⟩ | ⟨e, he, -⟩ | ⟨j, hj, hl, -⟩ | ⟨j, hj, -, h⟩ := decodeStep_cases hq
  · cases hd.symm.trans he
  · cases hd.symm.trans he
  · cases hd.symm.trans hj
    exact absurd (hi.symm.trans hl) Bool.false_ne_true
  · cases hd.symm.trans hj
    exact h

theorem decodeStep_of_interlocked {s : State} {w : Word} {i : Instr} (hq : s.qRF = some w) (hd : decodeWord w = .instr i)
    (hi : interlocked i s = true) : decodeStep s = s := by
  obtain ⟨e, he, -⟩ | ⟨e, he, -⟩ | ⟨j, -, -, h⟩ | ⟨j, hj, hl, -⟩ := decodeStep_cases hq
  · cases hd.symm.trans he
  · cases hd.symm.trans he
  · exact h
  · cases hd.symm.trans hj
    exact absurd (hl.symm.trans hi) Bool.false_ne_true

theorem interlocked_of_qMEM_none {i : Instr} {s : State} (h : s.qMEM = none) : interlocked i s = false := by
  rw [interlocked, h]

theorem interlocked_of_not_load {i : Instr} {s : State} {b : Behaviour} (h : s.qMEM = some b)
    (hl : isLoad b.instr = false) : interlocked i s = false := by
  rw [interlocked, h]
  simp [hl]

theorem interlocked_of_load {i : Instr} {s : State} {l : Behaviour} {r : RegRef} (h : s.qMEM = some l)
    (hl : isLoad l.instr = true) (hd : destOf l.instr = some r) (hr : r ≠ xr 0)
    (hs : (sourcesOf i).1 = some r ∨ (sourcesOf i).2 = some r) : interlocked i s = true := by
  rw [interlocked, h]
  simp only [hl, hd]
  simpa [hs] using hr

/-- A step performed only while the run goes on leaves alone what it leaves alone. -/
theorem whileRunning_fetchStep_frame (s : State) :
    (whileRunning fetchStep s).qEX = s.qEX ∧ (whileRunning fetchStep s).icount = s.icount ∧
      (∀ r, (whileRunning fetchStep s).forwarded r = s.forwarded r) ∧
      ∀ r, (whileRunning fetchStep s).committed r = s.committed r := by
  unfold whileRunning
  split
  · rw [fetchStep_frame]
    exact ⟨rfl, rfl, fun _ => rfl, fun _ => rfl⟩
  · exact ⟨rfl, rfl, fun _ => rfl, fun _ => rfl⟩

/-- The record register-fetch makes of an instruction. -/
def fetchedRecord (i : Instr) (s : State) : Behaviour :=
  { instr := i, seq := s.icount, originPc := if recordsOriginPc i then some (s.pc - 4) else none,
    op1 := (sourcesOf i).1.map (fetchSource s), op2 := (sourcesOf i).2.map (fetchSource s) }

/-- A tick that issues leaves the record in `q_EX`. -/
theorem tick_of_issue {s : State} {w : Word} {i : Instr} (h : s.afterMemory.run = .running) (hq : s.qRF = some w)
    (hd : decodeWord w = .instr i) (hi : interlocked i s.afterExecute = false) :
    (tick s).qEX = some (fetchedRecord i s.afterExecute) ∧ (tick s).icount = s.icount + 1 ∧
      (∀ r, (tick s).forwarded r = s.afterExecute.forwarded r) ∧ ∀ r, (tick s).committed r = s.afterExecute.committed r := by
  rw [tick_of_memory_runs h, decodeStep_of_instr ((qRF_afterExecute s).trans hq) hd hi]
  obtain ⟨hex, hi, hfwd, hcom⟩ := whileRunning_fetchStep_frame (registerFetch i s.afterExecute)
  exact ⟨hex, hi.trans (congrArg (· + 1) (icount_afterExecute s)), hfwd, hcom⟩

theorem op1_fetchedRecord {i : Instr} {s : State} {r : RegRef} {e : FwdEntry} (hr : r ≠ xr 0) (h : s.forwarded r = some e)
    (hs : (sourcesOf i).1 = some r) : (fetchedRecord i s).op1 = some e.value := by
  rw [fetchedRecord, hs, Option.map_some, fetchSource_of_forwarded hr h]

theorem op2_fetchedRecord {i : Instr} {s : State} {r : RegRef} {e : FwdEntry} (hr : r ≠ xr 0) (h : s.forwarded r = some e)
    (hs : (sourcesOf i).2 = some r) : (fetchedRecord i s).op2 = some e.value := by
  rw [fetchedRecord, hs, Option.map_some, fetchSource_of_forwarded hr h]

/-- Registers after the first three steps are those write-back left. -/
theorem committed_afterExecute (s : State) (r : RegRef) : s.afterExecute.committed r = (writeBackStep s).committed r := by
  rw [afterExecute_frame]
  rfl

/-- A destination without an access to come has its result when execute has filled the record. -/
theorem result_isSome_executeFill {b : Behaviour} (hl : isLoad b.instr = false) (hd : (destOf b.instr).isSome = true) :
    ∃ v, (executeFill b).result = some v := by
  rw [executeFill]
  split
  next => exact ⟨_, rfl⟩
  next h =>
    obtain ⟨-, ⟨hload, -⟩ | ⟨hstore, -⟩⟩ := executeOut_addr h
    · exact absurd (hl.symm.trans hload) Bool.false_ne_true
    · rw [(storeOf_dest hstore).1] at hd
      cases hd
  next h =>
    rw [(isBranchOrJump_of_branch h).2] at hd
    cases hd
  next => exact ⟨_, rfl⟩

/-- Settles O54: execute has published the result when decode fetches the sources. -/
theorem forwardedResultReachesTheNextInstruction : Obligations.ForwardedResultReachesTheNextInstruction := by
  intro s b w i r hs h hex hl hd hr hq hi
  have h : s.afterMemory.run = .running := h
  have hqmem : s.afterExecute.qMEM = some (executeFill b) := by rw [qMEM_afterExecute h, hex]; rfl
  have hl' : isLoad (executeFill b).instr = false := by rwa [executeFill_instr]
  obtain ⟨hissued, -, -, hcom⟩ := tick_of_issue h hq hi (interlocked_of_not_load hqmem hl')
  obtain ⟨v, hv⟩ := result_isSome_executeFill hl (by rw [hd]; rfl)
  have hinv := hs.engineInv_afterExecute h
  have hentry : s.afterExecute.forwarded r = some { seq := (executeFill b).seq, value := v } := by
    refine (hinv.coherent r hr).1 _ ?_
    rw [State.inFlight, hqmem, uncommitted_of_dest (by rwa [executeFill_instr]), commitValue, if_neg (by rw [hl']; nofun), hv]
    rfl
  refine ⟨_, hissued, rfl, icount_afterExecute s, fun hsrc => ?_, fun hsrc => ?_, ?_⟩
  · rw [op1_fetchedRecord hr hentry hsrc, hv]
  · rw [op2_fetchedRecord hr hentry hsrc, hv]
  · rw [hcom, committed_afterExecute]

/-! ### The load-use interlock (R341) -/

/-- A load that leaves `q_MEM` has published its value, with its sequence number. -/
theorem forwarded_afterMemory_of_load {s : State} {b : Behaviour} {r : RegRef} (h : s.afterMemory.run = .running)
    (hq : s.qMEM = some b) (hl : isLoad b.instr = true) (hd : destOf b.instr = some r) (hr : r ≠ xr 0) :
    ∃ v, s.afterMemory.forwarded r = some { seq := b.seq, value := v } := by
  have hq' : (writeBackStep s).qMEM = some b := by
    rw [writeBackStep_frame]
    exact hq
  rw [State.afterMemory] at h ⊢
  obtain ⟨n, ext, -, ⟨c, -, hm⟩ | ⟨-, hm⟩⟩ | ⟨n, hno, -⟩ | ⟨hno, -⟩ := memoryStep_cases hq'
  · rw [hm] at h
    cases h
  · rw [hm, publishDest, hd]
    exact ⟨_, forwarded_publish_self hr ..⟩
  · rw [isLoad, hno] at hl
    cases hl
  · rw [isLoad, hno] at hl
    cases hl

/-- A tick whose decode waits is over when execute is. -/
theorem tick_of_decode_waits {s : State} (h : s.afterMemory.run = .running) (hq : s.qRF ≠ none)
    (hd : decodeStep s.afterExecute = s.afterExecute) : tick s = s.afterExecute := by
  rw [tick_of_memory_runs h, hd, whileRunning_fetchStep_of_qRF]
  rwa [qRF_afterExecute]

/-- Settles O53: the load is in `q_MEM` when decode looks, and in the next tick its memory step publishes first. -/
theorem loadUseInterlockHoldsOneTick : Obligations.LoadUseInterlockHoldsOneTick := by
  intro s l w i r hs h hex hl hd hr hq hi hsrc
  have h : s.afterMemory.run = .running := h
  have hqmem : s.afterExecute.qMEM = some (executeFill l) := by rw [qMEM_afterExecute h, hex]; rfl
  have hlocked : interlocked i s.afterExecute = true :=
    interlocked_of_load hqmem (by rwa [executeFill_instr]) (by rwa [executeFill_instr]) hr hsrc
  have hwait := decodeStep_of_interlocked ((qRF_afterExecute s).trans hq) hi hlocked
  have htick : tick s = s.afterExecute := tick_of_decode_waits h (by rw [hq]; nofun) hwait
  have hpc : s.afterExecute.pc = s.pc := by
    rw [afterExecute_frame]
    exact hs.pc_writeBackStep_of_qRF (by rw [hq]; nofun)
  intro t
  have ht : t = s.afterExecute := htick
  clear_value t
  subst ht
  refine ⟨(qRF_afterExecute s).trans hq, qEX_afterExecute s, hqmem, icount_afterExecute s, hpc, ?_, ?_, fun h' => ?_⟩
  · rw [afterExecute_frame, writeBackStep_frame]
  · rw [afterExecute_frame, writeBackStep_frame]
  · generalize hu : s.afterExecute = u at *
    have h' : u.afterMemory.run = .running := h'
    have hexec : u.afterExecute = u.afterMemory := by
      refine executeStep_empty ?_
      rw [State.afterMemory, memoryStep_frame, writeBackStep_frame, ← hu]
      exact qEX_afterExecute s
    have hnext : u.afterExecute.qMEM = none := hexec ▸ qMEM_memoryStep _ h'
    have hqrf : u.qRF = some w := by rw [← hu]; exact (qRF_afterExecute s).trans hq
    obtain ⟨hissued, hic, hfwd, -⟩ := tick_of_issue h' hqrf hi (interlocked_of_qMEM_none hnext)
    have hicount : u.icount = s.icount := by rw [← hu, icount_afterExecute]
    obtain ⟨v, hv⟩ := forwarded_afterMemory_of_load h' hqmem (by rwa [executeFill_instr]) (by rwa [executeFill_instr]) hr
    rw [← hexec] at hv
    refine ⟨_, _, hissued, rfl, (icount_afterExecute u).trans hicount, by rw [hic, hicount], (hfwd r).trans hv,
      executeFill_seq l, fun hsrc => op1_fetchedRecord hr hv hsrc, fun hsrc => op2_fetchedRecord hr hv hsrc⟩

/-! ### A word that selects no instruction (R343 a) -/

/-- The state waits with a rejected word. -/
structure WaitsWith (w : Word) (e : DecodeError) (s : State) : Prop where
  inv  : s.EngineInv
  run  : s.run = .running
  qRF  : s.qRF = some w
  word : decodeWord w = .rejected e

/-- The end of a run that waited with a rejected word: its own cause and empty slots, or a data access's. -/
def EndedWaiting (w : Word) (e : DecodeError) (s t : State) : Prop :=
  ∃ c, t.run = .fatal c ∧
    ((c = decodeFault e w (s.pc - 4) ∧ t.qRF = none ∧ t.qEX = none ∧ t.qMEM = none ∧ t.qWB = none) ∨
      (∃ a, c = .misalignedAccess a) ∨ ∃ a, c = .memOutOfRange a)

/-- Nothing is fetched or issued. -/
def SameFetches (s t : State) : Prop := t.icAccesses = s.icAccesses ∧ t.pc = s.pc ∧ t.icount = s.icount

section Waits

variable {s : State} {w : Word} {e : DecodeError} (hs : WaitsWith w e s)
include hs

theorem WaitsWith.sameFetches_afterMemory : SameFetches s s.afterMemory := by
  have hpc := hs.inv.pc_writeBackStep_of_qRF (by rw [hs.qRF]; nofun)
  rw [State.afterMemory, memoryStep_frame]
  refine ⟨?_, hpc, ?_⟩ <;> rw [writeBackStep_frame]

theorem WaitsWith.sameFetches_afterExecute : SameFetches s s.afterExecute := by
  rw [State.afterExecute, executeStep_frame]
  exact hs.sameFetches_afterMemory

/-- A tick of a waiting machine ends the run, or moves the older instructions on. -/
theorem WaitsWith.tick :
    SameFetches s (tick s) ∧
      (EndedWaiting w e s (tick s) ∨
        (WaitsWith w e (tick s) ∧ (tick s).qEX = none ∧ (tick s).qMEM = s.qEX.map executeFill ∧
          (s.qEX ≠ none ∨ s.qMEM ≠ none))) := by
  by_cases h : s.afterMemory.run = .running
  · have hqrf : s.afterExecute.qRF = some w := (qRF_afterExecute s).trans hs.qRF
    obtain ⟨e', he, hmem, hwb, hd⟩ | ⟨e', he, hocc, hd⟩ | ⟨i, hi, -⟩ | ⟨i, hi, -⟩ := decodeStep_cases hqrf
    · cases hs.word.symm.trans he
      have htick : Machine.tick s = decodeStep s.afterExecute := by
        rw [tick_of_memory_runs h, whileRunning_of_ne (by rw [hd]; nofun)]
      obtain ⟨hic, hpc, hcount⟩ := hs.sameFetches_afterExecute
      rw [htick, hd]
      exact ⟨⟨hic, hpc, hcount⟩, .inl ⟨_, rfl, .inl ⟨by rw [hpc], rfl, qEX_afterExecute s, hmem, hwb⟩⟩⟩
    · have htick := tick_of_decode_waits h (by rw [hs.qRF]; nofun) hd
      rw [htick]
      refine ⟨hs.sameFetches_afterExecute, .inr ⟨⟨hs.inv.engineInv_afterExecute h, run_afterExecute h, hqrf, hs.word⟩,
        qEX_afterExecute s, qMEM_afterExecute h, ?_⟩⟩
      rw [qMEM_afterExecute h] at hocc
      obtain hocc | hocc := hocc
      · exact .inl fun hex => hocc (by rw [hex]; rfl)
      · refine .inr fun hmem => hocc ?_
        have hmem' : (writeBackStep s).qMEM = none := by rw [writeBackStep_frame]; exact hmem
        rw [afterExecute_frame]
        change s.afterMemory.qWB = none
        rw [State.afterMemory, memoryStep_empty hmem']
        exact qWB_writeBackStep s
    · cases hs.word.symm.trans hi
    · cases hs.word.symm.trans hi
  · rw [tick_of_memory_ends hs.run h]
    obtain ⟨b, n, c, -, -, hc, hm⟩ := memoryStep_of_ends ((run_writeBackStep s).trans hs.run) h
    refine ⟨hs.sameFetches_afterMemory, .inl ⟨c, by rw [State.afterMemory, hm]; rfl, .inr ?_⟩⟩
    obtain ⟨-, h⟩ | ⟨-, -, h⟩ := accessCheck_eq_some hc
    · exact .inl ⟨_, h⟩
    · exact .inr ⟨_, h⟩

end Waits

theorem WaitsWith.sameFetches_ticks {s : State} {w : Word} {e : DecodeError} (hs : WaitsWith w e s) (k : Nat) :
    SameFetches s (ticks k s) := by
  induction k generalizing s with
  | zero => exact ⟨rfl, rfl, rfl⟩
  | succ k ih =>
    rw [ticks_succ]
    obtain ⟨⟨hic, hpc, hcount⟩, ⟨c, hc, -⟩ | ⟨hnext, -⟩⟩ := hs.tick
    · rw [ticks_of_ended (by rw [hc]; nofun)]
      exact ⟨hic, hpc, hcount⟩
    · obtain ⟨hic', hpc', hcount'⟩ := ih hnext
      exact ⟨hic'.trans hic, hpc'.trans hpc, hcount'.trans hcount⟩

/-- Each tick moves the older instructions one slot on, so that the third finds none. -/
theorem WaitsWith.ended_ticks {s : State} {w : Word} {e : DecodeError} (hs : WaitsWith w e s) :
    EndedWaiting w e s (ticks 3 s) := by
  have ended : ∀ {t u k}, SameFetches s t → EndedWaiting w e t u → EndedWaiting w e s (ticks k u) :=
    fun {t u k} ⟨_, hpc, _⟩ ⟨c, hc, h⟩ => by
      rw [ticks_of_ended (by rw [hc]; nofun)]
      exact ⟨c, hc, hpc ▸ h⟩
  have h0 : SameFetches s s := ⟨rfl, rfl, rfl⟩
  have h1 := hs.sameFetches_ticks 1
  have h2 := hs.sameFetches_ticks 2
  obtain ⟨-, h | ⟨hs1, hex1, -, -⟩⟩ := hs.tick
  · exact ended (k := 2) h0 h
  obtain ⟨-, h | ⟨hs2, hex2, hmem2, -⟩⟩ := hs1.tick
  · exact ended (k := 1) h1 h
  obtain ⟨-, h | ⟨-, -, -, hocc⟩⟩ := hs2.tick
  · exact ended (k := 0) h2 h
  · rw [hex1] at hmem2
    exact absurd hocc (by simp [hex2, hmem2])

/-- Settles O56: a tick of a waiting machine fetches nothing, and the third finds no older instruction. -/
theorem fatalWordWaitsForOlderInstructions : Obligations.FatalWordWaitsForOlderInstructions := by
  intro s w e hs hr hq hw
  have hwaits : WaitsWith w e s := ⟨hs, hr, hq, hw⟩
  refine ⟨hwaits.sameFetches_ticks, ?_⟩
  obtain ⟨c, hc, h⟩ := hwaits.ended_ticks
  refine ⟨c, hc, fun hcause => ?_, h.imp_left And.left⟩
  obtain ⟨-, hslots⟩ | ⟨a, ha⟩ | ⟨a, ha⟩ := h
  · exact hslots
  · rw [ha] at hcause
    cases e <;> cases hcause
  · rw [ha] at hcause
    cases e <;> cases hcause

end Sys2Proof.Machine

/-! An instruction as the engine's stages do it, and as `exec` does (50_pipeline.md R333 to R337, R360): a record whose
operands are the committed registers, taken through execute, memory and write-back, has the effect of the instruction. -/

namespace Sys2Proof.Machine

/-! ### Records with committed operands -/

/-- The record of an instruction whose operands are the committed registers. -/
def State.recordOf (u : State) (i : Instr) (n : Nat) : Behaviour :=
  { instr := i, seq := n, originPc := if recordsOriginPc i then some u.originPc else none,
    op1 := (sourcesOf i).1.map u.committed, op2 := (sourcesOf i).2.map u.committed }

/-- A kind that records no origin pc computes nothing from it. -/
theorem executeOut_of_not_recordsOriginPc {i : Instr} (h : recordsOriginPc i = false) (a b pc pc' : Word) :
    executeOut i a b pc = executeOut i a b pc' := by
  cases i <;> cases h <;> rfl

theorem executeOut_recordOf (u : State) (i : Instr) :
    executeOut i (((sourcesOf i).1.map u.committed).getD 0) (((sourcesOf i).2.map u.committed).getD 0)
      ((if recordsOriginPc i then some u.originPc else none).getD 0) = u.executed i := by
  cases h : recordsOriginPc i with
  | true => rfl
  | false => exact executeOut_of_not_recordsOriginPc h ..

theorem executeFill_recordOf (u : State) (i : Instr) (n : Nat) :
    executeFill (u.recordOf i n) =
      match u.executed i with
      | .result v => { u.recordOf i n with result := some v }
      | .addr a => { u.recordOf i n with addr := some a }
      | .branch taken target => { u.recordOf i n with taken := some taken, target := some target }
      | .jump link target => { u.recordOf i n with result := some link, taken := some true, target := some target } := by
  rw [← executeOut_recordOf]
  rfl

/-- Register-fetch makes this record where the sources read as the committed registers of `u`. -/
theorem fetchedRecord_eq_recordOf {s u : State} {i : Instr}
    (hsrc : ∀ r, (sourcesOf i).1 = some r ∨ (sourcesOf i).2 = some r → fetchSource s r = u.committed r)
    (hpc : s.pc - 4 = u.originPc) : fetchedRecord i s = u.recordOf i s.icount := by
  have hmap : ∀ q : Option RegRef, (q = (sourcesOf i).1 ∨ q = (sourcesOf i).2) →
      q.map (fetchSource s) = q.map u.committed := by
    rintro (_ | r) hq
    · rfl
    · exact congrArg some (hsrc r (hq.imp Eq.symm Eq.symm))
  rw [fetchedRecord, State.recordOf, hpc, hmap _ (.inl rfl), hmap _ (.inr rfl)]

/-! ### The memory stage of a record (R334) -/

/-- The fatal cause of the record's data access, if its check fails. -/
def accessFault (b : Behaviour) (s : State) : Option Fault :=
  (((loadOf b.instr).map Prod.fst).or (storeOf b.instr)).bind (accessCheck s.params (b.addr.getD 0))

/-- The state after the record's data access, if it makes one. -/
def accessState (b : Behaviour) (s : State) : State :=
  match loadOf b.instr, storeOf b.instr with
  | some (n, _), _ => (dcRead (b.addr.getD 0).toNat n s).2
  | none, some n => dcWrite (b.addr.getD 0).toNat n (b.op2.getD 0) s
  | none, none => s

/-- The record with its loaded value, if it is a load. -/
def accessedRecord (b : Behaviour) (s : State) : Behaviour :=
  match loadOf b.instr with
  | some (n, ext) => { b with loaded := some (ext (dcRead (b.addr.getD 0).toNat n s).1) }
  | none => b

/-- The effect of write-back on registers and pc (R335). -/
def retired (b : Behaviour) (s : State) : State := redirect b (commitDest b s)

section Kinds

variable {b : Behaviour} {s : State}

theorem stages_of_load {n : Nat} {ext : Word → Word} (h : loadOf b.instr = some (n, ext)) :
    accessFault b s = accessCheck s.params (b.addr.getD 0) n ∧
      accessState b s = (dcRead (b.addr.getD 0).toNat n s).2 ∧
      accessedRecord b s = { b with loaded := some (ext (dcRead (b.addr.getD 0).toNat n s).1) } := by
  simp only [accessFault, accessState, accessedRecord, h]
  exact ⟨rfl, trivial, trivial⟩

theorem stages_of_store {n : Nat} (hl : loadOf b.instr = none) (h : storeOf b.instr = some n) :
    accessFault b s = accessCheck s.params (b.addr.getD 0) n ∧
      accessState b s = dcWrite (b.addr.getD 0).toNat n (b.op2.getD 0) s ∧ accessedRecord b s = b := by
  simp only [accessFault, accessState, accessedRecord, hl, h]
  exact ⟨rfl, trivial, trivial⟩

theorem stages_of_no_access (hl : loadOf b.instr = none) (h : storeOf b.instr = none) :
    accessFault b s = none ∧ accessState b s = s ∧ accessedRecord b s = b := by
  simp only [accessFault, accessState, accessedRecord, hl, h]
  exact ⟨rfl, trivial, trivial⟩

theorem memoryStep_of_fault {c : Fault} (hq : s.qMEM = some b) (h : accessFault b s = some c) :
    memoryStep s = raiseFatal c s := by
  obtain ⟨n, ext, hl, hm⟩ | ⟨n, hl, hst, hm⟩ | ⟨hl, hst, -⟩ := memoryStep_cases hq
  · obtain ⟨hf, -, -⟩ := stages_of_load (s := s) hl
    obtain ⟨c', hc', hm⟩ | ⟨hnone, -⟩ := hm
    · cases (hf.symm.trans h).symm.trans hc'
      exact hm
    · cases (hf.symm.trans h).symm.trans hnone
  · obtain ⟨hf, -, -⟩ := stages_of_store (s := s) hl hst
    obtain ⟨c', hc', hm⟩ | ⟨hnone, -⟩ := hm
    · cases (hf.symm.trans h).symm.trans hc'
      exact hm
    · cases (hf.symm.trans h).symm.trans hnone
  · cases (stages_of_no_access (s := s) hl hst).1.symm.trans h

/-- A memory step without a fatal access, the forwarding tables apart: the access is made, and all but a store move on. -/
theorem memoryStep_of_no_fault (hq : s.qMEM = some b) (h : accessFault b s = none) :
    ∃ X F, memoryStep s =
      { accessState b s with
        fwdX := X, fwdF := F, qMEM := none, qWB := if isStore b.instr then s.qWB else some (accessedRecord b s) } := by
  obtain ⟨n, ext, hl, hm⟩ | ⟨n, hl, hst, hm⟩ | ⟨hl, hst, hm⟩ := memoryStep_cases hq
  · obtain ⟨hf, hstate, hrec⟩ := stages_of_load (s := s) hl
    obtain ⟨-, hnostore⟩ := loadOf_dest (congrArg Option.isSome hl)
    obtain ⟨c, hc, -⟩ | ⟨-, hm⟩ := hm
    · cases (hf.symm.trans h).symm.trans hc
    · refine ⟨(memoryStep s).fwdX, (memoryStep s).fwdF, ?_⟩
      rw [hm, publishDest_frame, hstate, hrec, isStore, hnostore]
      rfl
  · obtain ⟨hf, hstate, -⟩ := stages_of_store (s := s) hl hst
    obtain ⟨c, hc, -⟩ | ⟨-, hm⟩ := hm
    · cases (hf.symm.trans h).symm.trans hc
    · obtain ⟨hout, -⟩ := dcWrite_frame (b.addr.getD 0).toNat n (b.op2.getD 0) s
      refine ⟨(accessState b s).fwdX, (accessState b s).fwdF, ?_⟩
      rw [hm, hstate, isStore, hst, ← hout.slots.2.2.2]
      rfl
  · obtain ⟨-, hstate, hrec⟩ := stages_of_no_access (s := s) hl hst
    refine ⟨s.fwdX, s.fwdF, ?_⟩
    rw [hm, hstate, hrec, isStore, hst]
    rfl

end Kinds

/-! ### `exec` by stages -/

section Retired

variable {b : Behaviour} (s : State)

theorem commitDest_of_dest {r : RegRef} {v : Word} (hd : destOf b.instr = some r) (hv : commitValue b = some v) :
    commitDest b s = commit r v s := by
  simp only [commitDest, hd, hv]

theorem commitDest_of_no_dest (hd : destOf b.instr = none) : commitDest b s = s := by
  simp only [commitDest, hd]

theorem redirect_of_no_target (ht : b.taken = none) : redirect b s = s := by
  simp only [redirect, ht]

theorem redirect_of_target {taken : Bool} {target : Word} (hi : isBranchOrJump b.instr = true) (ht : b.taken = some taken)
    (htarget : b.target = some target) : redirect b s = if taken then { s with pc := target } else s := by
  cases taken with
  | true => simp only [redirect, ht, htarget, hi, if_true]
  | false => simp only [redirect, ht, Bool.false_eq_true, if_false]

end Retired

/-- An instruction is its record's stages: its check, and its access and write-back. -/
theorem exec_eq_stages (i : Instr) (u : State) (n : Nat) :
    exec i u = .next
      (match accessFault (executeFill (u.recordOf i n)) u with
        | some c => raiseFatal c u
        | none =>
          retired (accessedRecord (executeFill (u.recordOf i n)) u) (accessState (executeFill (u.recordOf i n)) u)) := by
  obtain ⟨t, hexec, hcases⟩ := exec_cases i u
  rw [hexec]
  congr 1
  have hinstr : (executeFill (u.recordOf i n)).instr = i := executeFill_instr _
  have hfill := executeFill_recordOf u i n
  generalize executeFill (u.recordOf i n) = b at hinstr hfill
  have noAccess : isLoad i = false → isStore i = false →
      accessFault b u = none ∧ accessState b u = u ∧ accessedRecord b u = b := fun hl hs =>
    stages_of_no_access (by simpa [isLoad, hinstr] using hl) (by simpa [isStore, hinstr] using hs)
  cases hcases with
  | @result r v hd hout =>
    obtain ⟨-, hload, hstore, -⟩ := executeOut_result hout
    obtain ⟨hf, hstate, hrec⟩ := noAccess hload hstore
    rw [hf, hstate, hrec]
    rw [hout] at hfill
    subst hfill
    have hv : commitValue { u.recordOf i n with result := some v } = some v := if_neg (by rw [hinstr, hload]; nofun)
    exact ((redirect_of_no_target _ rfl).trans (commitDest_of_dest u hd hv)).symm
  | @branch taken target hout =>
    obtain ⟨hi, hd⟩ := isBranchOrJump_of_branch hout
    obtain ⟨hload, hstore⟩ := transfer_no_access hi
    obtain ⟨hf, hstate, hrec⟩ := noAccess hload hstore
    rw [hf, hstate, hrec]
    rw [hout] at hfill
    subst hfill
    dsimp only [retired]
    rw [commitDest_of_no_dest u hd]
    exact (redirect_of_target u hi rfl rfl).symm
  | @jump r link target hd hout =>
    obtain ⟨hi, -⟩ := isBranchOrJump_of_jump hout
    obtain ⟨hload, hstore⟩ := transfer_no_access hi
    obtain ⟨hf, hstate, hrec⟩ := noAccess hload hstore
    rw [hf, hstate, hrec]
    rw [hout] at hfill
    subst hfill
    have hv : commitValue { u.recordOf i n with result := some link, taken := some true, target := some target } = some link :=
      if_neg (by rw [hinstr, hload]; nofun)
    dsimp only [retired]
    rw [commitDest_of_dest u hd hv]
    exact (redirect_of_target (b := { u.recordOf i n with result := some link, taken := some true, target := some target })
      _ hi rfl rfl).symm
  | @fatal a k c hout hacc hc =>
    rw [hout] at hfill
    subst hfill
    have hf : accessFault { u.recordOf i n with addr := some a } u = some c := by
      rw [State.executed] at hout
      rw [dataAccess_eq, hout] at hacc
      obtain ⟨k', hk, hkk⟩ := Option.map_eq_some_iff.1 hacc
      cases hkk
      rw [Option.orElse_eq_or] at hk
      rw [accessFault]
      exact (congrArg (Option.bind · _) hk).trans hc
    rw [hf]
  | @load r a k ext hd hload hout hacc hc =>
    rw [hout] at hfill
    subst hfill
    obtain ⟨hf, hstate, hrec⟩ := stages_of_load (b := { u.recordOf i n with addr := some a }) (s := u) hload
    rw [hf.trans hc, hstate, hrec]
    have hv : commitValue { u.recordOf i n with addr := some a, loaded := some (ext (dcRead a.toNat k u).1) } =
        some (ext (dcRead a.toNat k u).1) := if_pos (by rw [isLoad]; exact congrArg Option.isSome hload)
    exact ((redirect_of_no_target _ rfl).trans (commitDest_of_dest _ hd hv)).symm
  | @store a k hstore hout hacc hc =>
    rw [hout] at hfill
    subst hfill
    obtain ⟨hd, hload⟩ := storeOf_dest (congrArg Option.isSome hstore)
    obtain ⟨hf, hstate, hrec⟩ := stages_of_store (b := { u.recordOf i n with addr := some a }) (s := u) hload hstore
    rw [hf.trans hc, hstate, hrec]
    exact ((redirect_of_no_target _ rfl).trans (commitDest_of_no_dest _ hd)).symm

/-! ### Write-back on states that agree in registers and pc -/

theorem commitDest_frame (b : Behaviour) (s : State) :
    commitDest b s = { s with x := (commitDest b s).x, f := (commitDest b s).f } := by
  unfold commitDest
  split
  · next r v _ _ =>
    obtain ⟨_ | _, idx⟩ := r
    · simp only [commit, State.writeX]
      split <;> rfl
    · rfl
  · rfl

theorem redirect_frame (b : Behaviour) (s : State) : redirect b s = { s with pc := (redirect b s).pc } := by
  obtain h | ⟨-, t, -, h⟩ := redirect_cases b s <;> rw [h]

theorem retired_frame (b : Behaviour) (s : State) :
    retired b s = { s with x := (retired b s).x, f := (retired b s).f, pc := (retired b s).pc } := by
  have hc := commitDest_frame b s
  have hr := redirect_frame b (commitDest b s)
  rw [retired]
  rw [hr, hc]

theorem commitDest_congr (b : Behaviour) {s u : State} (hx : s.x = u.x) (hf : s.f = u.f) :
    (commitDest b s).x = (commitDest b u).x ∧ (commitDest b s).f = (commitDest b u).f := by
  unfold commitDest
  split
  · next r v _ _ =>
    obtain ⟨_ | _, idx⟩ := r
    · simp only [commit, State.writeX]
      split
      · exact ⟨hx, hf⟩
      · exact ⟨by rw [hx], hf⟩
    · exact ⟨hx, congrArg (Vector.set · idx.toNat v idx.isLt) hf⟩
  · exact ⟨hx, hf⟩

theorem redirect_congr (b : Behaviour) {s u : State} (hpc : s.pc = u.pc) : (redirect b s).pc = (redirect b u).pc := by
  unfold redirect
  split
  · split
    · rfl
    · exact hpc
  · exact hpc

theorem retired_banks_congr (b : Behaviour) {s u : State} (hx : s.x = u.x) (hf : s.f = u.f) :
    (retired b s).x = (retired b u).x ∧ (retired b s).f = (retired b u).f := by
  rw [retired, retired, redirect_frame b (commitDest b s), redirect_frame b (commitDest b u)]
  exact commitDest_congr b hx hf

theorem retired_pc_congr (b : Behaviour) {s u : State} (hpc : s.pc = u.pc) : (retired b s).pc = (retired b u).pc :=
  redirect_congr b (by rw [commitDest_pc, commitDest_pc, hpc])

theorem writeBackStep_eq_retired {s : State} {b : Behaviour} (h : s.qWB = some b) :
    writeBackStep s = { retired b s with qWB := none } := writeBackStep_some h

/-! ### A control transfer in an empty pipeline (R330 to R335, R342) -/

/-- A source with no value in flight reads as the committed register, from the tables or from the bank. -/
theorem State.EngineInv.fetchSource_of_not_inFlight {s : State} (hs : s.EngineInv) {r : RegRef}
    (h : s.inFlight r = none) : fetchSource s r = s.committed r := by
  by_cases hr : r = xr 0
  · rw [hr]
    rfl
  · cases hf : s.forwarded r with
    | some e => exact (fetchSource_of_forwarded hr hf).trans ((hs.coherent r hr).2 h e hf)
    | none =>
      obtain ⟨_ | _, idx⟩ := r
      · have hne : idx ≠ 0 := fun he => hr (congrArg xr he)
        have hf : s.fwdX[idx.toNat]'idx.isLt = none := hf
        simp only [fetchSource, if_neg hne, hf, State.committed]
      · have hf : s.fwdF[idx.toNat]'idx.isLt = none := hf
        simp only [fetchSource, hf, State.committed]

/-- A tick that decodes nothing and fetches nothing is over when execute is. -/
theorem tick_of_no_fetch {s : State} (h : s.afterMemory.run = .running) (hq : s.qRF = none)
    (hdue : fetchDue s.afterExecute = false) : tick s = s.afterExecute := by
  rw [tick_of_memory_runs h, decodeStep_empty ((qRF_afterExecute s).trans hq), whileRunning_of_eq (run_afterExecute h),
    fetchStep_not_due hdue]

/-- With nothing in write-back and memory, a tick begins at execute. -/
theorem afterMemory_of_empty {s : State} (hmem : s.qMEM = none) (hwb : s.qWB = none) : s.afterMemory = s := by
  rw [State.afterMemory, writeBackStep_empty hwb, memoryStep_empty hmem]

theorem fetchDue_of_transfer {s : State} (h : holdsTransfer s.qEX = true ∨ holdsTransfer s.qMEM = true ∨
    holdsTransfer s.qWB = true) : fetchDue s = false := by
  rw [← Bool.not_eq_true, fetchDue_eq_true]
  rintro ⟨-, hex, hmem, hwb⟩
  simp [hex, hmem, hwb] at h

section Alone

variable {s : State} {i : Instr}

/-- An empty pipeline fetches. -/
theorem tick_of_empty (hf : s.Fetches) (hrf : s.qRF = none) (hex : s.qEX = none) (hmem : s.qMEM = none) (hwb : s.qWB = none) :
    tick s = { (fetchWord s).2 with qRF := some (fetchWord s).1 } := by
  have ⟨hrun, hg, _, _⟩ := hf
  have hquiet := afterMemory_of_empty hmem hwb
  have hexec : s.afterExecute = s := by rw [State.afterExecute, hquiet, executeStep_empty hex]
  have hdue : fetchDue s = true := fetchDue_eq_true.2 ⟨hrf, by rw [hex]; rfl, by rw [hmem]; rfl, by rw [hwb]; rfl⟩
  rw [tick_of_memory_runs (by rw [hquiet, hrun]), hexec, decodeStep_empty hrf, whileRunning_of_eq hrun]
  obtain ⟨hg', -⟩ | ⟨-, ⟨c, hc, -⟩ | ⟨c, hc, -⟩ | ⟨-, h⟩⟩ := fetchStep_cases hdue
  · omega
  · cases hf.check.symm.trans hc
  · cases hf.check.symm.trans hc
  · exact h

/-- A control transfer alone in `q_RF` is issued, and nothing is fetched. -/
theorem tick_of_transfer_in_qRF {w : Word} (hi : isBranchOrJump i = true) (hrun : s.run = .running) (hrf : s.qRF = some w)
    (hd : decodeWord w = .instr i) (hex : s.qEX = none) (hmem : s.qMEM = none) (hwb : s.qWB = none) :
    tick s = { s with qRF := none, qEX := some (fetchedRecord i s), icount := s.icount + 1 } := by
  have hquiet := afterMemory_of_empty hmem hwb
  have hexec : s.afterExecute = s := by rw [State.afterExecute, hquiet, executeStep_empty hex]
  have hissued : (registerFetch i s).run = .running := hrun
  rw [tick_of_memory_runs (by rw [hquiet, hrun]), hexec, decodeStep_of_instr hrf hd (interlocked_of_qMEM_none hmem),
    whileRunning_of_eq hissued]
  exact fetchStep_not_due (fetchDue_of_transfer (.inl hi))

/-- A control transfer alone in `q_EX` moves on. -/
theorem tick_of_transfer_in_qEX {b : Behaviour} (hi : isBranchOrJump b.instr = true) (hrun : s.run = .running)
    (hrf : s.qRF = none) (hex : s.qEX = some b) (hmem : s.qMEM = none) (hwb : s.qWB = none) :
    ∃ X F, tick s = { s with fwdX := X, fwdF := F, qEX := none, qMEM := some (executeFill b) } := by
  have hquiet := afterMemory_of_empty hmem hwb
  have hexec : s.afterExecute = executeStep s := by rw [State.afterExecute, hquiet]
  have hstep := executeStep_some hex
  refine ⟨(executeStep s).fwdX, (executeStep s).fwdF, ?_⟩
  rw [tick_of_no_fetch (by rw [hquiet, hrun]) hrf, hexec]
  · exact hstep
  · rw [hexec, hstep]
    exact fetchDue_of_transfer (.inr (.inl (by simpa [holdsTransfer] using hi)))

/-- A control transfer alone in `q_MEM` moves on. -/
theorem tick_of_transfer_in_qMEM {b : Behaviour} (hi : isBranchOrJump b.instr = true) (hrun : s.run = .running)
    (hrf : s.qRF = none) (hex : s.qEX = none) (hmem : s.qMEM = some b) (hwb : s.qWB = none) :
    tick s = { s with qMEM := none, qWB := some b } := by
  obtain ⟨hload, hstore⟩ := transfer_no_access hi
  have hmoved : s.afterMemory = { s with qMEM := none, qWB := some b } := by
    rw [State.afterMemory, writeBackStep_empty hwb]
    obtain ⟨n, ext, hl, -⟩ | ⟨n, -, hst, -⟩ | ⟨-, -, h⟩ := memoryStep_cases hmem
    · rw [isLoad, hl] at hload
      cases hload
    · rw [isStore, hst] at hstore
      cases hstore
    · exact h
  have hexec : s.afterExecute = { s with qMEM := none, qWB := some b } := by
    rw [State.afterExecute, hmoved]
    exact executeStep_empty hex
  rw [tick_of_no_fetch (by rw [hmoved]; exact hrun) hrf, hexec]
  rw [hexec]
  exact fetchDue_of_transfer (.inr (.inr hi))

end Alone

/-- The four ticks of a control transfer from an empty pipeline: fetched, issued with the committed operands, executed, and
in write-back. -/
theorem ticks_of_transfer {s : State} {i : Instr} (hs : s.EngineInv) (hrf : s.qRF = none) (hex : s.qEX = none)
    (hmem : s.qMEM = none) (hwb : s.qWB = none) (hf : s.Fetches) (hd : decodeWord (fetchWord s).1 = .instr i)
    (hi : isBranchOrJump i = true) :
    ticks 1 s = { (fetchWord s).2 with qRF := some (fetchWord s).1 } ∧
      ticks 2 s = { s.issued with qEX := some (s.issued.recordOf i s.icount) } ∧
      ∃ X F,
        ticks 3 s = { s.issued with fwdX := X, fwdF := F, qMEM := some (executeFill (s.issued.recordOf i s.icount)) } ∧
        ticks 4 s = { s.issued with fwdX := X, fwdF := F, qWB := some (executeFill (s.issued.recordOf i s.icount)) } := by
  have hu := s.issued_eq
  have hrun : s.issued.run = .running := by rw [hu]; exact hf.1
  have hrf' : s.issued.qRF = none := by rw [hu]; exact hrf
  have hex' : s.issued.qEX = none := by rw [hu]; exact hex
  have hmem' : s.issued.qMEM = none := by rw [hu]; exact hmem
  have hwb' : s.issued.qWB = none := by rw [hu]; exact hwb
  have h1 : ticks 1 s = { (fetchWord s).2 with qRF := some (fetchWord s).1 } := tick_of_empty hf hrf hex hmem hwb
  have hinv : State.EngineInv { (fetchWord s).2 with qRF := some (fetchWord s).1 } := h1 ▸ tickKeepsEngineInv s hs
  have hrecord : fetchedRecord i { (fetchWord s).2 with qRF := some (fetchWord s).1 } = s.issued.recordOf i s.icount := by
    have hsrc : ∀ r, fetchSource { (fetchWord s).2 with qRF := some (fetchWord s).1 } r = s.issued.committed r := fun r =>
      hinv.fetchSource_of_not_inFlight ((inFlight_of_qMEM_none hmem' r).trans (congrArg (uncommitted · r) hwb'))
    have hicount : (fetchWord s).2.icount = s.icount := by rw [fetchWord_frame]
    exact hicount ▸ fetchedRecord_eq_recordOf (fun r _ => hsrc r) rfl
  have h2 : ticks 2 s = { s.issued with qEX := some (s.issued.recordOf i s.icount) } := by
    rw [ticks_add 1 1, h1, ← hrecord]
    refine (tick_of_transfer_in_qRF (s := { (fetchWord s).2 with qRF := some (fetchWord s).1 }) hi hrun rfl hd hex' hmem'
      hwb').trans ?_
    rw [State.issued] at hrf'
    rw [← hrf']
    rfl
  have hi' : isBranchOrJump (executeFill (s.issued.recordOf i s.icount)).instr = true := by rwa [executeFill_instr]
  obtain ⟨X, F, h3⟩ := tick_of_transfer_in_qEX (s := { s.issued with qEX := some (s.issued.recordOf i s.icount) }) hi hrun
    hrf' rfl hmem' hwb'
  have h3 : ticks 3 s =
      { s.issued with fwdX := X, fwdF := F, qMEM := some (executeFill (s.issued.recordOf i s.icount)) } := by
    rw [ticks_add 2 1, h2]
    refine h3.trans ?_
    rw [← hex']
  refine ⟨h1, h2, X, F, h3, ?_⟩
  rw [ticks_add 3 1, h3]
  refine (tick_of_transfer_in_qMEM
    (s := { s.issued with fwdX := X, fwdF := F, qMEM := some (executeFill (s.issued.recordOf i s.icount)) }) hi' hrun hrf'
    hex' rfl hwb').trans ?_
  rw [← hmem']

/-- Settles O52: the record's write-back is the reference's step. -/
theorem controlTransferMatchesTheReference : Obligations.ControlTransferMatchesTheReference := by
  intro s t i hs hrf hex hmem hwb hfetches hi hstep
  have ⟨hf, hdec⟩ := hfetches
  have ⟨_, _, ha, _⟩ := hf
  obtain ⟨h1, h2, X, F, h3, h4⟩ :=
    ticks_of_transfer hs hrf hex hmem hwb hf (decodeWord_of_decodeBytes hs.base.params ha hdec) hi
  have hu := s.issued_eq
  refine ⟨fun k hk1 hk4 => ?_, ?_⟩
  · obtain rfl | rfl | rfl | rfl : k = 1 ∨ k = 2 ∨ k = 3 ∨ k = 4 := by omega
    · rw [h1, fetchWord_frame]
      exact ⟨rfl, rfl⟩
    · rw [h2, hu]
      exact ⟨rfl, rfl⟩
    · rw [h3, hu]
      exact ⟨rfl, rfl⟩
    · rw [h4, hu]
      exact ⟨rfl, rfl⟩
  · obtain ⟨hload, hstore⟩ := transfer_no_access hi
    obtain ⟨hfault, hstate, hrec⟩ := stages_of_no_access (b := executeFill (s.issued.recordOf i s.icount)) (s := s.issued)
      (by simpa [isLoad, State.recordOf] using hload) (by simpa [isStore, State.recordOf] using hstore)
    have hexec := exec_eq_stages i s.issued s.icount
    rw [← hfetches.step_eq hs.base.params, hstep, hfault, hstate, hrec] at hexec
    cases hexec
    rw [h4, writeBackStep_eq_retired rfl]
    generalize executeFill (s.issued.recordOf i s.icount) = b
    have hfwd : s.issued.fwdX = s.fwdX ∧ s.issued.fwdF = s.fwdF ∧ s.issued.qWB = none := by
      rw [hu]
      exact ⟨rfl, rfl, hwb⟩
    obtain ⟨hx, hf⟩ := retired_banks_congr b (s := { s.issued with fwdX := X, fwdF := F, qWB := some b }) (u := s.issued) rfl rfl
    have hpc := retired_pc_congr b (s := { s.issued with fwdX := X, fwdF := F, qWB := some b }) (u := s.issued) rfl
    rw [retired_frame b s.issued, retired_frame b { s.issued with fwdX := X, fwdF := F, qWB := some b }, hx, hf, hpc,
      ← hfwd.1, ← hfwd.2.1, ← hfwd.2.2]

end Sys2Proof.Machine

/-! Runs of the reference (50_pipeline.md R360), step by step: the steps that execute an instruction, what they give by the
stages of its record, and how a run ends. -/

namespace Sys2Proof.Machine

/-! ### Steps that execute -/

/-- A step from `r` fetches and executes `i`. -/
structure Issues (r : State) (i : Instr) : Prop where
  fetches : r.Fetches
  decodes : decodeWord (fetchWord r).1 = .instr i

/-- The record of the instruction a step executes, as execute leaves it. -/
def State.stageRecord (r : State) (i : Instr) (n : Nat) : Behaviour := executeFill (r.issued.recordOf i n)

@[simp] theorem stageRecord_instr (r : State) (i : Instr) (n : Nat) : (r.stageRecord i n).instr = i := executeFill_instr _

@[simp] theorem stageRecord_seq (r : State) (i : Instr) (n : Nat) : (r.stageRecord i n).seq = n := executeFill_seq _

section Issued

variable {r t : State} {i : Instr}

theorem Issues.step_eq (h : Issues r i) : step r = exec i r.issued :=
  have ⟨hrun, hg, _⟩ := h.fetches
  step_of_instr hrun hg h.fetches.check h.decodes

theorem Issues.step_of_fault (h : Issues r i) (n : Nat) {c : Fault} (hc : accessFault (r.stageRecord i n) r.issued = some c) :
    step r = .next (raiseFatal c r.issued) := by
  rw [h.step_eq, exec_eq_stages i r.issued n]
  rw [State.stageRecord] at hc
  rw [hc]

theorem Issues.step_of_no_fault (h : Issues r i) (n : Nat) (hc : accessFault (r.stageRecord i n) r.issued = none) :
    step r = .next
      (retired (accessedRecord (r.stageRecord i n) r.issued) (accessState (r.stageRecord i n) r.issued)) := by
  rw [h.step_eq, exec_eq_stages i r.issued n]
  rw [State.stageRecord] at hc ⊢
  rw [hc]

/-- A step that leaves the machine running executes an instruction. -/
theorem issues_of_running (hr : r.run = .running) (h : step r = .next t) (ht : t.run = .running) : ∃ i, Issues r i := by
  obtain ⟨-, hs⟩ | ⟨hg, ⟨c, -, hs⟩ | ⟨hc, ⟨e, -, hs⟩ | ⟨i, hd, -⟩⟩⟩ := step_cases hr
  · cases h.symm.trans hs
    cases ht
  · cases h.symm.trans hs
    cases ht
  · cases h.symm.trans hs
    cases ht
  · exact ⟨i, ⟨hr, hg, fetchCheck_eq_none.1 hc⟩, hd⟩

theorem banks_issued (r : State) : r.issued.x = r.x ∧ r.issued.f = r.f ∧ r.issued.pc = r.pc + 4 := by
  rw [State.issued_eq]
  exact ⟨rfl, rfl, rfl⟩

theorem run_issued (r : State) : r.issued.run = r.run := by
  rw [State.issued_eq]

theorem committed_congr {s t : State} (hx : t.x = s.x) (hf : t.f = s.f) (q : RegRef) : t.committed q = s.committed q := by
  obtain ⟨_ | _, idx⟩ := q
  · simp only [State.committed, State.readX, hx]
  · simp only [State.committed, State.readF, hf]

/-- What fetches work on, the pc and memory apart. -/
structure SameFetchSide (s t : State) : Prop where
  params   : t.params = s.params
  ic       : t.ic = s.ic
  accesses : t.icAccesses = s.icAccesses
  hits     : t.icHits = s.icHits
  guard    : t.lgAddr = s.lgAddr ∧ t.lgCount = s.lgCount

theorem SameOutsideData.sameFetchSide {s t : State} {run : RunState} (h : SameOutsideData { s with run := run } t) :
    SameFetchSide s t :=
  ⟨h.params, h.ic, h.icCounters.1, h.icCounters.2, h.guard⟩

/-- After its fetch, a step leaves the fetch side alone. -/
theorem sameFetchSide_step (hf : r.Fetches) (h : step r = .next t) : SameFetchSide (fetchWord r).2 t := by
  have ⟨hrun, hg, _⟩ := hf
  cases hd : decodeWord (fetchWord r).1 with
  | rejected e =>
    cases h.symm.trans (step_of_rejected hrun hg hf.check hd)
    exact ⟨rfl, rfl, rfl, rfl, rfl, rfl⟩
  | instr i =>
    have hexec := h.symm.trans (step_of_instr hrun hg hf.check hd)
    have hout := (executes_of_exec hexec.symm).sameOutsideData.1.sameFetchSide
    exact ⟨hout.params, hout.ic, hout.accesses, hout.hits, hout.guard⟩

theorem Issues.icount_step (hi : Issues r i) (h : step r = .next t) : t.icount = r.icount + 1 := by
  rw [hi.step_eq] at h
  have hout := (executes_of_exec h).sameOutsideData.1
  rw [hout.icount, State.issued_eq]

/-- An instruction runs on or makes a fatal data access. -/
theorem Issues.run_step (hi : Issues r i) (h : step r = .next t) : t.run = .running ∨ t.run.IsDataFault := by
  rw [hi.step_eq] at h
  obtain hrun | ⟨a, n, c, -, hc, rfl⟩ := (executes_of_exec h).sameOutsideData.2
  · exact .inl ((hrun.trans (run_issued r)).trans hi.fetches.1)
  · obtain ⟨-, rfl⟩ | ⟨-, -, rfl⟩ := accessCheck_eq_some hc
    · exact .inr ⟨a, .inl rfl⟩
    · exact .inr ⟨a, .inr rfl⟩

/-- An instruction that is no transfer goes on to the next address. -/
theorem Issues.pc_step (hi : Issues r i) (h : step r = .next t) (hno : isBranchOrJump i = false) : t.pc = r.pc + 4 := by
  rw [hi.step_eq] at h
  rw [(executes_of_exec h).pc hno, State.issued_eq]

theorem lgAddr_step (hf : r.Fetches) (h : step r = .next t) : t.lgAddr = some r.pc := by
  rw [(sameFetchSide_step hf h).guard.1, fetchWord_frame]

theorem icAccesses_step (hf : r.Fetches) (h : step r = .next t) : t.icAccesses = r.icAccesses + 1 := by
  rw [(sameFetchSide_step hf h).accesses, fetchWord_frame]

/-- A fatal data access is of an instruction that is no transfer. -/
theorem isDataFault_step (hr : r.run = .running) (h : step r = .next t) (ht : t.run.IsDataFault) :
    ∃ i, Issues r i ∧ isBranchOrJump i = false := by
  obtain ⟨a, ht⟩ := ht
  obtain ⟨-, hs⟩ | ⟨hg, ⟨c, hc, hs⟩ | ⟨hc, ⟨e, -, hs⟩ | ⟨i, hd, hs⟩⟩⟩ := step_cases hr
  · cases h.symm.trans hs
    obtain ht | ht := ht <;> cases ht
  · cases h.symm.trans hs
    unfold fetchCheck at hc
    split at hc
    · cases hc
      obtain ht | ht := ht <;> cases ht
    · split at hc
      · cases hc
        obtain ht | ht := ht <;> cases ht
      · cases hc
  · cases h.symm.trans hs
    cases e <;> obtain ht | ht := ht <;> cases ht
  · have hi : Issues r i := ⟨⟨hr, hg, fetchCheck_eq_none.1 hc⟩, hd⟩
    refine ⟨i, hi, Bool.eq_false_iff.2 fun htransfer => ?_⟩
    have hrun := (((executes_of_exec (hs.symm.trans h)).run_of_transfer htransfer).trans (run_issued r)).trans hr
    obtain ht | ht := ht <;> cases ht.symm.trans hrun

end Issued

/-! ### Runs -/

section Runs

variable {s : State}

/-- A step never refuses, and faults only when the run has ended. -/
theorem exists_step_of_running {r : State} (hr : r.run = .running) : ∃ t, step r = .next t := by
  obtain h | ⟨c, hc, -⟩ := nothingIsRefused.2 r
  · exact h
  · cases hr.symm.trans hc

theorem seqRun_succ_of_step {n : Nat} {t : State} (h : step (seqRun n s) = .next t) : seqRun (n + 1) s = t := by
  rw [seqRun_add, seqRun_succ_next h, seqRun_zero]

theorem step_seqRun {n : Nat} (hr : (seqRun n s).run = .running) : step (seqRun n s) = .next (seqRun (n + 1) s) := by
  obtain ⟨t, h⟩ := exists_step_of_running hr
  rw [h, seqRun_succ_of_step h]

theorem seqRun_of_ended {t : State} (h : t.run ≠ .running) (n : Nat) : seqRun n t = t := by
  induction n with
  | zero => rfl
  | succ n ih =>
    cases hr : t.run with
    | running => exact absurd hr h
    | halted => rw [seqRun_succ_next (step_of_halted hr), ih]
    | fatal c => exact seqRun_stopped _ fun u hu => by rw [step_of_fatal hr] at hu; cases hu

theorem seqRun_eq_of_ended {m n : Nat} (h : (seqRun m s).run ≠ .running) (hmn : m ≤ n) : seqRun n s = seqRun m s := by
  obtain ⟨k, rfl⟩ := Nat.exists_eq_add_of_le hmn
  rw [seqRun_add, seqRun_of_ended h]

theorem running_of_le {m n : Nat} (h : (seqRun n s).run = .running) (hmn : m ≤ n) : (seqRun m s).run = .running := by
  by_contra hm
  rw [seqRun_eq_of_ended hm hmn] at h
  exact hm h

/-- A run that has ended ended in a step. -/
theorem exists_last_step {n : Nat} (hr : s.run = .running) (h : (seqRun n s).run ≠ .running) :
    ∃ k < n, (seqRun k s).run = .running ∧ step (seqRun k s) = .next (seqRun n s) := by
  induction n with
  | zero => exact absurd hr h
  | succ n ih =>
    by_cases hn : (seqRun n s).run = .running
    · exact ⟨n, by omega, hn, step_seqRun hn⟩
    · obtain ⟨k, hk, hrun, hstep⟩ := ih hn
      rw [seqRun_eq_of_ended hn n.le_succ]
      exact ⟨k, by omega, hrun, hstep⟩

/-- While the run goes on every step has executed an instruction. -/
theorem issues_of_running_succ {n : Nat} (h : (seqRun (n + 1) s).run = .running) : ∃ i, Issues (seqRun n s) i :=
  have hr := running_of_le h n.le_succ
  issues_of_running hr (step_seqRun hr) h

theorem counts_of_running {n : Nat} (h : (seqRun n s).run = .running) :
    (seqRun n s).icount = s.icount + n ∧ (seqRun n s).icAccesses = s.icAccesses + n := by
  induction n with
  | zero => exact ⟨rfl, rfl⟩
  | succ n ih =>
    have hr := running_of_le h n.le_succ
    obtain ⟨i, hi⟩ := issues_of_running_succ h
    obtain ⟨hc, ha⟩ := ih hr
    rw [hi.icount_step (step_seqRun hr), icAccesses_step hi.fetches (step_seqRun hr), hc, ha]
    exact ⟨rfl, rfl⟩

theorem params_seqRun (n : Nat) : (seqRun n s).params = s.params := by
  induction n with
  | zero => rfl
  | succ n ih =>
    by_cases hr : (seqRun n s).run = .running
    · have hstep := step_seqRun hr
      by_cases hf : (seqRun n s).Fetches
      · rw [(sameFetchSide_step hf hstep).params, fetchWord_frame, ih]
      · obtain ⟨-, hs⟩ | ⟨hg, ⟨c, -, hs⟩ | ⟨hc, -⟩⟩ := step_cases hr
        · rw [Host.Outcome.next.inj (hstep.symm.trans hs)]
          exact ih
        · rw [Host.Outcome.next.inj (hstep.symm.trans hs)]
          exact ih
        · exact absurd ⟨hr, hg, fetchCheck_eq_none.1 hc⟩ hf
    · rw [seqRun_eq_of_ended hr n.le_succ, ih]

theorem inv_seqRun (hs : s.Inv) (n : Nat) : (seqRun n s).Inv := by
  induction n with
  | zero => exact hs
  | succ n ih =>
    by_cases hr : (seqRun n s).run = .running
    · exact stepKeepsInv _ _ ih (step_seqRun hr)
    · rw [seqRun_eq_of_ended hr n.le_succ]
      exact ih

/-- A run that a data access has ended: its last step's instruction is no transfer. -/
theorem exists_data_fault_step {n : Nat} (hr : s.run = .running) (h : (seqRun n s).run.IsDataFault) :
    ∃ k < n, ∃ i, Issues (seqRun k s) i ∧ isBranchOrJump i = false ∧ step (seqRun k s) = .next (seqRun n s) := by
  have hended : (seqRun n s).run ≠ .running := fun hrun => by
    obtain ⟨a, h | h⟩ := h <;> cases hrun.symm.trans h
  obtain ⟨k, hk, hrun, hstep⟩ := exists_last_step hr hended
  obtain ⟨i, hi, hno⟩ := isDataFault_step hrun hstep h
  exact ⟨k, hk, i, hi, hno, hstep⟩

end Runs

/-! ### Events of a step -/

/-- The `DCacheAccess` call of a record's memory stage, if its check passes. -/
def accessEvent (b : Behaviour) (s : State) : List Access :=
  match loadOf b.instr, storeOf b.instr with
  | some (n, _), _ => if accessCheck s.params (b.addr.getD 0) n = none then [.load (b.addr.getD 0) n] else []
  | none, some n =>
    if accessCheck s.params (b.addr.getD 0) n = none then [.store (b.addr.getD 0) n (storedBits n (b.op2.getD 0))] else []
  | none, none => []

theorem accessEvent_of_fault {b : Behaviour} {s : State} {c : Fault} (h : accessFault b s = some c) : accessEvent b s = [] := by
  cases hl : loadOf b.instr with
  | some p =>
    obtain ⟨n, ext⟩ := p
    have hc := (stages_of_load (s := s) hl).1.symm.trans h
    simp only [accessEvent, hl, hc]
    exact if_neg nofun
  | none =>
    cases hst : storeOf b.instr with
    | some n =>
      have hc := (stages_of_store (s := s) hl hst).1.symm.trans h
      simp only [accessEvent, hl, hst, hc]
      exact if_neg nofun
    | none => cases (stages_of_no_access (s := s) hl hst).1.symm.trans h

/-- The register write a retiring record makes. -/
def commitEvents (b : Behaviour) : List (RegRef × Word) :=
  match destOf b.instr, commitValue b with
  | some r, some v => commitEvent r v
  | _, _ => []

/-! ### What the stages leave alone -/

theorem accessState_frame (b : Behaviour) (s : State) :
    SameOutsideData s (accessState b s) ∧ (accessState b s).x = s.x ∧ (accessState b s).f = s.f ∧
      (accessState b s).pc = s.pc := by
  unfold accessState
  split
  · obtain ⟨hout, -, hx, hf, hpc, -⟩ := dcRead_frame (b.addr.getD 0).toNat ‹_› s
    exact ⟨hout, hx, hf, hpc⟩
  · obtain ⟨hout, -, hx, hf, hpc, -⟩ := dcWrite_frame (b.addr.getD 0).toNat ‹_› (b.op2.getD 0) s
    exact ⟨hout, hx, hf, hpc⟩
  · exact ⟨SameOutsideData.refl s, rfl, rfl, rfl⟩

@[simp] theorem accessedRecord_instr (b : Behaviour) (s : State) : (accessedRecord b s).instr = b.instr := by
  unfold accessedRecord
  split <;> rfl

@[simp] theorem accessedRecord_seq (b : Behaviour) (s : State) : (accessedRecord b s).seq = b.seq := by
  unfold accessedRecord
  split <;> rfl

/-- Write-back commits a record's value to its destination. -/
theorem committed_retired (b : Behaviour) (s : State) {q : RegRef} (hq : q ≠ xr 0) :
    (retired b s).committed q = ((uncommitted (some b) q).map FwdEntry.value).getD (s.committed q) := by
  rw [retired, redirect_frame, ← committed_commitDest b s hq]
  rfl

/-- A record with a destination has a value to commit after the memory stage. -/
theorem exists_commitValue (r : State) {i : Instr} (n : Nat) (hd : (destOf i).isSome = true) :
    ∃ v, commitValue (accessedRecord (r.stageRecord i n) r.issued) = some v := by
  cases hload : loadOf i with
  | some p =>
    obtain ⟨k, ext⟩ := p
    obtain ⟨-, -, hrec⟩ := stages_of_load (b := r.stageRecord i n) (s := r.issued) (by rw [stageRecord_instr]; exact hload)
    rw [hrec]
    exact ⟨_, if_pos (by simp [isLoad, hload])⟩
  | none =>
    have hl : isLoad i = false := by rw [isLoad, hload]; rfl
    have hrec : accessedRecord (r.stageRecord i n) r.issued = r.stageRecord i n := by
      simp only [accessedRecord, stageRecord_instr, hload]
    obtain ⟨v, hv⟩ := result_isSome_executeFill (b := r.issued.recordOf i n) hl hd
    exact ⟨v, by rw [hrec, commitValue, stageRecord_instr, hl]; exact hv⟩

theorem run_retired_accessState {r : State} {i : Instr} (b : Behaviour) (h : Issues r i) :
    (retired (accessedRecord b r.issued) (accessState b r.issued)).run = .running := by
  rw [retired_frame]
  exact ((accessState_frame b r.issued).1.run.trans (run_issued r)).trans h.fetches.1

theorem committed_accessState_issued (b : Behaviour) (r : State) (q : RegRef) :
    (accessState b r.issued).committed q = r.committed q := by
  obtain ⟨-, hx, hf, -⟩ := accessState_frame b r.issued
  obtain ⟨hix, hif, -⟩ := banks_issued r
  exact committed_congr (hx.trans hix) (hf.trans hif) q

section Events

variable {r : State} {i : Instr}

theorem seqFetched_of_fetches (h : r.Fetches) : seqFetched r = some (fetchWord r) := by
  have ⟨hrun, hg, _⟩ := h
  exact if_pos ⟨hrun, hg, h.check⟩

theorem seqFetched_of_not_fetches (h : ¬ r.Fetches) : seqFetched r = none :=
  if_neg fun ⟨hrun, hg, hc⟩ => h ⟨hrun, hg, fetchCheck_eq_none.1 hc⟩

theorem Issues.seqIssued_eq (h : Issues r i) : seqIssued r = some (i, (fetchWord r).2) := by
  rw [seqIssued, seqFetched_of_fetches h.fetches, Option.bind_some, h.decodes]

theorem seqIssued_of_not_issues (h : ∀ i, ¬ Issues r i) : seqIssued r = none := by
  by_cases hf : r.Fetches
  · rw [seqIssued, seqFetched_of_fetches hf, Option.bind_some]
    cases hd : decodeWord (fetchWord r).1 with
    | rejected e => rfl
    | instr i => exact absurd ⟨hf, hd⟩ (h i)
  · rw [seqIssued, seqFetched_of_not_fetches hf, Option.bind_none]

/-- A step that executes nothing gives no events but its fetch. -/
theorem seqEvents_of_not_issues (h : ∀ i, ¬ Issues r i) : seqAccesses r = [] ∧ seqCommits r = [] ∧ seqRetired r = [] := by
  simp only [seqAccesses, seqCommits, seqRetired, seqIssued_of_not_issues h]
  exact ⟨trivial, trivial, trivial⟩

/-- An issued instruction and its record make the same access. -/
theorem Issues.seqAccesses_eq (h : Issues r i) (n : Nat) : seqAccesses r = accessEvent (r.stageRecord i n) r.issued := by
  have hdata : dataAccess i (fetchWord r).2 = dataAccess i r.issued := by cases i <;> rfl
  have hfill : r.stageRecord i n = _ := executeFill_recordOf r.issued i n
  have hevent : seqAccesses r =
      match dataAccess i r.issued, (sourcesOf i).2 with
      | none, _ => []
      | some (a, n), none => if accessCheck r.issued.params a n = none then [.load a n] else []
      | some (a, n), some q =>
        if accessCheck r.issued.params a n = none then [.store a n (storedBits n (r.issued.committed q))] else [] := by
    rw [seqAccesses, h.seqIssued_eq]
    dsimp only
    rw [hdata]
    rfl
  have noAccess : isLoad i = false → isStore i = false → accessEvent (r.stageRecord i n) r.issued = [] := fun hl hs => by
    have hl' : loadOf i = none := by simpa [isLoad] using hl
    have hs' : storeOf i = none := by simpa [isStore] using hs
    simp only [accessEvent, stageRecord_instr, hl', hs']
  rw [hevent]
  cases hout : r.issued.executed i with
  | result v =>
    obtain ⟨-, hl, hs, -⟩ := executeOut_result hout
    rw [dataAccess_eq, ← State.executed, hout, noAccess hl hs]
  | branch taken target =>
    obtain ⟨hl, hs⟩ := transfer_no_access (isBranchOrJump_of_branch hout).1
    rw [dataAccess_eq, ← State.executed, hout, noAccess hl hs]
  | jump link target =>
    obtain ⟨hl, hs⟩ := transfer_no_access (isBranchOrJump_of_jump hout).1
    rw [dataAccess_eq, ← State.executed, hout, noAccess hl hs]
  | addr a =>
    rw [hout] at hfill
    obtain ⟨-, ⟨hl, hsrc⟩ | ⟨hs, hsrc⟩⟩ := executeOut_addr hout
    · obtain ⟨⟨k, ext⟩, hload⟩ := Option.isSome_iff_exists.1 hl
      rw [dataAccess_of_load hout hload, hsrc, hfill]
      simp only [accessEvent, State.recordOf, hload]
      rfl
    · obtain ⟨k, hstore⟩ := Option.isSome_iff_exists.1 hs
      obtain ⟨-, hload⟩ := storeOf_dest hs
      obtain ⟨q, hq⟩ := Option.isSome_iff_exists.1 hsrc
      rw [dataAccess_of_store hout hstore, hq, hfill]
      simp only [accessEvent, State.recordOf, hload, hstore, hq]
      rfl

/-- A step that makes a fatal access retires nothing. -/
theorem Issues.seqEvents_of_fault (h : Issues r i) (n : Nat) {c : Fault}
    (hc : accessFault (r.stageRecord i n) r.issued = some c) : seqAccesses r = [] ∧ seqCommits r = [] ∧ seqRetired r = [] := by
  refine ⟨(h.seqAccesses_eq n).trans (accessEvent_of_fault hc), ?_, ?_⟩
  · simp only [seqCommits, h.seqIssued_eq, h.step_of_fault n hc, raiseFatal]
  · simp only [seqRetired, h.seqIssued_eq, h.step_of_fault n hc, raiseFatal]
    exact if_neg nofun

/-- A step that runs on commits what its record commits, once the access is made. -/
theorem Issues.seqCommits_eq (h : Issues r i) (n : Nat) (hc : accessFault (r.stageRecord i n) r.issued = none) :
    seqCommits r = commitEvents (accessedRecord (r.stageRecord i n) r.issued) := by
  have hrun := run_retired_accessState (r.stageRecord i n) h
  simp only [seqCommits, h.seqIssued_eq, h.step_of_no_fault n hc, hrun]
  cases hd : destOf i with
  | none => simp only [commitEvents, accessedRecord_instr, stageRecord_instr, hd]
  | some q =>
    obtain ⟨v, hv⟩ := exists_commitValue r n (by rw [hd]; rfl)
    simp only [commitEvents, accessedRecord_instr, stageRecord_instr, hd, hv, commitEvent]
    split
    · rfl
    · next hq =>
      rw [committed_retired _ _ hq, uncommitted_of_dest (by simpa using hd), hv]
      rfl

theorem Issues.seqRetired_eq (h : Issues r i) (n : Nat) (hc : accessFault (r.stageRecord i n) r.issued = none) :
    seqRetired r = [{ seq := r.icount, instr := i }] := by
  have hrun := run_retired_accessState (r.stageRecord i n) h
  simp only [seqRetired, h.seqIssued_eq, h.step_of_no_fault n hc]
  exact if_pos hrun

end Events

/-! ### Events of a run -/

theorem exists_of_mem_seqTrace {α : Type} {f : State → List α} {n : Nat} {s : State} {x : α} (h : x ∈ seqTrace f n s) :
    ∃ j < n, x ∈ f (seqRun j s) := by
  induction n with
  | zero => cases h
  | succ n ih =>
    rw [seqTrace_add, List.mem_append] at h
    obtain h | h := h
    · obtain ⟨j, hj, hx⟩ := ih h
      exact ⟨j, by omega, hx⟩
    · refine ⟨n, by omega, ?_⟩
      by_cases hstep : ∃ t, step (seqRun n s) = .next t
      · obtain ⟨t, hstep⟩ := hstep
        rw [seqTrace_succ_next f hstep] at h
        simpa [seqTrace] using h
      · rw [seqTrace_stopped f _ fun t ht => hstep ⟨t, ht⟩] at h
        cases h

theorem seqTrace_succ {α : Type} (f : State → List α) {n : Nat} {s : State} (hr : (seqRun n s).run = .running) :
    seqTrace f (n + 1) s = seqTrace f n s ++ f (seqRun n s) := by
  rw [seqTrace_add, seqTrace_succ_next f (step_seqRun hr)]
  exact congrArg _ (List.append_nil _)

/-- A store in the trace is one of an instruction that the premise of R361 speaks of. -/
theorem storesAt_of_mem_seqAccesses {r : State} (hp : r.params.WellFormed) {a v : Word} {n : Nat}
    (h : Access.store a n v ∈ seqAccesses r) : r.StoresAt a n := by
  by_cases hi : ∃ i, Issues r i
  · obtain ⟨i, hi⟩ := hi
    have hfetch : r.FetchesInstr i := ⟨hi.fetches, by rw [decodeBytes_fetchBytes hp hi.fetches.2.2.1, hi.decodes]⟩
    have hdata : dataAccess i (fetchWord r).2 = dataAccess i r := by
      rw [fetchWord_frame]
      cases i <;> rfl
    rw [seqAccesses, hi.seqIssued_eq] at h
    dsimp only at h
    rw [hdata] at h
    refine ⟨i, hfetch, ?_⟩
    split at h
    · cases h
    · split at h <;> simp at h
    · next a' n' q hacc hsrc =>
      split at h
      · simp only [List.mem_singleton, Access.store.injEq] at h
        obtain ⟨rfl, rfl, -⟩ := h
        refine ⟨?_, hacc⟩
        rw [dataAccess_eq] at hacc
        cases hout : executeOut i (r.source (sourcesOf i).1) (r.source (sourcesOf i).2) r.originPc with
        | addr x =>
          obtain ⟨-, ⟨-, hnone⟩ | ⟨hs, -⟩⟩ := executeOut_addr hout
          · cases hsrc.symm.trans hnone
          · exact hs
        | _ => rw [hout] at hacc; cases hacc
      · cases h
  · rw [(seqEvents_of_not_issues fun i h => hi ⟨i, h⟩).1] at h
    cases h

end Sys2Proof.Machine

/-! The fetch side of a machine without the bytes of its lines (21_cache.md R111; 50_pipeline.md R344): tags, flags and order
of the instruction cache, its hits and the guard are moved by the addresses fetched alone; and bytes that nothing has stored
to stay as they were, wherever they are read from. -/

namespace Sys2Proof.Machine

/-! ### Caches up to the bytes of their lines -/

/-- A line without its bytes. -/
def Line.key (l : Line) : Nat × Bool × Bool × Bool := (l.tag, l.valid, l.dirty, l.accessed)

theorem tagsOf_eq_map (set : CacheSet) : tagsOf set = set.map Line.key := rfl

section Tags

variable {g : Geometry} {c c' : Cache} (h : c.map tagsOf = c'.map tagsOf)

theorem tagsOf_setAt (c : Cache) (i : Nat) : tagsOf (Cache.setAt c i) = (c.map tagsOf).getD i [] :=
  (List.getD_map c [] tagsOf).symm

theorem map_tagsOf_putSet_congr {c c' : Cache} (h : c.map tagsOf = c'.map tagsOf) (i : Nat) {set set' : CacheSet}
    (hset : tagsOf set = tagsOf set') : (Cache.putSet c i set).map tagsOf = (Cache.putSet c' i set').map tagsOf := by
  induction i generalizing c c' with
  | zero =>
    match c, c', h with
    | [], [], _ => exact congrArg (fun k => [k]) hset
    | _ :: _, _ :: _, h => exact congrArg₂ List.cons hset (List.cons.inj h).2
  | succ i ih =>
    match c, c', h with
    | [], [], _ => exact congrArg (List.cons []) (ih rfl)
    | _ :: _, _ :: _, h => exact congrArg₂ List.cons (List.cons.inj h).1 (ih (List.cons.inj h).2)

theorem tagsOf_touch (set : CacheSet) (l : Line) :
    tagsOf (CacheSet.touch set l) = (tagsOf set).filter (fun k => k.1 != l.tag) ++ [l.key] := by
  simp only [tagsOf_eq_map, CacheSet.touch, List.map_append, List.filter_map]
  rfl

theorem map_key_lookup (g : Geometry) (c : Cache) (a : Nat) :
    (Cache.lookup g c a).map Line.key =
      (tagsOf (Cache.setAt c (indexOf g a))).find? fun k => k.1 == tagOf g a := by
  rw [Cache.lookup, tagsOf_eq_map, List.find?_map]
  rfl

include h

theorem tagsOf_setAt_congr (i : Nat) : tagsOf (Cache.setAt c i) = tagsOf (Cache.setAt c' i) := by
  rw [tagsOf_setAt, tagsOf_setAt, h]

theorem map_key_lookup_congr (a : Nat) : (Cache.lookup g c a).map Line.key = (Cache.lookup g c' a).map Line.key := by
  rw [map_key_lookup, map_key_lookup, tagsOf_setAt_congr h]

/-- A touch moves equal tags alike. -/
theorem map_tagsOf_touched_congr (a : Nat) {l l' : Line} (hl : l.key = l'.key) :
    (touched g c a l).map tagsOf = (touched g c' a l').map tagsOf := by
  have ht : l.tag = l'.tag := congrArg Prod.fst hl
  refine map_tagsOf_putSet_congr h _ ?_
  rw [tagsOf_touch, tagsOf_touch, tagsOf_setAt_congr h, hl, ht]

theorem tagsOf_kept_congr (a : Nat) : tagsOf (Cache.kept g c a) = tagsOf (Cache.kept g c' a) := by
  have hset := tagsOf_setAt_congr h (indexOf g a)
  have hlen : (Cache.setAt c (indexOf g a)).length = (Cache.setAt c' (indexOf g a)).length := by
    simpa [tagsOf] using congrArg List.length hset
  rw [Cache.kept, Cache.kept, hlen]
  split
  · exact hset
  · rw [tagsOf_eq_map, tagsOf_eq_map, List.map_tail, List.map_tail]
    exact congrArg List.tail hset

/-- An install moves equal tags alike, whatever the bytes. -/
theorem map_tagsOf_install_congr (hw : 1 ≤ g.ways) (a : Nat) (bytes bytes' : List Byte) :
    (Cache.install g c a bytes).1.map tagsOf = (Cache.install g c' a bytes').1.map tagsOf := by
  have hkept := tagsOf_kept_congr (g := g) h a
  rw [tagsOf_eq_map, tagsOf_eq_map] at hkept
  rw [Cache.install_eq hw, Cache.install_eq hw]
  refine map_tagsOf_putSet_congr h _ ?_
  rw [tagsOf_eq_map, tagsOf_eq_map, List.map_append, List.map_append, hkept]
  rfl

end Tags

/-! ### The fetch side -/

/-- Equal fetch sides, the bytes of the lines, the pc and the accesses counted apart. -/
structure FetchAlike (s t : State) : Prop where
  params : s.params = t.params
  tags   : s.ic.map tagsOf = t.ic.map tagsOf
  hits   : s.icHits = t.icHits
  addr   : s.lgAddr = t.lgAddr
  count  : s.lgCount = t.lgCount

theorem FetchAlike.refl (s : State) : FetchAlike s s := ⟨rfl, rfl, rfl, rfl, rfl⟩

theorem FetchAlike.of_same_left {s s' t : State} (h : FetchAlike s t) (hs : SameFetchSide s s') : FetchAlike s' t :=
  ⟨hs.params.trans h.params, (congrArg _ hs.ic).trans h.tags, hs.hits.trans h.hits, hs.guard.1.trans h.addr,
    hs.guard.2.trans h.count⟩

theorem FetchAlike.of_same_right {s t t' : State} (h : FetchAlike s t) (ht : SameFetchSide t t') : FetchAlike s t' :=
  ⟨h.params.trans ht.params.symm, h.tags.trans (congrArg _ ht.ic.symm), h.hits.trans ht.hits.symm,
    h.addr.trans ht.guard.1.symm, h.count.trans ht.guard.2.symm⟩

theorem FetchAlike.guardCount_eq {s t : State} (h : FetchAlike s t) (a : Word) : guardCount a s = guardCount a t := by
  rw [guardCount, guardCount, h.addr, h.count]

theorem ic_fetchWord_of_hit {s : State} {l : Line} (h : Cache.lookup s.params.ic s.ic s.pc.toNat = some l) :
    (fetchWord s).2.ic = touched s.params.ic s.ic s.pc.toNat (readLine l) :=
  congrArg (fun r => r.2.ic) (icRead_hit (s := { s with lgAddr := some s.pc, lgCount := guardCount s.pc s }) h)

theorem ic_fetchWord_of_miss {s : State} (h : Cache.lookup s.params.ic s.ic s.pc.toNat = none) :
    (fetchWord s).2.ic =
      touched s.params.ic
        (Cache.install s.params.ic s.ic s.pc.toNat
          (s.mem.readBlock (baseOf s.params.ic s.pc.toNat) s.params.ic.line)).1
        s.pc.toNat (readLine (filledLine s.params.ic s.mem s.pc.toNat)) :=
  congrArg (fun r => r.2.ic) (icRead_miss (s := { s with lgAddr := some s.pc, lgCount := guardCount s.pc s }) h)

/-- Fetches at one address keep fetch sides equal. -/
theorem FetchAlike.fetchWord {s t : State} (h : FetchAlike s t) (hw : 1 ≤ t.params.ic.ways) (hpc : s.pc = t.pc) :
    FetchAlike (fetchWord s).2 (fetchWord t).2 := by
  have hlook := map_key_lookup_congr (g := t.params.ic) h.tags t.pc.toNat
  have hic : (Machine.fetchWord s).2.ic.map tagsOf = (Machine.fetchWord t).2.ic.map tagsOf := by
    cases ht : Cache.lookup t.params.ic t.ic t.pc.toNat with
    | some l =>
      rw [ht] at hlook
      obtain ⟨k, hk, hkey⟩ := Option.map_eq_some_iff.1 hlook
      have hread : (readLine k).key = (readLine l).key := by
        simp only [Line.key, Prod.mk.injEq] at hkey
        simp only [Line.key, readLine, hkey]
      rw [ic_fetchWord_of_hit ht, ic_fetchWord_of_hit (by rw [h.params, hpc, hk]), hpc, h.params]
      exact map_tagsOf_touched_congr h.tags _ hread
    | none =>
      rw [ht] at hlook
      have hs : Cache.lookup t.params.ic s.ic t.pc.toNat = none := Option.map_eq_none_iff.1 hlook
      rw [ic_fetchWord_of_miss ht, ic_fetchWord_of_miss (by rw [h.params, hpc, hs]), hpc, h.params]
      exact map_tagsOf_touched_congr (map_tagsOf_install_congr h.tags hw _ _ _) _ rfl
  have hhit : (Cache.lookup s.params.ic s.ic s.pc.toNat).isSome = (Cache.lookup t.params.ic t.ic t.pc.toNat).isSome := by
    rw [h.params, hpc]
    simpa using congrArg Option.isSome hlook
  refine ⟨?_, hic, ?_, ?_, ?_⟩
  · rw [fetchWord_frame, fetchWord_frame t]
    exact h.params
  · rw [fetchWord_frame, fetchWord_frame t, hhit, h.hits]
  · rw [fetchWord_frame, fetchWord_frame t, hpc]
  · rw [fetchWord_frame, fetchWord_frame t, hpc]
    exact h.guardCount_eq _

/-- The fetch ahead that comes last. -/
theorem fetchAhead_succ_last (k : Nat) (s : State) : fetchAhead (k + 1) s = (fetchWord (fetchAhead k s)).2 := by
  induction k generalizing s with
  | zero => rfl
  | succ k ih => exact ih (fetchWord s).2

/-- Fetches ahead go on address by address. -/
theorem lgAddr_fetchAhead {s : State} (h : s.lgAddr = some (s.pc - 4)) (k : Nat) :
    (fetchAhead k s).lgAddr = some ((fetchAhead k s).pc - 4) := by
  cases k with
  | zero => exact h
  | succ k =>
    rw [fetchAhead_succ_last, fetchWord_frame]
    exact congrArg some (BitVec.add_sub_cancel _ 4).symm

/-! ### Bytes that nothing has stored to -/

/-- The byte at `a` is `z` in `ArchMem`, in `Mem` and to a fetch. -/
structure Pristine (z : Byte) (a : Nat) (s : State) : Prop where
  archMem : s.archMem a = z
  mem     : s.mem.read a = z
  fetched : s.fetchByte a = z

section Pristine

variable {z : Byte} {a : Nat} {s t : State}

theorem Pristine.of_same (h : Pristine z a s) (hp : t.params = s.params) (hm : t.mem = s.mem) (hd : t.dc = s.dc)
    (hi : t.ic = s.ic) : Pristine z a t := by
  obtain ⟨ha, hmem, hf⟩ := h
  refine ⟨?_, by rw [hm, hmem], ?_⟩
  · rwa [State.archMem, hp, hm, hd]
  · rwa [State.fetchByte, hp, hm, hi]

/-- A byte found in a cache was found there, or is of the line just filled from memory. -/
theorem State.Inv.fetchByte_fetchWord (hs : s.Inv) (b : Nat) :
    (fetchWord s).2.fetchByte b = s.fetchByte b ∨ (fetchWord s).2.fetchByte b = s.mem.read b := by
  obtain ⟨-, hic, -⟩ := hs.params
  have hl := Geometry.WellFormed.line_pos hic
  have hw : 1 ≤ s.params.ic.ways := hic.2.2.1
  have hframe : (fetchWord s).2.params = s.params ∧ (fetchWord s).2.mem = s.mem := by
    rw [fetchWord_frame]
    exact ⟨rfl, rfl⟩
  have hnd : ((Cache.setAt s.ic (indexOf s.params.ic b)).map Line.tag).Nodup := by
    obtain ⟨-, hnd, -⟩ := hs.icShaped.2 _ (indexOf_lt (Geometry.WellFormed.sets_pos hic) b)
    exact hnd
  have old : ∀ l ∈ Cache.setAt s.ic (indexOf s.params.ic b), l.tag = tagOf s.params.ic b →
      s.fetchByte b = l.bytes.getD (offsetOf s.params.ic b) 0 := fun l hl ht => by
    rw [State.fetchByte, Cache.lookup_of_mem hnd hl ht]
  rw [State.fetchByte, hframe.1, hframe.2]
  cases hfound : Cache.lookup s.params.ic (fetchWord s).2.ic b with
  | none => exact .inr rfl
  | some l =>
    obtain ⟨ht, hmem⟩ := Cache.lookup_some hfound
    cases hlook : Cache.lookup s.params.ic s.ic s.pc.toNat with
    | some k =>
      rw [ic_fetchWord_of_hit hlook] at hmem
      obtain ⟨hk, hkmem⟩ := Cache.lookup_some hlook
      obtain hmem | ⟨hi, rfl⟩ := mem_setAt_touched hmem
      · exact .inl (old l hmem ht).symm
      · exact .inl (old k (hi ▸ hkmem) ht).symm
    | none =>
      rw [ic_fetchWord_of_miss hlook] at hmem
      have filled : indexOf s.params.ic b = indexOf s.params.ic s.pc.toNat → tagOf s.params.ic s.pc.toNat = tagOf s.params.ic b →
          (filledLine s.params.ic s.mem s.pc.toNat).bytes.getD (offsetOf s.params.ic b) 0 = s.mem.read b := fun hi ht => by
        change (s.mem.readBlock (baseOf s.params.ic s.pc.toNat) s.params.ic.line).getD _ 0 = _
        rw [baseOf_eq_lineAddr]
        exact Memory.getD_readBlock_of_holds (l := newLine s.params.ic s.pc.toNat []) _ hl ⟨ht, hi.symm⟩
      obtain hmem | ⟨hi, rfl⟩ := mem_setAt_touched hmem
      · obtain hmem | ⟨hi, rfl⟩ := mem_setAt_install hw hmem
        · exact .inl (old l hmem ht).symm
        · exact .inr (filled hi ht)
      · exact .inr (filled hi ht)

theorem Pristine.fetchWord (h : Pristine z a s) (hs : s.Inv) : Pristine z a (fetchWord s).2 := by
  obtain ⟨ha, hmem, hf⟩ := h
  have hframe := fetchWord_frame s
  refine ⟨?_, by rw [hframe, hmem], ?_⟩
  · rw [hframe]
    exact ha
  · obtain hb | hb := hs.fetchByte_fetchWord a
    · exact hb.trans hf
    · exact hb.trans hmem

/-- A fill leaves in memory what was there, or what `ArchMem` says. -/
theorem State.Inv.read_mem_dcFill (hs : s.Inv) {x : Nat} (hm : Cache.lookup s.params.dc s.dc x = none) (b : Nat) :
    (dcFill x s).mem.read b = s.mem.read b ∨ (dcFill x s).mem.read b = s.archMem b := by
  by_cases hv : ∀ l ∈ Cache.evicted s.params.dc s.dc x, ¬ l.Holds s.params.dc (indexOf s.params.dc x) b
  · exact .inl (hs.read_mem_dcFill_of_not_evicted hv)
  · push Not at hv
    obtain ⟨l, hl, hholds⟩ := hv
    refine .inr ?_
    rw [hs.read_mem_dcFill_of_evicted hl hholds, State.archMem, (hs.lookup_dcFill_of_evicted hm hl hholds).1]

/-- So does an access: it fills on a miss, and its hit works on the cache. -/
theorem State.Inv.read_mem_access (hs : s.Inv) (x n : Nat) (v : Word) (b : Nat) :
    ((dcRead x n s).2.mem.read b = s.mem.read b ∨ (dcRead x n s).2.mem.read b = s.archMem b) ∧
      ((dcWrite x n v s).mem.read b = s.mem.read b ∨ (dcWrite x n v s).mem.read b = s.archMem b) := by
  cases h : Cache.lookup s.params.dc s.dc x with
  | some l =>
    rw [dcRead_hit h, dcWrite_hit h]
    exact ⟨.inl rfl, .inl rfl⟩
  | none =>
    rw [dcRead_miss h, dcWrite_miss h]
    exact ⟨hs.read_mem_dcFill h b, hs.read_mem_dcFill h b⟩

/-- A change of memory that keeps the byte keeps what a fetch sees. -/
theorem Pristine.of_access (h : Pristine z a s) (ha : t.archMem a = s.archMem a)
    (hm : t.mem.read a = s.mem.read a ∨ t.mem.read a = s.archMem a) (hout : SameOutsideData s t) : Pristine z a t := by
  have hmem : t.mem.read a = z := hm.elim (·.trans h.mem) (·.trans h.archMem)
  refine ⟨ha.trans h.archMem, hmem, ?_⟩
  have hf := h.fetched
  rw [State.fetchByte] at hf ⊢
  rw [hout.params, hout.ic]
  cases hl : Cache.lookup s.params.ic s.ic a with
  | some l => rwa [hl] at hf
  | none => exact hmem

/-- An access that stores to no such byte keeps it. -/
theorem Pristine.accessState {b : Behaviour} (h : Pristine z a s) (hs : s.Inv) (hc : accessFault b s = none)
    (havoids : ∀ c ∈ accessEvent b s, c.Avoids a 1) : Pristine z a (accessState b s) := by
  have hout := (accessState_frame b s).1
  cases hl : loadOf b.instr with
  | some p =>
    obtain ⟨n, ext⟩ := p
    obtain ⟨-, hstate, -⟩ := stages_of_load (s := s) hl
    rw [hstate] at hout ⊢
    exact h.of_access (hs.archMem_dcRead n a) (hs.read_mem_access _ n 0 a).1 hout
  | none =>
    cases hst : storeOf b.instr with
    | some n =>
      obtain ⟨hf, hstate, -⟩ := stages_of_store (s := s) hl hst
      have hcheck := hf.symm.trans hc
      obtain ⟨haligned, hrange⟩ := accessCheck_eq_none.1 hcheck
      have hn := dvd_four_of_storeOf hst
      have hpos : 0 < n := Nat.pos_of_dvd_of_pos hn (by decide)
      have hout' : (b.addr.getD 0).toNat + n ≤ a ∨ a + 1 ≤ (b.addr.getD 0).toNat := by
        simp only [accessEvent, hl, hst, hcheck] at havoids
        exact havoids _ (List.mem_singleton_self _)
      rw [hstate] at hout ⊢
      refine h.of_access ?_ (hs.read_mem_access _ n _ a).2 hout
      rw [hs.archMem_dcWrite _ hn haligned (by omega), if_neg (by omega)]
    | none =>
      rw [(stages_of_no_access (s := s) hl hst).2.1]
      exact h

theorem Pristine.retired (h : Pristine z a s) (b : Behaviour) : Pristine z a (retired b s) := by
  rw [retired_frame]
  exact h.of_same rfl rfl rfl rfl

end Pristine

/-! ### Runs that store to none of some bytes -/

section Runs

variable {s : State}

theorem accesses_of_prefix {c : Access} {m n : Nat} (h : c ∈ seqTrace seqAccesses m s) (hmn : m ≤ n) :
    c ∈ seqTrace seqAccesses n s := (seqTrace_prefix seqAccesses hmn s).subset h

/-- What a step of a running machine keeps of a byte. -/
theorem Pristine.step {z : Byte} {a : Nat} {r t : State} (h : Pristine z a r) (hs : r.Inv) (hr : r.run = .running)
    (hstep : step r = .next t) (havoids : ∀ c ∈ seqAccesses r, c.Avoids a 1) : Pristine z a t := by
  obtain ⟨-, hn⟩ | ⟨hg, ⟨c, -, hn⟩ | ⟨hc, ⟨e, -, hn⟩ | ⟨i, hd, -⟩⟩⟩ := step_cases hr
  · cases Host.Outcome.next.inj (hstep.symm.trans hn)
    exact h.of_same rfl rfl rfl rfl
  · cases Host.Outcome.next.inj (hstep.symm.trans hn)
    exact h.of_same rfl rfl rfl rfl
  · cases Host.Outcome.next.inj (hstep.symm.trans hn)
    exact (h.fetchWord hs).of_same rfl rfl rfl rfl
  · have hi : Issues r i := ⟨⟨hr, hg, fetchCheck_eq_none.1 hc⟩, hd⟩
    have hissued : Pristine z a r.issued := (h.fetchWord hs).of_same rfl rfl rfl rfl
    rw [hi.seqAccesses_eq 0] at havoids
    cases hfault : accessFault (r.stageRecord i 0) r.issued with
    | some c =>
      rw [Host.Outcome.next.inj (hstep.symm.trans (hi.step_of_fault 0 hfault))]
      exact hissued.of_same rfl rfl rfl rfl
    | none =>
      rw [Host.Outcome.next.inj (hstep.symm.trans (hi.step_of_no_fault 0 hfault))]
      exact (hissued.accessState (hs.inv_issued hg hc) hfault havoids).retired _

theorem pristine_seqRun {z : Byte} {a : Nat} (hs : s.Inv) (h : Pristine z a s) {n : Nat}
    (havoids : ∀ c ∈ seqTrace seqAccesses n s, c.Avoids a 1) : Pristine z a (seqRun n s) := by
  induction n with
  | zero => exact h
  | succ n ih =>
    have hn := ih fun c hc => havoids c (accesses_of_prefix hc n.le_succ)
    by_cases hr : (seqRun n s).run = .running
    · refine hn.step (inv_seqRun hs n) hr (step_seqRun hr) fun c hc => havoids c ?_
      rw [seqTrace_succ seqAccesses hr]
      exact List.mem_append_right _ hc
    · rw [seqRun_eq_of_ended hr n.le_succ]
      exact hn

theorem avoids_byte {c : Access} {a k n : Nat} (h : c.Avoids a n) (hk : k < n) : c.Avoids (a + k) 1 := by
  cases c with
  | load => trivial
  | store x m v =>
    have h : x.toNat + m ≤ a ∨ a + n ≤ x.toNat := h
    change x.toNat + m ≤ a + k ∨ a + k + 1 ≤ x.toNat
    omega

/-- Under R361's premise the accesses before a fetch avoid its word. -/
theorem State.NoStoreIntoCode.avoids (h : s.NoStoreIntoCode) (hp : s.params.WellFormed) {k : Nat}
    (hf : (seqRun k s).Fetches) {c : Access} (hc : c ∈ seqTrace seqAccesses k s) :
    c.Avoids (seqRun k s).pc.toNat 4 := by
  obtain ⟨j, hj, hmem⟩ := exists_of_mem_seqTrace hc
  cases c with
  | load => trivial
  | store x n v =>
    exact h j k x n hj (storesAt_of_mem_seqAccesses (by rwa [params_seqRun]) hmem) hf

/-- And, for whole lines, the block of a line it fills. -/
theorem State.NoStoreIntoFilledLines.avoids (h : s.NoStoreIntoFilledLines) (hp : s.params.WellFormed) {k : Nat}
    (hf : (seqRun k s).Fetches) (hm : Cache.lookup s.params.ic (seqRun k s).ic (seqRun k s).pc.toNat = none) {c : Access}
    (hc : c ∈ seqTrace seqAccesses k s) :
    c.Avoids (baseOf s.params.ic (seqRun k s).pc.toNat) s.params.ic.line := by
  obtain ⟨j, hj, hmem⟩ := exists_of_mem_seqTrace hc
  cases c with
  | load => trivial
  | store x n v =>
    exact h j k x n hj (storesAt_of_mem_seqAccesses (by rwa [params_seqRun]) hmem) hf hm

end Runs

/-! ### A constructed machine -/

theorem wordOfBytes_ofNat (w : Word) :
    wordOfBytes (BitVec.ofNat 8 (w.toNat / 256 ^ 0)) (BitVec.ofNat 8 (w.toNat / 256 ^ 1))
      (BitVec.ofNat 8 (w.toNat / 256 ^ 2)) (BitVec.ofNat 8 (w.toNat / 256 ^ 3)) = w := by
  apply BitVec.eq_of_toNat_eq
  have := w.isLt
  simp only [toNat_wordOfBytes, BitVec.toNat_ofNat]
  omega

/-- What a constructed machine is, for its runs. -/
structure Fresh (image : List Word) (s : State) : Prop where
  inv      : s.EngineInv
  run      : s.run = .running
  slots    : s.qRF = none ∧ s.qEX = none ∧ s.qMEM = none ∧ s.qWB = none
  icount   : s.icount = 0
  fetches  : s.icAccesses = 0
  pristine : ∀ a, Pristine (s.mem.read a) a s
  image    : ∀ a k, a % 4 = 0 → k < 4 → s.mem.read (a + k) = BitVec.ofNat 8 ((image.getD (a / 4) 0).toNat / 256 ^ k)

theorem fresh_of_construct {p : Params} {image : List Word} {s : State} (h : State.construct p image = some s) :
    Fresh image s := by
  obtain ⟨-, hs⟩ := constructionGivesTheResetState p image
  obtain ⟨hp, -, -, -, hword, hpast, harch, hic, -, -, -, hrf, hex, hmem, hwb, hcount, -, -, hfetches, -, -, -, hrun⟩ := hs s h
  refine ⟨constructionMeetsTheInvariants p image s h, hrun, ⟨hrf, hex, hmem, hwb⟩, hcount, hfetches,
    fun a => ⟨harch a, rfl, ?_⟩, fun a k ha hk => ?_⟩
  · rw [State.fetchByte, hp, hic]
  · by_cases hlt : a / 4 < image.length
    · rw [show a + k = 4 * (a / 4) + k by omega, hword _ k hlt hk, List.getD_eq_getElem _ _ hlt]
      rw [BitVec.extractLsb', Nat.shiftRight_eq_div_pow, Nat.pow_mul]
    · rw [hpast _ (by omega), List.getD_eq_default _ _ (by omega)]
      simp

/-- A word whose bytes nothing has stored to is fetched as the image has it. -/
theorem Fresh.fetchedAtReset {image : List Word} {s u : State} (h : Fresh image s) (hp : u.params.WellFormed)
    (ha : u.pc.toNat % 4 = 0)
    (hu : ∀ k < 4, Pristine (s.mem.read (u.pc.toNat + k)) (u.pc.toNat + k) u) :
    FetchedAtReset image u.mem (u.pc, (fetchWord u).1) := by
  have hbyte : ∀ k < 4, u.fetchByte (u.pc.toNat + k) =
      BitVec.ofNat 8 ((image.getD (u.pc.toNat / 4) 0).toNat / 256 ^ k) := fun k hk =>
    (hu k hk).fetched.trans (h.image _ k ha hk)
  refine ⟨?_, fun k hk => (hu k hk).mem.trans (h.image _ k ha hk)⟩
  have h0 : u.fetchByte u.pc.toNat = _ := hbyte 0 (by decide)
  change (fetchWord u).1 = _
  rw [fetchWord_eq_wordOfBytes hp ha, h0, hbyte 1 (by decide), hbyte 2 (by decide), hbyte 3 (by decide), wordOfBytes_ofNat]

end Sys2Proof.Machine

/-! The engine between two ticks, as five places in the reference's run (50_pipeline.md R346, R361): what is committed, what
has accessed memory, what is executed, issued and fetched. Write-back, memory and execute keep this. -/

namespace Sys2Proof.Machine

/-! ### States with one memory -/

/-- Equal parameters, memory, data cache and counters of it. -/
structure SameMemory (e u : State) : Prop where
  params   : e.params = u.params
  mem      : e.mem = u.mem
  dc       : e.dc = u.dc
  accesses : e.dcAccesses = u.dcAccesses
  hits     : e.dcHits = u.dcHits

section SameMemory

variable {e u v : State}

theorem SameMemory.trans (h : SameMemory e u) (h' : SameMemory u v) : SameMemory e v :=
  ⟨h.params.trans h'.params, h.mem.trans h'.mem, h.dc.trans h'.dc, h.accesses.trans h'.accesses, h.hits.trans h'.hits⟩

theorem SameMemory.symm (h : SameMemory e u) : SameMemory u e :=
  ⟨h.params.symm, h.mem.symm, h.dc.symm, h.accesses.symm, h.hits.symm⟩

theorem SameMemory.archMem (h : SameMemory e u) (a : Nat) : e.archMem a = u.archMem a := by
  rw [State.archMem, State.archMem, h.params, h.mem, h.dc]

theorem SameMemory.dcFill (h : SameMemory e u) (a : Nat) : SameMemory (dcFill a e) (dcFill a u) := by
  refine ⟨h.params, ?_, ?_, h.accesses, h.hits⟩ <;> simp only [Machine.dcFill, h.params, h.mem, h.dc]

theorem SameMemory.dcRead (h : SameMemory e u) (a n : Nat) :
    (dcRead a n e).1 = (dcRead a n u).1 ∧ SameMemory (dcRead a n e).2 (dcRead a n u).2 := by
  have hfill := h.dcFill a
  cases hl : Cache.lookup u.params.dc u.dc a with
  | some l =>
    rw [dcRead_hit hl, dcRead_hit (s := e) (by rw [h.params, h.dc, hl]), h.params]
    exact ⟨rfl, rfl, h.mem, congrArg (touched _ · a _) h.dc, congrArg (· + 1) h.accesses, congrArg (· + 1) h.hits⟩
  | none =>
    rw [dcRead_miss hl, dcRead_miss (s := e) (by rw [h.params, h.dc, hl]), h.params, h.mem]
    exact ⟨rfl, h.params, hfill.mem, congrArg (touched _ · a _) hfill.dc, congrArg (· + 1) h.accesses, h.hits⟩

theorem SameMemory.dcWrite (h : SameMemory e u) (a n : Nat) (v : Word) : SameMemory (dcWrite a n v e) (dcWrite a n v u) := by
  have hfill := h.dcFill a
  cases hl : Cache.lookup u.params.dc u.dc a with
  | some l =>
    rw [dcWrite_hit hl, dcWrite_hit (s := e) (by rw [h.params, h.dc, hl]), h.params]
    exact ⟨rfl, h.mem, congrArg (touched _ · a _) h.dc, congrArg (· + 1) h.accesses, congrArg (· + 1) h.hits⟩
  | none =>
    rw [dcWrite_miss hl, dcWrite_miss (s := e) (by rw [h.params, h.dc, hl]), h.params, h.mem]
    exact ⟨h.params, hfill.mem, congrArg (touched _ · a _) hfill.dc, congrArg (· + 1) h.accesses, h.hits⟩

/-- The memory stage of a record is a function of them. -/
theorem SameMemory.stages (h : SameMemory e u) (b : Behaviour) :
    accessFault b e = accessFault b u ∧ accessedRecord b e = accessedRecord b u ∧ accessEvent b e = accessEvent b u ∧
      SameMemory (accessState b e) (accessState b u) := by
  refine ⟨by rw [accessFault, accessFault, h.params], ?_, by rw [accessEvent, accessEvent, h.params], ?_⟩
  · unfold accessedRecord
    split
    · rw [(h.dcRead _ _).1]
    · rfl
  · unfold accessState
    split
    · exact (h.dcRead _ _).2
    · exact h.dcWrite _ _ _
    · exact h

theorem sameMemory_retired (b : Behaviour) (s : State) : SameMemory (retired b s) s := by
  rw [retired_frame]
  exact ⟨rfl, rfl, rfl, rfl, rfl⟩

theorem sameMemory_issued (r : State) : SameMemory r r.issued := by
  rw [State.issued_eq]
  exact ⟨rfl, rfl, rfl, rfl, rfl⟩

end SameMemory

/-! ### Places in the run -/

/-- A slot between two places: an empty one keeps them together, an occupied one is one step of the run. -/
def Slot {α : Type} (q : Option α) (lo hi : Nat) (P : α → Prop) : Prop :=
  match q with
  | none => hi = lo
  | some b => hi = lo + 1 ∧ P b

section Slot

variable {α : Type} {q : Option α} {lo hi : Nat} {P : α → Prop}

theorem Slot.bounds (h : Slot q lo hi P) : lo ≤ hi ∧ hi ≤ lo + 1 := by
  cases q with
  | none => cases h; omega
  | some b => obtain ⟨rfl, -⟩ := h; omega

theorem Slot.eq_none (h : Slot q lo lo P) : q = none := by
  cases q with
  | none => rfl
  | some b => exact absurd h.1 (by omega)

theorem Slot.exists_some (h : Slot q lo hi P) (hlt : lo < hi) : ∃ b, q = some b ∧ hi = lo + 1 ∧ P b := by
  cases q with
  | none => cases h; omega
  | some b => exact ⟨b, rfl, h⟩

end Slot

/-- The reference at the `f`-th fetch: its own state, or, after a fatal data access, that and the fetches made ahead. -/
def aheadOf (s : State) (f : Nat) : State := fetchAhead (f - (seqRun f s).icAccesses) (seqRun f s)

/-- Engine state `e` has committed what the reference's run from `s` has before its `w`-th step, accessed memory as before
its `m`-th, executed before its `x`-th, issued before its `d`-th and fetched before its `f`-th; the slots hold the records of
the steps between. A record younger than a fatal data access is not looked at: its step is none of the run's. -/
structure Follows (s : State) (w m x d f : Nat) (e : State) : Prop where
  inv     : e.EngineInv
  run     : e.run = .running
  params  : e.params = s.params
  icount  : e.icount = d
  fetches : e.icAccesses = f
  banks   : e.x = (seqRun w s).x ∧ e.f = (seqRun w s).f
  memory  : SameMemory e (seqRun m s)
  alive   : (seqRun m s).run = .running
  live    : (seqRun d s).run = .running ∨ (seqRun d s).run.IsDataFault
  wb      : Slot e.qWB w m fun b =>
    ∃ i, Issues (seqRun w s) i ∧ isStore i = false ∧
      b = accessedRecord ((seqRun w s).stageRecord i w) (seqRun w s).issued
  mem     : Slot e.qMEM m x fun b => ∃ i, Issues (seqRun m s) i ∧ b = (seqRun m s).stageRecord i m
  ex      : Slot e.qEX x d fun b =>
    (seqRun x s).run = .running → ∃ i, Issues (seqRun x s) i ∧ b = (seqRun x s).issued.recordOf i x
  rf      : Slot e.qRF d f fun v => (seqRun d s).run = .running → (seqRun d s).Fetches ∧ v = (fetchWord (seqRun d s)).1
  alike   : FetchAlike e (aheadOf s f)
  pcDone  : w = f → e.pc = (seqRun f s).pc
  pcNext  : w < f → e.lgAddr = some (e.pc - 4)
  bytes   : ∀ z a, Pristine z a s → (∀ c ∈ seqTrace seqAccesses m s, c.Avoids a 1) → Pristine z a e
  lines   : s.NoStoreIntoFilledLines → ¬ (seqRun f s).run.IsDataFault → e.ic = (seqRun f s).ic

section Reference

variable {s : State} {k : Nat} {i : Instr}

/-- An instruction after which the run goes on made no fatal access, and has left what its record's stages leave. -/
theorem Issues.seqRun_succ (h : Issues (seqRun k s) i) (hr : (seqRun (k + 1) s).run = .running) (n : Nat) :
    accessFault ((seqRun k s).stageRecord i n) (seqRun k s).issued = none ∧
      seqRun (k + 1) s =
        retired (accessedRecord ((seqRun k s).stageRecord i n) (seqRun k s).issued)
          (accessState ((seqRun k s).stageRecord i n) (seqRun k s).issued) := by
  cases hc : accessFault ((seqRun k s).stageRecord i n) (seqRun k s).issued with
  | some c =>
    rw [seqRun_succ_of_step (h.step_of_fault n hc)] at hr
    cases hr
  | none => exact ⟨rfl, seqRun_succ_of_step (h.step_of_no_fault n hc)⟩

/-- Stores change no register and not the pc. -/
theorem retired_of_isStore {b : Behaviour} (h : isStore b.instr = true) (s : State) : retired b s = s := by
  obtain ⟨hd, -⟩ := storeOf_dest h
  rw [retired, commitDest_of_no_dest s hd]
  obtain hr | ⟨htransfer, -⟩ := redirect_cases b s
  · exact hr
  · exact absurd ((transfer_no_access htransfer).2.symm.trans h) Bool.false_ne_true

theorem isDataFault_ne_running {r : RunState} (h : r.IsDataFault) : r ≠ .running := by
  obtain ⟨a, rfl | rfl⟩ := h <;> nofun

/-- Where the run goes on, nothing is ahead of it. -/
theorem aheadOf_of_running (h0 : s.icAccesses = 0) (hr : (seqRun k s).run = .running) : aheadOf s k = seqRun k s := by
  rw [aheadOf, (counts_of_running hr).2, h0, Nat.zero_add, Nat.sub_self]
  rfl

end Reference

end Sys2Proof.Machine

/-! Write-back, memory and execute keep the engine at places of the reference's run (50_pipeline.md R333 to R335). -/

namespace Sys2Proof.Machine

section Steps

variable {s e : State} {w m x d f : Nat}

/-- The last fetch is of the step at `w`, and has left the pc past it. -/
theorem Follows.pc_of_last (h : Follows s w m x d f e) (h0 : s.icAccesses = 0) (hf : f = w + 1) (hw : (seqRun w s).Fetches)
    (hr : (seqRun (w + 1) s).run = .running) : e.pc = (seqRun w s).pc + 4 := by
  have hnext := h.pcNext (by omega)
  have haddr := h.alike.addr
  rw [hf, aheadOf_of_running h0 hr, lgAddr_step hw (step_seqRun hw.1), hnext] at haddr
  rw [← Option.some.inj haddr, BitVec.sub_add_cancel]

theorem Follows.writeBack (h : Follows s w m x d f e) (h0 : s.icAccesses = 0) : Follows s m m x d f (writeBackStep e) := by
  have hinv := h.inv.engineInv_writeBackStep
  have hwb := h.wb
  cases hq : e.qWB with
  | none =>
    rw [hq] at hwb
    obtain rfl : m = w := hwb
    rw [writeBackStep_empty hq]
    exact h
  | some b =>
    rw [hq] at hwb
    obtain ⟨rfl, i, hi, hst, hb⟩ := hwb
    obtain ⟨-, hnext⟩ := hi.seqRun_succ h.alive w
    rw [← hb] at hnext
    obtain ⟨-, hax, haf, hapc⟩ := accessState_frame ((seqRun w s).stageRecord i w) (seqRun w s).issued
    have hix := banks_issued (seqRun w s)
    have hbanks := retired_banks_congr b (h.banks.1.trans (hix.1.symm.trans hax.symm))
      (h.banks.2.trans (hix.2.1.symm.trans haf.symm))
    have hfirst : w + 1 ≠ f → (retired b e).pc = e.pc := fun hne => by
      have hno : holdsTransfer e.qWB = false := by
        refine Bool.eq_false_iff.2 fun ht => hne ?_
        obtain ⟨hrf, hex, hmem⟩ := h.inv.aloneWB ht
        have h1 := h.mem
        have h2 := h.ex
        have h3 := h.rf
        rw [hmem] at h1
        rw [hex] at h2
        rw [hrf] at h3
        exact (h3.trans (h2.trans h1)).symm
      have hpc := pc_writeBackStep hno
      rwa [writeBackStep_eq_retired hq] at hpc
    have hlast : w + 1 = f → (retired b e).pc = (seqRun f s).pc := fun heq => by
      subst heq
      rw [hnext]
      refine retired_pc_congr b ?_
      rw [h.pc_of_last h0 rfl hi.fetches h.alive, hapc, hix.2.2]
    rw [writeBackStep_eq_retired hq, retired_frame] at hinv ⊢
    exact
      { h with
        inv := hinv
        banks := by
          rw [hnext]
          exact hbanks
        memory := ⟨h.memory.params, h.memory.mem, h.memory.dc, h.memory.accesses, h.memory.hits⟩
        wb := rfl
        alike := ⟨h.alike.params, h.alike.tags, h.alike.hits, h.alike.addr, h.alike.count⟩
        pcDone := hlast
        pcNext := fun hlt => (h.pcNext (by omega)).trans (by rw [← hfirst (by omega)])
        bytes := fun z a hz hc => (h.bytes z a hz hc).of_same rfl rfl rfl rfl }

/-- The occupant of `q_MEM` and the instruction of the step at `m` make the same access. -/
theorem Follows.stages (h : Follows s w m x d f e) (b : Behaviour) :
    accessFault b e = accessFault b (seqRun m s).issued ∧
      accessedRecord b e = accessedRecord b (seqRun m s).issued ∧
      accessEvent b e = accessEvent b (seqRun m s).issued ∧
      SameMemory (accessState b e) (accessState b (seqRun m s).issued) :=
  (h.memory.trans (sameMemory_issued _)).stages b

theorem accessFault_of_running {b : Behaviour} (hq : e.qMEM = some b) (hrun : (memoryStep e).run = .running) :
    accessFault b e = none := by
  cases hc : accessFault b e with
  | none => rfl
  | some c =>
    rw [memoryStep_of_fault hq hc] at hrun
    cases hrun

section Accessed

variable {b : Behaviour} {i : Instr} (h : Follows s m m (m + 1) d f e) (hi : Issues (seqRun m s) i)
  (hb : b = (seqRun m s).stageRecord i m) (hnone : accessFault b e = none)
include h hi hb hnone

/-- An access made is the reference's: its run goes on, by the record's stages. -/
theorem Follows.seqRun_of_accessed :
    (seqRun (m + 1) s).run = .running ∧
      seqRun (m + 1) s = retired (accessedRecord b (seqRun m s).issued) (accessState b (seqRun m s).issued) := by
  have hnone' : accessFault ((seqRun m s).stageRecord i m) (seqRun m s).issued = none := hb ▸ (h.stages b).1 ▸ hnone
  have hnext := seqRun_succ_of_step (hi.step_of_no_fault m hnone')
  rw [← hb] at hnext
  refine ⟨?_, hnext⟩
  rw [hnext]
  exact run_retired_accessState _ hi

/-- The engine after the access, with the record gone or waiting for write-back. -/
theorem Follows.accessed {X : Vector (Option FwdEntry) 32} {F : Vector (Option FwdEntry) 32} {q : Option Behaviour}
    (hslot : Slot q w (m + 1) fun b =>
      ∃ i, Issues (seqRun w s) i ∧ isStore i = false ∧ b = accessedRecord ((seqRun w s).stageRecord i w) (seqRun w s).issued)
    (hbanks : e.x = (seqRun w s).x ∧ e.f = (seqRun w s).f) (hdone : w = f → e.pc = (seqRun f s).pc)
    (hinv : ({ accessState b e with fwdX := X, fwdF := F, qMEM := none, qWB := q } : State).EngineInv) :
    Follows s w (m + 1) (m + 1) d f { accessState b e with fwdX := X, fwdF := F, qMEM := none, qWB := q } := by
  obtain ⟨halive, hnext⟩ := h.seqRun_of_accessed hi hb hnone
  obtain ⟨-, -, hevent, hstate⟩ := h.stages b
  obtain ⟨hout, hx, hf, hpc⟩ := accessState_frame b e
  obtain ⟨hrfq, hexq, -, -⟩ := hout.slots
  have hmemory : SameMemory (accessState b e) (seqRun (m + 1) s) := by
    rw [hnext]
    exact hstate.trans (sameMemory_retired _ _).symm
  have htrace : seqTrace seqAccesses (m + 1) s = seqTrace seqAccesses m s ++ accessEvent b e := by
    rw [seqTrace_succ seqAccesses h.alive, hi.seqAccesses_eq m, ← hb, hevent]
  have hbytes : ∀ z a, Pristine z a s → (∀ c ∈ seqTrace seqAccesses (m + 1) s, c.Avoids a 1) →
      Pristine z a (accessState b e) := fun z a hz hc => by
    rw [htrace] at hc
    exact (h.bytes z a hz fun c h => hc c (List.mem_append_left _ h)).accessState h.inv.base hnone
      fun c h => hc c (List.mem_append_right _ h)
  have hside := hout.sameFetchSide (run := e.run)
  have hle : m + 1 ≤ f := h.ex.bounds.1.trans h.rf.bounds.1
  exact
    { inv := hinv
      run := hout.run.trans h.run
      params := hout.params.trans h.params
      icount := hout.icount.trans h.icount
      fetches := hout.icCounters.1.trans h.fetches
      banks := ⟨hx.trans hbanks.1, hf.trans hbanks.2⟩
      memory := ⟨hmemory.params, hmemory.mem, hmemory.dc, hmemory.accesses, hmemory.hits⟩
      alive := halive
      live := h.live
      wb := hslot
      mem := rfl
      ex := hexq ▸ h.ex
      rf := hrfq ▸ h.rf
      alike := h.alike.of_same_left ⟨hside.params, hside.ic, hside.accesses, hside.hits, hside.guard⟩
      pcDone := fun heq => hpc.trans (hdone heq)
      pcNext := fun _ => by
        have hn := h.pcNext (by omega)
        rw [← hout.guard.1, ← hpc] at hn
        exact hn
      bytes := fun z a hz hc => (hbytes z a hz hc).of_same rfl rfl rfl rfl
      lines := fun hl hd => hout.ic.trans (h.lines hl hd) }

/-- A store changes no register, and the pc only as its fetch did. -/
theorem Follows.of_store (h0 : s.icAccesses = 0) (hst : isStore i = true) :
    (e.x = (seqRun (m + 1) s).x ∧ e.f = (seqRun (m + 1) s).f) ∧ (m + 1 = f → e.pc = (seqRun f s).pc) := by
  obtain ⟨halive, hnext⟩ := h.seqRun_of_accessed hi hb hnone
  have hstay : seqRun (m + 1) s = accessState b (seqRun m s).issued := by
    rw [hnext, retired_of_isStore (by rw [accessedRecord_instr, hb, stageRecord_instr, hst])]
  obtain ⟨-, hx, hf, hpc⟩ := accessState_frame b (seqRun m s).issued
  obtain ⟨hix, hif, hipc⟩ := banks_issued (seqRun m s)
  refine ⟨⟨?_, ?_⟩, fun heq => ?_⟩
  · rw [hstay, hx, hix, h.banks.1]
  · rw [hstay, hf, hif, h.banks.2]
  · rw [h.pc_of_last h0 heq.symm hi.fetches halive, ← heq, hstay, hpc, hipc]

end Accessed

/-- A memory step without a fatal access: a store has left the pipeline, any other record waits for write-back. -/
theorem Follows.memoryStep (h : Follows s m m x d f e) (h0 : s.icAccesses = 0) (hrun : (memoryStep e).run = .running) :
    ∃ w, ((w = m ∧ ∀ b, e.qMEM = some b → isStore b.instr = false) ∨
        (w = x ∧ ∃ b, e.qMEM = some b ∧ isStore b.instr = true)) ∧
      Follows s w x x d f (memoryStep e) := by
  have hwb := h.wb.eq_none
  have hinv := h.inv.engineInv_memoryStep hwb
  have hmem := h.mem
  cases hq : e.qMEM with
  | none =>
    rw [hq] at hmem
    obtain rfl : x = m := hmem
    rw [memoryStep_empty hq]
    exact ⟨x, .inl ⟨rfl, by simp⟩, h⟩
  | some b =>
    rw [hq] at hmem
    obtain ⟨rfl, i, hi, hb⟩ := hmem
    have hnone := accessFault_of_running hq hrun
    have hinstr : b.instr = i := by rw [hb, stageRecord_instr]
    obtain ⟨X, F, hstep⟩ := memoryStep_of_no_fault hq hnone
    have hle : m + 1 ≤ f := h.ex.bounds.1.trans h.rf.bounds.1
    rw [hwb, hinstr] at hstep
    cases hst : isStore i with
    | true =>
      rw [hst, if_pos rfl] at hstep
      rw [hstep] at hinv ⊢
      obtain ⟨hbanks, hdone⟩ := h.of_store hi hb hnone h0 hst
      exact ⟨m + 1, .inr ⟨rfl, b, rfl, hinstr ▸ hst⟩, h.accessed hi hb hnone rfl hbanks hdone hinv⟩
    | false =>
      rw [hst, if_neg nofun] at hstep
      rw [hstep] at hinv ⊢
      have hrec : accessedRecord b e = accessedRecord ((seqRun m s).stageRecord i m) (seqRun m s).issued := by
        rw [(h.stages b).2.1, hb]
      refine ⟨m, .inl ⟨rfl, ?_⟩, h.accessed hi hb hnone ⟨rfl, i, hi, hst, hrec⟩ h.banks (fun heq => by omega) hinv⟩
      rintro b ⟨⟩
      exact hinstr ▸ hst

/-- Execute fills the record, which is then that of the step at `m`. -/
theorem Follows.executeStep (h : Follows s w m m d f e) : Follows s w m d d f (executeStep e) := by
  have hqmem := h.mem.eq_none
  have hinv := h.inv.engineInv_executeStep hqmem
  have hex := h.ex
  cases hq : e.qEX with
  | none =>
    rw [hq] at hex
    obtain rfl : d = m := hex
    rw [executeStep_empty hq]
    exact h
  | some b =>
    rw [hq] at hex
    obtain ⟨rfl, hb⟩ := hex
    obtain ⟨i, hi, hb⟩ := hb h.alive
    have hstep := executeStep_some hq
    rw [hstep] at hinv ⊢
    exact
      { h with
        inv := hinv
        memory := ⟨h.memory.params, h.memory.mem, h.memory.dc, h.memory.accesses, h.memory.hits⟩
        mem := ⟨rfl, i, hi, by rw [hb]; rfl⟩
        ex := rfl
        alike := ⟨h.alike.params, h.alike.tags, h.alike.hits, h.alike.addr, h.alike.count⟩
        bytes := fun z a hz hc => (h.bytes z a hz hc).of_same rfl rfl rfl rfl }

end Steps

end Sys2Proof.Machine

/-! Ends of the engine's run (50_pipeline.md R343, R344), and decode: an instruction is issued with the operands the
reference's step has. -/

namespace Sys2Proof.Machine

/-- The engine has ended like the reference's run before its `n`-th step, which has ended too: but for what the engine has
fetched and issued ahead of a fatal data access. -/
structure Ended (s : State) (n : Nat) (e : State) : Prop where
  ended  : (seqRun n s).run ≠ .running
  run    : e.run = (seqRun n s).run
  banks  : e.x = (seqRun n s).x ∧ e.f = (seqRun n s).f
  memory : SameMemory e (seqRun n s)
  bytes  : ∀ z a, Pristine z a s → (∀ c ∈ seqTrace seqAccesses n s, c.Avoids a 1) → Pristine z a e
  icount : (seqRun n s).icount ≤ e.icount ∧ e.icount ≤ (seqRun n s).icount + 1 ∧
    (¬ (seqRun n s).run.IsDataFault → e.icount = (seqRun n s).icount)
  front  : ∃ k ≤ 2, (k ≠ 0 → (seqRun n s).run.IsDataFault) ∧ e.icAccesses = (seqRun n s).icAccesses + k ∧
    e.pc = (seqRun n s).pc + BitVec.ofNat 32 (4 * k) ∧ FetchAlike e (fetchAhead k (seqRun n s))
  lines  : s.NoStoreIntoFilledLines → ¬ (seqRun n s).run.IsDataFault → e.ic = (seqRun n s).ic

theorem isDataFault_of_accessFault {b : Behaviour} {s : State} {c : Fault} (h : accessFault b s = some c) :
    (RunState.fatal c).IsDataFault := by
  obtain ⟨n, -, hc⟩ := Option.bind_eq_some_iff.1 h
  obtain ⟨-, rfl⟩ | ⟨-, -, rfl⟩ := accessCheck_eq_some hc
  · exact ⟨_, .inl rfl⟩
  · exact ⟨_, .inr rfl⟩

section Ahead

variable {s : State} {f : Nat}

/-- A step that fetches is one more fetch. -/
theorem icAccesses_seqRun_succ (h0 : s.icAccesses = 0) (hf : (seqRun f s).Fetches) :
    (seqRun (f + 1) s).icAccesses = f + 1 := by
  rw [icAccesses_step hf (step_seqRun hf.1), (counts_of_running hf.1).2, h0, Nat.zero_add]

theorem aheadOf_of_fetches (h0 : s.icAccesses = 0) (hf : (seqRun f s).Fetches) :
    aheadOf s (f + 1) = seqRun (f + 1) s := by
  rw [aheadOf, icAccesses_seqRun_succ h0 hf, Nat.sub_self]
  rfl

/-- A run that a data access has ended made its fetches, the last at the address before the pc. -/
theorem fetches_of_dataFault (h0 : s.icAccesses = 0) (hr : s.run = .running) (h : (seqRun f s).run.IsDataFault) :
    (seqRun f s).icAccesses ≤ f ∧ (seqRun f s).lgAddr = some ((seqRun f s).pc - 4) := by
  obtain ⟨k, hk, i, hi, hno, hstep⟩ := exists_data_fault_step hr h
  refine ⟨?_, ?_⟩
  · rw [icAccesses_step hi.fetches hstep, (counts_of_running hi.fetches.1).2, h0]
    omega
  · rw [lgAddr_step hi.fetches hstep, hi.pc_step hstep hno, BitVec.add_sub_cancel]

theorem aheadOf_succ_of_dataFault (h0 : s.icAccesses = 0) (hr : s.run = .running) (h : (seqRun f s).run.IsDataFault) :
    aheadOf s (f + 1) = (fetchWord (aheadOf s f)).2 := by
  have hle := (fetches_of_dataFault h0 hr h).1
  rw [aheadOf, aheadOf, seqRun_eq_of_ended (isDataFault_ne_running h) f.le_succ, Nat.succ_sub hle, fetchAhead_succ_last]

end Ahead

section Ends

variable {s e : State} {w m x d f : Nat}

/-- A fatal access ends both runs alike (R343 c, R344). -/
theorem Follows.memoryStep_ends (h : Follows s m m x d f e) (h0 : s.icAccesses = 0) (hc0 : s.icount = 0)
    (hr : s.run = .running) (hends : (Machine.memoryStep e).run ≠ .running) :
    x = m + 1 ∧ Ended s (m + 1) (Machine.memoryStep e) := by
  have hmem := h.mem
  cases hq : e.qMEM with
  | none =>
    rw [memoryStep_empty hq] at hends
    exact absurd h.run hends
  | some b =>
    rw [hq] at hmem
    obtain ⟨rfl, i, hi, hb⟩ := hmem
    have hfault := (h.stages b).1
    cases hc : accessFault b e with
    | none =>
      obtain ⟨X, F, hstep⟩ := memoryStep_of_no_fault hq hc
      rw [hstep] at hends
      exact absurd ((accessState_frame b e).1.run.trans h.run) hends
    | some c =>
      have hc' : accessFault ((seqRun m s).stageRecord i m) (seqRun m s).issued = some c := hb ▸ hfault ▸ hc
      have hnext := seqRun_succ_of_step (hi.step_of_fault m hc')
      have hdata : (seqRun (m + 1) s).run.IsDataFault := by
        rw [hnext]
        exact isDataFault_of_accessFault hc
      have hended := isDataFault_ne_running hdata
      have hdf := h.ex.bounds
      have hff := h.rf.bounds
      have hcount : (seqRun (m + 1) s).icAccesses = m + 1 := icAccesses_seqRun_succ h0 hi.fetches
      have hahead : aheadOf s f = fetchAhead (f - (m + 1)) (seqRun (m + 1) s) := by
        rw [aheadOf, seqRun_eq_of_ended hended (by omega), hcount]
      have hicount : (seqRun (m + 1) s).icount = m + 1 := by
        rw [hi.icount_step (step_seqRun h.alive), (counts_of_running h.alive).1, hc0, Nat.zero_add]
      have hpc : e.pc = (aheadOf s f).pc := by
        have haddr := h.alike.addr
        rw [h.pcNext (by omega), hahead, lgAddr_fetchAhead (fetches_of_dataFault h0 hr hdata).2] at haddr
        rw [hahead, ← BitVec.sub_add_cancel e.pc 4, Option.some.inj haddr, BitVec.sub_add_cancel]
      rw [hahead, fetchAhead_frame] at hpc
      rw [memoryStep_of_fault hq hc]
      refine ⟨rfl,
        { ended := hended
          run := by rw [hnext]; rfl
          banks := ?_
          memory := ?_
          bytes := fun z a hz hcs => (h.bytes z a hz fun c hmem => hcs c (accesses_of_prefix hmem m.le_succ)).of_same
            rfl rfl rfl rfl
          icount := ?_
          front := ⟨f - (m + 1), by omega, fun _ => hdata, ?_, hpc, ?_⟩
          lines := fun _ hno => absurd hdata hno }⟩
      · obtain ⟨hx, hf, -⟩ := banks_issued (seqRun m s)
        rw [hnext]
        exact ⟨h.banks.1.trans hx.symm, h.banks.2.trans hf.symm⟩
      · rw [hnext]
        have hissued := h.memory.trans (sameMemory_issued _)
        exact ⟨hissued.params, hissued.mem, hissued.dc, hissued.accesses, hissued.hits⟩
      · have hd : (raiseFatal c e).icount = d := h.icount
        rw [hicount, hd]
        exact ⟨by omega, by omega, fun hno => absurd hdata hno⟩
      · have hf : (raiseFatal c e).icAccesses = f := h.fetches
        rw [hcount, hf]
        omega
      · rw [← hahead]
        exact ⟨h.alike.params, h.alike.tags, h.alike.hits, h.alike.addr, h.alike.count⟩

/-! ### Operands (R337, R338) -/

/-- Registers at the memory place: what write-back has left, and its occupant's value. -/
theorem Follows.committed_memory (h : Follows s w m x d f e) {r : RegRef} (hr : r ≠ xr 0) :
    (seqRun m s).committed r = ((uncommitted e.qWB r).map FwdEntry.value).getD (e.committed r) := by
  have hbanks : e.committed r = (seqRun w s).committed r := committed_congr h.banks.1 h.banks.2 r
  have hwb := h.wb
  rw [hbanks]
  cases hq : e.qWB with
  | none =>
    rw [hq] at hwb
    obtain rfl : m = w := hwb
    rfl
  | some b =>
    rw [hq] at hwb
    obtain ⟨rfl, i, hi, -, hb⟩ := hwb
    obtain ⟨-, hnext⟩ := hi.seqRun_succ h.alive w
    rw [hnext, ← hb, committed_retired b _ hr, committed_accessState_issued]

/-- Registers at the execute place, unless they wait for a load. -/
theorem Follows.committed_executed (h : Follows s w m x d f e) (hrun : (seqRun x s).run = .running) {r : RegRef}
    (hr : r ≠ xr 0) (hload : ∀ b ∈ e.qMEM, isLoad b.instr = true → destOf b.instr ≠ some r) :
    (seqRun x s).committed r = ((uncommitted e.qMEM r).map FwdEntry.value).getD ((seqRun m s).committed r) := by
  have hmem := h.mem
  cases hq : e.qMEM with
  | none =>
    rw [hq] at hmem
    obtain rfl : x = m := hmem
    rfl
  | some b =>
    rw [hq] at hmem
    obtain ⟨rfl, i, hi, hb⟩ := hmem
    obtain ⟨-, hnext⟩ := hi.seqRun_succ hrun m
    have hvalue : uncommitted (some (accessedRecord b (seqRun m s).issued)) r = uncommitted (some b) r := by
      cases hl : isLoad b.instr with
      | true =>
        have hne := hload b hq hl
        rw [uncommitted_of_not_dest hne, uncommitted_of_not_dest (by rwa [accessedRecord_instr])]
      | false =>
        have hnone : loadOf b.instr = none := by simpa [isLoad] using hl
        simp only [accessedRecord, hnone]
    rw [hnext, committed_retired _ _ hr, ← hb, hvalue, committed_accessState_issued]

/-- A source that waits for no load reads as the reference's register. -/
theorem Follows.fetchSource_eq (h : Follows s w m x d f e) (hrun : (seqRun x s).run = .running) {r : RegRef}
    (hload : r ≠ xr 0 → ∀ b ∈ e.qMEM, isLoad b.instr = true → destOf b.instr ≠ some r) :
    fetchSource e r = (seqRun x s).committed r := by
  by_cases hr : r = xr 0
  · rw [hr]
    rfl
  · have hentry : ∀ en, e.inFlight r = some en → fetchSource e r = en.value := fun en hen =>
      fetchSource_of_forwarded hr ((h.inv.coherent r hr).1 en hen)
    rw [h.committed_executed hrun hr (hload hr), h.committed_memory hr]
    cases hm : uncommitted e.qMEM r with
    | some en =>
      refine hentry en ?_
      rw [State.inFlight, hm]
      rfl
    | none =>
      cases hw : uncommitted e.qWB r with
      | some en =>
        refine hentry en ?_
        rw [State.inFlight, hm, hw]
        rfl
      | none =>
        refine h.inv.fetchSource_of_not_inFlight ?_
        rw [State.inFlight, hm, hw]
        rfl

/-! ### Decode (R332, R341, R343 a) -/

/-- The word in `q_RF` was fetched from the address before the pc, by the reference too. -/
theorem Follows.pc_of_qRF (h : Follows s w m x d f e) (h0 : s.icAccesses = 0) (hf : f = d + 1) (hlt : w < f)
    (hd : (seqRun d s).Fetches) : e.pc - 4 = (seqRun d s).pc := by
  have haddr := h.alike.addr
  rw [h.pcNext hlt, hf, aheadOf_of_fetches h0 hd, lgAddr_step hd (step_seqRun hd.1)] at haddr
  exact Option.some.inj haddr

/-- An instruction that waits for no load is issued with the reference's operands. -/
theorem Follows.registerFetch (h : Follows s w m d d f e) (h0 : s.icAccesses = 0) {v : Word} {i : Instr}
    (hq : e.qRF = some v) (hv : decodeWord v = .instr i) (hi : interlocked i e = false) :
    f = d + 1 ∧ Follows s w m d (d + 1) f (Machine.registerFetch i e) := by
  have hex := h.ex.eq_none
  have hinv := h.inv.engineInv_registerFetch hq hex i
  have hrf := h.rf
  rw [hq] at hrf
  obtain ⟨rfl, hword⟩ := hrf
  have hwd : w < d + 1 := by
    have h1 := h.wb.bounds
    have h2 := h.mem.bounds
    omega
  have hissues : (seqRun d s).run = .running → Issues (seqRun d s) i := fun hrun => by
    obtain ⟨hf, rfl⟩ := hword hrun
    exact ⟨hf, hv⟩
  have hrecord : (seqRun d s).run = .running → fetchedRecord i e = (seqRun d s).issued.recordOf i d := fun hrun => by
    obtain ⟨hx, hf, -⟩ := banks_issued (seqRun d s)
    refine (fetchedRecord_eq_recordOf (u := (seqRun d s).issued) (fun r hsrc => ?_) ?_).trans
      (congrArg ((seqRun d s).issued.recordOf i) h.icount)
    · rw [committed_congr hx hf]
      refine h.fetchSource_eq hrun fun hr b hb hl hd => ?_
      rw [interlocked_of_load hb hl hd hr hsrc] at hi
      cases hi
    · rw [State.originPc_issued]
      exact h.pc_of_qRF h0 rfl hwd (hword hrun).1
  have hlive : (seqRun (d + 1) s).run = .running ∨ (seqRun (d + 1) s).run.IsDataFault := by
    obtain hrun | hdata := h.live
    · exact (hissues hrun).run_step (step_seqRun hrun)
    · rw [seqRun_eq_of_ended (isDataFault_ne_running hdata) d.le_succ]
      exact .inr hdata
  refine ⟨rfl,
    { h with
      inv := hinv
      icount := congrArg (· + 1) h.icount
      memory := ⟨h.memory.params, h.memory.mem, h.memory.dc, h.memory.accesses, h.memory.hits⟩
      live := hlive
      ex := ⟨rfl, fun hrun => ⟨i, hissues hrun, hrecord hrun⟩⟩
      rf := rfl
      alike := ⟨h.alike.params, h.alike.tags, h.alike.hits, h.alike.addr, h.alike.count⟩
      bytes := fun z a hz hc => (h.bytes z a hz hc).of_same rfl rfl rfl rfl }⟩

/-- A word that selects no instruction ends both runs alike, once it is the oldest. -/
theorem Follows.rejected_ends (h : Follows s w m d d f e) (h0 : s.icAccesses = 0) (hc0 : s.icount = 0) {v : Word}
    {er : DecodeError} (hq : e.qRF = some v) (hv : decodeWord v = .rejected er) (hmem : e.qMEM = none) (hwb : e.qWB = none) :
    w = d ∧ f = d + 1 ∧ Ended s (d + 1) (raiseFatal (decodeFault er v (e.pc - 4)) { e with qRF := none }) := by
  have hm := h.mem
  have hw := h.wb
  have hrf := h.rf
  rw [hmem] at hm
  rw [hwb] at hw
  rw [hq] at hrf
  obtain rfl : d = m := hm
  obtain rfl : d = w := hw
  obtain ⟨rfl, hword⟩ := hrf
  obtain ⟨hf, rfl⟩ := hword h.alive
  have ⟨hrun, hg, _⟩ := hf
  have hpc := h.pc_of_qRF h0 rfl d.lt_succ_self hf
  have hahead := h.alike
  rw [aheadOf_of_fetches h0 hf] at hahead
  have hnext := seqRun_succ_of_step (step_of_rejected hrun hg hf.check hv)
  have hno : ¬ (seqRun (d + 1) s).run.IsDataFault := by
    rw [hnext]
    rintro ⟨a, ha | ha⟩ <;> cases er <;> cases ha
  have hframe := fetchWord_frame (seqRun d s)
  refine ⟨rfl, rfl,
    { ended := ?_
      run := ?_
      banks := ?_
      memory := ?_
      bytes := fun z a hz hcs => (h.bytes z a hz fun c hc => hcs c (accesses_of_prefix hc d.le_succ)).of_same rfl rfl rfl rfl
      icount := ?_
      front := ⟨0, by omega, fun hne => absurd rfl hne, ?_, ?_,
        ⟨hahead.params, hahead.tags, hahead.hits, hahead.addr, hahead.count⟩⟩
      lines := fun hl hn => h.lines hl hn }⟩
  · rw [hnext]
    nofun
  · rw [hnext, hpc]
    rfl
  · rw [hnext, hframe]
    exact h.banks
  · rw [hnext, hframe]
    exact ⟨h.memory.params, h.memory.mem, h.memory.dc, h.memory.accesses, h.memory.hits⟩
  · have hcount : (seqRun (d + 1) s).icount = d := by
      rw [hnext, hframe]
      exact (counts_of_running hrun).1.trans (by rw [hc0, Nat.zero_add])
    have he : (raiseFatal (decodeFault er (fetchWord (seqRun d s)).1 (e.pc - 4)) { e with qRF := none }).icount = d := h.icount
    rw [hcount, he]
    exact ⟨Nat.le_refl d, d.le_succ, fun _ => rfl⟩
  · rw [icAccesses_seqRun_succ h0 hf]
    exact h.fetches
  · have hpc' : e.pc = (seqRun d s).pc + 4 := by rw [← hpc, BitVec.sub_add_cancel]
    rw [hnext, hframe]
    exact hpc'.trans (BitVec.add_zero _).symm

/-- What decode can do: wait for an older instruction, issue, or end the run. -/
theorem Follows.decodeStep (h : Follows s w m d d f e) (h0 : s.icAccesses = 0) (hc0 : s.icount = 0) :
    (Machine.decodeStep e = e ∧ (w = d → f = d)) ∨
      (f = d + 1 ∧ Follows s w m d (d + 1) f (Machine.decodeStep e)) ∨
      (w = d ∧ f = d + 1 ∧ Ended s (d + 1) (Machine.decodeStep e)) := by
  have hempty : w = d → e.qMEM = none ∧ e.qWB = none := fun hw => by
    have h1 := h.wb.bounds
    have h2 := h.mem.bounds
    obtain rfl : m = d := by omega
    subst hw
    exact ⟨h.mem.eq_none, h.wb.eq_none⟩
  cases hq : e.qRF with
  | none =>
    have hrf := h.rf
    rw [hq] at hrf
    exact .inl ⟨decodeStep_empty hq, fun _ => hrf⟩
  | some v =>
    obtain ⟨er, hv, hmem, hwb, hstep⟩ | ⟨er, -, hocc, hstep⟩ | ⟨i, -, hi, hstep⟩ | ⟨i, hv, hi, hstep⟩ := decodeStep_cases hq
    · obtain ⟨hw, hf, hends⟩ := h.rejected_ends h0 hc0 hq hv hmem hwb
      rw [hstep]
      exact .inr (.inr ⟨hw, hf, hends⟩)
    · refine .inl ⟨hstep, fun hw => ?_⟩
      obtain ⟨hmem, hwb⟩ := hempty hw
      exact absurd hocc (by simp [hmem, hwb])
    · refine .inl ⟨hstep, fun hw => ?_⟩
      rw [interlocked_of_qMEM_none (hempty hw).1] at hi
      cases hi
    · rw [hstep]
      exact .inr (.inl (h.registerFetch h0 hq hv hi))

end Ends

end Sys2Proof.Machine

/-! Fetch (50_pipeline.md R331, R342, R345): the engine fetches at the reference's addresses, and, under the premise of R361,
the same words. -/

namespace Sys2Proof.Machine

/-- A fetch is made (R331): it is due, the guard does not fire and the address passes its checks. -/
def State.MakesFetch (e : State) : Prop :=
  fetchDue e = true ∧ guardCount e.pc e < Config.livenessN ∧ fetchCheck e.params e.pc = none

theorem State.MakesFetch.fetchStep_eq {e : State} (h : e.MakesFetch) :
    fetchStep e = { (fetchWord e).2 with qRF := some (fetchWord e).1 } := by
  obtain ⟨hdue, hg, hc⟩ := h
  obtain ⟨hge, -⟩ | ⟨-, ⟨c, hc', -⟩ | ⟨c, hc', -⟩ | ⟨-, hstep⟩⟩ := fetchStep_cases hdue
  · omega
  · cases hc.symm.trans hc'
  · cases hc.symm.trans hc'
  · exact hstep

section Fetch

variable {s e : State} {w m x d f : Nat}

/-- An occupied slot below the fetch place: the step before that place is the one its record is of. -/
theorem Follows.exists_youngest (h : Follows s w m x d f e) (hdue : fetchDue e = true) (hlt : w < f)
    (hrun : (seqRun f s).run = .running) :
    ∃ k, f = k + 1 ∧ ∃ i, Issues (seqRun k s) i ∧ isBranchOrJump i = false := by
  obtain ⟨hqrf, hqex, hqmem, hqwb⟩ := fetchDue_eq_true.1 hdue
  have hrf := h.rf
  rw [hqrf] at hrf
  obtain rfl : f = d := hrf
  by_cases hxd : x < f
  · obtain ⟨b, hq, rfl, hb⟩ := h.ex.exists_some hxd
    obtain ⟨i, hi, rfl⟩ := hb (running_of_le hrun x.le_succ)
    rw [hq] at hqex
    exact ⟨x, rfl, i, hi, hqex⟩
  · obtain rfl : x = f := by
      have := h.ex.bounds
      omega
    by_cases hmx : m < x
    · obtain ⟨b, hq, rfl, i, hi, rfl⟩ := h.mem.exists_some hmx
      rw [hq, holdsTransfer, stageRecord_instr] at hqmem
      exact ⟨m, rfl, i, hi, hqmem⟩
    · obtain rfl : m = x := by
        have := h.mem.bounds
        omega
      obtain ⟨b, hq, rfl, i, hi, -, rfl⟩ := h.wb.exists_some hlt
      rw [hq, holdsTransfer, accessedRecord_instr, stageRecord_instr] at hqwb
      exact ⟨w, rfl, i, hi, hqwb⟩

/-- A due fetch is at the reference's address, or at the next one ahead. -/
theorem Follows.pc_of_due (h : Follows s w m x d f e) (h0 : s.icAccesses = 0) (hr : s.run = .running)
    (hdue : fetchDue e = true) : e.pc = (aheadOf s f).pc := by
  have hbounds := h.wb.bounds.1.trans (h.mem.bounds.1.trans (h.ex.bounds.1.trans h.rf.bounds.1))
  by_cases hlt : w < f
  · have haddr := h.alike.addr
    rw [h.pcNext hlt] at haddr
    have hahead : (aheadOf s f).lgAddr = some ((aheadOf s f).pc - 4) := by
      have hrf := h.rf
      rw [(fetchDue_eq_true.1 hdue).1] at hrf
      obtain rfl : f = d := hrf
      obtain hrun | hdata := h.live
      · obtain ⟨k, rfl, i, hi, hno⟩ := h.exists_youngest hdue hlt hrun
        rw [aheadOf_of_running h0 hrun, lgAddr_step hi.fetches (step_seqRun hi.fetches.1),
          hi.pc_step (step_seqRun hi.fetches.1) hno, BitVec.add_sub_cancel]
      · exact lgAddr_fetchAhead (fetches_of_dataFault h0 hr hdata).2 _
    rw [hahead] at haddr
    rw [← BitVec.sub_add_cancel e.pc 4, Option.some.inj haddr, BitVec.sub_add_cancel]
  · obtain rfl : w = f := by omega
    have hm : m = w := by
      have h1 := h.wb.bounds
      have h2 := h.mem.bounds
      have h3 := h.ex.bounds
      have h4 := h.rf.bounds
      omega
    rw [aheadOf_of_running h0 (hm ▸ h.alive)]
    exact h.pcDone rfl

/-- With every record retired, all places are one. -/
theorem Follows.places_of_done (h : Follows s f m x d f e) : m = f ∧ x = f ∧ d = f := by
  have h1 := h.wb.bounds
  have h2 := h.mem.bounds
  have h3 := h.ex.bounds
  have h4 := h.rf.bounds
  omega

/-- Before that, the pc is not the address last fetched. -/
theorem Follows.guardCount_of_pending (h : Follows s w m x d f e) (hlt : w < f) : guardCount e.pc e < Config.livenessN := by
  refine guardCount_lt_of_ne ?_
  rw [h.pcNext hlt]
  intro heq
  have := Option.some.inj heq
  bv_omega

/-- An end that changes the run state alone, at a place where all records have retired. -/
theorem Follows.ended_of_done (h : Follows s f m x d f e) (h0 : s.icAccesses = 0) (hc0 : s.icount = 0) {run : RunState}
    (hnext : seqRun (f + 1) s = { seqRun f s with run := run }) (hne : run ≠ .running) :
    Ended s (f + 1) { e with run := run } := by
  obtain ⟨rfl, rfl, rfl⟩ := h.places_of_done
  have hahead := h.alike
  rw [aheadOf_of_running h0 h.alive] at hahead
  obtain ⟨hcount, hfetches⟩ := counts_of_running h.alive
  rw [h0, Nat.zero_add] at hfetches
  rw [hc0, Nat.zero_add] at hcount
  refine
    { ended := by rw [hnext]; exact hne
      run := by rw [hnext]
      banks := by rw [hnext]; exact h.banks
      memory := by
        rw [hnext]
        exact ⟨h.memory.params, h.memory.mem, h.memory.dc, h.memory.accesses, h.memory.hits⟩
      bytes := fun z a hz hcs => (h.bytes z a hz fun c hc => hcs c (accesses_of_prefix hc d.le_succ)).of_same rfl rfl rfl rfl
      icount := ?_
      front := ⟨0, by omega, fun hne => absurd rfl hne, ?_, ?_, ?_⟩
      lines := fun hl _ => ?_ }
  · have he : ({ e with run := run } : State).icount = d := h.icount
    have hr : ({ seqRun d s with run := run } : State).icount = d := hcount
    rw [hnext, he, hr]
    exact ⟨Nat.le_refl d, d.le_succ, fun _ => rfl⟩
  · rw [hnext]
    exact h.fetches.trans hfetches.symm
  · rw [hnext]
    exact (h.pcDone rfl).trans (BitVec.add_zero _).symm
  · rw [hnext]
    exact ⟨hahead.params, hahead.tags, hahead.hits, hahead.addr, hahead.count⟩
  · rw [hnext]
    exact h.lines hl fun hd => isDataFault_ne_running hd h.alive

section Words

variable {image : List Word} (hs : Fresh image s) (hcode : s.NoStoreIntoCode)
include hs

theorem Fresh.pristine_engine (h : Follows s w m x d f e) {a n : Nat}
    (havoids : ∀ c ∈ seqTrace seqAccesses m s, c.Avoids a n) : ∀ k < n, Pristine (s.mem.read (a + k)) (a + k) e :=
  fun _ hk => h.bytes _ _ (hs.pristine _) fun c hc => avoids_byte (havoids c hc) hk

theorem Fresh.pristine_reference {k a n : Nat} (havoids : ∀ c ∈ seqTrace seqAccesses k s, c.Avoids a n) :
    ∀ j < n, Pristine (s.mem.read (a + j)) (a + j) (seqRun k s) :=
  fun _ hj => pristine_seqRun hs.inv.base (hs.pristine _) fun c hc => avoids_byte (havoids c hc) hj

include hcode

/-- The reference fetches the image's words (R361). -/
theorem Fresh.fetchedAtReset_reference {k : Nat} (hf : (seqRun k s).Fetches) :
    FetchedAtReset image (seqRun k s).mem ((seqRun k s).pc, (fetchWord (seqRun k s)).1) :=
  hs.fetchedAtReset (inv_seqRun hs.inv.base k).params hf.2.2.1
    (hs.pristine_reference fun _ hc => hcode.avoids hs.inv.base.params hf hc)

/-- So does the engine, where the reference fetches. -/
theorem Fresh.fetchedAtReset_engine (h : Follows s w m x d f e) (hle : m ≤ f) (hf : (seqRun f s).Fetches)
    (hpc : e.pc = (seqRun f s).pc) : FetchedAtReset image e.mem (e.pc, (fetchWord e).1) := by
  refine hs.fetchedAtReset h.inv.base.params (hpc ▸ hf.2.2.1) (hs.pristine_engine h fun c hc => ?_)
  rw [hpc]
  exact hcode.avoids hs.inv.base.params hf (accesses_of_prefix hc hle)

end Words

/-- Equal caches stay equal over a fetch at one address, if a line it fills has one content. -/
theorem ic_fetchWord_congr {u v : State} (hp : u.params = v.params) (hpc : u.pc = v.pc) (hic : u.ic = v.ic)
    (hmem : Cache.lookup v.params.ic v.ic v.pc.toNat = none → ∀ k < v.params.ic.line,
      u.mem.read (baseOf v.params.ic v.pc.toNat + k) = v.mem.read (baseOf v.params.ic v.pc.toNat + k)) :
    (fetchWord u).2.ic = (fetchWord v).2.ic := by
  cases hl : Cache.lookup v.params.ic v.ic v.pc.toNat with
  | some l => rw [ic_fetchWord_of_hit hl, ic_fetchWord_of_hit (s := u) (by rw [hp, hpc, hic, hl]), hp, hpc, hic]
  | none =>
    have hblock := Memory.readBlock_congr _ _ (hmem hl)
    have hfilled : filledLine v.params.ic u.mem v.pc.toNat = filledLine v.params.ic v.mem v.pc.toNat := by
      rw [filledLine, hblock, filledLine]
    rw [ic_fetchWord_of_miss hl, ic_fetchWord_of_miss (s := u) (by rw [hp, hpc, hic, hl]), hp, hpc, hic, hblock, hfilled]

section Made

variable (h : Follows s w m x d f e) (hmade : e.MakesFetch)
include h hmade

theorem Follows.decoded_of_fetch : d = f := by
  have hrf := h.rf
  rw [(fetchDue_eq_true.1 hmade.1).1] at hrf
  exact hrf.symm

variable (h0 : s.icAccesses = 0) (hr : s.run = .running)
include h0 hr

/-- Where the engine fetches and the reference runs on, it fetches too. -/
theorem Follows.fetches_of_fetch (hrun : (seqRun f s).run = .running) : e.pc = (seqRun f s).pc ∧ (seqRun f s).Fetches := by
  obtain ⟨hdue, hg, hc⟩ := hmade
  have hpc := h.pc_of_due h0 hr hdue
  have hguard := h.alike.guardCount_eq e.pc
  rw [aheadOf_of_running h0 hrun] at hpc hguard
  rw [hguard, hpc] at hg
  rw [h.params, ← params_seqRun f, hpc] at hc
  exact ⟨hpc, hrun, hg, fetchCheck_eq_none.1 hc⟩

/-- Caches stay alike over a fetch, the reference's or one ahead of its end. -/
theorem Follows.alike_fetched : FetchAlike (fetchWord e).2 (aheadOf s (f + 1)) := by
  have hlive := h.live
  rw [h.decoded_of_fetch hmade] at hlive
  have hfetched := h.alike.fetchWord (by rw [← h.alike.params]; exact h.inv.base.params.2.1.2.2.1)
    (h.pc_of_due h0 hr hmade.1)
  obtain hrun | hdata := hlive
  · obtain ⟨-, hf⟩ := h.fetches_of_fetch hmade h0 hr hrun
    rw [aheadOf_of_running h0 hrun] at hfetched
    rw [aheadOf_of_fetches h0 hf]
    exact hfetched.of_same_right (sameFetchSide_step hf (step_seqRun hrun))
  · rwa [aheadOf_succ_of_dataFault h0 hr hdata]

variable {image : List Word} (hs : Fresh image s) (hcode : s.NoStoreIntoCode)
include hs

/-- Whole lines stay equal too, under log 20's premise. -/
theorem Follows.lines_fetched (hl : s.NoStoreIntoFilledLines) (hrun : (seqRun f s).run = .running) :
    (fetchWord e).2.ic = (seqRun (f + 1) s).ic := by
  obtain ⟨hpc, hf⟩ := h.fetches_of_fetch hmade h0 hr hrun
  rw [(sameFetchSide_step hf (step_seqRun hrun)).ic]
  refine ic_fetchWord_congr (h.params.trans (params_seqRun f).symm) hpc
    (h.lines hl fun hd => isDataFault_ne_running hd hrun) fun hmiss k hk => ?_
  rw [params_seqRun] at hmiss hk ⊢
  have havoids := fun c hmem => hl.avoids (c := c) hs.inv.base.params hf hmiss hmem
  have hle : m ≤ f := h.mem.bounds.1.trans (h.ex.bounds.1.trans h.rf.bounds.1)
  rw [(hs.pristine_engine h (fun c hmem => havoids c (accesses_of_prefix hmem hle)) k hk).mem,
    (hs.pristine_reference havoids k hk).mem]

include hcode

/-- A fetch made is the reference's next, or one ahead of its end. -/
theorem Follows.fetchMade : Follows s w m x d (f + 1) (fetchStep e) := by
  have hinv := h.inv.engineInv_fetchStep
  have halike := h.alike_fetched hmade h0 hr
  obtain rfl := h.decoded_of_fetch hmade
  have hle : w ≤ d ∧ m ≤ d :=
    have hmd := h.mem.bounds.1.trans h.ex.bounds.1
    ⟨h.wb.bounds.1.trans hmd, hmd⟩
  have hword : (seqRun d s).run = .running →
      (seqRun d s).Fetches ∧ (Machine.fetchWord e).1 = (Machine.fetchWord (seqRun d s)).1 := fun hrun => by
    obtain ⟨hpc, hf⟩ := h.fetches_of_fetch hmade h0 hr hrun
    have hengine := (hs.fetchedAtReset_engine hcode h hle.2 hf hpc).1
    rw [hpc] at hengine
    exact ⟨hf, hengine.trans (hs.fetchedAtReset_reference hcode hf).1.symm⟩
  have hlines : s.NoStoreIntoFilledLines → ¬ (seqRun (d + 1) s).run.IsDataFault →
      (Machine.fetchWord e).2.ic = (seqRun (d + 1) s).ic := fun hl hd => by
    obtain hrun | hdata := h.live
    · exact h.lines_fetched hmade h0 hr hs hl hrun
    · rw [seqRun_eq_of_ended (isDataFault_ne_running hdata) d.le_succ] at hd
      exact absurd hdata hd
  rw [hmade.fetchStep_eq] at hinv ⊢
  rw [fetchWord_frame] at hinv halike ⊢
  exact
    { h with
      inv := hinv
      fetches := congrArg (· + 1) h.fetches
      memory := ⟨h.memory.params, h.memory.mem, h.memory.dc, h.memory.accesses, h.memory.hits⟩
      rf := ⟨rfl, hword⟩
      alike := ⟨halike.params, halike.tags, halike.hits, halike.addr, halike.count⟩
      pcDone := fun hw => by omega
      pcNext := fun _ => congrArg some (BitVec.add_sub_cancel e.pc 4).symm
      bytes := fun z a hz hcs => by
        have hbyte := (h.bytes z a hz hcs).fetchWord h.inv.base
        rw [fetchWord_frame] at hbyte
        exact hbyte.of_same rfl rfl rfl rfl
      lines := hlines }

end Made

/-- What fetch can do: wait, though not with every record retired; fetch; or end the run. -/
theorem Follows.fetchStep (h : Follows s w m x d f e) {image : List Word} (hs : Fresh image s) (hcode : s.NoStoreIntoCode) :
    (¬ e.MakesFetch ∧ Machine.fetchStep e = e ∧ w ≠ f) ∨
      (e.MakesFetch ∧ Follows s w m x d (f + 1) (Machine.fetchStep e)) ∨
      (¬ e.MakesFetch ∧ w = f ∧ ¬ (seqRun f s).Fetches ∧ Ended s (f + 1) (Machine.fetchStep e)) := by
  have hempty : w = f → e.qRF = none ∧ e.qEX = none ∧ e.qMEM = none ∧ e.qWB = none := fun hw => by
    subst hw
    obtain ⟨rfl, rfl, rfl⟩ := h.places_of_done
    exact ⟨h.rf.eq_none, h.ex.eq_none, h.mem.eq_none, h.wb.eq_none⟩
  cases hdue : fetchDue e with
  | false =>
    refine .inl ⟨fun hmade => absurd (hdue.symm.trans hmade.1) Bool.false_ne_true, fetchStep_not_due hdue, fun hw => ?_⟩
    obtain ⟨h1, h2, h3, h4⟩ := hempty hw
    rw [fetchDue, h1, h2, h3, h4] at hdue
    cases hdue
  | true =>
    have hw : w ≤ f := h.wb.bounds.1.trans (h.mem.bounds.1.trans (h.ex.bounds.1.trans h.rf.bounds.1))
    have hguard := h.alike.guardCount_eq e.pc
    obtain ⟨hg, hstep⟩ | ⟨hg, ⟨c, hc, hex, hmem, hwb, hstep⟩ | ⟨c, hc, hocc, hstep⟩ | ⟨hc, -⟩⟩ := fetchStep_cases hdue
    · obtain rfl : w = f := by
        by_contra hne
        have := h.guardCount_of_pending (by omega)
        omega
      obtain ⟨rfl, -, -⟩ := h.places_of_done
      refine .inr (.inr ⟨fun hmade => absurd hmade.2.1 (by omega), rfl, ?_, ?_⟩)
      all_goals
        rw [aheadOf_of_running hs.fetches h.alive] at hguard
        rw [hguard, h.pcDone rfl] at hg
      · exact fun hf => absurd hf.2.1 (by omega)
      · rw [hstep]
        exact h.ended_of_done hs.fetches hs.icount (seqRun_succ_of_step (step_of_guard h.alive hg)) nofun
    · have hslots := And.intro h.rf (And.intro h.ex (And.intro h.mem h.wb))
      rw [(fetchDue_eq_true.1 hdue).1, hex, hmem, hwb] at hslots
      obtain ⟨rfl, rfl, rfl, rfl⟩ := hslots
      refine .inr (.inr ⟨fun hmade => (nomatch hc.symm.trans hmade.2.2), rfl, ?_, ?_⟩)
      all_goals
        rw [aheadOf_of_running hs.fetches h.alive] at hguard
        rw [hguard, h.pcDone rfl] at hg
        rw [h.params, ← params_seqRun f, h.pcDone rfl] at hc
      · exact fun hf => nomatch hf.check.symm.trans hc
      · rw [hstep]
        exact h.ended_of_done hs.fetches hs.icount (seqRun_succ_of_step (step_of_failed_fetch h.alive hg hc)) nofun
    · refine .inl ⟨fun hmade => (nomatch hc.symm.trans hmade.2.2), hstep, fun hw => ?_⟩
      obtain ⟨-, h2, h3, h4⟩ := hempty hw
      rw [h2, h3, h4] at hocc
      simp at hocc
    · exact .inr (.inl ⟨⟨hdue, hg, hc⟩, h.fetchMade ⟨hdue, hg, hc⟩ hs.fetches hs.run hs hcode⟩)

end Fetch

end Sys2Proof.Machine

/-! Events (50_pipeline.md R361): what a tick commits, accesses and retires is what the reference's steps between the old
places and the new ones do. -/

namespace Sys2Proof.Machine

/-! ### The events of write-back and memory -/

/-- What write-back retires (R335). -/
def writeBackRetires (e : State) : List Retired :=
  match e.run, e.qWB with
  | .running, some b => [{ seq := b.seq, instr := b.instr }]
  | _, _ => []

/-- What the memory step retires, a store (R334). -/
def memoryRetires (u : State) : List Retired :=
  match u.run, u.qMEM with
  | .running, some b =>
    match storeOf b.instr with
    | some n => if accessCheck u.params (b.addr.getD 0) n = none then [{ seq := b.seq, instr := b.instr }] else []
    | none => []
  | _, _ => []

theorem tickRetired_eq (e : State) : tickRetired e = writeBackRetires e ++ memoryRetires (beforeMemory e) := rfl

section Stages

variable {e : State} {b : Behaviour}

theorem writeBackEvents_of_none (h : e.qWB = none) : tickCommits e = [] ∧ writeBackRetires e = [] := by
  simp [tickCommits, writeBackRetires, h]

theorem writeBackEvents_of_some (hr : e.run = .running) (h : e.qWB = some b) :
    tickCommits e = commitEvents b ∧ writeBackRetires e = [{ seq := b.seq, instr := b.instr }] := by
  simp only [tickCommits, writeBackRetires, hr, h, and_true]
  rfl

theorem memoryEvents_of_none (h : (beforeMemory e).qMEM = none) :
    tickAccesses e = [] ∧ memoryRetires (beforeMemory e) = [] := by
  simp [tickAccesses, memoryRetires, h]

theorem tickAccesses_of_some (hr : (beforeMemory e).run = .running) (h : (beforeMemory e).qMEM = some b) :
    tickAccesses e = accessEvent b (beforeMemory e) := by
  simp only [tickAccesses, hr, h]
  rfl

theorem memoryRetires_of_not_store (h : e.qMEM = some b) (hst : isStore b.instr = false) : memoryRetires e = [] := by
  have hnone : storeOf b.instr = none := by simpa [isStore] using hst
  unfold memoryRetires
  split
  · next hq =>
    cases h.symm.trans hq
    rw [hnone]
  · rfl

theorem memoryRetires_of_store (hr : e.run = .running) (h : e.qMEM = some b) (hst : isStore b.instr = true) :
    memoryRetires e = if accessFault b e = none then [{ seq := b.seq, instr := b.instr }] else [] := by
  obtain ⟨n, hn⟩ := Option.isSome_iff_exists.1 hst
  rw [(stages_of_store (storeOf_dest hst).2 hn).1]
  simp only [memoryRetires, hr, h, hn]

/-- A fatal access is none, and its instruction does not retire. -/
theorem memoryEvents_of_fault {c : Fault} (hr : (beforeMemory e).run = .running) (h : (beforeMemory e).qMEM = some b)
    (hc : accessFault b (beforeMemory e) = some c) : tickAccesses e = [] ∧ memoryRetires (beforeMemory e) = [] := by
  refine ⟨(tickAccesses_of_some hr h).trans (accessEvent_of_fault hc), ?_⟩
  cases hst : isStore b.instr with
  | false => exact memoryRetires_of_not_store h hst
  | true => rw [memoryRetires_of_store hr h hst, hc, if_neg nofun]

end Stages

theorem commitEvents_of_isStore {b : Behaviour} (h : isStore b.instr = true) : commitEvents b = [] := by
  simp only [commitEvents, (storeOf_dest h).1]

section Reference

variable {s : State} {k : Nat}

/-- The events of a step of the reference that its run goes on from. -/
theorem Issues.seqTraces_succ {i : Instr} (hi : Issues (seqRun k s) i) (hc0 : s.icount = 0)
    (hc : accessFault ((seqRun k s).stageRecord i k) (seqRun k s).issued = none) :
    seqTrace seqCommits (k + 1) s = seqTrace seqCommits k s ++
        commitEvents (accessedRecord ((seqRun k s).stageRecord i k) (seqRun k s).issued) ∧
      seqTrace seqRetired (k + 1) s = seqTrace seqRetired k s ++ [{ seq := k, instr := i }] := by
  have hrun := hi.fetches.1
  have hcount := (counts_of_running hrun).1
  rw [hc0, Nat.zero_add] at hcount
  rw [seqTrace_succ _ hrun, seqTrace_succ _ hrun, hi.seqCommits_eq k hc, hi.seqRetired_eq k hc, hcount]
  exact ⟨rfl, rfl⟩

/-- A step that ends the run accesses, commits and retires nothing. -/
theorem seqTraces_of_ends (hr : (seqRun k s).run = .running) (h : (seqRun (k + 1) s).run ≠ .running) :
    seqTrace seqAccesses (k + 1) s = seqTrace seqAccesses k s ∧
      seqTrace seqCommits (k + 1) s = seqTrace seqCommits k s ∧
      seqTrace seqRetired (k + 1) s = seqTrace seqRetired k s := by
  have hnone : seqAccesses (seqRun k s) = [] ∧ seqCommits (seqRun k s) = [] ∧ seqRetired (seqRun k s) = [] := by
    by_cases hi : ∃ i, Issues (seqRun k s) i
    · obtain ⟨i, hi⟩ := hi
      cases hc : accessFault ((seqRun k s).stageRecord i k) (seqRun k s).issued with
      | some c => exact hi.seqEvents_of_fault k hc
      | none =>
        rw [seqRun_succ_of_step (hi.step_of_no_fault k hc)] at h
        exact absurd (run_retired_accessState _ hi) h
    · exact seqEvents_of_not_issues fun i hi' => hi ⟨i, hi'⟩
  obtain ⟨ha, hc, hret⟩ := hnone
  rw [seqTrace_succ _ hr, seqTrace_succ _ hr, seqTrace_succ _ hr, ha, hc, hret]
  simp only [List.append_nil, and_self]

/-- An ended run's trace stays. -/
theorem seqTrace_of_ended {α : Type} (f : State → List α) (hf : f (seqRun k s) = []) {n : Nat}
    (h : (seqRun k s).run ≠ .running) (hkn : k ≤ n) : seqTrace f n s = seqTrace f k s := by
  obtain ⟨j, rfl⟩ := Nat.exists_eq_add_of_le hkn
  induction j with
  | zero => rfl
  | succ j ih =>
    have hlast : seqTrace f 1 (seqRun (k + j) s) = [] := by
      rw [seqRun_eq_of_ended h (Nat.le_add_right k j)]
      by_cases hstep : ∃ t, step (seqRun k s) = .next t
      · obtain ⟨t, hstep⟩ := hstep
        rw [seqTrace_succ_next f hstep, hf]
        rfl
      · exact seqTrace_stopped f 1 fun t ht => hstep ⟨t, ht⟩
    rw [← Nat.add_assoc, seqTrace_add, hlast, List.append_nil, ih (Nat.le_add_right k j)]

end Reference

/-! ### What the engine's places say of them -/

section Follows

variable {s e : State} {w m x d f : Nat}

/-- Write-back commits and retires the step at `w`, if its record is there. -/
theorem Follows.writeBackEvents (h : Follows s w m x d f e) (hc0 : s.icount = 0) :
    seqTrace seqCommits w s ++ tickCommits e = seqTrace seqCommits m s ∧
      seqTrace seqRetired w s ++ writeBackRetires e = seqTrace seqRetired m s := by
  have hwb := h.wb
  cases hq : e.qWB with
  | none =>
    rw [hq] at hwb
    obtain rfl : m = w := hwb
    obtain ⟨hc, hr⟩ := writeBackEvents_of_none hq
    rw [hc, hr, List.append_nil, List.append_nil]
    exact ⟨rfl, rfl⟩
  | some b =>
    rw [hq] at hwb
    obtain ⟨rfl, i, hi, -, rfl⟩ := hwb
    obtain ⟨hnone, -⟩ := hi.seqRun_succ h.alive w
    obtain ⟨hc, hr⟩ := writeBackEvents_of_some h.run hq
    obtain ⟨hc', hr'⟩ := hi.seqTraces_succ hc0 hnone
    rw [hc, hr, hc', hr', accessedRecord_seq, stageRecord_seq, accessedRecord_instr, stageRecord_instr]
    exact ⟨rfl, rfl⟩

variable {u : State} (hu : beforeMemory e = u) (h : Follows s m m x d f u)
include hu h

/-- The memory step makes the access of the step at `m`, if its record is there. -/
theorem Follows.memoryAccesses (hrun : (Machine.memoryStep u).run = .running) :
    seqTrace seqAccesses m s ++ tickAccesses e = seqTrace seqAccesses x s := by
  subst hu
  have hmem := h.mem
  cases hq : (beforeMemory e).qMEM with
  | none =>
    rw [hq] at hmem
    obtain rfl : x = m := hmem
    rw [(memoryEvents_of_none hq).1, List.append_nil]
  | some b =>
    rw [hq] at hmem
    obtain ⟨rfl, i, hi, rfl⟩ := hmem
    rw [seqTrace_succ _ h.alive, hi.seqAccesses_eq m, tickAccesses_of_some h.run hq, (h.stages _).2.2.1]

theorem Follows.memoryEvents_of_ends (hends : (Machine.memoryStep u).run ≠ .running) :
    tickAccesses e = [] ∧ memoryRetires u = [] := by
  subst hu
  cases hq : (beforeMemory e).qMEM with
  | none =>
    rw [memoryStep_empty hq] at hends
    exact absurd h.run hends
  | some b =>
    cases hc : accessFault b (beforeMemory e) with
    | none =>
      obtain ⟨X, F, hstep⟩ := memoryStep_of_no_fault hq hc
      rw [hstep] at hends
      exact absurd ((accessState_frame b _).1.run.trans h.run) hends
    | some c => exact memoryEvents_of_fault h.run hq hc

omit hu in
/-- Only a store retires in the memory step, and it commits nothing. -/
theorem Follows.memoryRetirements (hc0 : s.icount = 0) (hrun : (Machine.memoryStep u).run = .running)
    (hw : (w = m ∧ ∀ b, u.qMEM = some b → isStore b.instr = false) ∨
      (w = x ∧ ∃ b, u.qMEM = some b ∧ isStore b.instr = true)) :
    seqTrace seqCommits m s = seqTrace seqCommits w s ∧
      seqTrace seqRetired m s ++ memoryRetires u = seqTrace seqRetired w s := by
  obtain ⟨rfl, hno⟩ | ⟨rfl, b, hq, hst⟩ := hw
  · refine ⟨rfl, ?_⟩
    cases hq : u.qMEM with
    | none => rw [memoryRetires, hq]; simp
    | some b => rw [memoryRetires_of_not_store hq (hno b hq), List.append_nil]
  · have hmem := h.mem
    rw [hq] at hmem
    obtain ⟨rfl, i, hi, rfl⟩ := hmem
    have hnone := accessFault_of_running hq hrun
    obtain ⟨hc, hr⟩ := hi.seqTraces_succ hc0 (((h.stages _).1.symm).trans hnone)
    rw [hc, hr, commitEvents_of_isStore (by rw [accessedRecord_instr]; exact hst), List.append_nil,
      memoryRetires_of_store h.run hq hst, if_pos hnone, stageRecord_seq, stageRecord_instr]
    exact ⟨rfl, rfl⟩

end Follows

end Sys2Proof.Machine

/-! Ticks from a constructed machine (50_pipeline.md R361): after any number of them the engine is at places of the
reference's run or has ended as it has, with the same events so far. -/

namespace Sys2Proof.Machine

theorem ticks_succ_last (t : Nat) (s : State) : ticks (t + 1) s = tick (ticks t s) := ticks_add t 1 s

theorem tickTrace_succ_last {α : Type} (f : State → List α) (t : Nat) (s : State) :
    tickTrace f (t + 1) s = tickTrace f t s ++ f (ticks t s) := by
  rw [tickTrace_add]
  exact congrArg _ (List.append_nil _)

theorem tick_eq_fetch (e : State) : tick e = whileRunning fetchStep (beforeFetch e) := rfl

/-- What `t` ticks have committed and retired is what the reference has before its `c`-th step, and what they have accessed
what it has before its `a`-th. -/
structure Traced (s : State) (t c a : Nat) : Prop where
  commits  : tickTrace tickCommits t s = seqTrace seqCommits c s
  retired  : tickTrace tickRetired t s = seqTrace seqRetired c s
  accesses : tickTrace tickAccesses t s = seqTrace seqAccesses a s

/-- What they have fetched is what the reference has, but for fetches ahead of its end. -/
def FetchTraced (s : State) (t f : Nat) : Prop :=
  ∃ ahead, tickTrace tickFetches t s = seqTrace seqFetches f s ++ ahead ∧ (ahead ≠ [] → (seqRun f s).run.IsDataFault)

section Fetches

variable {s : State} {t f : Nat} (h : FetchTraced s t f)
include h

theorem FetchTraced.of_no_fetch (hnone : tickFetches (ticks t s) = []) : FetchTraced s (t + 1) f := by
  obtain ⟨ahead, htrace, hahead⟩ := h
  exact ⟨ahead, by rw [tickTrace_succ_last, hnone, List.append_nil, htrace], hahead⟩

/-- A fetch of the reference's. -/
theorem FetchTraced.of_fetch (hrun : (seqRun f s).run = .running) (hfetch : tickFetches (ticks t s) = seqFetches (seqRun f s)) :
    FetchTraced s (t + 1) (f + 1) := by
  obtain ⟨ahead, htrace, hahead⟩ := h
  obtain rfl : ahead = [] := by
    by_contra hne
    exact isDataFault_ne_running (hahead hne) hrun
  refine ⟨[], ?_, fun hne => absurd rfl hne⟩
  rw [tickTrace_succ_last, htrace, hfetch, seqTrace_succ _ hrun, List.append_nil, List.append_nil]

/-- A fetch ahead of a fatal access. -/
theorem FetchTraced.of_fetch_ahead (hdata : (seqRun f s).run.IsDataFault) : FetchTraced s (t + 1) (f + 1) := by
  obtain ⟨ahead, htrace, -⟩ := h
  have hended := isDataFault_ne_running hdata
  refine ⟨ahead ++ tickFetches (ticks t s), ?_, fun _ => ?_⟩
  · rw [tickTrace_succ_last, htrace, seqTrace_of_ended seqFetches (seqEvents_ended hended).1 hended f.le_succ,
      List.append_assoc]
  · rwa [seqRun_eq_of_ended hended f.le_succ]

/-- Fetches after the end are fetches ahead of it. -/
theorem FetchTraced.of_ended {n : Nat} (hended : (seqRun n s).run ≠ .running) (hle : n ≤ f) : FetchTraced s t n := by
  obtain ⟨ahead, htrace, hahead⟩ := h
  rw [seqTrace_of_ended seqFetches (seqEvents_ended hended).1 hended hle] at htrace
  rw [seqRun_eq_of_ended hended hle] at hahead
  exact ⟨ahead, htrace, hahead⟩

/-- A step that ends the run without a fetch. -/
theorem FetchTraced.of_end (hrun : (seqRun f s).run = .running) (hno : ¬ (seqRun f s).Fetches) :
    FetchTraced s t (f + 1) := by
  obtain ⟨ahead, htrace, hahead⟩ := h
  refine ⟨ahead, ?_, fun hne => absurd hrun (isDataFault_ne_running (hahead hne))⟩
  rw [htrace, seqTrace_succ _ hrun, seqFetches, seqFetched_of_not_fetches hno]
  simp

end Fetches

section Ticks

variable {s e : State} {t w m x d f : Nat}

theorem beforeMemory_of_running (hr : e.run = .running) : beforeMemory e = writeBackStep e := whileRunning_of_eq hr

/-- The first four steps of a tick, by whether the memory step ends the run. -/
theorem beforeFetch_of_running (hr : e.run = .running) :
    (e.afterMemory.run ≠ .running → beforeFetch e = e.afterMemory) ∧
      (e.afterMemory.run = .running → beforeFetch e = decodeStep e.afterExecute) := by
  have hw : whileRunning memoryStep (whileRunning writeBackStep e) = e.afterMemory := by
    rw [whileRunning_of_eq hr, whileRunning_of_eq ((run_writeBackStep e).trans hr)]
    rfl
  refine ⟨fun h => ?_, fun h => ?_⟩
  · rw [beforeFetch, hw, whileRunning_of_ne h, whileRunning_of_ne h]
  · have hx : (executeStep e.afterMemory).run = .running := run_afterExecute h
    rw [beforeFetch, hw, whileRunning_of_eq h, whileRunning_of_eq hx, State.afterExecute]

/-- The events of a tick, stage by stage. -/
theorem Traced.succ {k c a a' : Nat} (ht : Traced s t w a)
    (hcommit : seqTrace seqCommits w s ++ tickCommits (ticks t s) = seqTrace seqCommits k s)
    (hretire : seqTrace seqRetired w s ++ writeBackRetires (ticks t s) = seqTrace seqRetired k s)
    (hmemory : seqTrace seqCommits k s = seqTrace seqCommits c s ∧
      seqTrace seqRetired k s ++ memoryRetires (beforeMemory (ticks t s)) = seqTrace seqRetired c s)
    (haccess : seqTrace seqAccesses a s ++ tickAccesses (ticks t s) = seqTrace seqAccesses a' s) : Traced s (t + 1) c a' :=
  { commits := by rw [tickTrace_succ_last, ht.commits, hcommit, hmemory.1]
    retired := by rw [tickTrace_succ_last, ht.retired, tickRetired_eq, ← List.append_assoc, hretire, hmemory.2]
    accesses := by rw [tickTrace_succ_last, ht.accesses, haccess] }

/-- At the last step's place the events are the whole run's. -/
theorem Traced.of_ends {k : Nat} (ht : Traced s t k k) (hr : (seqRun k s).run = .running)
    (h : (seqRun (k + 1) s).run ≠ .running) : Traced s t (k + 1) (k + 1) := by
  obtain ⟨ha, hc, hret⟩ := seqTraces_of_ends hr h
  exact ⟨ht.commits.trans hc.symm, ht.retired.trans hret.symm, ht.accesses.trans ha.symm⟩

variable {image : List Word} (hs : Fresh image s)
include hs

/-- The first four steps of a tick: the places move on, though not always, or the run ends. -/
theorem Follows.beforeFetch (h : Follows s w m x d f (ticks t s)) (ht : Traced s t w m) :
    (∃ w' d', Follows s w' x d d' f (Machine.beforeFetch (ticks t s)) ∧ Traced s (t + 1) w' x ∧
        w + m + x + d ≤ w' + x + d + d' ∧ (w + m + x + d = w' + x + d + d' → w' = f)) ∨
      ∃ n ≤ f, Ended s n (Machine.beforeFetch (ticks t s)) ∧ Traced s (t + 1) n n := by
  have hu := beforeMemory_of_running h.run
  have hwritten := h.writeBack hs.fetches
  obtain ⟨hcommit, hretire⟩ := h.writeBackEvents hs.icount
  obtain ⟨hstop, hgo⟩ := beforeFetch_of_running h.run
  have hwm := h.wb.bounds
  have hmx := h.mem.bounds
  have hxd := h.ex.bounds
  have hdf := h.rf.bounds
  by_cases hrun : (ticks t s).afterMemory.run = .running
  · obtain ⟨w', hw, hmem⟩ := hwritten.memoryStep hs.fetches hrun
    have htraced := ht.succ hcommit hretire (hu ▸ hwritten.memoryRetirements hs.icount hrun hw)
      (hwritten.memoryAccesses hu hrun)
    have hle : m ≤ w' ∧ w' ≤ x := by
      obtain ⟨rfl, -⟩ | ⟨rfl, -⟩ := hw <;> omega
    rw [hgo hrun]
    obtain ⟨hstay, hwait⟩ | ⟨rfl, hissued⟩ | ⟨rfl, rfl, hends⟩ := hmem.executeStep.decodeStep hs.fetches hs.icount
    · refine .inl ⟨w', d, ?_, htraced, by omega, fun heq => ?_⟩
      · exact hstay ▸ hmem.executeStep
      · have := hwait (by omega)
        omega
    · exact .inl ⟨w', d + 1, hissued, htraced, by omega, fun heq => by omega⟩
    · obtain rfl : x = w' := by omega
      exact .inr ⟨x + 1, Nat.le_refl _, hends, htraced.of_ends hmem.alive hends.ended⟩
  · obtain ⟨rfl, hends⟩ := hwritten.memoryStep_ends hs.fetches hs.icount hs.run hrun
    obtain ⟨ha, hr⟩ := hwritten.memoryEvents_of_ends hu hrun
    rw [hstop hrun]
    refine .inr ⟨m + 1, by omega, hends, Traced.of_ends ?_ h.alive hends.ended⟩
    exact ht.succ hcommit hretire ⟨rfl, by rw [hu, hr, List.append_nil]⟩ (by rw [ha, List.append_nil])

variable (hcode : s.NoStoreIntoCode)
include hcode

/-- A tick moves the places on, or ends the run. -/
theorem Follows.tick (h : Follows s w m x d f (ticks t s)) (ht : Traced s t w m) (hf : FetchTraced s t f) :
    (∃ w' m' x' d' f', Follows s w' m' x' d' f' (ticks (t + 1) s) ∧ Traced s (t + 1) w' m' ∧ FetchTraced s (t + 1) f' ∧
        w + m + x + d + f < w' + m' + x' + d' + f') ∨
      ∃ n, Ended s n (ticks (t + 1) s) ∧ Traced s (t + 1) n n ∧ FetchTraced s (t + 1) n := by
  rw [ticks_succ_last, tick_eq_fetch]
  obtain ⟨w', d', hb, htraced, hle, hwait⟩ | ⟨n, hle, hends, htraced⟩ := h.beforeFetch hs ht
  · rw [whileRunning_of_eq hb.run]
    obtain ⟨hno, hstay, hne⟩ | ⟨hmade, hfetched⟩ | ⟨hno, rfl, hnofetch, hends⟩ := hb.fetchStep hs hcode
    · refine .inl ⟨w', x, d, d', f, by rwa [hstay], htraced, hf.of_no_fetch (if_neg fun hc => hno hc.2), ?_⟩
      have := fun heq => hne (hwait heq)
      omega
    · have hfetch : tickFetches (ticks t s) =
          [((Machine.beforeFetch (ticks t s)).pc, (fetchWord (Machine.beforeFetch (ticks t s))).1)] :=
        if_pos ⟨hb.run, hmade⟩
      refine .inl ⟨w', x, d, d', f + 1, hfetched, htraced, ?_, by omega⟩
      have hlive := hb.live
      have hrf := hfetched.rf
      rw [hmade.fetchStep_eq] at hrf
      obtain ⟨hd, hword⟩ := hrf
      obtain rfl : f = d' := by omega
      obtain hrun | hdata := hlive
      · obtain ⟨hpc, hfetches⟩ := hb.fetches_of_fetch hmade hs.fetches hs.run hrun
        refine hf.of_fetch hrun ?_
        rw [hfetch, hpc, (hword hrun).2, seqFetches, seqFetched_of_fetches hfetches]
        rfl
      · exact hf.of_fetch_ahead hdata
    · obtain ⟨rfl, rfl, rfl⟩ := hb.places_of_done
      exact .inr ⟨_, hends, htraced.of_ends hb.alive hends.ended,
        (hf.of_no_fetch (if_neg fun hc => hno hc.2)).of_end hb.alive hnofetch⟩
  · have hended : (Machine.beforeFetch (ticks t s)).run ≠ .running := by
      rw [hends.run]
      exact hends.ended
    rw [whileRunning_of_ne hended]
    refine .inr ⟨n, hends, htraced, ?_⟩
    exact (hf.of_no_fetch (if_neg fun hc => hended hc.1)).of_ended hends.ended hle

end Ticks

/-! ### Any number of ticks -/

/-- After `t` ticks: on the way, with at least `t` moves made, or at the end. -/
def Tracks (s : State) (t : Nat) : Prop :=
  (∃ w m x d f, Follows s w m x d f (ticks t s) ∧ Traced s t w m ∧ FetchTraced s t f ∧ t ≤ w + m + x + d + f) ∨
    ∃ n, Ended s n (ticks t s) ∧ Traced s t n n ∧ FetchTraced s t n

section Tracks

variable {s : State} {image : List Word} (hs : Fresh image s)
include hs

theorem Fresh.follows : Follows s 0 0 0 0 0 s := by
  obtain ⟨hrf, hex, hmem, hwb⟩ := hs.slots
  exact
    { inv := hs.inv
      run := hs.run
      params := rfl
      icount := hs.icount
      fetches := hs.fetches
      banks := ⟨rfl, rfl⟩
      memory := ⟨rfl, rfl, rfl, rfl, rfl⟩
      alive := hs.run
      live := .inl hs.run
      wb := by rw [hwb]; rfl
      mem := by rw [hmem]; rfl
      ex := by rw [hex]; rfl
      rf := by rw [hrf]; rfl
      alike := by
        rw [aheadOf_of_running hs.fetches (k := 0) hs.run]
        exact FetchAlike.refl s
      pcDone := fun _ => rfl
      pcNext := fun h => absurd h (Nat.lt_irrefl 0)
      bytes := fun _ _ hz _ => hz
      lines := fun _ _ => rfl }

theorem Fresh.tracks (hcode : s.NoStoreIntoCode) (t : Nat) : Tracks s t := by
  induction t with
  | zero => exact .inl ⟨0, 0, 0, 0, 0, hs.follows, ⟨rfl, rfl, rfl⟩, ⟨[], rfl, fun h => absurd rfl h⟩, Nat.le_refl 0⟩
  | succ t ih =>
    obtain ⟨w, m, x, d, f, h, ht, hf, hle⟩ | ⟨n, h, ht, hf⟩ := ih
    · obtain ⟨w', m', x', d', f', h', ht', hf', hlt⟩ | hends := h.tick hs hcode ht hf
      · exact .inl ⟨w', m', x', d', f', h', ht', hf', by omega⟩
      · exact .inr hends
    · have hended : (ticks t s).run ≠ .running := by
        rw [h.run]
        exact h.ended
      obtain ⟨hnone, ha, hc, hr⟩ := tickEvents_ended hended
      refine .inr ⟨n, ?_, ⟨?_, ?_, ?_⟩, hf.of_no_fetch hnone⟩
      · rwa [ticks_succ_last, tick_of_ended hended]
      · rw [tickTrace_succ_last, hc, List.append_nil, ht.commits]
      · rw [tickTrace_succ_last, hr, List.append_nil, ht.retired]
      · rw [tickTrace_succ_last, ha, List.append_nil, ht.accesses]

end Tracks

end Sys2Proof.Machine

/-! Log 20: the premise of 50_pipeline.md R361 alone does not make the instruction caches equal, line bytes included. -/

namespace Sys2Proof.Machine

/-! ### A line filled before and after a store's write-back -/

/-- Two stores, the second of which evicts the first's line from the data cache, and a word that selects no instruction. That
word's line holds the first store's word too: the engine fills it before the eviction, the reference after. -/
def evictedStoreImage : List Word := [encode (.sw 0 0 0xC), encode (.sw 0 0 0x4C), 0, 7]

def evictedStoreParams : Params := { memSize := 256, dc := ⟨4, 1, 4⟩, ic := ⟨16, 2, 8⟩ }

def evictedStore : State := State.resetWith evictedStoreParams (loadImage [] 0 evictedStoreImage)

theorem run_seqRun_evictedStore : (seqRun 3 evictedStore).run = .fatal (.unrecognizedOpcode 0 8) := by decide +kernel

/-- A step that stores makes the access of the instruction it fetches. -/
theorem State.StoresAt.dataAccess_eq {s : State} {a : Word} {n : Nat} (h : s.StoresAt a n) {i : Instr}
    (hi : decodeBytes (s.fetchBytes s.pc.toNat) = (.instr i, [])) : dataAccess i s = some (a, n) := by
  obtain ⟨j, ⟨-, hj⟩, -, haccess⟩ := h
  cases hi.symm.trans hj
  exact haccess

theorem evictedStore_noStoreIntoCode : evictedStore.NoStoreIntoCode := by
  intro j k a n hjk hstore hfetch
  have hended : (seqRun 3 evictedStore).run ≠ .running := by
    rw [run_seqRun_evictedStore]
    nofun
  have hk : k < 3 := by
    by_contra hk
    rw [seqRun_eq_of_ended hended (by omega)] at hfetch
    exact hended hfetch.1
  have hpc : (seqRun k evictedStore).pc.toNat ≤ 8 := by
    obtain rfl | rfl : k = 1 ∨ k = 2 := by omega
    all_goals decide +kernel
  have haddr : a = 0xC ∨ a = 0x4C := by
    obtain rfl | rfl : j = 0 ∨ j = 1 := by omega
    · have hd : dataAccess (.sw 0 0 0xC) (seqRun 0 evictedStore) = some (0xC, 4) := by decide +kernel
      cases hd.symm.trans (hstore.dataAccess_eq (by decide +kernel))
      exact .inl rfl
    · have hd : dataAccess (.sw 0 0 0x4C) (seqRun 1 evictedStore) = some (0x4C, 4) := by decide +kernel
      cases hd.symm.trans (hstore.dataAccess_eq (by decide +kernel))
      exact .inr rfl
  have hle : 12 ≤ a.toNat := by obtain rfl | rfl := haddr <;> decide
  exact .inr (by omega)

/-- The word at `0xC` is 7 in the engine's line and 0 in the reference's. -/
theorem not_instructionCachesEndEqual : ¬ InstructionCachesEndEqual := by
  intro h
  have hbytes : (ticks 6 evictedStore).ic ≠ (seqRun 3 evictedStore).ic := by decide +kernel
  refine hbytes (h evictedStoreParams evictedStoreImage evictedStore 6 3 rfl evictedStore_noStoreIntoCode ?_ ?_ ?_)
  · decide +kernel
  · rw [run_seqRun_evictedStore]
    nofun
  · rw [run_seqRun_evictedStore]
    rintro ⟨a, ha | ha⟩ <;> cases ha

end Sys2Proof.Machine

/-! The engine and the reference (50_pipeline.md R344, R361): the clauses of R361, from what any number of ticks gives. -/

namespace Sys2Proof.Machine

/-! ### Ends -/

section Ends

variable {s e : State} {n : Nat}

/-- Any ended place of the run serves. -/
theorem Ended.of_ended {k : Nat} (h : Ended s k e) (hn : (seqRun n s).run ≠ .running) : Ended s n e := by
  have hsame : seqRun n s = seqRun k s ∧ seqTrace seqAccesses n s = seqTrace seqAccesses k s := by
    obtain hle | hle := Nat.le_total k n
    · exact ⟨seqRun_eq_of_ended h.ended hle, seqTrace_of_ended _ (seqEvents_ended h.ended).2.1 h.ended hle⟩
    · exact ⟨(seqRun_eq_of_ended hn hle).symm, (seqTrace_of_ended _ (seqEvents_ended hn).2.1 hn hle).symm⟩
  obtain ⟨hrun, htrace⟩ := hsame
  obtain ⟨h1, h2, h3, h4, h5, h6, h7, h8⟩ := h
  rw [← hrun] at h1 h2 h3 h4 h6 h7 h8
  rw [← htrace] at h5
  exact ⟨h1, h2, h3, h4, h5, h6, h7, h8⟩

theorem Ended.run_ne (h : Ended s n e) : e.run ≠ .running := by
  rw [h.run]
  exact h.ended

/-- Unless a data access was fatal, nothing is ahead. -/
theorem Ended.front_same (h : Ended s n e) (hno : ¬ (seqRun n s).run.IsDataFault) :
    e.pc = (seqRun n s).pc ∧ e.icAccesses = (seqRun n s).icAccesses ∧ FetchAlike e (seqRun n s) := by
  obtain ⟨k, -, hk, haccesses, hpc, halike⟩ := h.front
  obtain rfl : k = 0 := by
    by_contra hne
    exact hno (hk hne)
  exact ⟨hpc.trans (BitVec.add_zero _), haccesses, halike⟩

theorem Fresh.fetchByte_of_ended {image : List Word} (hs : Fresh image s) (h : Ended s n e) (a : Nat)
    (havoids : ∀ c ∈ seqTrace seqAccesses n s, c.Avoids a 1) : e.fetchByte a = (seqRun n s).fetchByte a :=
  (h.bytes _ a (hs.pristine a) havoids).fetched.trans (pristine_seqRun hs.inv.base (hs.pristine a) havoids).fetched.symm

end Ends

/-! ### Numbers of fetches -/

section Counts

variable {s : State} {image : List Word} (hs : Fresh image s)
include hs

/-- The reference counts its fetches. -/
theorem Fresh.length_seqFetches (n : Nat) : (seqTrace seqFetches n s).length = (seqRun n s).icAccesses := by
  induction n with
  | zero => exact hs.fetches.symm
  | succ n ih =>
    by_cases hr : (seqRun n s).run = .running
    · rw [seqTrace_succ _ hr, List.length_append, ih]
      by_cases hf : (seqRun n s).Fetches
      · rw [icAccesses_step hf (step_seqRun hr), seqFetches, seqFetched_of_fetches hf]
        rfl
      · have hkeep : (seqRun (n + 1) s).icAccesses = (seqRun n s).icAccesses := by
          obtain ⟨-, hn⟩ | ⟨hg, ⟨c, -, hn⟩ | ⟨hc, -⟩⟩ := step_cases hr
          · rw [seqRun_succ_of_step hn]
          · rw [seqRun_succ_of_step hn]
            rfl
          · exact absurd ⟨hr, hg, fetchCheck_eq_none.1 hc⟩ hf
        rw [hkeep, seqFetches, seqFetched_of_not_fetches hf]
        rfl
    · rw [seqTrace_of_ended _ (seqEvents_ended hr).1 hr n.le_succ, ih, seqRun_eq_of_ended hr n.le_succ]

theorem Fresh.length_tickFetches (t : Nat) : (tickTrace tickFetches t s).length = (ticks t s).icAccesses := by
  rw [(ticks_counters t s).1, hs.fetches, Nat.zero_add]

/-- At most two fetches are ahead of a fatal access that is still to come. -/
theorem Follows.fetches_le {w m x d f : Nat} {e : State} (h : Follows s w m x d f e) (hdata : (seqRun f s).run.IsDataFault) :
    f ≤ (seqRun f s).icAccesses + 2 := by
  obtain ⟨k, -, i, hi, -, hstep⟩ := exists_data_fault_step hs.run hdata
  have hlast := seqRun_succ_of_step hstep
  have hmk : m ≤ k := by
    by_contra hlt
    have hended : (seqRun (k + 1) s).run ≠ .running := by
      rw [hlast]
      exact isDataFault_ne_running hdata
    rw [← seqRun_eq_of_ended hended (by omega : k + 1 ≤ m)] at hended
    exact hended h.alive
  have hmx := h.mem.bounds
  have hxd := h.ex.bounds
  have hdf := h.rf.bounds
  rw [← hlast, icAccesses_seqRun_succ hs.fetches hi.fetches]
  omega

end Counts

/-! ### The clauses of R361 -/

section Clauses

variable {s : State} {image : List Word} (hs : Fresh image s) (hcode : s.NoStoreIntoCode)
include hs hcode

theorem Fresh.seqFetches_atReset (n : Nat) : ∀ f ∈ seqFetches (seqRun n s), FetchedAtReset image (seqRun n s).mem f := by
  intro f hf
  by_cases hfetches : (seqRun n s).Fetches
  · rw [seqFetches, seqFetched_of_fetches hfetches] at hf
    obtain rfl := List.mem_singleton.1 hf
    exact hs.fetchedAtReset_reference hcode hfetches
  · rw [seqFetches, seqFetched_of_not_fetches hfetches] at hf
    cases hf

/-- A fetch of the engine's returns the image's word, but for a word stored to ahead of a fatal access. -/
theorem Fresh.tickFetches_atReset (t : Nat) :
    ∀ f ∈ tickFetches (ticks t s), FetchedAtReset image (beforeFetch (ticks t s)).mem f ∨
      ((∃ n, (seqRun n s).run.IsDataFault) ∧ ∃ c ∈ tickTrace tickAccesses (t + 1) s, ¬ c.Avoids f.1.toNat 4) := by
  intro g hg
  have hmade : (beforeFetch (ticks t s)).run = .running ∧ (beforeFetch (ticks t s)).MakesFetch := by
    by_contra hno
    rw [show tickFetches (ticks t s) = [] from if_neg hno] at hg
    cases hg
  have hfetch : tickFetches (ticks t s) = [((beforeFetch (ticks t s)).pc, (fetchWord (beforeFetch (ticks t s))).1)] :=
    if_pos hmade
  rw [hfetch] at hg
  obtain rfl := List.mem_singleton.1 hg
  obtain ⟨w, m, x, d, f, h, ht, -, -⟩ | ⟨n, h, -⟩ := hs.tracks hcode t
  · obtain ⟨w', d', hb, htraced, -⟩ | ⟨n, -, h, -⟩ := h.beforeFetch hs ht
    · have hlive := hb.live
      rw [hb.decoded_of_fetch hmade.2] at hlive
      obtain hrun | hdata := hlive
      · obtain ⟨hpc, hfetches⟩ := hb.fetches_of_fetch hmade.2 hs.fetches hs.run hrun
        exact .inl (hs.fetchedAtReset_engine hcode hb (hb.mem.bounds.1.trans (hb.ex.bounds.1.trans hb.rf.bounds.1)) hfetches hpc)
      · by_cases havoids : ∀ c ∈ tickTrace tickAccesses (t + 1) s, c.Avoids (beforeFetch (ticks t s)).pc.toNat 4
        · rw [htraced.accesses] at havoids
          exact .inl (hs.fetchedAtReset hb.inv.base.params (fetchCheck_eq_none.1 hmade.2.2.2).1
            (hs.pristine_engine hb havoids))
        · push Not at havoids
          exact .inr ⟨⟨f, hdata⟩, havoids⟩
    · exact absurd hmade.1 h.run_ne
  · rw [beforeFetch_ended h.run_ne] at hmade
    exact absurd hmade.1 h.run_ne

/-- No access younger than a fetch has been made before it: each is of a step fetched before. -/
theorem Fresh.tickAccesses_prefix (t : Nat) :
    tickTrace tickAccesses (t + 1) s <+: seqTrace seqAccesses (tickTrace tickFetches t s).length s := by
  have running : ∀ t, (ticks t s).run = .running →
      tickTrace tickAccesses (t + 1) s <+: seqTrace seqAccesses (tickTrace tickFetches t s).length s := fun t hr => by
    obtain ⟨w, m, x, d, f, h, ht, -, -⟩ | ⟨n, h, -⟩ := hs.tracks hcode t
    · rw [hs.length_tickFetches, h.fetches]
      obtain ⟨w', d', hb, htraced, -⟩ | ⟨n, hn, -, htraced⟩ := h.beforeFetch hs ht <;> rw [htraced.accesses]
      · exact seqTrace_prefix _ (hb.mem.bounds.1.trans (hb.ex.bounds.1.trans hb.rf.bounds.1)) s
      · exact seqTrace_prefix _ hn s
    · exact absurd hr h.run_ne
  induction t with
  | zero => exact running 0 hs.run
  | succ t ih =>
    by_cases hr : (ticks (t + 1) s).run = .running
    · exact running (t + 1) hr
    · rw [tickTrace_succ_last, (tickEvents_ended hr).2.1, List.append_nil]
      exact ih.trans (seqTrace_prefix _ (tickTrace_prefix tickFetches t.le_succ s).length_le s)

/-- Any place of the reference's run is reached, or the run ends. -/
theorem Fresh.reaches (n : Nat) :
    (∃ w m x d f, Follows s w m x d f (ticks (5 * n + 10) s) ∧ Traced s (5 * n + 10) w m ∧
        FetchTraced s (5 * n + 10) f ∧ n ≤ w ∧ n ≤ m ∧ n ≤ f) ∨
      ∃ k, Ended s k (ticks (5 * n + 10) s) ∧ Traced s (5 * n + 10) k k ∧ FetchTraced s (5 * n + 10) k := by
  obtain ⟨w, m, x, d, f, h, ht, hf, hle⟩ | hends := hs.tracks hcode (5 * n + 10)
  · have hwm := h.wb.bounds
    have hmx := h.mem.bounds
    have hxd := h.ex.bounds
    have hdf := h.rf.bounds
    exact .inl ⟨w, m, x, d, f, h, ht, hf, by omega, by omega, by omega⟩
  · exact .inr hends

end Clauses

/-- A trace up to a place reached, or up to the end, begins with that of any earlier or later place. -/
theorem seqTrace_prefix_of_reached {α : Type} {f : State → List α} (hf : ∀ u : State, u.run ≠ .running → f u = [])
    {s : State} {n k : Nat} (h : n ≤ k ∨ (seqRun k s).run ≠ .running) : seqTrace f n s <+: seqTrace f k s := by
  obtain hle | hle := Nat.le_total n k
  · exact seqTrace_prefix f hle s
  · obtain hnk | hended := h
    · exact seqTrace_prefix f hnk s
    · rw [seqTrace_of_ended f (hf _ hended) hended hle]

section Clauses

variable {s : State} {image : List Word} (hs : Fresh image s) (hcode : s.NoStoreIntoCode)
include hs hcode

/-- The two levels commit, retire and access the same. -/
theorem Fresh.sameSequences :
    SameSequence (fun n => seqTrace seqAccesses n s) (fun t => tickTrace tickAccesses t s) ∧
      SameSequence (fun n => seqTrace seqCommits n s) (fun t => tickTrace tickCommits t s) ∧
      SameSequence (fun n => seqTrace seqRetired n s) (fun t => tickTrace tickRetired t s) := by
  have hto : ∀ n, ∃ t c a, Traced s t c a ∧ (n ≤ c ∨ (seqRun c s).run ≠ .running) ∧
      (n ≤ a ∨ (seqRun a s).run ≠ .running) := fun n => by
    obtain ⟨w, m, x, d, f, -, ht, -, hw, hm, -⟩ | ⟨k, h, ht, -⟩ := hs.reaches hcode n
    · exact ⟨_, w, m, ht, .inl hw, .inl hm⟩
    · exact ⟨_, k, k, ht, .inr h.ended, .inr h.ended⟩
  have hfrom : ∀ t, ∃ c a, Traced s t c a := fun t => by
    obtain ⟨w, m, x, d, f, -, ht, -⟩ | ⟨k, -, ht, -⟩ := hs.tracks hcode t
    · exact ⟨w, m, ht⟩
    · exact ⟨k, k, ht⟩
  refine ⟨⟨fun n => ?_, fun t => ?_⟩, ⟨fun n => ?_, fun t => ?_⟩, fun n => ?_, fun t => ?_⟩
  · obtain ⟨t, c, a, ht, -, ha⟩ := hto n
    exact ⟨t, by simpa only [ht.accesses] using seqTrace_prefix_of_reached (fun u hu => (seqEvents_ended hu).2.1) ha⟩
  · obtain ⟨c, a, ht⟩ := hfrom t
    exact ⟨a, by simp only [ht.accesses, List.prefix_rfl]⟩
  · obtain ⟨t, c, a, ht, hc, -⟩ := hto n
    exact ⟨t, by simpa only [ht.commits] using seqTrace_prefix_of_reached (fun u hu => (seqEvents_ended hu).2.2.1) hc⟩
  · obtain ⟨c, a, ht⟩ := hfrom t
    exact ⟨c, by simp only [ht.commits, List.prefix_rfl]⟩
  · obtain ⟨t, c, a, ht, hc, -⟩ := hto n
    exact ⟨t, by simpa only [ht.retired] using seqTrace_prefix_of_reached (fun u hu => (seqEvents_ended hu).2.2.2) hc⟩
  · obtain ⟨c, a, ht⟩ := hfrom t
    exact ⟨c, by simp only [ht.retired, List.prefix_rfl]⟩

/-- The engine makes all fetches of the reference. -/
theorem Fresh.seqFetches_prefix (n : Nat) : ∃ t, seqTrace seqFetches n s <+: tickTrace tickFetches t s := by
  have hto : ∃ t f, FetchTraced s t f ∧ (n ≤ f ∨ (seqRun f s).run ≠ .running) := by
    obtain ⟨w, m, x, d, f, -, -, hf, -, -, hn⟩ | ⟨k, h, -, hf⟩ := hs.reaches hcode n
    · exact ⟨_, f, hf, .inl hn⟩
    · exact ⟨_, k, hf, .inr h.ended⟩
  obtain ⟨t, f, ⟨ahead, htrace, -⟩, hf⟩ := hto
  refine ⟨t, ?_⟩
  rw [htrace]
  exact (seqTrace_prefix_of_reached (fun u hu => (seqEvents_ended hu).1) hf).trans (List.prefix_append _ _)

/-- And at most two more, ahead of a fatal access. -/
theorem Fresh.tickFetches_prefix (t : Nat) :
    ∃ n ahead, tickTrace tickFetches t s <+: seqTrace seqFetches n s ++ ahead ∧ ahead.length ≤ 2 ∧
      (ahead ≠ [] → (seqRun n s).run.IsDataFault) := by
  have hbound : ∃ n, FetchTraced s t n ∧
      ((seqRun n s).run.IsDataFault → (ticks t s).icAccesses ≤ (seqRun n s).icAccesses + 2) := by
    obtain ⟨w, m, x, d, f, h, -, hf, -⟩ | ⟨n, h, -, hf⟩ := hs.tracks hcode t
    · refine ⟨f, hf, fun hdata => ?_⟩
      rw [h.fetches]
      exact h.fetches_le hs hdata
    · refine ⟨n, hf, fun _ => ?_⟩
      obtain ⟨k, hk, -, haccesses, -⟩ := h.front
      omega
  obtain ⟨n, ⟨ahead, htrace, hahead⟩, hle⟩ := hbound
  refine ⟨n, ahead, by rw [htrace], ?_, hahead⟩
  by_cases hne : ahead = []
  · rw [hne]
    exact Nat.zero_le 2
  · have hlength := congrArg List.length htrace
    rw [List.length_append, hs.length_seqFetches, hs.length_tickFetches] at hlength
    have := hle (hahead hne)
    omega

/-- One level ends if the other does. -/
theorem Fresh.ends_iff : (∃ t, (ticks t s).run ≠ .running) ↔ ∃ n, (seqRun n s).run ≠ .running := by
  refine ⟨fun ⟨t, ht⟩ => ?_, fun ⟨n, hn⟩ => ?_⟩
  · obtain ⟨w, m, x, d, f, h, -⟩ | ⟨n, h, -⟩ := hs.tracks hcode t
    · exact absurd h.run ht
    · exact ⟨n, h.ended⟩
  · obtain ⟨w, m, x, d, f, h, -, -, -, hm, -⟩ | ⟨k, h, -⟩ := hs.reaches hcode n
    · exact absurd (running_of_le h.alive hm) hn
    · exact ⟨_, h.run_ne⟩

theorem Fresh.ended {t n : Nat} (ht : (ticks t s).run ≠ .running) (hn : (seqRun n s).run ≠ .running) :
    Ended s n (ticks t s) := by
  obtain ⟨w, m, x, d, f, h, -⟩ | ⟨k, h, -⟩ := hs.tracks hcode t
  · exact absurd h.run ht
  · exact h.of_ended hn

end Clauses

/-- Settles O57: the engine goes through the places of the reference's run. -/
theorem engineMatchesTheReference : Obligations.EngineMatchesTheReference := by
  refine ⟨fun p image s hcons hcode => ?_, not_instructionCachesEndEqual⟩
  have hs := fresh_of_construct hcons
  obtain ⟨haccesses, hcommits, hretired⟩ := hs.sameSequences hcode
  refine ⟨hs.seqFetches_atReset hcode, hs.tickFetches_atReset hcode, hs.tickAccesses_prefix hcode, haccesses, hcommits,
    hretired, hs.seqFetches_prefix hcode, hs.tickFetches_prefix hcode, hs.ends_iff hcode, fun t n ht hn => ?_⟩
  have h := hs.ended hcode ht hn
  obtain ⟨hx, hf⟩ := h.banks
  have hmem := h.memory
  refine ⟨h.run, fun i => by simp only [State.readX, hx], fun i => by simp only [State.readF, hf], hmem.archMem, hmem.mem,
    hmem.dc, hmem.accesses, hmem.hits, hs.fetchByte_of_ended h, fun hno => ?_, fun _ => ?_⟩
  · obtain ⟨hpc, hcount, halike⟩ := h.front_same hno
    exact ⟨hpc, h.icount.2.2 hno, halike.tags, hcount, halike.hits, halike.addr, halike.count, fun hl => h.lines hl hno⟩
  · obtain ⟨k, hk, -, hcount, hpc, halike⟩ := h.front
    exact ⟨⟨h.icount.1, h.icount.2.1⟩, k, hk, hcount, hpc, halike.tags, halike.hits, halike.addr, halike.count⟩

end Sys2Proof.Machine
